-- ==== Sys2Proof/Word.lean ====
section
/-! DEFINITION. The plain value types of the EJ2416: bytes, addresses, lines, trunks, tags, and tables of fixed size. -/

namespace Sys2Proof

/-- One byte of the order port. -/
abbrev Byte := BitVec 8
/-- A station address, 0 to 23 (00_scope.md 1.5). -/
abbrev Addr := Fin 24
/-- A slot number, 0 to 23: slot k belongs to the station of address k (02 3.1). -/
abbrev Slot := Fin 24
/-- A line of the card, L0 to L31. -/
abbrev Line := Fin 32
/-- A trunk of the backplane, T0 to T15. -/
abbrev Trunk := Fin 16
/-- A route tag, 0 to 15. -/
abbrev Tag := Fin 16
/-- A route generation, 0 to 7. -/
abbrev Gen := Fin 8
/-- A crosspoint number, 0 to 511 (R1). -/
abbrev Xp := Fin 512
/-- A set of trunks: bit t is 1 when Tt is in the set. -/
abbrev TrunkSet := BitVec 16
/-- A set of station addresses: bit n is 1 when station n is in the set. -/
abbrev AddrSet := BitVec 24
/-- A set of route tags. -/
abbrev TagSet := BitVec 16
/-- The bits 0 to 399 of a slot, bit 0 (the first on the link) the most significant (R23). -/
abbrev FrameBits := BitVec 400
/-- One 40-bit message place, its bit 0 the most significant (R27). -/
abbrev MsgBits := BitVec 40
/-- The 528 bits of one pass on DOUT or SIN, the first shifted the most significant (R147). -/
abbrev PassBits := BitVec 528
/-- One bit for each crosspoint, bit n for crosspoint n (R146). -/
abbrev Image := BitVec 512

/-- A table of exactly `n` cells: a list that carries the proof of its length. -/
structure Table (n : Nat) (α : Type) where
  cells : List α
  size_eq : cells.length = n
deriving DecidableEq, Repr

namespace Table

variable {n : Nat} {α β : Type}

/-- The cell at index `i`. -/
def get (t : Table n α) (i : Fin n) : α :=
  t.cells[i.val]'(by rw [t.size_eq]; exact i.isLt)

/-- The table with the cell at `i` replaced. -/
def set (t : Table n α) (i : Fin n) (x : α) : Table n α :=
  ⟨t.cells.set i.val x, by rw [List.length_set, t.size_eq]⟩

/-- The table with the cell at `i` changed by `f`. -/
def modify (t : Table n α) (i : Fin n) (f : α → α) : Table n α :=
  t.set i (f (t.get i))

/-- Every cell changed by `f`, which also sees the cell's index. -/
def mapIdx (t : Table n α) (f : Fin n → α → β) : Table n β :=
  ⟨List.zipWith f (List.finRange n) t.cells, by
    rw [List.length_zipWith, List.length_finRange, t.size_eq, Nat.min_self]⟩

/-- The table whose cell `i` is `f i`. -/
def tabulate (n : Nat) (f : Fin n → α) : Table n α :=
  ⟨(List.finRange n).map f, by rw [List.length_map, List.length_finRange]⟩

/-- The table with the same value in every cell. -/
def fill (n : Nat) (x : α) : Table n α :=
  ⟨List.replicate n x, List.length_replicate⟩

end Table

end Sys2Proof
end

