-- ==== Sys2Proof/Syntax.lean ====
section
/-! DEFINITION. The commands of the EJ2416, one constructor of `Instr` for each row of spec/opcode_table.json,
and the coded values that the commands carry. -/

namespace Sys2Proof

/-- The use of one route entry across the matrix: origin station, tag and generation (R80). -/
structure RouteRef where
  origin : Addr
  tag : Tag
  gen : Gen
deriving DecidableEq, Repr

/-- What a job or a request does to its crosspoint (Table 3-4). -/
inductive Action where
  | close
  | opn
  | forceOpen
deriving DecidableEq, Repr

/-- The quiet input that guards a line, or NONE (R4, Table 3-4). -/
inductive QuietIndex where
  | q0
  | q1
  | q2
  | q3
  | none
deriving DecidableEq, Repr

/-- The result codes of Table 3-4, in the order of their codes. -/
inductive ResultCode where
  | closed
  | closedWorn
  | armed
  | opened
  | hot
  | verify
  | retired
  | lineTaken
  | notHeld
  | busy
  | fault
  | cancelled
  | dropped
deriving DecidableEq, Repr

/-- Who takes a cycle mark, or another event that falls on the same LCLK edge (R22).
The order of a list of these is the order in which they are taken (log 5). -/
inductive MarkTaker where
  /-- the TTU, with the STC's listening count (R55, R73, R166, R167) -/
  | ttu
  /-- the RTE's reply timers (R98) -/
  | rte
  /-- the JBU's hot-wait counters and sweep timer (R138, R143) -/
  | jbu
  /-- the slot boundary of slot 0, with its sample of TRIG (R125) -/
  | boundary (trig : Bool)
  /-- the own slot start of station 0 (R30) -/
  | ownStart
deriving DecidableEq, Repr

/-- A byte as the port samples it on SDI (R172), with the strap pins as they stand at its last bit: a RESTART that the
byte completes reads them (R161, R163). -/
structure SampledByte where
  byte : Byte
  straps : Fin 32
deriving DecidableEq, Repr

/-- A command: an event of the part, whole and indivisible. The name after each dash is the row's mnemonic. -/
inductive Instr where
  /-- POWER_ON_RESET: power applied or RESET deasserted, with the strap pins and the quiet inputs as they stand -/
  | powerOnReset (straps : Fin 32) (quiet : BitVec 4)
  /-- CYCLE_MARK: LMARK sampled asserted, `lclk` periods of LCLK after the mark before it -/
  | cycleMark (lclk : Nat) (order : List MarkTaker)
  /-- SLOT_BOUNDARY: bit 0 of slot `slot`, with TRIG as sampled there -/
  | slotBoundary (slot : Slot) (trig : Bool)
  /-- OWN_SLOT_START: bit 0 of the own slot -/
  | ownSlotStart
  /-- FRAME_END: bit 400 of slot `slot`, with the bits 0 to 399 as this station read them -/
  | frameEnd (slot : Slot) (bits : FrameBits)
  /-- CLAIM dispatched from a good frame of `sender` -/
  | claim (sender : Addr) (trunk : Trunk) (tag : Tag) (gen : Gen) (leg : Fin 4)
  /-- RELEASE dispatched from a good frame of `sender` -/
  | release (sender : Addr) (trunk : Trunk)
  /-- QUARANTINE dispatched from a good frame of `sender` -/
  | quarantine (sender : Addr) (trunk : Trunk)
  /-- OPERATE dispatched from a good frame of `sender` -/
  | operate (sender target : Addr) (line : Line) (trunk : Trunk) (action : Action) (tag : Tag) (gen : Gen)
      (quiet : QuietIndex) (armed : Bool)
  /-- RESULT dispatched from a good frame of `sender`, or a local result when `sender` is this station -/
  | result (sender target : Addr) (tag : Tag) (gen : Gen) (line : Line) (trunk : Trunk) (code : ResultCode)
  /-- ABANDON dispatched from a good frame of `sender` -/
  | abandon (sender : Addr) (tag : Tag) (gen : Gen)
  /-- PERMIT dispatched from a good frame of `sender` -/
  | permit (sender : Addr) (tag : Tag) (gen : Gen)
  /-- FIRE dispatched from a good frame of `sender` -/
  | fire (sender : Addr) (tag : Tag) (gen : Gen)
  /-- ABSENCE: the missed count of `station` reaches 3 -/
  | absence (station : Addr)
  /-- END_OF_LISTENING: the listening count reaches 2 -/
  | endOfListening
  /-- CLASH: the LIU reports a clash to the STC -/
  | clash
  /-- QUIET_CHANGE: quiet input `q` takes the level `asserted` -/
  | quietChange (q : Fin 4) (asserted : Bool)
  /-- REPLY_TIMER_EXPIRY: the reply timer of the entry of `tag` reaches 0 -/
  | replyTimerExpiry (tag : Tag)
  /-- HOT_WAIT_EXPIRY: the hot-wait counter of the job named reaches 0 -/
  | hotWaitExpiry (ref : RouteRef) (line : Line) (trunk : Trunk) (action : Action)
  /-- SWEEP_TIMER_EXPIRY: the sweep timer reaches 0 -/
  | sweepTimerExpiry
  /-- BATCH_FORMATION -/
  | batchFormation
  /-- DRIVE_PASS_END, with the 528 bits shifted in on SIN -/
  | drivePassEnd (sin : PassBits)
  /-- RELEASE_SETTLE_EXPIRY -/
  | releaseSettleExpiry
  /-- OPERATE_SETTLE_EXPIRY -/
  | operateSettleExpiry
  /-- OPEN_SENSE_PASS_END, with the 528 bits shifted in on SIN -/
  | openSensePassEnd (sin : PassBits)
  /-- CLOSE_SENSE_PASS_END, with the 528 bits shifted in on SIN -/
  | closeSensePassEnd (sin : PassBits)
  /-- CHECK_PASS_END, with the 528 bits shifted in on SIN -/
  | checkPassEnd (sin : PassBits)
  /-- CLEAR_SETTLE_EXPIRY -/
  | clearSettleExpiry
  /-- CHECK_PASS_START -/
  | checkPassStart
  /-- HELD_ITEM_ADMISSION -/
  | heldItemAdmission
  /-- REPORT_PLACEMENT -/
  | reportPlacement
  /-- ORDER_RECEIVED: the byte exchanged is the last of an order; `straps` are the strap pins, read by a RESTART -/
  | orderReceived (sdi : Byte) (startedEmpty : Bool) (straps : Fin 32)
  /-- ORDER_CUT_SHORT: the gap count runs out -/
  | orderCutShort
  /-- SELECT_PERIOD_END: SEL rises -/
  | selectPeriodEnd
  /-- REPORT_SHIFTED_OUT: the last byte of the head report has been shifted out -/
  | reportShiftedOut
  /-- CONFIGURE, with the bytes after its length byte -/
  | configure (payload : List Byte)
  /-- WEAR_LOAD -/
  | wearLoad (payload : List Byte)
  /-- WEAR_READ -/
  | wearRead (payload : List Byte)
  /-- JOIN -/
  | join (payload : List Byte)
  /-- ROUTE_MAKE -/
  | routeMake (payload : List Byte)
  /-- ROUTE_BREAK -/
  | routeBreak (payload : List Byte)
  /-- ROUTE_CLEAR -/
  | routeClear (payload : List Byte)
  /-- ROUTE_FIRE -/
  | routeFire (payload : List Byte)
  /-- ROUTE_QUERY -/
  | routeQuery (payload : List Byte)
  /-- TABLE_QUERY -/
  | tableQuery (payload : List Byte)
  /-- STATUS_QUERY -/
  | statusQuery (payload : List Byte)
  /-- ALERT_CLEAR -/
  | alertClear (payload : List Byte)
  /-- CHECK -/
  | check (payload : List Byte)
  /-- RESTART received whole, with the strap pins as they stand -/
  | restart (straps : Fin 32)
  /-- UNKNOWN_ORDER: an order whose code names no order -/
  | unknownOrder (code : Byte) (payload : List Byte)
  /-- RESET_PIN_ASSERTED -/
  | resetPinAsserted
  /-- BEYOND_CYCLE -/
  | beyondCycle
  /-- DRIVE_CONFLICT_DETECTED -/
  | driveConflictDetected
  /-- BYTE_SAMPLED: a byte goes in on SDI and one comes out on SDO; `startedEmpty` says that the report FIFO held no
  report at the start of the byte (R177) -/
  | byteSampled (sdi : SampledByte) (startedEmpty : Bool)
  /-- SELECT_PERIOD_START: SEL falls -/
  | selectPeriodStart
deriving DecidableEq, Repr

end Sys2Proof
end

