-- ==== Sys2Proof/Decode.lean ====
section
/-! DEFINITION. The commands that a word spells by the bits of spec/opcode_table.json. -/

namespace Sys2Proof

/-- No row of the table gives bits ("fixed" is absent and "fields" is empty in every row), so no word spells a
command. -/
def decodeTableWord (_nbits _w : Nat) : Option Instr := none

end Sys2Proof
end

