-- ==== Sys2Proof/Config.lean ====
section
/-! DEFINITION. The constants the spec fixes for the part, and its one free value. -/

namespace Sys2Proof.Config

/-- Places of the outbound queue (R38). -/
def queuePlaces : Nat := 24
/-- Places of the job list (R132). -/
def jobPlaces : Nat := 32
/-- Places of the order FIFO (R175). -/
def orderPlaces : Nat := 8
/-- Places of the report FIFO (R177). -/
def reportPlaces : Nat := 8
/-- Message places of one frame (R25). -/
def framePlaces : Nat := 6
/-- LCLK periods of one link cycle (R21). -/
def cyclePeriods : Nat := 10752
/-- The greatest wear count (R2, R15). -/
def wearMax : Nat := 16777215
/-- The wear a forced sweep adds (R15). -/
def forcedWear : Nat := 256
/-- The marker shifted behind the drive bits (R147). -/
def marker : BitVec 16 := 0x6D2B#16
/-- The greatest length byte of an order (R173). -/
def maxPayload : Nat := 60
/-- The gap count, in periods of the 10 µs timebase (R174). -/
def gapPeriods : Nat := 20
/-- The release exponent of a driver clear at power-on reset, at the RESET pin, and while the configuration record is
unset (R8). -/
def clearExponent : Nat := 10
/-- How many local results and local jobs pass between the RTE and the JBU within one event (log 22). -/
def exchangeBound : Nat := 256
/-- How many orders, batch formations and report placements follow within one event (log 22). -/
def serviceBound : Nat := 64

/-- FREE VALUE (log 11): the tag that a refused ROUTE-MAKE, ROUTE-BREAK or ROUTE-CLEAR names when its payload gives no
tag 0 to 15. The spec states none (R84, R118). `draw` counts the values drawn. -/
opaque unstatedTag (draw : Nat) (code : Byte) (payload : List Byte) : Tag

end Sys2Proof.Config
end

