-- ==== Sys2Proof/Machine/State.lean ====
section
/-! DEFINITION. The state of one EJ2416 as plain data, the reasons a step can stop, and the state right after reset. -/

namespace Sys2Proof.Machine

/-! ## Station Control -/

/-- The station states, in the order of their codes (Table 11-2, 11 12.3). -/
inductive StationState where
  | offline
  | listening
  | joining
  | online
  | fault
  | clash
deriving DecidableEq, Repr

/-- Station Control. -/
structure Stc where
  /-- R162 to R170 -/
  station : StationState
  /-- the strap address read at the last reset or RESTART (R161) -/
  strap : Fin 32
  /-- the listening count of R166, absent until the first cycle mark in LISTENING -/
  listenCount : Option Nat
  /-- a bad frame has been heard in the running cycle (R166) -/
  cycleError : Bool
  /-- the RESET pin is low: every block holds its power-on values and DCLR is held asserted (R162) -/
  resetHeld : Bool
deriving DecidableEq, Repr

/-! ## The link -/

/-- The slot position of R20. -/
inductive Position where
  /-- no cycle mark has been seen -/
  | unknown
  /-- counted past bit 447 of slot 23, no cycle mark yet -/
  | beyond
  /-- slot and bit; `heard` says that bit 0 of this slot fell outside OFFLINE (R22) -/
  | at (slot : Slot) (bit : Nat) (heard : Bool)
deriving DecidableEq, Repr

/-- A link message of Table 3-3. The route ref's origin is the sender of its frame, or for RESULT the target. -/
inductive LinkMsg where
  | claim (trunk : Trunk) (tag : Tag) (gen : Gen) (leg : Fin 4)
  | release (trunk : Trunk)
  | quarantine (trunk : Trunk)
  | operate (target : Addr) (line : Line) (trunk : Trunk) (action : Action) (tag : Tag) (gen : Gen)
      (quiet : QuietIndex) (armed : Bool)
  | result (target : Addr) (tag : Tag) (gen : Gen) (line : Line) (trunk : Trunk) (code : ResultCode)
  | abandon (tag : Tag) (gen : Gen)
  | permit (tag : Tag) (gen : Gen)
  | fire (tag : Tag) (gen : Gen)
deriving DecidableEq, Repr

/-- A trunk entry: its state and, unless FREE, its owner (R42). -/
inductive TrunkEntry where
  | free
  | held (owner : Addr)
  | quarantined (owner : Addr)
  | draining (owner : Addr)
deriving DecidableEq, Repr

/-- The 16 entries of a trunk table or of a snapshot of one. -/
abbrev TrunkTable := Table 16 TrunkEntry

/-- The content of one slot (R23), its messages already read from their places. -/
structure Frame where
  sender : Addr
  stale : Bool
  joining : Bool
  fault : Bool
  snapshot : TrunkTable
  contacts : TrunkSet
  msgs : List LinkMsg
deriving DecidableEq, Repr

/-- One place of the outbound queue (R38). -/
structure QueueItem where
  msg : LinkMsg
  inFlight : Bool
deriving DecidableEq, Repr

/-- The Link Interface Unit. -/
structure Liu where
  pos : Position
  /-- set from own slot start to bit 400 of the own slot (R29) -/
  ownSlot : Bool
  /-- the own frame fixed at the last own slot start (R30) -/
  frame : FrameBits
  /-- a drive conflict has been found in the own slot in progress, and LDATA is released (R30) -/
  garbled : Bool
  /-- the drive-conflict count (R31) -/
  conflicts : Nat
  queue : List QueueItem
  /-- the previous sample of TRIG (R125) -/
  trig : Option Bool
deriving DecidableEq, Repr

/-! ## Membership and the trunk table -/

/-- The states of a membership entry, in the order of their codes (R60). -/
inductive MemberState where
  | unseen
  | present
  | absent
deriving DecidableEq, Repr

/-- A membership entry (Table 5-1). -/
structure Member where
  state : MemberState
  missed : Nat
  fault : Bool
  joining : Bool
  contacts : TrunkSet
  rejoined : Bool
deriving DecidableEq, Repr

/-- The Membership Unit. -/
structure Mbu where
  members : Table 24 Member
deriving DecidableEq, Repr

/-- A sender and the snapshot its header carried (R72). -/
structure Candidate where
  sender : Addr
  snapshot : TrunkTable
deriving DecidableEq, Repr

/-- The Trunk Table Unit. -/
structure Ttu where
  table : TrunkTable
  valid : Bool
  /-- the mismatch counter is 1 (R67) -/
  mismatch : Bool
  stale : Bool
  /-- adoption pending (R70) -/
  pending : Bool
  /-- the recovery record of R72 -/
  watch : Bool
  nonStaleHeard : Bool
  candidate : Option Candidate
  /-- the listening candidate of R72 -/
  listening : Option Candidate
  /-- the trunks the drain rule freed at the last cycle mark (R66, the slot 0 exception) -/
  drained : TrunkSet
deriving DecidableEq, Repr

/-! ## Routes -/

/-- The route states in the order of their codes (Table 6-1, 11 12.3). -/
inductive RouteState where
  | idle
  | planning
  | claiming
  | arming
  | staged
  | closing
  | made
  | opening
  | backingOut
  | clearing
  | quarantined
  | damaged
  | ended
deriving DecidableEq, Repr

/-- The claim statuses of a leg, in the order of their codes (Table 6-3). -/
inductive ClaimStatus where
  | unplanned
  | queued
  | sent
  | won
  | lost
deriving DecidableEq, Repr

/-- The endpoint statuses (Table 7-2). -/
inductive EndpointStatus where
  | idle
  | requested
  | armed
  | closed
  | opn
  | failed (code : ResultCode)
  | cancelled
  | unknown
  | left
deriving DecidableEq, Repr

/-- The reasons of Table 12-4, in the order of their codes. -/
inductive Reason where
  | none
  | badOrder
  | tagInUse
  | busy
  | notOnline
  | peerAbsent
  | peerFault
  | noTrunk
  | hot
  | retired
  | lineTaken
  | notHeld
  | peerBusy
  | verify
  | noReply
  | chain
  | aborted
  | wearWarn
  | dropped
  | stationFault
  | notOffline
  | notConfigured
  | badAddress
deriving DecidableEq, Repr

/-- The outcome classes of Table 7-6, in the order of their codes, and the query mark. -/
inductive OutcomeClass where
  | complete
  | notice
  | refused
  | backedOut
  | stopped
  | indeterminate
  | fault
  | query
deriving DecidableEq, Repr

/-- The order kinds that a route answers (R118), in the order of their codes 1 to 3. -/
inductive OrderKind where
  | make
  | brk
  | clear
deriving DecidableEq, Repr

/-- The request record of R96. -/
structure Request where
  action : Action
  prior : EndpointStatus
deriving DecidableEq, Repr

/-- One endpoint of a leg (Table 6-3). -/
structure Endpoint where
  station : Addr
  line : Line
  quiet : QuietIndex
  status : EndpointStatus
  request : Option Request
deriving DecidableEq, Repr

/-- One leg of a route (Table 6-3); `requested = none` is AUTO. -/
structure Leg where
  requested : Option Trunk
  assigned : Option Trunk
  claim : ClaimStatus
  lost : TrunkSet
  replans : Nat
  endpoints : List Endpoint
deriving DecidableEq, Repr

/-- One endpoint as a ROUTE-REPORT shows it (R118). -/
structure EndpointReport where
  station : Addr
  line : Line
  status : EndpointStatus
deriving DecidableEq, Repr

/-- One leg as a ROUTE-REPORT shows it (R118). -/
structure LegReport where
  requested : Option Trunk
  assigned : Option Trunk
  claim : ClaimStatus
  endpoints : List EndpointReport
deriving DecidableEq, Repr

/-- The content of a ROUTE-REPORT (R118); `kind = none` and class `query` for a ROUTE-QUERY. -/
structure RouteReport where
  tag : Tag
  gen : Gen
  kind : Option OrderKind
  cls : OutcomeClass
  reason : Reason
  residual : Nat
  state : RouteState
  worn : Bool
  peerAbsent : Bool
  legs : List LegReport
deriving DecidableEq, Repr

/-- An order owed an answer, with its report once that is fixed (R119). -/
structure Owed where
  kind : OrderKind
  report : Option RouteReport
deriving DecidableEq, Repr

/-- A route entry (Table 6-2). -/
structure Route where
  state : RouteState
  gen : Gen
  stage : Bool
  avoid : TrunkSet
  legs : List Leg
  timer : Option Nat
  reason : Option Reason
  worn : Bool
  peerAbsent : Bool
  owed : List Owed
deriving DecidableEq, Repr

/-- A message held pending, with the route entry it belongs to, or none (R39, R81, R93). -/
structure HeldMsg where
  msg : LinkMsg
  owner : Option Tag
deriving DecidableEq, Repr

/-- A request for relay work: the content of an OPERATE or of a local job (R97, R131). -/
structure JobRequest where
  ref : RouteRef
  line : Line
  trunk : Trunk
  action : Action
  quiet : QuietIndex
  armed : Bool
deriving DecidableEq, Repr

/-- A round that is not finished: its OPERATEs not yet settled and its local jobs not yet handed over, in endpoint order
(R97). -/
structure Round where
  tag : Tag
  gen : Gen
  action : Action
  /-- the OPERATEs not yet settled -/
  operates : List LinkMsg
  jobs : List JobRequest
deriving DecidableEq, Repr

/-- A result as the RTE takes it (R100). -/
structure RouteResult where
  participant : Addr
  tag : Tag
  gen : Gen
  line : Line
  trunk : Trunk
  code : ResultCode
deriving DecidableEq, Repr

/-- The Route Engine. -/
structure Rte where
  routes : Table 16 Route
  /-- messages held pending, in the order of making (R41) -/
  held : List HeldMsg
  rounds : List Round
  /-- the model's own: local results the JBU has delivered and the RTE has not yet taken; empty between commands
  (log 45 apart) -/
  inbox : List RouteResult
deriving DecidableEq, Repr

/-! ## Jobs -/

/-- The states of a job (Table 9-2); DONE carries its result. -/
inductive JobState where
  | deferred
  | quietWait
  | ready
  | armedHeld
  | permitted
  | inBatch
  | done (code : ResultCode)
deriving DecidableEq, Repr

/-- A job (Table 9-1). -/
structure Job where
  ref : RouteRef
  line : Line
  trunk : Trunk
  /-- absent in a notice job of R145 -/
  action : Option Action
  quiet : QuietIndex
  armed : Bool
  state : JobState
  /-- the hot-wait counter, from the first entry to QUIET-WAIT -/
  counter : Option Nat
  /-- an ARMED answer held with the job (R121) -/
  heldArmed : Bool
  /-- for a close cancelled by R135 whose result waits: the action of the job that cancelled it -/
  behind : Option Action
deriving DecidableEq, Repr

/-- The sweep timer of R143. -/
inductive SweepTimer where
  | absent
  | running (count : Nat)
  | expired
deriving DecidableEq, Repr

/-- The Job Unit. -/
structure Jbu where
  jobs : List Job
  sweep : SweepTimer
  /-- the level held for Q0 to Q3, 1 for asserted (R137) -/
  quiet : BitVec 4
deriving DecidableEq, Repr

/-! ## The Commit Engine -/

/-- The states of a crosspoint record; UNKNOWN carries its drive direction, true for closed (R2). -/
inductive XpState where
  | opn
  | closing
  | opening
  | closed
  | unknown (driveClosed : Bool)
deriving DecidableEq, Repr

/-- A crosspoint record (Table 2-1). -/
structure Crosspoint where
  state : XpState
  owner : Option RouteRef
  quiet : QuietIndex
  wear : Nat
  marked : Bool
deriving DecidableEq, Repr

/-- The engine states of Table 10-2. -/
inductive Engine where
  | idle
  | openDrive
  | releaseSettle
  | openSense
  | closeDrive
  | operateSettle
  | closeSense
  | checkPass
  | clearSettle
deriving DecidableEq, Repr

/-- A sweep taken into the batch, quiet or forced (R150). -/
structure Sweep where
  xp : Xp
  forced : Bool
deriving DecidableEq, Repr

/-- A CHECK held by the CME, waiting or running (R159). -/
structure CheckOrder where
  line : Line
  running : Bool
deriving DecidableEq, Repr

/-- The Commit Engine. -/
structure Cme where
  xps : Table 512 Crosspoint
  drive : Image
  sense : Image
  /-- the drive bits that DLAT or DCLR last applied to the coils (R147, R8) -/
  coils : Image
  /-- the bits that the pass in progress shifts out on DOUT (R147); none while no pass runs -/
  dout : Option PassBits
  engine : Engine
  /-- the settle time running, in periods of 10 µs (R149) -/
  settle : Option Nat
  /-- the sweeps of the batch in flight -/
  sweeps : List Sweep
  /-- the crosspoints of the batch's closes that wait on an open of the same batch (R151) -/
  waiting : List Xp
  check : Option CheckOrder
deriving DecidableEq, Repr

/-! ## The Order Port -/

/-- The configuration record (Table 11-3). -/
structure ConfigRecord where
  operateExp : Nat
  releaseExp : Nat
  hotWait : Nat
  replyLimit : Nat
  wearLimit : Nat
  threshold : Nat
  /-- bit n for member n of Table 12-5 -/
  alertEnable : BitVec 16
  master : Bool
deriving DecidableEq, Repr

/-- The alert set (Table 12-5). -/
structure Alerts where
  peerAbsent : AddrSet
  peerJoined : AddrSet
  staleEntered : Bool
  clash : Bool
  chainFault : Bool
  routeDamaged : TagSet
  wearWarn : Bool
  orderOverrun : Bool
  orderGap : Bool
  droppedLost : Bool
deriving DecidableEq, Repr

/-- A received order: its code byte and the bytes after its length byte (R173). -/
structure Order where
  code : Byte
  payload : List Byte
deriving DecidableEq, Repr

/-- Where the port stands in an order (R173 to R175); `overrun` says that READY was low at the code byte. -/
inductive Reception where
  /-- the next byte is a code byte or filler -/
  | code
  /-- the next byte is the length byte -/
  | length (code : Byte) (overrun : Bool)
  /-- `missing` further bytes are to come -/
  | payload (code : Byte) (missing : Nat) (bytes : List Byte) (overrun : Bool)
  /-- input is ignored until SEL rises, after a framing error -/
  | skip
deriving DecidableEq, Repr

/-- A report in the report FIFO (Table 12-3). -/
inductive Report where
  | answer (code : Byte) (refused : Bool) (reason : Reason) (check : Option (Nat × BitVec 16))
  | route (content : RouteReport)
  | wear (line : Line) (counts : List Nat)
  | table (valid stale : Bool) (entries : TrunkTable) (members : Table 24 Member)
  | status (station : StationState) (strap : Fin 32) (stale valid configured : Bool) (orders reports : Nat)
      (alerts : Alerts)
deriving DecidableEq, Repr

/-- The Order Port. -/
structure Orp where
  /-- SEL is low: a select period is in progress (R172) -/
  selected : Bool
  rx : Reception
  /-- the gap count running from the last byte of an incomplete order (R174) -/
  gap : Option Nat
  orders : List Order
  reports : List Report
  /-- how many bytes of the head report have been sent (R177) -/
  sent : Nat
  /-- the byte last sent on SDO in this select period; none while SDO is high impedance or before the first byte -/
  sdo : Option Byte
  alerts : Alerts
  config : Option ConfigRecord
  /-- the READY pin is high (R175) -/
  ready : Bool
  /-- the SRQ pin is asserted (R181) -/
  srq : Bool
deriving DecidableEq, Repr

/-! ## The station -/

/-- The state of one EJ2416, with the commands waiting for it. -/
structure State where
  stc : Stc
  liu : Liu
  mbu : Mbu
  ttu : Ttu
  rte : Rte
  jbu : Jbu
  cme : Cme
  orp : Orp
  /-- the model's own: how many free values have been drawn (log 11) -/
  draws : Nat
  /-- the commands waiting, first in, first out -/
  pending : List Instr
deriving DecidableEq, Repr

/-- No command of the spec stops the part, so there is no fault: every row has an effect in every state, if only to
leave it as it is. Nobody raises one. -/
inductive Fault
deriving DecidableEq, Repr

/-- Why a command has no outcome. -/
inductive Refusal where
  /-- Raised only by an arm of `exec` whose command has no meaning yet (none in this model). Safe: the machine stops. -/
  | notModelled (mnemonic : String)
deriving DecidableEq, Repr

/-! ## Reset values -/

/-- A membership entry after reset (R60). -/
def Member.unseen : Member :=
  { state := .unseen, missed := 0, fault := false, joining := false, contacts := 0, rejoined := false }

/-- A route entry after reset (R79). -/
def Route.idle : Route :=
  { state := .idle, gen := 0, stage := false, avoid := 0, legs := [], timer := none, reason := none, worn := false,
    peerAbsent := false, owed := [] }

/-- A crosspoint record after a power-on reset (Table 2-3). -/
def Crosspoint.reset : Crosspoint :=
  { state := .opn, owner := none, quiet := .none, wear := 0, marked := false }

/-- The alert set with no member present (R179). -/
def Alerts.empty : Alerts :=
  { peerAbsent := 0, peerJoined := 0, staleEntered := false, clash := false, chainFault := false, routeDamaged := 0,
    wearWarn := false, orderOverrun := false, orderGap := false, droppedLost := false }

/-- The station right after a power-on reset (R162, R182): OFFLINE, the driver clear settling for 10,240 µs.
The strap pins and quiet inputs that the reset reads are taken as 0 and deasserted, and SEL as high (log 7).
The own frame and the sense image are given values by log 8. The trunk table is invalid and has no usable entries; the
table that stands in the field until it becomes valid is all FREE (log 41). -/
def State.reset : State :=
  { stc := { station := .offline, strap := 0, listenCount := none, cycleError := false, resetHeld := false }
    liu := { pos := .unknown, ownSlot := false, frame := BitVec.allOnes 400, garbled := false, conflicts := 0,
             queue := [], trig := none }
    mbu := { members := Table.fill 24 Member.unseen }
    ttu := { table := Table.fill 16 .free, valid := false, mismatch := false, stale := false, pending := false,
             watch := false, nonStaleHeard := false, candidate := none, listening := none, drained := 0 }
    rte := { routes := Table.fill 16 Route.idle, held := [], rounds := [], inbox := [] }
    jbu := { jobs := [], sweep := .absent, quiet := 0 }
    cme := { xps := Table.fill 512 Crosspoint.reset, drive := 0, sense := 0, coils := 0, dout := none, engine := .clearSettle,
             settle := some (2 ^ Config.clearExponent), sweeps := [], waiting := [], check := none }
    orp := { selected := false, rx := .code, gap := none, orders := [], reports := [], sent := 0, sdo := none,
             alerts := Alerts.empty, config := none, ready := true, srq := false }
    draws := 0
    pending := [] }

end Sys2Proof.Machine
end

