-- ==== Sys2Proof/Machine/Ops.lean ====
section
/-! DEFINITION. The named operations over the state that several blocks share: geometry of the card, the station's own
address, the trunk table's entries, the route entries, and the outbound queue. -/

namespace Sys2Proof.Machine

/-! ## Geometry (R1) -/

/-- The number of the crosspoint that joins a line to a trunk (R1). -/
def xpNum (l : Line) (t : Trunk) : Xp := ⟨16 * l.val + t.val, by omega⟩

/-- The line of a crosspoint. -/
def xpLine (x : Xp) : Line := ⟨x.val / 16, by omega⟩

/-- The trunk of a crosspoint. -/
def xpTrunk (x : Xp) : Trunk := ⟨x.val % 16, by omega⟩

/-- Every trunk, in trunk order. -/
def allTrunks : List Trunk := List.finRange 16

/-- Every route tag, in tag order. -/
def allTags : List Tag := List.finRange 16

/-- Every station address, in address order. -/
def allAddrs : List Addr := List.finRange 24

/-- Every crosspoint, in ascending crosspoint number. -/
def allXps : List Xp := List.finRange 512

/-- Whether a trunk is in a set. -/
def hasTrunk (set : TrunkSet) (t : Trunk) : Bool := set.getLsbD t.val

/-- The set of one trunk. -/
def trunkBit (t : Trunk) : TrunkSet := 1#16 <<< t.val

/-- The set of the trunks that satisfy a test. -/
def trunkSetOf (p : Trunk → Bool) : TrunkSet :=
  allTrunks.foldl (fun set t => if p t then set ||| trunkBit t else set) 0

/-! ## The station's own address and its configuration -/

/-- The strap address names a slot (R161). -/
def State.hasSlot (s : State) : Bool := s.stc.strap.val < 24

/-- The station's address, for the refs and frames it makes. A station whose strap is 24 to 31 never leaves OFFLINE
and makes none (R161, log 35). -/
def State.self (s : State) : Addr := ⟨s.stc.strap.val % 24, by omega⟩

/-- Whether an address is this station's. -/
def State.isSelf (s : State) (a : Addr) : Bool := a.val == s.stc.strap.val

/-- What the fields read as while the record is unset. Only the release exponent is read then (R8); the rest is
log 9. -/
def unsetConfig : ConfigRecord :=
  { operateExp := 0, releaseExp := Config.clearExponent, hotWait := 255, replyLimit := 255,
    wearLimit := Config.wearMax, threshold := 8, alertEnable := 0, master := false }

/-- The configuration record as the blocks read it (R164). -/
def State.cfg (s : State) : ConfigRecord := s.orp.config.getD unsetConfig

/-- The wear warning level (R14). -/
def State.warnLevel (s : State) : Nat := s.cfg.wearLimit - s.cfg.wearLimit / 8

/-- JOINING, ONLINE or FAULT: the states in which the station drives its own slot (R29) and takes every message (R36). -/
def State.driving (s : State) : Bool :=
  match s.stc.station with
  | .joining => true
  | .online => true
  | .fault => true
  | _ => false

/-! ## Trunk entries -/

/-- The entry of a trunk in this station's table. -/
def State.entry (s : State) (t : Trunk) : TrunkEntry := s.ttu.table.get t

/-- HELD(a) or QUARANTINED(a). -/
def TrunkEntry.ownedBy (e : TrunkEntry) (a : Addr) : Bool :=
  match e with
  | .held o => o == a
  | .quarantined o => o == a
  | _ => false

/-- HELD by this station. -/
def State.holds (s : State) (t : Trunk) : Bool :=
  match s.entry t with
  | .held o => s.isSelf o
  | _ => false

/-- HELD or QUARANTINED by this station. -/
def State.owns (s : State) (t : Trunk) : Bool :=
  match s.entry t with
  | .held o => s.isSelf o
  | .quarantined o => s.isSelf o
  | _ => false

/-! ## Crosspoints -/

/-- The record of a crosspoint. -/
def State.xp (s : State) (x : Xp) : Crosspoint := s.cme.xps.get x

/-- The station with one record changed. -/
def modXp (x : Xp) (f : Crosspoint → Crosspoint) (s : State) : State :=
  { s with cme.xps := s.cme.xps.modify x f }

/-! ## Quiet inputs -/

/-- The input that a quiet index names. -/
def quietInput : QuietIndex → Option (Fin 4)
  | .q0 => some 0
  | .q1 => some 1
  | .q2 => some 2
  | .q3 => some 3
  | .none => Option.none

/-- NONE, or an input that is asserted in `levels`. -/
def quietOk (levels : BitVec 4) (q : QuietIndex) : Bool :=
  match quietInput q with
  | some i => levels.getLsbD i.val
  | Option.none => true

/-! ## Routes -/

/-- The route entry of a tag. -/
def State.route (s : State) (tag : Tag) : Route := s.rte.routes.get tag

/-- The station with one route entry changed. -/
def modRoute (tag : Tag) (f : Route → Route) (s : State) : State :=
  { s with rte.routes := s.rte.routes.modify tag f }

/-- Every endpoint of a route, in leg order and endpoint order. -/
def Route.endpoints (r : Route) : List Endpoint := r.legs.flatMap Leg.endpoints

/-- The endpoint's crosspoint is known open (R96). -/
def EndpointStatus.knownOpen : EndpointStatus → Bool
  | .opn => true
  | .failed _ => true
  | .cancelled => true
  | _ => false

/-- Every endpoint of a route changed by `f`, which sees the endpoint's leg. -/
def Route.mapEndpoints (f : Leg → Endpoint → Endpoint) (r : Route) : Route :=
  { r with legs := r.legs.map fun l => { l with endpoints := l.endpoints.map (f l) } }

/-- The legs of a route changed by `f`, which sees the leg's number. -/
def Route.mapLegs (f : Nat → Leg → Leg) (r : Route) : Route :=
  { r with legs := List.zipWith f (List.range r.legs.length) r.legs }

/-- The reason set where none is set yet: the first failure's reason is kept (R93, R102). -/
def Route.withReason (reason : Reason) (r : Route) : Route :=
  { r with reason := some (r.reason.getD reason) }

/-! ## The outbound queue (R38, R39) -/

/-- The queue holds fewer than 24 messages. -/
def State.queueHasPlace (s : State) : Bool := s.liu.queue.length < Config.queuePlaces

/-- A message joins the tail of the queue when a place is free, and is lost when none is. Callers that hold their
message instead test for a place first. -/
def enqueue (m : LinkMsg) (s : State) : State :=
  if s.queueHasPlace then { s with liu.queue := s.liu.queue ++ [⟨m, false⟩] } else s

/-- The RTE adds a message at the tail of the queue, or holds it pending in the entry `owner`, or outside any entry
(R39, R93). -/
def rteSend (owner : Option Tag) (m : LinkMsg) (s : State) : State :=
  if s.queueHasPlace then { s with liu.queue := s.liu.queue ++ [⟨m, false⟩] }
  else { s with rte.held := s.rte.held ++ [⟨m, owner⟩] }

/-- The waiting messages and the messages held pending that satisfy `p` are removed. -/
def dropUnsent (p : LinkMsg → Bool) (s : State) : State :=
  { s with
    liu.queue := s.liu.queue.filter fun i => i.inFlight || !p i.msg
    rte.held := s.rte.held.filter fun h => !p h.msg }

/-! ## Free places of the report FIFO (R176) -/

/-- The reports in the FIFO and the place reserved for a CHECK number fewer than 8. The place is reserved exactly
while the CME holds a CHECK (R159, R176). -/
def State.placeFree (s : State) : Bool :=
  s.orp.reports.length + (if s.cme.check.isSome then 1 else 0) < Config.reportPlaces

/-- A report joins the report FIFO. -/
def placeReport (r : Report) (s : State) : State :=
  { s with orp.reports := s.orp.reports ++ [r] }

/-- The free value of log 11 is drawn. -/
def drawTag (code : Byte) (payload : List Byte) (s : State) : Tag × State :=
  (Config.unstatedTag s.draws code payload, { s with draws := s.draws + 1 })

end Sys2Proof.Machine
end

