-- ==== Sys2Proof/Machine/Flags.lean ====
section
/-! DEFINITION. The alert set (R179, R180) and the levels the Order Port drives: READY (R175) and SRQ (R181). -/

namespace Sys2Proof.Machine

/-! ## Posting alerts (Table 12-5) -/

/-- A station is posted to PEER-ABSENT (R63). -/
def postPeerAbsent (a : Addr) (s : State) : State :=
  { s with orp.alerts.peerAbsent := s.orp.alerts.peerAbsent ||| (1#24 <<< a.val) }

/-- A station is posted to PEER-JOINED (R61). -/
def postPeerJoined (a : Addr) (s : State) : State :=
  { s with orp.alerts.peerJoined := s.orp.alerts.peerJoined ||| (1#24 <<< a.val) }

/-- STALE-ENTERED is posted (R69). -/
def postStaleEntered (s : State) : State := { s with orp.alerts.staleEntered := true }

/-- CLASH is posted (R170). -/
def postClash (s : State) : State := { s with orp.alerts.clash := true }

/-- CHAIN-FAULT is posted (R156). -/
def postChainFault (s : State) : State := { s with orp.alerts.chainFault := true }

/-- A tag is posted to ROUTE-DAMAGED (R75, R109, R170). -/
def postRouteDamaged (tag : Tag) (s : State) : State :=
  { s with orp.alerts.routeDamaged := s.orp.alerts.routeDamaged ||| (1#16 <<< tag.val) }

/-- WEAR-WARN is posted (R14). -/
def postWearWarn (s : State) : State := { s with orp.alerts.wearWarn := true }

/-- ORDER-OVERRUN is posted (R175). -/
def postOrderOverrun (s : State) : State := { s with orp.alerts.orderOverrun := true }

/-- ORDER-GAP is posted (R173, R174). -/
def postOrderGap (s : State) : State := { s with orp.alerts.orderGap := true }

/-- What the discard of an order posts: ORDER-GAP (R173, R174), and ORDER-OVERRUN beside it when the order is an overrun
(R175). -/
def postDiscarded (overrun : Bool) (s : State) : State :=
  { s with orp.alerts.orderGap := true, orp.alerts.orderOverrun := s.orp.alerts.orderOverrun || overrun }

/-- DROPPED-LOST is posted (R145). -/
def postDroppedLost (s : State) : State := { s with orp.alerts.droppedLost := true }

/-! ## The alert set as bits -/

/-- Which members are present, bit n for member n of Table 12-5. -/
def Alerts.members (a : Alerts) : BitVec 16 :=
  (if a.peerAbsent != 0 then 0x001#16 else 0) ||| (if a.peerJoined != 0 then 0x002#16 else 0)
    ||| (if a.staleEntered then 0x004#16 else 0) ||| (if a.clash then 0x008#16 else 0)
    ||| (if a.chainFault then 0x010#16 else 0) ||| (if a.routeDamaged != 0 then 0x020#16 else 0)
    ||| (if a.wearWarn then 0x040#16 else 0) ||| (if a.orderOverrun then 0x080#16 else 0)
    ||| (if a.orderGap then 0x100#16 else 0) ||| (if a.droppedLost then 0x200#16 else 0)

/-- The alert set after an ALERT-CLEAR (R180): flag members by the member set, set members element by element. -/
def Alerts.clear (members : BitVec 16) (absent joined : AddrSet) (damaged : TagSet) (a : Alerts) : Alerts :=
  { peerAbsent := a.peerAbsent &&& ~~~absent
    peerJoined := a.peerJoined &&& ~~~joined
    staleEntered := a.staleEntered && !members.getLsbD 2
    clash := a.clash && !members.getLsbD 3
    chainFault := a.chainFault && !members.getLsbD 4
    routeDamaged := a.routeDamaged &&& ~~~damaged
    wearWarn := a.wearWarn && !members.getLsbD 6
    orderOverrun := a.orderOverrun && !members.getLsbD 7
    orderGap := a.orderGap && !members.getLsbD 8
    droppedLost := a.droppedLost && !members.getLsbD 9 }

/-! ## READY and SRQ -/

/-- READY is high while the order FIFO holds fewer than 8 orders and RESET is not held (R162, R175). -/
def State.readyLevel (s : State) : Bool :=
  !s.stc.resetHeld && decide (s.orp.orders.length < Config.orderPlaces)

/-- SRQ is asserted by the report threshold or an enabled alert, with the record set and the master enable on (R181).
A reserved place is not counted. -/
def State.srqLevel (s : State) : Bool :=
  !s.stc.resetHeld &&
    match s.orp.config with
    | none => false
    | some c =>
      c.master && (decide (c.threshold ≤ s.orp.reports.length) || (s.orp.alerts.members &&& c.alertEnable) != 0)

/-- The pins are brought to their levels at the end of the event (R175, R181). -/
def updatePins (s : State) : State :=
  { s with orp.ready := s.readyLevel, orp.srq := s.srqLevel }

end Sys2Proof.Machine
end

