-- ==== Sys2Proof/Machine/Operands.lean ====
section
/-! DEFINITION. The layouts of everything that crosses the pins: link messages and frames (R23 to R28, R32), passes of
the driver chain (R147), order payloads (Table 12-1, R82) and report bytes (Table 12-3). -/

namespace Sys2Proof.Machine

/-! ## Fields of numbers -/

/-- The number whose fields, each a width and a value, stand most significant first. -/
def pack (fields : List (Nat × Nat)) : Nat :=
  fields.foldl (fun n f => n * 2 ^ f.1 + f.2 % 2 ^ f.1) 0

/-- The field of `width` bits that ends `below` bits above bit 0 of `n`. -/
def field (n below width : Nat) : Nat := n / 2 ^ below % 2 ^ width

/-- A Bool as a one-bit field. -/
def bit1 (b : Bool) : Nat := if b then 1 else 0

/-- An address field: 24 to 31 name no station. -/
def readAddr (n : Nat) : Option Addr := if h : n < 24 then some ⟨n, h⟩ else none

/-! ## Coded values (Table 3-4) -/

/-- The code of an action. -/
def actionCode : Action → Nat
  | .close => 0
  | .opn => 1
  | .forceOpen => 2

/-- The action of a code; 3 names none. -/
def readAction : Nat → Option Action
  | 0 => some .close
  | 1 => some .opn
  | 2 => some .forceOpen
  | _ => none

/-- The code of a quiet index. -/
def quietCode : QuietIndex → Nat
  | .q0 => 0
  | .q1 => 1
  | .q2 => 2
  | .q3 => 3
  | .none => 4

/-- The quiet index of a code; 5 to 7 name none. -/
def readQuiet : Nat → Option QuietIndex
  | 0 => some .q0
  | 1 => some .q1
  | 2 => some .q2
  | 3 => some .q3
  | 4 => some .none
  | _ => Option.none

/-- The code of a result. -/
def resultCode : ResultCode → Nat
  | .closed => 0
  | .closedWorn => 1
  | .armed => 2
  | .opened => 3
  | .hot => 4
  | .verify => 5
  | .retired => 6
  | .lineTaken => 7
  | .notHeld => 8
  | .busy => 9
  | .fault => 10
  | .cancelled => 11
  | .dropped => 12

/-- The result of a code; 13 to 15 name none. -/
def readResultCode : Nat → Option ResultCode
  | 0 => some .closed
  | 1 => some .closedWorn
  | 2 => some .armed
  | 3 => some .opened
  | 4 => some .hot
  | 5 => some .verify
  | 6 => some .retired
  | 7 => some .lineTaken
  | 8 => some .notHeld
  | 9 => some .busy
  | 10 => some .fault
  | 11 => some .cancelled
  | 12 => some .dropped
  | _ => none

/-! ## Link messages (R27, Table 3-3) -/

/-- The 40 bits of a message; payload bits not listed are 0. -/
def encodeMsg (m : LinkMsg) : MsgBits :=
  BitVec.ofNat 40 <| match m with
    | .claim t tag g leg => pack [(4, 1), (4, t), (4, tag), (3, g), (2, leg), (23, 0)]
    | .release t => pack [(4, 2), (4, t), (32, 0)]
    | .quarantine t => pack [(4, 3), (4, t), (32, 0)]
    | .operate a l t act tag g q arm =>
      pack [(4, 4), (5, a), (5, l), (4, t), (2, actionCode act), (4, tag), (3, g), (3, quietCode q), (1, bit1 arm), (9, 0)]
    | .result a tag g l t c => pack [(4, 5), (5, a), (4, tag), (3, g), (5, l), (4, t), (4, resultCode c), (11, 0)]
    | .abandon tag g => pack [(4, 6), (4, tag), (3, g), (29, 0)]
    | .permit tag g => pack [(4, 7), (4, tag), (3, g), (29, 0)]
    | .fire tag g => pack [(4, 8), (4, tag), (3, g), (29, 0)]

/-- The message of 40 received bits, or none where R28 discards it. -/
def decodeMsg (b : MsgBits) : Option LinkMsg :=
  let n := b.toNat
  match field n 36 4 with
  | 1 => some (.claim (Fin.ofNat 16 (field n 32 4)) (Fin.ofNat 16 (field n 28 4)) (Fin.ofNat 8 (field n 25 3))
      (Fin.ofNat 4 (field n 23 2)))
  | 2 => some (.release (Fin.ofNat 16 (field n 32 4)))
  | 3 => some (.quarantine (Fin.ofNat 16 (field n 32 4)))
  | 4 =>
    match readAddr (field n 31 5), readAction (field n 20 2), readQuiet (field n 10 3) with
    | some a, some act, some q =>
      if field n 9 1 == 1 && act != .close then none
      else some (.operate a (Fin.ofNat 32 (field n 26 5)) (Fin.ofNat 16 (field n 22 4)) act
        (Fin.ofNat 16 (field n 16 4)) (Fin.ofNat 8 (field n 13 3)) q (field n 9 1 == 1))
    | _, _, _ => none
  | 5 =>
    match readAddr (field n 31 5), readResultCode (field n 11 4) with
    | some a, some c =>
      some (.result a (Fin.ofNat 16 (field n 27 4)) (Fin.ofNat 8 (field n 24 3)) (Fin.ofNat 32 (field n 19 5))
        (Fin.ofNat 16 (field n 15 4)) c)
    | _, _ => none
  | 6 => some (.abandon (Fin.ofNat 16 (field n 32 4)) (Fin.ofNat 8 (field n 29 3)))
  | 7 => some (.permit (Fin.ofNat 16 (field n 32 4)) (Fin.ofNat 8 (field n 29 3)))
  | 8 => some (.fire (Fin.ofNat 16 (field n 32 4)) (Fin.ofNat 8 (field n 29 3)))
  | _ => none

/-! ## Frames (R23 to R26) -/

/-- The seven bits of a snapshot entry (Table 3-2). -/
def TrunkEntry.code : TrunkEntry → Nat
  | .free => 0
  | .held o => 32 + o.val
  | .quarantined o => 64 + o.val
  | .draining o => 96 + o.val

/-- The snapshot entry of seven bits; none where R32 finds it malformed. -/
def readEntry (n : Nat) : Option TrunkEntry :=
  match n / 32 % 4, readAddr (n % 32) with
  | 0, _ => if n % 32 == 0 then some .free else none
  | 1, some o => some (.held o)
  | 2, some o => some (.quarantined o)
  | 3, some o => some (.draining o)
  | _, _ => none

/-- One step of the CRC register (R26). -/
def crcStep (reg : BitVec 16) (b : Bool) : BitVec 16 :=
  if b != reg.msb then (reg <<< 1) ^^^ 0x1021#16 else reg <<< 1

/-- The CRC of bits 0 to 383, bit 0 the most significant of `body` (R26). -/
def crc16 (body : BitVec 384) : BitVec 16 :=
  (List.range 384).foldl (fun reg i => crcStep reg (body.getLsbD (383 - i))) (BitVec.allOnes 16)

/-- Message places: the messages in order, then all ones (R25). -/
def placeFields (msgs : List LinkMsg) : List (Nat × Nat) :=
  (List.range Config.framePlaces).map fun p =>
    match msgs[p]? with
    | some m => (40, (encodeMsg m).toNat)
    | none => (40, 2 ^ 40 - 1)

/-- Bits 0 to 383 of a frame (Table 3-1). -/
def frameBody (f : Frame) : BitVec 384 :=
  BitVec.ofNat 384 <| pack <|
    [(5, f.sender.val), (1, bit1 f.stale), (1, bit1 f.joining), (1, bit1 f.fault), (3, f.msgs.length), (5, 0)]
      ++ f.snapshot.cells.map (fun e => (7, e.code))
      ++ allTrunks.map (fun t => (1, bit1 (hasTrunk f.contacts t)))
      ++ placeFields f.msgs

/-- The 400 bits of a frame, with its CRC (R26). -/
def encodeFrame (f : Frame) : FrameBits :=
  BitVec.ofNat 400 ((frameBody f).toNat * 2 ^ 16 + (crc16 (frameBody f)).toNat)

/-- How R32 judges a frame. CRC, garbled and malformed frames are handled alike. -/
inductive Judged where
  | empty
  | bad
  | good (f : Frame)
deriving DecidableEq, Repr

/-- The frame that 400 good bits carry, its discarded messages left out (R28). -/
def readFrame (bits : FrameBits) (sender : Addr) : Frame :=
  let n := bits.toNat
  { sender := sender
    stale := field n 394 1 == 1
    joining := field n 393 1 == 1
    fault := field n 392 1 == 1
    snapshot := Table.tabulate 16 fun t => (readEntry (field n (377 - 7 * t.val) 7)).getD .free
    contacts := trunkSetOf fun t => field n (271 - t.val) 1 == 1
    msgs := (List.range (field n 389 3)).filterMap fun p => decodeMsg (BitVec.ofNat 40 (field n (216 - 40 * p) 40)) }

/-- The malformed frames of R32. -/
def malformed (bits : FrameBits) : Bool :=
  let n := bits.toNat
  field n 389 3 == 7
    || (field n 389 3 != 0 && (field n 394 1 == 1 || field n 393 1 == 1))
    || field n 384 5 != 0
    || !(allTrunks.all fun t => (readEntry (field n (377 - 7 * t.val) 7)).isSome)

/-- The classification of R32; `garbled` says that the frame is the station's own and met a drive conflict. -/
def judge (slot : Slot) (bits : FrameBits) (garbled : Bool) : Judged :=
  let n := bits.toNat
  if field n 384 16 == 0xFFFF then .empty
  else if crc16 (BitVec.ofNat 384 (n / 2 ^ 16)) != BitVec.ofNat 16 n then .bad
  else if field n 395 5 != slot.val then .bad
  else if garbled then .bad
  else if malformed bits then .bad
  else .good (readFrame bits slot)

/-! ## Passes of the driver chain (R147, Table 10-1) -/

/-- The bits shifted out on DOUT: the drive bits from crosspoint 511 down, then the marker. -/
def passOut (drive : Image) : PassBits := drive ++ Config.marker

/-- The contact bits of a pass shifted in on SIN. -/
def passContacts (sin : PassBits) : Image := sin.extractLsb' 16 512

/-- The marker as returned behind the contact bits (R148). -/
def passMarkerGood (sin : PassBits) : Bool := sin.extractLsb' 0 16 == Config.marker

/-- The 16 contact bits of a line, bit t for Tt (R158). -/
def lineContacts (contacts : Image) (l : Line) : BitVec 16 := contacts.extractLsb' (16 * l.val) 16

/-! ## Order payloads (Table 12-1) -/

/-- A number of several bytes, the most significant first. -/
def bytesNat (bs : List Byte) : Nat := bs.foldl (fun n b => n * 256 + b.toNat) 0

/-- The numbers of 3 bytes each that a list of bytes gives. -/
def threes : List Byte → List Nat
  | a :: b :: c :: rest => bytesNat [a, b, c] :: threes rest
  | _ => []

/-- A payload of one line number 0 to 31. -/
def parseLine : List Byte → Option Line
  | [b] => if h : b.toNat < 32 then some ⟨b.toNat, h⟩ else none
  | _ => none

/-- A payload of one tag 0 to 15. -/
def parseTag : List Byte → Option Tag
  | [b] => if h : b.toNat < 16 then some ⟨b.toNat, h⟩ else none
  | _ => none

/-- A CONFIGURE payload: every field in range (Table 11-3) and the length right. -/
def parseConfigure : List Byte → Option ConfigRecord
  | [s, r, hw, rl, w2, w1, w0, th, e1, e0, m] =>
    let c : ConfigRecord :=
      { operateExp := s.toNat, releaseExp := r.toNat, hotWait := hw.toNat, replyLimit := rl.toNat,
        wearLimit := bytesNat [w2, w1, w0], threshold := th.toNat,
        alertEnable := BitVec.ofNat 16 (bytesNat [e1, e0]), master := m.toNat == 1 }
    if c.operateExp ≤ 10 && c.releaseExp ≤ 10 && 1 ≤ c.hotWait && 8 ≤ c.replyLimit && 1 ≤ c.wearLimit
        && 1 ≤ c.threshold && c.threshold ≤ 8 && c.alertEnable.toNat < 1024 && m.toNat ≤ 1
    then some c else none
  | _ => none

/-- A WEAR-LOAD payload: a line and 16 counts (R17). -/
def parseWearLoad : List Byte → Option (Line × List Nat)
  | b :: rest =>
    if rest.length == 48 then (parseLine [b]).map fun l => (l, threes rest) else none
  | [] => none

/-- The sets that an ALERT-CLEAR names. -/
structure ClearSets where
  members : BitVec 16
  absent : AddrSet
  joined : AddrSet
  damaged : TagSet
deriving DecidableEq, Repr

/-- An ALERT-CLEAR payload; bits 10 to 15 of the member set are 0 (Table 12-1). -/
def parseAlertClear : List Byte → Option ClearSets
  | [m1, m0, a2, a1, a0, j2, j1, j0, d1, d0] =>
    if bytesNat [m1, m0] < 1024 then
      some { members := BitVec.ofNat 16 (bytesNat [m1, m0]), absent := BitVec.ofNat 24 (bytesNat [a2, a1, a0]),
             joined := BitVec.ofNat 24 (bytesNat [j2, j1, j0]), damaged := BitVec.ofNat 16 (bytesNat [d1, d0]) }
    else none
  | _ => none

/-! ### ROUTE-MAKE (R82) -/

/-- An endpoint as a ROUTE-MAKE gives it. -/
structure MakeEndpoint where
  station : Addr
  line : Line
  quiet : QuietIndex
deriving DecidableEq, Repr

/-- A leg as a ROUTE-MAKE gives it. -/
structure MakeLeg where
  requested : Option Trunk
  endpoints : List MakeEndpoint
deriving DecidableEq, Repr

/-- The content of a ROUTE-MAKE (R82). -/
structure MakeOrder where
  tag : Tag
  stage : Bool
  avoid : TrunkSet
  legs : List MakeLeg
deriving DecidableEq, Repr

/-- One endpoint: a station byte, then line in bits 0 to 4 and quiet index in bits 5 to 7. -/
def parseEndpoint (st lq : Byte) : Option MakeEndpoint :=
  match readAddr st.toNat, readQuiet (lq.toNat / 32) with
  | some a, some q => some { station := a, line := Fin.ofNat 32 lq.toNat, quiet := q }
  | _, _ => none

/-- `n` endpoints and the bytes that follow them. -/
def parseEndpoints : Nat → List Byte → Option (List MakeEndpoint × List Byte)
  | 0, bs => some ([], bs)
  | n + 1, st :: lq :: bs =>
    match parseEndpoint st lq, parseEndpoints n bs with
    | some e, some (es, rest) => some (e :: es, rest)
    | _, _ => none
  | _ + 1, _ => none

/-- A requested trunk byte: 0 to 15, or 0x10 for AUTO. -/
def parseRequested (b : Byte) : Option (Option Trunk) :=
  if h : b.toNat < 16 then some (some ⟨b.toNat, h⟩) else if b == 0x10 then some none else none

/-- `n` legs and the bytes that follow them; a leg has 2 to 6 endpoints. -/
def parseLegs : Nat → List Byte → Option (List MakeLeg × List Byte)
  | 0, bs => some ([], bs)
  | n + 1, rq :: ec :: bs =>
    if 2 ≤ ec.toNat && ec.toNat ≤ 6 then
      match parseRequested rq, parseEndpoints ec.toNat bs with
      | some t, some (es, rest) =>
        match parseLegs n rest with
        | some (ls, rest') => some ({ requested := t, endpoints := es } :: ls, rest')
        | none => none
      | _, _ => none
    else none
  | _ + 1, _ => none

/-- Whether a list repeats nothing. -/
def noRepeat {α : Type} [DecidableEq α] : List α → Bool
  | [] => true
  | x :: xs => !xs.contains x && noRepeat xs

/-- The layout check of R82: the order's content, or none where it fails. -/
def parseRouteMake : List Byte → Option MakeOrder
  | b :: a1 :: a0 :: n :: rest =>
    match parseLegs n.toNat rest with
    | some (legs, []) =>
      let ends := legs.flatMap MakeLeg.endpoints
      if b.toNat / 16 % 8 == 0 && 1 ≤ n.toNat && n.toNat ≤ 4 && ends.length ≤ 12
          && noRepeat (ends.map fun e => (e.station, e.line)) && noRepeat (legs.filterMap MakeLeg.requested)
      then some { tag := Fin.ofNat 16 b.toNat, stage := b.toNat / 128 == 1,
                  avoid := BitVec.ofNat 16 (bytesNat [a1, a0]), legs := legs }
      else none
    | _ => none
  | _ => none

/-- How many endpoints the legs of a ROUTE-MAKE name by their counts; none where a count is missing or out of range. The
count of a leg stands also where its endpoint bytes are missing (log 12). -/
def countEndpoints : Nat → List Byte → Option Nat
  | 0, _ => some 0
  | n + 1, _ :: ec :: bs =>
    if 2 ≤ ec.toNat && ec.toNat ≤ 6 then
      (countEndpoints n (bs.drop (2 * ec.toNat))).map fun k => ec.toNat + k
    else none
  | _ + 1, _ => none

/-- The residual count of a ROUTE-MAKE refused at intake: the endpoints the order names, or 0 where they cannot be
counted (R84, log 12). -/
def namedEndpoints : List Byte → Nat
  | _ :: _ :: _ :: n :: rest =>
    if 1 ≤ n.toNat && n.toNat ≤ 4 then (countEndpoints n.toNat rest).getD 0 else 0
  | _ => 0

/-! ## Report bytes (Table 12-3) -/

/-- The low `n` bytes of a number, the most significant first. -/
def natBytes : Nat → Nat → List Byte
  | 0, _ => []
  | n + 1, v => natBytes n (v / 256) ++ [BitVec.ofNat 8 v]

/-- The code of a reason (Table 12-4). -/
def Reason.code : Reason → Nat
  | .none => 0
  | .badOrder => 1
  | .tagInUse => 2
  | .busy => 3
  | .notOnline => 4
  | .peerAbsent => 5
  | .peerFault => 6
  | .noTrunk => 7
  | .hot => 8
  | .retired => 9
  | .lineTaken => 10
  | .notHeld => 11
  | .peerBusy => 12
  | .verify => 13
  | .noReply => 14
  | .chain => 15
  | .aborted => 16
  | .wearWarn => 17
  | .dropped => 18
  | .stationFault => 19
  | .notOffline => 20
  | .notConfigured => 21
  | .badAddress => 22

/-- The code of an outcome class; the query mark is 7 (11 12.3). -/
def OutcomeClass.code : OutcomeClass → Nat
  | .complete => 0
  | .notice => 1
  | .refused => 2
  | .backedOut => 3
  | .stopped => 4
  | .indeterminate => 5
  | .fault => 6
  | .query => 7

/-- The code of an order kind, 0 for none (Table 12-3). -/
def kindCode : Option OrderKind → Nat
  | none => 0
  | some .make => 1
  | some .brk => 2
  | some .clear => 3

/-- The code of a route state (Table 6-1). -/
def RouteState.code : RouteState → Nat
  | .idle => 0
  | .planning => 1
  | .claiming => 2
  | .arming => 3
  | .staged => 4
  | .closing => 5
  | .made => 6
  | .opening => 7
  | .backingOut => 8
  | .clearing => 9
  | .quarantined => 10
  | .damaged => 11
  | .ended => 12

/-- The code of a claim status (Table 6-3). -/
def ClaimStatus.code : ClaimStatus → Nat
  | .unplanned => 0
  | .queued => 1
  | .sent => 2
  | .won => 3
  | .lost => 4

/-- The status byte of an endpoint: its code in bits 0 to 3, the result code in bits 4 to 7 when FAILED (Table 7-2). -/
def EndpointStatus.code : EndpointStatus → Nat
  | .idle => 0
  | .requested => 1
  | .armed => 2
  | .closed => 3
  | .opn => 4
  | .failed c => 5 + 16 * resultCode c
  | .cancelled => 6
  | .unknown => 7
  | .left => 8

/-- The code of a station state. -/
def StationState.code : StationState → Nat
  | .offline => 0
  | .listening => 1
  | .joining => 2
  | .online => 3
  | .fault => 4
  | .clash => 5

/-- The code of a membership state. -/
def MemberState.code : MemberState → Nat
  | .unseen => 0
  | .present => 1
  | .absent => 2

/-- A byte from a number. -/
def byte (n : Nat) : Byte := BitVec.ofNat 8 n

/-- One leg of a ROUTE-REPORT. -/
def LegReport.bytes (l : LegReport) : List Byte :=
  [byte ((l.requested.map Fin.val).getD 0x10), byte ((l.assigned.map Fin.val).getD 0xFF), byte l.claim.code,
    byte l.endpoints.length]
    ++ l.endpoints.flatMap fun e => [byte e.station.val, byte e.line.val, byte e.status.code]

/-- The payload of a ROUTE-REPORT. -/
def RouteReport.bytes (r : RouteReport) : List Byte :=
  [byte (r.tag.val + 16 * r.gen.val + 128 * bit1 (r.cls == .query)), byte (kindCode r.kind), byte r.cls.code,
    byte r.reason.code, byte r.residual, byte r.state.code, byte (bit1 r.worn + 2 * bit1 r.peerAbsent),
    byte r.legs.length]
    ++ r.legs.flatMap LegReport.bytes

/-- One membership entry of a TABLE-REPORT. -/
def Member.bytes (m : Member) : List Byte :=
  byte (m.state.code + 4 * m.missed + 16 * bit1 m.fault + 32 * bit1 m.joining + 64 * bit1 m.rejoined)
    :: natBytes 2 m.contacts.toNat

/-- The alert set in the layout of the ALERT-CLEAR payload. -/
def Alerts.bytes (a : Alerts) : List Byte :=
  natBytes 2 a.members.toNat ++ natBytes 3 a.peerAbsent.toNat ++ natBytes 3 a.peerJoined.toNat
    ++ natBytes 2 a.routeDamaged.toNat

/-- The type byte of a report. -/
def Report.typeByte : Report → Byte
  | .answer _ _ _ _ => 0x81
  | .route _ => 0x82
  | .wear _ _ => 0x83
  | .table _ _ _ _ => 0x84
  | .status _ _ _ _ _ _ _ _ => 0x85

/-- The payload of a report. -/
def Report.payload : Report → List Byte
  | .answer code refused reason chk =>
    [code, byte (bit1 refused), byte reason.code]
      ++ (match chk with
          | some (count, contacts) => natBytes 2 count ++ natBytes 2 contacts.toNat
          | none => [])
  | .route r => r.bytes
  | .wear l counts => byte l.val :: counts.flatMap (natBytes 3)
  | .table valid stale entries members =>
    byte (bit1 valid + 2 * bit1 stale) :: entries.cells.map (fun e => byte e.code)
      ++ members.cells.flatMap Member.bytes
  | .status station strap stale valid configured orders reports alerts =>
    [byte station.code, byte strap.val, byte (bit1 stale + 2 * bit1 valid + 4 * bit1 configured), byte orders,
      byte reports] ++ alerts.bytes

/-- The bytes of a report on SDO: type, length, payload (R177). -/
def Report.bytes (r : Report) : List Byte :=
  r.typeByte :: byte r.payload.length :: r.payload

end Sys2Proof.Machine
end

