-- ==== Sys2Proof/Machine/Records.lean ====
section
/-! DEFINITION. The crosspoint records (01): their moves at a sense pass, the contact set, wear, the driver clear, the
stray-contact rule and the sweep timer. -/

namespace Sys2Proof.Machine

/-! ## One record -/

/-- The record is OPEN; in any other state it is not OPEN (R2). -/
def Crosspoint.isOpen (c : Crosspoint) : Bool := c.state == .opn

/-- The record enters OPEN: owner, quiet index and mark go (R3, R4, R13). -/
def Crosspoint.enterOpen (c : Crosspoint) : Crosspoint :=
  { c with state := .opn, owner := none, quiet := .none, marked := false }

/-- The bit that a drive pass shifts out for a record (R146). -/
def Crosspoint.driveBit (c : Crosspoint) : Bool :=
  match c.state with
  | .closed => true
  | .closing => true
  | .unknown driveClosed => driveClosed
  | .opn => false
  | .opening => false

/-- The record after a sense pass that read its contact as `contact` (R6, R7). -/
def Crosspoint.sensed (c : Crosspoint) (contact : Bool) : Crosspoint :=
  match c.state, contact with
  | .closing, true => { c with state := .closed }
  | .closing, false => { c with state := .unknown true }
  | .opening, false => c.enterOpen
  | .opening, true => { c with state := .unknown false }
  | .closed, true => c
  | .closed, false => c.enterOpen
  | .opn, false => c
  | .opn, true => { c with state := .unknown false, owner := none, quiet := .none }
  | .unknown true, true => { c with state := .closed }
  | .unknown false, false => c.enterOpen
  | .unknown true, false => c
  | .unknown false, true => c

/-- The record of a CLOSED crosspoint was read open: its owner is sent DROPPED (R7). -/
def Crosspoint.drops (c : Crosspoint) (contact : Bool) : Option RouteRef :=
  if c.state == .closed && !contact then c.owner else none

/-- UNKNOWN, with either drive direction. -/
def Crosspoint.isUnknown (c : Crosspoint) : Bool :=
  match c.state with
  | .unknown _ => true
  | _ => false

/-- CLOSED or UNKNOWN: the states from which an opening stroke drives (R5, R139). -/
def Crosspoint.standing (c : Crosspoint) : Bool := c.state == .closed || c.isUnknown

/-! ## All records -/

/-- The records with their numbers, in ascending crosspoint number. -/
def State.xpList (s : State) : List (Xp × Crosspoint) := List.zip allXps s.cme.xps.cells

/-- The contact set: the trunks on which some crosspoint is not OPEN (R12). -/
def State.contactSet (s : State) : TrunkSet :=
  trunkSetOf fun t => s.xpList.any fun p => xpTrunk p.1 == t && !p.2.isOpen

/-- The line of `x` has a crosspoint other than `x` that is not OPEN (R9). -/
def State.lineTaken (s : State) (x : Xp) : Bool :=
  s.xpList.any fun p => xpLine p.1 == xpLine x && p.1 != x && !p.2.isOpen

/-- Some line has more than one crosspoint not OPEN in a table of records (R9, R11). -/
def lineConflict (xps : Table 512 Crosspoint) : Bool :=
  (List.finRange 32).any fun l =>
    decide (1 < ((List.zip allXps xps.cells).filter fun p => xpLine p.1 == l && !p.2.isOpen).length)

/-- The drive image that the records give (R146). -/
def driveImage (xps : Table 512 Crosspoint) : Image :=
  BitVec.ofNat 512 (xps.cells.foldr (fun c n => 2 * n + bit1 c.driveBit) 0)

/-- The records after a sense pass (R6, R7). -/
def sensedRecords (contacts : Image) (xps : Table 512 Crosspoint) : Table 512 Crosspoint :=
  xps.mapIdx fun x c => c.sensed (contacts.getLsbD x.val)

/-- The owners to which a sense pass sends DROPPED, in ascending crosspoint number (R7, R155). -/
def State.droppedBy (s : State) (contacts : Image) : List (RouteRef × Xp) :=
  s.xpList.filterMap fun p => (p.2.drops (contacts.getLsbD p.1.val)).map fun r => (r, p.1)

/-- How many crosspoints leave UNKNOWN at a sense pass (R7, R158). -/
def State.leavingUnknown (s : State) (contacts : Image) : Nat :=
  (s.xpList.filter fun p => p.2.isUnknown && !(p.2.sensed (contacts.getLsbD p.1.val)).isUnknown).length

/-- The crosspoints CLOSED, or UNKNOWN with an owner, that a chain fault remembers (R156 step 2). -/
def State.remembered (s : State) : List (RouteRef × Xp) :=
  s.xpList.filterMap fun p => if p.2.standing then p.2.owner.map fun r => (r, p.1) else none

/-! ## The driver clear (R8) -/

/-- The driver clear at its DCLR pulse: every record OPEN, no coil energised, the release settle time of exponent `r`
started. The work in progress has ended. Wear counts stay. -/
def driverClear (r : Nat) (s : State) : State :=
  { s with
    cme.xps := s.cme.xps.mapIdx fun _ c => c.enterOpen
    cme.drive := 0
    cme.coils := 0
    cme.dout := none
    cme.engine := .clearSettle
    cme.settle := some (2 ^ r)
    cme.sweeps := []
    cme.waiting := [] }

/-! ## Wear (R14, R15) -/

/-- A wear count raised by `n`, saturating (R15). -/
def raiseWear (wear n : Nat) : Nat := min (wear + n) Config.wearMax

/-- A crosspoint is charged `n`, and WEAR-WARN is posted when that takes its count to the warning level from below. -/
def chargeWear (n : Nat) (x : Xp) (s : State) : State :=
  let before := (s.xp x).wear
  let s' := modXp x (fun c => { c with wear := raiseWear c.wear n }) s
  if before < s.warnLevel && s.warnLevel ≤ raiseWear before n then postWearWarn s' else s'

/-! ## The stray-contact rule and the sweep timer (R142, R143) -/

/-- Some crosspoint is marked. -/
def State.anyMark (s : State) : Bool := s.cme.xps.cells.any Crosspoint.marked

/-- The mark that the stray-contact rule gives a record on a trunk with entry `e` (R142). -/
def Crosspoint.strayMark (c : Crosspoint) (e : TrunkEntry) : Crosspoint :=
  match c.owner with
  | some r => if c.standing then { c with marked := !e.ownedBy r.origin } else c
  | none => c

/-- The stray-contact rule (R142), applied when the table is valid, the station not stale and not OFFLINE. A mark set
while the sweep timer is absent starts it at the hot-wait limit (R143). -/
def strayRule (s : State) : State :=
  if s.ttu.valid && !s.ttu.stale && s.stc.station != .offline then
    let xps := s.cme.xps.mapIdx fun x c => c.strayMark (s.entry (xpTrunk x))
    let newMark := (List.zip s.cme.xps.cells xps.cells).any fun p => !p.1.marked && p.2.marked
    let sweep := if newMark && s.jbu.sweep == .absent then .running s.cfg.hotWait else s.jbu.sweep
    { s with cme.xps := xps, jbu.sweep := sweep }
  else s

/-- With no crosspoint marked, the sweep timer is absent (R143, "No marks"). -/
def settleSweepTimer (s : State) : State :=
  if s.anyMark then s else { s with jbu.sweep := .absent }

/-- The sweep timer at a cycle mark (R143, "Count"). -/
def SweepTimer.count : SweepTimer → SweepTimer
  | .running n => if n ≤ 1 then .expired else .running (n - 1)
  | t => t

end Sys2Proof.Machine
end

