-- ==== Sys2Proof/Machine/Trunks.lean ====
section
/-! DEFINITION. The Trunk Table Unit: claims, releases, quarantines, contamination, drain, comparison, the stale
condition, adoption of a table, and the recovery record (03, 04). -/

namespace Sys2Proof.Machine

/-! ## Stored contact sets -/

/-- The set a membership entry contributes; UNSEEN contributes none (R55). -/
def Member.stored (m : Member) : TrunkSet := if m.state == .unseen then 0 else m.contacts

/-- Some stored last contact set contains the trunk. -/
def State.anyStored (s : State) (t : Trunk) : Bool :=
  s.mbu.members.cells.any fun m => hasTrunk m.stored t

/-- The lowest station address whose stored last set contains the trunk (R52). -/
def State.lowestStored (s : State) (t : Trunk) : Option Addr :=
  allAddrs.find? fun a => hasTrunk (s.mbu.members.get a).stored t

/-! ## Link messages on the table -/

/-- The table with one entry changed. -/
def setEntry (t : Trunk) (e : TrunkEntry) (s : State) : State :=
  { s with ttu.table := s.ttu.table.set t e }

/-- A CLAIM from `sender` (R46): the new state, and whether the claim was won; no outcome while the table is invalid
(R43). -/
def applyClaim (sender : Addr) (t : Trunk) (s : State) : State × Option Bool :=
  if s.ttu.valid then
    match s.entry t with
    | .free => (setEntry t (.held sender) s, some true)
    | _ => (s, some false)
  else (s, none)

/-- The entry after a RELEASE from `sender` (R48). -/
def TrunkEntry.released (e : TrunkEntry) (sender : Addr) : TrunkEntry :=
  if e.ownedBy sender then .draining sender else e

/-- A RELEASE from `sender` (R48). -/
def applyRelease (sender : Addr) (t : Trunk) (s : State) : State :=
  if s.ttu.valid then setEntry t ((s.entry t).released sender) s else s

/-- A QUARANTINE from `sender` (R49). -/
def applyQuarantine (sender : Addr) (t : Trunk) (s : State) : State :=
  if s.ttu.valid && s.entry t == .held sender then setEntry t (.quarantined sender) s else s

/-! ## Contamination, absence and drain -/

/-- The contamination rule for a header of `sender` (R51). -/
def contaminate (sender : Addr) (contacts : TrunkSet) (s : State) : State :=
  if s.ttu.valid then
    { s with ttu.table := s.ttu.table.mapIdx fun t e =>
        if e == .free && hasTrunk contacts t then .draining sender else e }
  else s

/-- The trunks of an absent station become DRAINING (R53). -/
def drainOwner (a : Addr) (s : State) : State :=
  if s.ttu.valid then { s with ttu.table := s.ttu.table.mapIdx fun _ e => e.released a } else s

/-- Whether the drain rule frees a trunk: DRAINING, in no stored set, its owner heard (R55). -/
def State.drains (s : State) (t : Trunk) : Bool :=
  match s.entry t with
  | .draining o => !s.anyStored t && (s.mbu.members.get o).state != .unseen
  | _ => false

/-- The drain rule at a cycle mark (R55). The trunks freed are kept for the comparison of slot 0 (R66). -/
def drainRule (s : State) : State :=
  if s.ttu.valid then
    { s with
      ttu.table := s.ttu.table.mapIdx fun t e => if s.drains t then .free else e
      ttu.drained := trunkSetOf s.drains }
  else { s with ttu.drained := 0 }

/-! ## Stale (R68, R69) -/

/-- Entry to the stale condition (R69). -/
def becomeStale (s : State) : State :=
  postStaleEntered { s with ttu.stale := true, ttu.pending := true, ttu.mismatch := false }

/-- A link error at the TTU (R68). -/
def linkError (s : State) : State :=
  if s.ttu.valid && !s.ttu.stale then becomeStale s else s

/-! ## Comparison (R66, R67) -/

/-- An entry of a header of `sender` agrees with this station's; the frame of slot 0 may show DRAINING what the drain
rule of the mark that opened the slot made FREE here (R66). -/
def State.entryAgrees (s : State) (sender : Addr) (snapshot : TrunkTable) (t : Trunk) : Bool :=
  snapshot.get t == s.entry t ||
    (sender == 0 && hasTrunk s.ttu.drained t &&
      match snapshot.get t with
      | .draining _ => true
      | _ => false)

/-- The comparison of a header's snapshot (R66) and the mismatch counter (R67). -/
def compareHeader (f : Frame) (s : State) : State :=
  if s.ttu.valid && !s.ttu.stale && !f.stale && !s.isSelf f.sender then
    if allTrunks.all (s.entryAgrees f.sender f.snapshot) then { s with ttu.mismatch := false }
    else if s.ttu.mismatch then becomeStale s
    else { s with ttu.mismatch := true }
  else s

/-! ## Adoption of a table (R70 steps 1 to 3) -/

/-- The contamination pass over the whole membership table (R52). -/
def contaminateAll (s : State) : State :=
  { s with ttu.table := s.ttu.table.mapIdx fun t e =>
      if e == .free then
        match s.lowestStored t with
        | some a => .draining a
        | none => e
      else e }

/-- Steps 1 to 3 of R70: the table replaced and valid, the pass of R52, and the agreement state cleared. -/
def adoptTable (snapshot : TrunkTable) (s : State) : State :=
  let s := contaminateAll { s with ttu.table := snapshot, ttu.valid := true }
  { s with ttu.stale := false, ttu.pending := false, ttu.mismatch := false }

/-! ## The recovery record (R72, R73) -/

/-- A good frame is noted in the recovery record (R72). -/
def noteFrame (f : Frame) (s : State) : State :=
  { s with
    ttu.candidate := some (s.ttu.candidate.getD ⟨f.sender, f.snapshot⟩)
    ttu.nonStaleHeard := s.ttu.nonStaleHeard || !f.stale }

/-- The candidate that the all-stale recovery adopts at a cycle mark, if it adopts (R73). -/
def State.recovers (s : State) : Option Candidate :=
  if s.ttu.watch && s.ttu.stale && !s.ttu.nonStaleHeard then s.ttu.candidate else none

/-- In LISTENING the record closed at a mark replaces the listening candidate, when it holds one (R72). -/
def noteListening (s : State) : State :=
  if s.stc.station == .listening then
    { s with ttu.listening := s.ttu.candidate <|> s.ttu.listening }
  else s

/-- A new recovery record is opened: the watch flag is set when the station is stale (R72, R78). -/
def openRecord (s : State) : State :=
  { s with ttu.watch := s.ttu.stale, ttu.nonStaleHeard := false, ttu.candidate := none }

end Sys2Proof.Machine
end

