-- ==== Sys2Proof/Machine/RouteOps.lean ====
section
/-! DEFINITION. The Route Engine: reports, rounds, results, backout, breaking, planning, claiming, and what an absence,
a return, a chain fault, a clash, an adoption, a trigger and a timer expiry do to routes (05, 06, 07). -/

namespace Sys2Proof.Machine

/-! ## Reports (R117 to R119) -/

/-- The residual count of a route for an order kind (R118). -/
def residualCount (kind : OrderKind) (r : Route) : Nat :=
  (r.endpoints.filter fun e =>
    match kind, e.status with
    | .make, .closed => false
    | .make, _ => true
    | _, .closed => true
    | _, .armed => true
    | _, .requested => true
    | _, .unknown => true
    | _, .left => true
    | _, _ => false).length

/-- The legs of a route as a report shows them (R118). -/
def Route.legReports (r : Route) : List LegReport :=
  r.legs.map fun l =>
    { requested := l.requested, assigned := l.assigned, claim := l.claim,
      endpoints := l.endpoints.map fun e => ⟨e.station, e.line, e.status⟩ }

/-- The report that answers an order, over the entry as it stands (R118). -/
def routeReport (tag : Tag) (kind : OrderKind) (cls : OutcomeClass) (reason : Reason) (r : Route) : RouteReport :=
  { tag := tag, gen := r.gen, kind := some kind, cls := cls, reason := reason, residual := residualCount kind r,
    state := r.state, worn := r.worn, peerAbsent := r.peerAbsent, legs := r.legReports }

/-- The report of a ROUTE-QUERY (R119). -/
def queryReport (tag : Tag) (r : Route) : RouteReport :=
  { routeReport tag .make .query (r.reason.getD .none) r with kind := none }

/-- The reports of the answers owed that are not yet fixed are fixed (R117). -/
def fixReports (tag : Tag) (cls : OutcomeClass) (reason : Reason) (s : State) : State :=
  modRoute tag (fun r =>
    { r with owed := r.owed.map fun o =>
        match o.report with
        | some _ => o
        | none => { o with report := some (routeReport tag o.kind cls reason r) } }) s

/-- The report at the head of the answers owed, when it is ready (R119). -/
def Route.headReady (r : Route) : Option RouteReport :=
  match r.owed with
  | o :: _ => o.report
  | [] => none

/-- The head of the answers owed has been placed: an ENDED entry whose list is now empty becomes IDLE with its
generation kept (R80, R81, R119). -/
def Route.popOwed (r : Route) : Route :=
  if r.state == .ended && r.owed.length ≤ 1 then { Route.idle with gen := r.gen }
  else { r with owed := r.owed.tail }

/-- The messages held pending in an entry that has become IDLE stay pending outside any entry (R81). -/
def disownHeld (tag : Tag) (s : State) : State :=
  if (s.route tag).state == .idle then
    { s with rte.held := s.rte.held.map fun h => if h.owner == some tag then { h with owner := none } else h }
  else s

/-- The ready report of the lowest tag that has one is placed, when a place is free (R119, log 23). -/
def placeNextReport (s : State) : Option State :=
  if s.placeFree then
    (allTags.find? fun tag => (s.route tag).headReady.isSome).bind fun tag =>
      (s.route tag).headReady.map fun rep =>
        disownHeld tag (modRoute tag Route.popOwed (placeReport (.route rep) s))
  else none

/-- Ready reports are placed, at most `n` of them. -/
def placeReportsN : Nat → State → State
  | 0, s => s
  | n + 1, s =>
    match placeNextReport s with
    | some s' => placeReportsN n s'
    | none => s

/-- Ready reports are placed while places are free (R119). -/
def placeReports (s : State) : State := placeReportsN Config.reportPlaces s

/-! ## Timers and rounds (R97, R98) -/

/-- The reply timer is set to the reply limit for the use of the tag that `gen` names (R98). -/
def setReplyTimer (tag : Tag) (gen : Gen) (s : State) : State :=
  if (s.route tag).gen == gen && (s.route tag).state != .idle then
    modRoute tag (fun r => { r with timer := some s.cfg.replyLimit }) s
  else s

/-- Some endpoint is REQUESTED. -/
def Route.anyRequested (r : Route) : Bool := r.endpoints.any fun e => e.status == .requested

/-- The reply timers of routes with no REQUESTED endpoint are removed (R98). -/
def pruneTimers (s : State) : State :=
  { s with rte.routes := s.rte.routes.mapIdx fun _ r => if r.anyRequested then r else { r with timer := none } }

/-- The endpoints that a round addresses, each with its leg's trunk, in leg and endpoint order. -/
def Route.addressed (sel : Endpoint → Bool) (r : Route) : List (Trunk × Endpoint) :=
  r.legs.flatMap fun l =>
    match l.assigned with
    | some t => (l.endpoints.filter sel).map fun e => (t, e)
    | none => []

/-- The endpoints addressed become REQUESTED, each with its request record (R96, R97). -/
def Route.request (action : Action) (sel : Endpoint → Bool) (r : Route) : Route :=
  r.mapEndpoints fun l e =>
    if l.assigned.isSome && sel e then { e with status := .requested, request := some ⟨action, e.status⟩ } else e

/-- A round (R97): one OPERATE for each endpoint addressed on another station, one local job for each on this one. A
round without an OPERATE is handed over at its own event, which sets the reply timer (R98). -/
def makeRound (tag : Tag) (action : Action) (armed : Bool) (sel : Endpoint → Bool) (s : State) : State :=
  let r := s.route tag
  let remote := (r.addressed sel).filter fun q => !s.isSelf q.2.station
  let own := (r.addressed sel).filter fun q => s.isSelf q.2.station
  let jobs := own.map fun q =>
    ({ ref := ⟨s.self, tag, r.gen⟩, line := q.2.line, trunk := q.1, action := action, quiet := q.2.quiet,
       armed := armed } : JobRequest)
  let s := modRoute tag (Route.request action sel) s
  let operates := remote.map fun q => LinkMsg.operate q.2.station q.2.line q.1 action tag r.gen q.2.quiet armed
  let s := operates.foldl (fun s m => rteSend (some tag) m s) s
  if jobs.isEmpty && remote.isEmpty then s
  else
    let s := { s with rte.rounds := s.rte.rounds ++ [⟨tag, r.gen, action, operates, jobs⟩] }
    if remote.isEmpty then setReplyTimer tag r.gen s else s

/-- An OPERATE has been settled: the round that made it waits for one less (R97). A round with nothing left to hand over
goes with its last OPERATE. -/
def countSettled (m : LinkMsg) : List Round → List Round
  | [] => []
  | q :: qs =>
    if q.operates.contains m then
      let left := q.operates.erase m
      if q.jobs.isEmpty && left.isEmpty then qs else { q with operates := left } :: qs
    else q :: countSettled m qs

/-- The next local job to be handed over: the first of the first round whose OPERATEs are all settled (R97, log 21), the
rounds in the order of making (log 57). -/
def nextHandover : List Round → Option (JobRequest × List Round)
  | [] => none
  | q :: qs =>
    match q.operates, q.jobs with
    | [], j :: js => some (j, if js.isEmpty then qs else { q with jobs := js } :: qs)
    | _, _ => (nextHandover qs).map fun p => (p.1, q :: p.2)

/-! ## Ending an operation (R103, R106, R114) -/

/-- Some endpoint has a status that satisfies `p`. -/
def Route.anyStatus (p : EndpointStatus → Bool) (r : Route) : Bool := r.endpoints.any fun e => p e.status

/-- The state and the class with which a backout ends (R106). -/
def backoutVerdict (r : Route) : RouteState × OutcomeClass :=
  let lost := r.anyStatus fun st => st == .unknown || st == .left
  let chain := r.reason == some .chain
  (if lost then .quarantined else .ended,
    if chain then .fault else if lost then .indeterminate else .backedOut)

/-- The state, the class and the reason with which a break or a clear ends (R114). Where this station's chain fault
struck, the class is FAULT and the reason CHAIN whatever the row (R116, log 15). -/
def breakVerdict (r : Route) : RouteState × OutcomeClass × Reason :=
  let chain := r.reason == some .chain
  let row : RouteState × OutcomeClass × Reason :=
    if r.anyStatus (· == .unknown) then (.quarantined, .indeterminate, r.reason.getD .verify)
    else if r.anyStatus (· == .closed) then (.quarantined, .stopped, r.reason.getD .verify)
    else if r.anyStatus (· == .left) then (.ended, .notice, .peerAbsent)
    else (.ended, .complete, .none)
  if chain then (row.1, .fault, .chain) else row

/-- One message for each leg's assigned trunk, outside any route entry (R93, R106). They are made in leg order, as R106 and
R114 say, and at a failure in CLAIMING by the model's choice (log 55). -/
def sendForTrunks (msg : Trunk → LinkMsg) (trunks : List Trunk) (s : State) : State :=
  trunks.foldl (fun s t => rteSend none (msg t) s) s

/-- The assigned trunks of the legs, in leg order. -/
def Route.trunks (r : Route) : List Trunk := r.legs.filterMap Leg.assigned

/-- An operation ends in `state` with its reports fixed and placed. `linked` says that the trunks are released
(ENDED) or quarantined (QUARANTINED) on the link (R106, R114); at a clash no link message is made (R170). -/
def endOperation (linked : Bool) (tag : Tag) (state : RouteState) (cls : OutcomeClass) (reason : Reason)
    (s : State) : State :=
  let trunks := (s.route tag).trunks
  let s := if linked then sendForTrunks (if state == .ended then .release else .quarantine) trunks s else s
  placeReports (fixReports tag cls reason (modRoute tag (fun r => { r with state := state, timer := none }) s))

/-- The end of a backout (R106). -/
def endBackout (linked : Bool) (tag : Tag) (s : State) : State :=
  let v := backoutVerdict (s.route tag)
  endOperation linked tag v.1 v.2 ((s.route tag).reason.getD .verify) s

/-- The end of a break or a clear (R114). -/
def endBreak (linked : Bool) (tag : Tag) (s : State) : State :=
  let v := breakVerdict (s.route tag)
  endOperation linked tag v.1 v.2.1 v.2.2 s

/-- The end tests of R106 and R114, by the state of the entry. -/
def testEnd (tag : Tag) (s : State) : State :=
  match (s.route tag).state with
  | .backingOut =>
    if (s.route tag).anyStatus fun st => st == .requested || st == .armed || st == .closed then s
    else endBackout true tag s
  | .opening => if (s.route tag).anyRequested then s else endBreak true tag s
  | .clearing => if (s.route tag).anyRequested then s else endBreak true tag s
  | _ => s

/-- The route becomes MADE and its MAKE report is fixed (R103). The trunk table is not looked at (log 56). -/
def becomeMade (tag : Tag) (s : State) : State :=
  let s := modRoute tag (fun r => { r with state := .made, timer := none }) s
  let worn := (s.route tag).worn
  placeReports (fixReports tag (if worn then .notice else .complete) (if worn then .wearWarn else .none) s)

/-- A MADE route becomes DAMAGED and its tag is posted (R109). -/
def becomeDamaged (tag : Tag) (s : State) : State :=
  postRouteDamaged tag (modRoute tag (fun r => { r with state := .damaged, timer := none }) s)

/-! ## Backout (R104) -/

/-- A CLOSE request of the route. -/
def isCloseOf (tag : Tag) (gen : Gen) : LinkMsg → Bool
  | .operate _ _ _ .close t g _ _ => t == tag && g == gen
  | _ => false

/-- A PERMIT or FIRE of the route. -/
def isGoOf (tag : Tag) (gen : Gen) : LinkMsg → Bool
  | .permit t g => t == tag && g == gen
  | .fire t g => t == tag && g == gen
  | _ => false

/-- A CLAIM of the route. -/
def isClaimOf (tag : Tag) (gen : Gen) : LinkMsg → Bool
  | .claim _ t g _ => t == tag && g == gen
  | _ => false

/-- The OPERATE that names this endpoint on this trunk. -/
def namesEndpoint (e : Endpoint) (t : Option Trunk) : LinkMsg → Bool
  | .operate a l tr _ _ _ _ _ => a == e.station && l == e.line && some tr == t
  | _ => false

/-- Step 2 of R104: close requests not yet sent are withdrawn, the local ones not yet handed over among them, and
their endpoints become CANCELLED. The OPERATEs in flight are still to be settled. Every unsent close is withdrawn, also
one to a station that has just been declared absent or one whose reply timer has expired (R107, R99; log 42). -/
def withdrawCloses (tag : Tag) (s : State) : State :=
  let gen := (s.route tag).gen
  let msgs := ((s.liu.queue.filter fun i => !i.inFlight && isCloseOf tag gen i.msg).map QueueItem.msg)
    ++ ((s.rte.held.filter fun h => isCloseOf tag gen h.msg).map HeldMsg.msg)
  let ofRound := fun q : Round => q.tag == tag && q.gen == gen && q.action == .close
  let jobs := (s.rte.rounds.filter ofRound).flatMap Round.jobs
  let withdrawn := fun (l : Leg) (e : Endpoint) =>
    msgs.any (namesEndpoint e l.assigned)
      || (s.isSelf e.station && jobs.any fun j => j.line == e.line && some j.trunk == l.assigned)
  let s' := modRoute tag
    (Route.mapEndpoints fun l e => if withdrawn l e then { e with status := .cancelled } else e) s
  let flying := (s.liu.queue.filter fun i => i.inFlight && isCloseOf tag gen i.msg).map QueueItem.msg
  let s' := { s' with rte.rounds := s'.rte.rounds.filterMap fun q =>
      let left := q.operates.filter flying.contains
      if !(ofRound q) then some q else if left.isEmpty then none else some { q with operates := left, jobs := [] } }
  dropUnsent (isCloseOf tag gen) s'

/-- The states from which a backout also removes the route's unsent PERMIT and FIRE (R122). -/
def RouteState.armedUp (st : RouteState) : Bool := st == .arming || st == .staged

/-- A route starts backout (R104, R122) and is tested for its end (R105). -/
def startBackout (tag : Tag) (s : State) : State :=
  let gen := (s.route tag).gen
  let armedUp := (s.route tag).state.armedUp
  let s := modRoute tag (fun r => { r with state := .backingOut }) s
  let s := withdrawCloses tag s
  let s := if armedUp then dropUnsent (isGoOf tag gen) s else s
  let s := rteSend (some tag) (.abandon tag gen) s
  let s := modRoute tag (Route.mapEndpoints fun _ e =>
    if e.status == .armed then { e with status := .requested, request := some ⟨.close, .armed⟩ } else e) s
  let s := makeRound tag .opn false (fun e => e.status == .closed) s
  testEnd tag s

/-- The make has failed for a reason, which is kept when it is the first (R102, R107, R113). -/
def failMake (tag : Tag) (reason : Reason) (s : State) : State :=
  startBackout tag (modRoute tag (Route.withReason reason) s)

/-! ## Results (R100 to R105) -/

/-- The reason from a failed request (Table 7-4). -/
def failureReason : ResultCode → Reason
  | .hot => .hot
  | .retired => .retired
  | .lineTaken => .lineTaken
  | .notHeld => .notHeld
  | .busy => .peerBusy
  | .fault => .peerFault
  | .dropped => .dropped
  | .cancelled => .aborted
  | .verify => .verify
  | .closed => .verify
  | .closedWorn => .verify
  | .armed => .verify
  | .opened => .verify

/-- The status of an endpoint after a result (Table 7-3), or none where the result is discarded. `arming` says that
the route is ARMING, the one state in which ARMED moves an endpoint (R122, log 28). -/
def statusAfter (arming : Bool) (e : Endpoint) (code : ResultCode) : Option EndpointStatus :=
  let awaited := e.status == .requested || e.status == .unknown
  match awaited, e.request with
  | true, some q =>
    match q.action, code with
    | .close, .closed => some .closed
    | .close, .closedWorn => some .closed
    | .close, .armed => if arming && e.status == .requested then some .armed else some e.status
    | .close, .cancelled => some .cancelled
    | .close, .dropped => some .opn
    | .close, .verify => some .unknown
    | .close, .opened => some .unknown
    | .close, c => some (.failed c)
    | _, .opened => some .opn
    | _, .fault => some .opn
    | _, .dropped => some .opn
    | _, .hot => some q.prior
    | _, .busy => some q.prior
    | _, .notHeld => some q.prior
    | _, _ => some .unknown
  | _, _ => if e.status == .closed && code == .dropped then some .opn else none

/-- The endpoint that a result concerns: its participant, line and its leg's assigned trunk (R100). -/
def concerns (q : RouteResult) (l : Leg) (e : Endpoint) : Bool :=
  e.station == q.participant && e.line == q.line && l.assigned == some q.trunk

/-- The endpoint of a route that a result concerns. -/
def Route.findEndpoint (q : RouteResult) (r : Route) : Option Endpoint :=
  (r.legs.flatMap fun l => l.endpoints.filter (concerns q l)).head?

/-- A result taken in OPENING or CLEARING that did not leave its endpoint OPEN gives a reason, kept when it is the first
(Table 7-4, R117). That a late result of a close gives one too, also where the endpoint is then known open, is log 37. -/
def noteDecline (tag : Tag) (code : ResultCode) (status : EndpointStatus) (s : State) : State :=
  if status == .opn then s else modRoute tag (Route.withReason (failureReason code)) s

/-- What the route does on an endpoint's new status (R102, R103, R105, R114, R122). -/
def afterStatus (q : RouteResult) (status : EndpointStatus) (s : State) : State :=
  let tag := q.tag
  match (s.route tag).state with
  | .closing =>
    if status == .closed then
      if (s.route tag).endpoints.all fun e => e.status == .closed then becomeMade tag s else s
    else failMake tag (failureReason q.code) s
  | .arming =>
    if status == .armed then
      if (s.route tag).endpoints.all fun e => e.status == .armed then
        rteSend (some tag) (.permit tag (s.route tag).gen) s
      else s
    else if status == .requested then s
    else failMake tag (failureReason q.code) s
  | .backingOut =>
    let s := if status == .closed then
        makeRound tag .opn false (fun e => e.station == q.participant && e.line == q.line && e.status == .closed) s
      else s
    testEnd tag s
  | .made => if status == .closed then s else becomeDamaged tag s
  | .opening => testEnd tag (noteDecline tag q.code status s)
  | .clearing => testEnd tag (noteDecline tag q.code status s)
  | _ => s

/-- Whether a route in this state takes results (R100). -/
def RouteState.takesResults : RouteState → Bool
  | .idle => false
  | .planning => false
  | .claiming => false
  | .ended => false
  | _ => true

/-- The RTE takes a result (R100, R101). -/
def takeResult (q : RouteResult) (s : State) : State :=
  let r := s.route q.tag
  if r.state.takesResults && r.gen == q.gen then
    match r.findEndpoint q with
    | none => s
    | some e =>
      match statusAfter (r.state == .arming) e q.code with
      | none => s
      | some status =>
        let s := modRoute q.tag (fun r =>
          { (r.mapEndpoints fun l e => if concerns q l e then { e with status := status } else e) with
            worn := r.worn || q.code == .closedWorn }) s
        afterStatus q status s
  else s

/-! ## Planning (R86, R87) -/

/-- The trunk is named by a CLAIM of this station whose leg is QUEUED or SENT (R87). -/
def State.claimStands (s : State) (t : Trunk) : Bool :=
  s.rte.routes.cells.any fun r =>
    r.legs.any fun l => l.assigned == some t && (l.claim == .queued || l.claim == .sent)

/-- The lowest trunk that meets the AUTO conditions of R87. -/
def State.autoTrunk (s : State) (avoid lost : TrunkSet) (taken : List Trunk) : Option Trunk :=
  allTrunks.find? fun t =>
    s.entry t == .free && !hasTrunk avoid t && !hasTrunk lost t && !taken.contains t && !s.claimStands t

/-- Trunks for the legs: fixed legs as requested, AUTO legs the lowest trunk that meets the conditions (R87). -/
def assignLegs (s : State) (avoid : TrunkSet) : List Trunk → List Leg → Option (List Leg)
  | _, [] => some []
  | taken, l :: ls =>
    match l.requested with
    | some t =>
      if s.entry t == .free && !hasTrunk avoid t then
        (assignLegs s avoid taken ls).map fun ls => { l with assigned := some t, claim := .queued } :: ls
      else none
    | none =>
      match s.autoTrunk avoid l.lost taken with
      | some t => (assignLegs s avoid (t :: taken) ls).map fun ls => { l with assigned := some t, claim := .queued } :: ls
      | none => none

/-- A leg number as a CLAIM carries it. -/
def legNumber (i : Nat) : Fin 4 := Fin.ofNat 4 i

/-- The route ends REFUSED with its first-failure reason (R81). -/
def refuseRoute (tag : Tag) (reason : Reason) (s : State) : State :=
  let s := modRoute tag (fun r => { r.withReason reason with state := .ended, timer := none }) s
  placeReports (fixReports tag .refused ((s.route tag).reason.getD reason) s)

/-- The planning step of a route in PLANNING (R87). -/
def planStep (tag : Tag) (s : State) : State :=
  let r := s.route tag
  if r.state == .planning then
    match assignLegs s r.avoid (r.legs.filterMap Leg.requested) r.legs with
    | none => refuseRoute tag .noTrunk s
    | some legs =>
      let s := modRoute tag (fun r => { r with legs := legs, state := .claiming }) s
      (List.zip (List.range legs.length) legs).foldl (fun s p =>
        match p.2.assigned with
        | some t => rteSend (some tag) (.claim t tag r.gen (legNumber p.1)) s
        | none => s) s
  else s

/-- Planning steps for every route in PLANNING, in tag order, when the station is ONLINE and not stale (R86). -/
def planAll (s : State) : State :=
  if s.stc.station == .online && !s.ttu.stale then allTags.foldl (fun s tag => planStep tag s) s else s

/-! ## Claiming (R88 to R93) -/

/-- One leg changed. -/
def modLeg (tag : Tag) (i : Nat) (f : Leg → Leg) (s : State) : State :=
  modRoute tag (Route.mapLegs fun j l => if j == i then f l else l) s

/-- The route is in CLAIMING and failing (R93). -/
def Route.failing (r : Route) : Bool := r.state == .claiming && r.reason.isSome

/-- A failing route with no leg QUEUED or SENT ends REFUSED (R93). -/
def endIfResolved (tag : Tag) (s : State) : State :=
  let r := s.route tag
  if r.failing && !(r.legs.any fun l => l.claim == .queued || l.claim == .sent) then
    refuseRoute tag (r.reason.getD .noTrunk) s
  else s

/-- The CLAIMs of a route that wait or are held pending are removed; their legs become UNPLANNED (R93). -/
def removeClaims (tag : Tag) (s : State) : State :=
  let gen := (s.route tag).gen
  dropUnsent (isClaimOf tag gen) <|
    modRoute tag (Route.mapLegs fun _ l =>
      if l.claim == .queued then { l with claim := .unplanned, assigned := none } else l) s

/-- A route in CLAIMING fails (R93): the first failure removes its unsent CLAIMs and releases its won trunks. -/
def failClaiming (tag : Tag) (reason : Reason) (s : State) : State :=
  let r := s.route tag
  if r.state == .claiming then
    if r.failing then endIfResolved tag s
    else
      let s := removeClaims tag (modRoute tag (Route.withReason reason) s)
      let won := (r.legs.filter fun l => l.claim == .won).filterMap Leg.assigned
      endIfResolved tag (sendForTrunks .release won s)
  else s

/-- A leg replans by the AUTO conditions (R92), or the route fails NO-TRUNK. -/
def replan (tag : Tag) (i : Nat) (s : State) : State :=
  let r := s.route tag
  match r.legs[i]? with
  | none => s
  | some l =>
    let others := (r.legs.eraseIdx i).filterMap Leg.assigned
    match s.autoTrunk r.avoid l.lost others with
    | some t =>
      rteSend (some tag) (.claim t tag r.gen (legNumber i))
        (modLeg tag i (fun l => { l with assigned := some t, claim := .queued }) s)
    | none => failClaiming tag .noTrunk s

/-- A leg has lost its trunk. `charged` says that its CLAIM was sent (R91); a loss before send is not charged (R90). -/
def loseClaim (tag : Tag) (i : Nat) (t : Trunk) (charged : Bool) (s : State) : State :=
  let failing := (s.route tag).failing
  match (s.route tag).legs[i]? with
  | none => s
  | some l =>
    let s := modLeg tag i (fun l => { l with lost := l.lost ||| trunkBit t, claim := .lost }) s
    if failing then endIfResolved tag s
    else if l.requested.isSome || (charged && 2 ≤ l.replans) then failClaiming tag .noTrunk s
    else replan tag i (modLeg tag i (fun l => { l with replans := if charged then l.replans + 1 else l.replans }) s)

/-- A leg has won its trunk (R89, R93). The last leg won takes the route to CLOSING or ARMING. -/
def winClaim (tag : Tag) (i : Nat) (t : Trunk) (s : State) : State :=
  let failing := (s.route tag).failing
  let s := modLeg tag i (fun l => { l with claim := .won }) s
  let r := s.route tag
  if failing then endIfResolved tag (rteSend none (.release t) s)
  else if r.legs.all fun l => l.claim == .won then
    makeRound tag .close r.stage (fun _ => true)
      (modRoute tag (fun r => { r with state := if r.stage then .arming else .closing }) s)
  else s

/-- The leg that a CLAIM of this station concerns, when it is in CLAIMING with that status and trunk. -/
def State.claimLeg (s : State) (status : ClaimStatus) (t : Trunk) (tag : Tag) (gen : Gen) (leg : Fin 4) : Bool :=
  let r := s.route tag
  r.state == .claiming && r.gen == gen &&
    match r.legs[leg.val]? with
    | some l => l.claim == status && l.assigned == some t
    | none => false

/-- The TTU's report of a CLAIM of this station (R47). -/
def reportClaim (won : Bool) (t : Trunk) (tag : Tag) (gen : Gen) (leg : Fin 4) (s : State) : State :=
  if s.claimLeg .sent t tag gen leg then
    if won then winClaim tag leg.val t s else loseClaim tag leg.val t true s
  else s

/-- The LIU's report of a CLAIM lost before send (R40, R90). -/
def reportLostBeforeSend (t : Trunk) (tag : Tag) (gen : Gen) (leg : Fin 4) (s : State) : State :=
  if s.claimLeg .queued t tag gen leg then loseClaim tag leg.val t false s else s

/-- A CLAIM has been taken into the frame: its leg becomes SENT (R88). -/
def markSent (t : Trunk) (tag : Tag) (gen : Gen) (leg : Fin 4) (s : State) : State :=
  if s.claimLeg .queued t tag gen leg then modLeg tag leg.val (fun l => { l with claim := .sent }) s else s

/-! ## Adoption (R74 to R76) -/

/-- Some other leg of this station's routes has won the trunk. -/
def State.wonElsewhere (s : State) (t : Trunk) : Bool :=
  s.rte.routes.cells.any fun r => r.legs.any fun l => l.assigned == some t && l.claim == .won

/-- A SENT leg is resolved by the adopted table (R74). -/
def resolveLeg (tag : Tag) (i : Nat) (s : State) : State :=
  match (s.route tag).legs[i]? with
  | some l =>
    match l.claim, l.assigned with
    | .sent, some t =>
      if s.holds t && !s.wonElsewhere t then winClaim tag i t s else loseClaim tag i t true s
    | _, _ => s
  | none => s

/-- Every SENT leg is resolved, in tag order and leg order (R74). -/
def resolveClaims (s : State) : State :=
  allTags.foldl (fun s tag => (List.range 4).foldl (fun s i => resolveLeg tag i s) s) s

/-- MADE routes with a trunk that the table does not show HELD by this station become DAMAGED (R75). -/
def damageUnheld (s : State) : State :=
  allTags.foldl (fun s tag =>
    let r := s.route tag
    if r.state == .made && r.trunks.any (fun t => !s.holds t) then becomeDamaged tag s else s) s

/-- A RELEASE or QUARANTINE of the trunk. -/
def givesUp (t : Trunk) : LinkMsg → Bool
  | .release t' => t' == t
  | .quarantine t' => t' == t
  | _ => false

/-- One of this station's records accounts for the trunk (R76). -/
def State.accounted (s : State) (t : Trunk) : Bool :=
  (s.rte.routes.cells.any fun r =>
      r.state != .idle && r.legs.any fun l => l.assigned == some t && l.claim == .won)
    || (s.liu.queue.any fun i => givesUp t i.msg) || (s.rte.held.any fun h => givesUp t h.msg)

/-- A RELEASE for each orphaned trunk, in trunk order (R76). -/
def releaseOrphans (s : State) : State :=
  allTrunks.foldl (fun s t => if s.owns t && !s.accounted t then rteSend none (.release t) s else s) s

/-! ## Absence and return (R94, R107, R108) -/

/-- The route has an endpoint at the station. -/
def Route.reaches (a : Addr) (r : Route) : Bool := r.endpoints.any fun e => e.station == a

/-- The endpoints at an absent station change by their status (R107). -/
def Route.loseStation (a : Addr) (r : Route) : Route :=
  let requested := r.endpoints.any fun e => e.station == a && e.status == .requested
  let left := r.endpoints.any fun e => e.station == a && (e.status == .closed || e.status == .armed)
  let r := r.mapEndpoints fun _ e =>
    if e.station == a then
      match e.status with
      | .requested => { e with status := .unknown }
      | .closed => { e with status := .left }
      | .armed => { e with status := .left }
      | _ => e
    else e
  let r := if requested then r.withReason .peerAbsent else r
  { r with peerAbsent := r.peerAbsent || left }

/-- One route takes the absence of another station (R94, R107). -/
def routeAbsence (a : Addr) (tag : Tag) (s : State) : State :=
  let r := s.route tag
  if r.reaches a then
    match r.state with
    | .idle => s
    | .ended => s
    | .planning => refuseRoute tag .peerAbsent s
    | .claiming => failClaiming tag .peerAbsent s
    | .closing => failMake tag .peerAbsent (modRoute tag (Route.loseStation a) s)
    | .arming => failMake tag .peerAbsent (modRoute tag (Route.loseStation a) s)
    | .staged => failMake tag .peerAbsent (modRoute tag (Route.loseStation a) s)
    | .made =>
      let s := modRoute tag (Route.loseStation a) s
      if (s.route tag).endpoints.all fun e => e.status == .closed then s else becomeDamaged tag s
    | .backingOut => testEnd tag (modRoute tag (Route.loseStation a) s)
    | .opening => testEnd tag (modRoute tag (Route.loseStation a) s)
    | .clearing => testEnd tag (modRoute tag (Route.loseStation a) s)
    | .damaged => modRoute tag (Route.loseStation a) s
    | .quarantined => modRoute tag (Route.loseStation a) s
  else s

/-- One route takes the return of a station (R108): its LEFT endpoints there become OPEN after a rejoin, UNKNOWN
otherwise. -/
def routeReturn (a : Addr) (rejoining : Bool) (tag : Tag) (s : State) : State :=
  testEnd tag (modRoute tag (Route.mapEndpoints fun _ e =>
    if e.station == a && e.status == .left then { e with status := if rejoining then .opn else .unknown } else e) s)

/-! ## The own chain fault (R95, R116) -/

/-- One route takes this station's chain fault. -/
def routeChainFault (tag : Tag) (s : State) : State :=
  let chained := fun s => modRoute tag (fun r => { r with reason := some .chain }) s
  match (s.route tag).state with
  | .planning => refuseRoute tag .stationFault s
  | .claiming => failClaiming tag .stationFault s
  | .arming => startBackout tag (chained s)
  | .staged => startBackout tag (chained s)
  | .closing => startBackout tag (chained s)
  | .backingOut => chained s
  | .opening => chained s
  | .clearing => chained s
  | _ => s

/-! ## Clash (R170) -/

/-- REQUESTED and ARMED endpoints become UNKNOWN, and NOT-ONLINE is the reason when none is set (R170). -/
def Route.cutOff (r : Route) : Route :=
  (r.mapEndpoints fun _ e =>
    if e.status == .requested || e.status == .armed then { e with status := .unknown } else e).withReason .notOnline

/-- One route is settled at entry to CLASH (R170). No link message is made. -/
def routeClash (tag : Tag) (s : State) : State :=
  match (s.route tag).state with
  | .planning => refuseRoute tag .notOnline s
  | .claiming =>
    let s := dropUnsent (isClaimOf tag (s.route tag).gen) s
    let s := modRoute tag (fun r =>
      { (r.mapLegs fun _ l => if l.claim == .won then l else { l with claim := .lost }) with reason := none }) s
    refuseRoute tag .notOnline s
  | .arming => endBackout false tag (modRoute tag Route.cutOff s)
  | .staged => endBackout false tag (modRoute tag Route.cutOff s)
  | .closing => endBackout false tag (modRoute tag Route.cutOff s)
  | .backingOut => endBackout false tag (modRoute tag Route.cutOff s)
  | .opening => endBreak false tag (modRoute tag Route.cutOff s)
  | .clearing => endBreak false tag (modRoute tag Route.cutOff s)
  | .made => becomeDamaged tag s
  | _ => s

/-! ## Permit, trigger and fire (R123, R127, R128) -/

/-- The originator's route takes the settlement of its PERMIT: ARMING becomes STAGED (R123). -/
def routePermitted (tag : Tag) (gen : Gen) (s : State) : State :=
  if (s.route tag).gen == gen && (s.route tag).state == .arming then
    modRoute tag (fun r => { r with state := .staged }) s
  else s

/-- A STAGED route is fired: CLOSING, its ARMED endpoints REQUESTED, its reply timer set (R127). -/
def fireRoute (tag : Tag) (s : State) : State :=
  if (s.route tag).state == .staged then
    modRoute tag (fun r =>
      { (r.mapEndpoints fun _ e =>
          if e.status == .armed then { e with status := .requested, request := some ⟨.close, .armed⟩ } else e) with
        state := .closing, timer := some s.cfg.replyLimit }) s
  else s

/-- The originator's route takes the settlement of its FIRE (R128). -/
def routeFired (tag : Tag) (gen : Gen) (s : State) : State :=
  if (s.route tag).gen == gen then fireRoute tag s else s

/-! ## Reply timer expiry (R99) -/

/-- The reply timer of a route expires. -/
def expireReply (tag : Tag) (s : State) : State :=
  let s := modRoute tag (fun r =>
    { (r.mapEndpoints fun _ e => if e.status == .requested then { e with status := .unknown } else e).withReason
        .noReply with timer := none }) s
  match (s.route tag).state with
  | .closing => startBackout tag s
  | .arming => startBackout tag s
  | .staged => startBackout tag s
  | _ => testEnd tag s

end Sys2Proof.Machine
end

