-- ==== Sys2Proof/Machine/JobOps.lean ====
section
/-! DEFINITION. The Job Unit: returning results, intake, the exchange of local jobs and local results with the RTE,
admission, the quiet interlock, withdrawn work and armed jobs (07, 08, 02 R41). -/

namespace Sys2Proof.Machine

/-! ## One job -/

/-- The job ends DONE; a held ARMED answer is discarded (R121, R135). -/
def Job.finish (code : ResultCode) (j : Job) : Job := { j with state := .done code, heldArmed := false }

/-- DONE. -/
def Job.isDone (j : Job) : Bool :=
  match j.state with
  | .done _ => true
  | _ => false

/-- DEFERRED, QUIET-WAIT, READY, ARMED-HELD or PERMITTED: the states from which a close can be cancelled (R135,
R140). -/
def Job.cancellable (j : Job) : Bool := !j.isDone && j.state != .inBatch

/-- ARMED-HELD or PERMITTED. -/
def Job.isArmed (j : Job) : Bool := j.state == .armedHeld || j.state == .permitted

/-- The job's crosspoint. -/
def Job.xp (j : Job) : Xp := xpNum j.line j.trunk

/-- A job of this route ref, line, trunk and action: the key by which a request is a duplicate (R133). -/
def Job.hasKey (ref : RouteRef) (line : Line) (trunk : Trunk) (action : Action) (j : Job) : Bool :=
  j.ref == ref && j.line == line && j.trunk == trunk && j.action == some action

/-- The RESULT that a job, or a request answered at intake, draws (R145, R133). -/
def resultMsg (ref : RouteRef) (line : Line) (trunk : Trunk) (code : ResultCode) : LinkMsg :=
  .result ref.origin ref.tag ref.gen line trunk code

/-- One job of the list replaced, in its place. -/
def replaceJob (old new : Job) (s : State) : State :=
  { s with jbu.jobs := s.jbu.jobs.map fun j => if j == old then new else j }

/-- One job removed from the list. -/
def removeJob (j : Job) (s : State) : State := { s with jbu.jobs := s.jbu.jobs.erase j }

/-- A result is on its way to this station's RTE. The RTE takes it in the same event, by `exchange`. -/
def deliverLocal (ref : RouteRef) (line : Line) (trunk : Trunk) (code : ResultCode) (s : State) : State :=
  { s with rte.inbox := s.rte.inbox ++ [⟨s.self, ref.tag, ref.gen, line, trunk, code⟩] }

/-! ## Returning results (R145) -/

/-- The closes that a job's cancellation holds behind it (R135). -/
def Job.follower (j : Job) (c : Job) : Bool :=
  c.ref == j.ref && c.line == j.line && c.trunk == j.trunk && c.behind.isSome && c.behind == j.action

/-- A cancelled close whose canceller's result has just left follows it at once, when it can; otherwise it waits for
admission like any held result (R135, R41). -/
def returnFollower (c : Job) (s : State) : State :=
  if s.isSelf c.ref.origin then removeJob c (deliverLocal c.ref c.line c.trunk .cancelled s)
  else if s.queueHasPlace then removeJob c (enqueue (resultMsg c.ref c.line c.trunk .cancelled) s)
  else replaceJob c { c with behind := none } s

/-- The closes held behind a job are returned (R135). -/
def returnFollowers (j : Job) (s : State) : State :=
  (s.jbu.jobs.filter j.follower).foldl (fun s c => returnFollower c s) s

/-- A job's result leaves without answer when it comes back from a batch and the job's origin is another station that
is ABSENT (R141), or this station is in CLASH (R170). -/
def State.unanswered (s : State) (ref : RouteRef) : Bool :=
  !s.isSelf ref.origin && ((s.mbu.members.get ref.origin).state == .absent || s.stc.station == .clash)

/-- A DONE job's result is returned, or the job keeps it when the queue is full (R145). -/
def returnJob (fromBatch : Bool) (j : Job) (s : State) : State :=
  match j.state with
  | .done code =>
    if s.isSelf j.ref.origin then returnFollowers j (removeJob j (deliverLocal j.ref j.line j.trunk code s))
    else if fromBatch && s.unanswered j.ref then
      { s with jbu.jobs := (s.jbu.jobs.erase j).filter fun c => !j.follower c }
    else if s.queueHasPlace then
      returnFollowers j (removeJob j (enqueue (resultMsg j.ref j.line j.trunk code) s))
    else s
  | _ => s

/-- One job ends DONE and its result is returned. -/
def endJob (code : ResultCode) (j : Job) (s : State) : State :=
  returnJob (j.state == .inBatch) (j.finish code) (replaceJob j (j.finish code) s)

/-! ## Intake (R133 to R136, R121) -/

/-- An answer given at intake: delivered to this station's RTE, or sent when the queue has a place and otherwise
lost. -/
def answerAtIntake (q : JobRequest) (code : ResultCode) (s : State) : State :=
  if s.isSelf q.ref.origin then deliverLocal q.ref q.line q.trunk code s
  else enqueue (resultMsg q.ref q.line q.trunk code) s

/-- A job becomes ARMED-HELD and its ARMED answer is given or held (R121). -/
def armJob (j : Job) (s : State) : State :=
  if s.isSelf j.ref.origin then
    deliverLocal j.ref j.line j.trunk .armed (replaceJob j { j with state := .armedHeld } s)
  else if s.queueHasPlace then
    enqueue (resultMsg j.ref j.line j.trunk .armed) (replaceJob j { j with state := .armedHeld } s)
  else replaceJob j { j with state := .armedHeld, heldArmed := true } s

/-- The closes of a job's route on its crosspoint end CANCELLED behind it (R135). -/
def cancelCloses (j : Job) (s : State) : State :=
  { s with jbu.jobs := s.jbu.jobs.map fun c =>
      if c.hasKey j.ref j.line j.trunk .close && c.cancellable then { c.finish .cancelled with behind := j.action }
      else c }

/-- A job waits for its quiet input, its hot-wait counter started at the limit unless it has one (R138). -/
def State.quietWaiting (s : State) (j : Job) : Job :=
  { j with state := .quietWait, counter := some (j.counter.getD s.cfg.hotWait) }

/-- Step 4 of R134. -/
def placeByQuiet (j : Job) (s : State) : State :=
  replaceJob j (if quietOk s.jbu.quiet j.quiet then { j with state := .ready } else s.quietWaiting j) s

/-- Some job on the crosspoint is IN-BATCH (R134 step 3). -/
def State.xpInBatch (s : State) (x : Xp) : Bool :=
  s.jbu.jobs.any fun j => j.state == .inBatch && j.xp == x

/-- Steps 2 to 4 of R134 for an OPEN or FORCE-OPEN. -/
def placeOpen (j : Job) (s : State) : State :=
  let s := cancelCloses j s
  if (s.xp j.xp).isOpen && !s.xpInBatch j.xp then endJob .opened j s else placeByQuiet j s

/-- The second stage of intake (R134), or ARMED-HELD for an armed job (R121). -/
def placeJob (j : Job) (s : State) : State :=
  if j.armed then armJob j s
  else
    match j.action with
    | some .forceOpen =>
      if (s.entry j.trunk).ownedBy j.ref.origin then placeOpen j s else endJob .notHeld j s
    | some .opn => placeOpen j s
    | _ => placeByQuiet j s

/-- The job that a request becomes, before its second stage. -/
def Job.ofRequest (q : JobRequest) : Job :=
  { ref := q.ref, line := q.line, trunk := q.trunk, action := some q.action, quiet := q.quiet, armed := q.armed,
    state := .deferred, counter := none, heldArmed := false, behind := none }

/-- The job list holds fewer than 32 jobs (R132). -/
def State.jobPlace (s : State) : Bool := s.jbu.jobs.length < Config.jobPlaces

/-- Intake (R133, R136). -/
def intake (q : JobRequest) (s : State) : State :=
  if s.stc.station == .fault then answerAtIntake q .fault s
  else if !s.jobPlace then answerAtIntake q .busy s
  else if s.jbu.jobs.any (Job.hasKey q.ref q.line q.trunk q.action) then s
  else
    let j := Job.ofRequest q
    let s := { s with jbu.jobs := s.jbu.jobs ++ [j] }
    if s.ttu.stale then s else placeJob j s

/-! ## The exchange with the RTE (R97, R145, log 22) -/

/-- One local result is taken by the RTE, or one local job is handed over to the JBU; none when nothing waits. -/
def exchangeStep (s : State) : Option State :=
  match s.rte.inbox with
  | q :: qs => some (takeResult q { s with rte.inbox := qs })
  | [] => (nextHandover s.rte.rounds).map fun p => intake p.1 { s with rte.rounds := p.2 }

/-- At most `n` steps of the exchange (logs 22, 45). -/
def exchangeN : Nat → State → State
  | 0, s => s
  | n + 1, s =>
    match exchangeStep s with
    | some s' => exchangeN n s'
    | none => s

/-- Local results and local jobs pass until none waits. -/
def exchange (s : State) : State := exchangeN Config.exchangeBound s

/-- The jobs for which `verdict` gives a code end DONE; their results are then returned in job-list order, each local
one taken by the RTE at once (R145, log 43). -/
def endJobs (verdict : Job → Option ResultCode) (s : State) : State :=
  let ended := s.jbu.jobs.filterMap fun j => (verdict j).map fun c => (j.state == .inBatch, j.finish c)
  let s := { s with jbu.jobs := s.jbu.jobs.map fun j => ((verdict j).map fun c => j.finish c).getD j }
  ended.foldl (fun s p => exchange (returnJob p.1 p.2 s)) s

/-! ## DROPPED findings (R145) -/

/-- The notice job of a DROPPED that finds the queue full. -/
def noticeJob (ref : RouteRef) (x : Xp) : Job :=
  { ref := ref, line := xpLine x, trunk := xpTrunk x, action := none, quiet := .none, armed := false,
    state := .done .dropped, counter := none, heldArmed := false, behind := none }

/-- A DROPPED is delivered, sent, kept as a notice job or lost (R145); in CLASH one for another station is discarded
(R170). -/
def sendDropped (ref : RouteRef) (x : Xp) (s : State) : State :=
  if s.isSelf ref.origin then deliverLocal ref (xpLine x) (xpTrunk x) .dropped s
  else if s.stc.station == .clash then s
  else if s.queueHasPlace then enqueue (resultMsg ref (xpLine x) (xpTrunk x) .dropped) s
  else if s.jobPlace then { s with jbu.jobs := s.jbu.jobs ++ [noticeJob ref x] }
  else postDroppedLost s

/-- DROPPEDs in the order given, each local one taken by the RTE at once. -/
def sendAllDropped (found : List (RouteRef × Xp)) (s : State) : State :=
  found.foldl (fun s p => exchange (sendDropped p.1 p.2 s)) s

/-! ## Admission (R41) -/

/-- One job's held result or held ARMED answer is admitted when a place remains. -/
def admitJob (j : Job) (s : State) : State :=
  if s.queueHasPlace && s.jbu.jobs.contains j then
    match j.state, j.behind with
    | .done _, none => returnJob false j s
    | .done _, some _ => s
    | _, _ =>
      if j.heldArmed then
        enqueue (resultMsg j.ref j.line j.trunk .armed) (replaceJob j { j with heldArmed := false } s)
      else s
  else s

/-- One message held pending by the RTE is admitted when a place remains. -/
def admitHeld (h : HeldMsg) (s : State) : State :=
  if s.queueHasPlace then { enqueue h.msg s with rte.held := s.rte.held.erase h } else s

/-- Held items join the queue while places remain: the JBU's in job-list order, then the RTE's in the order of making
(R41). -/
def admitAll (s : State) : State :=
  let s := s.jbu.jobs.foldl (fun s j => admitJob j s) s
  s.rte.held.foldl (fun s h => admitHeld h s) s

/-! ## The quiet interlock (R137, R138) -/

/-- Quiet input `q` takes a level (R137). -/
def takeQuiet (q : Fin 4) (asserted : Bool) (s : State) : State :=
  let s := { s with jbu.quiet := if asserted then s.jbu.quiet ||| (1#4 <<< q.val) else s.jbu.quiet &&& ~~~(1#4 <<< q.val) }
  if asserted then
    { s with jbu.jobs := s.jbu.jobs.map fun j =>
        if j.state == .quietWait && quietInput j.quiet == some q then { j with state := .ready } else j }
  else s

/-- The counter of a job in QUIET-WAIT loses 1 (R138). -/
def Job.countDown (j : Job) : Job :=
  if j.state == .quietWait then { j with counter := j.counter.map (· - 1) } else j

/-- The hot-wait counters at a cycle mark: those brought to 0 end their jobs HOT (R138). -/
def countHotWaits (s : State) : State :=
  endJobs (fun j => if j.state == .quietWait && j.counter == some 0 then some .hot else none)
    { s with jbu.jobs := s.jbu.jobs.map Job.countDown }

/-- The hot-wait expiry of one job (R138). -/
def expireHotWait (ref : RouteRef) (line : Line) (trunk : Trunk) (action : Action) (s : State) : State :=
  let named := fun j : Job => j.hasKey ref line trunk action && j.state == .quietWait
  endJobs (fun j => if named j then some .hot else none)
    { s with jbu.jobs := s.jbu.jobs.map fun j => if named j then { j with counter := some 0 } else j }

/-! ## Withdrawn work (R140, R141, R170) -/

/-- An ABANDON of a route ref (R140, R129). -/
def takeAbandon (ref : RouteRef) (s : State) : State :=
  endJobs (fun j => if j.ref == ref && j.action == some .close && j.cancellable then some .cancelled else none) s

/-- The jobs of an absent origin leave without answer, those IN-BATCH excepted (R141). -/
def removeOrigin (a : Addr) (s : State) : State :=
  { s with jbu.jobs := s.jbu.jobs.filter fun j => j.ref.origin != a || j.state == .inBatch }

/-- At entry to CLASH every job not IN-BATCH leaves without answer (R170). -/
def clearJobs (s : State) : State := { s with jbu.jobs := s.jbu.jobs.filter fun j => j.state == .inBatch }

/-! ## Armed jobs (R123, R126, R128, R129) -/

/-- A PERMIT of a route ref (R123). -/
def takePermit (ref : RouteRef) (s : State) : State :=
  { s with jbu.jobs := s.jbu.jobs.map fun j =>
      if j.ref == ref && j.state == .armedHeld then { j with state := .permitted } else j }

/-- The PERMITTED jobs that satisfy `fires` are fired (R126, R128). A held ARMED answer does not outlive PERMITTED
(Table 9-1, log 34). -/
def fireJobs (fires : Job → Bool) (s : State) : State :=
  { s with jbu.jobs := s.jbu.jobs.map fun j =>
      if fires j && j.state == .permitted then { j with state := .ready, heldArmed := false } else j }

/-- A FIRE of a route ref (R128). -/
def takeFire (ref : RouteRef) (s : State) : State := fireJobs (fun j => j.ref == ref) s

/-- A trigger (R126, R127): the routes in tag order, and the jobs. -/
def takeTrigger (s : State) : State := fireJobs (fun _ => true) (allTags.foldl (fun s tag => fireRoute tag s) s)

/-- The trunk test of the armed jobs (R129), applied where the stray-contact rule is. -/
def armedTest (s : State) : State :=
  if s.ttu.valid && !s.ttu.stale then
    endJobs (fun j => if j.isArmed && s.entry j.trunk != .held j.ref.origin then some .notHeld else none) s
  else s

/-- The stray-contact rule with the armed trunk test, at one point and against one table (R142). -/
def strayPoint (s : State) : State := armedTest (strayRule s)

/-! ## DEFERRED jobs at an adoption (R77, R136) -/

/-- One DEFERRED job is placed, whole. -/
def placeDeferred (j : Job) (s : State) : State :=
  if s.jbu.jobs.contains j then exchange (placeJob j s) else s

/-- Every DEFERRED job is placed, in job-list order. -/
def placeAllDeferred (s : State) : State :=
  (s.jbu.jobs.filter fun j => j.state == .deferred).foldl (fun s j => placeDeferred j s) s

end Sys2Proof.Machine
end

