-- ==== Sys2Proof/Machine/EngineOps.lean ====
section
/-! DEFINITION. The Commit Engine: batch formation, the two strokes, the CHECK pass and the chain fault (09). -/

namespace Sys2Proof.Machine

/-! ## Batch formation (R150, R139, R151) -/

/-- A sweep mark is eligible: quiet index NONE, input asserted, or sweep timer expired (R150). -/
def State.eligible (s : State) (c : Crosspoint) : Bool :=
  c.marked && (quietOk s.jbu.quiet c.quiet || s.jbu.sweep == .expired)

/-- A batch formation is due: the CME is IDLE, no CHECK waits, and there is a READY job or an eligible mark (R150). -/
def State.formationDue (s : State) : Bool :=
  s.cme.engine == .idle && s.cme.check.isNone &&
    ((s.jbu.jobs.any fun j => j.state == .ready) || s.cme.xps.cells.any s.eligible)

/-- What becomes of a READY job at a formation (R139): a code that ends it, or its new form. -/
def State.offer (s : State) (j : Job) : ResultCode ⊕ Job :=
  let c := s.xp j.xp
  let taken : Job := { j with state := .inBatch }
  if !quietOk s.jbu.quiet j.quiet then .inr (s.quietWaiting j)
  else
    match j.action with
    | some .opn =>
      if c.isOpen then .inl .opened
      else if c.standing && c.owner == some j.ref then .inr taken
      else .inl .lineTaken
    | some .forceOpen => if c.isOpen then .inl .opened else .inr taken
    | _ => .inr taken

/-- The code with which a READY job ends in step 1 of a formation, if it does. -/
def State.offerEnds (s : State) (j : Job) : Option ResultCode :=
  if j.state == .ready then
    match s.offer j with
    | .inl code => some code
    | .inr _ => none
  else none

/-- The READY jobs are offered to the JBU (R150 step 1). Those that end stay as they are here, until the formation
returns its results. -/
def offerJobs (s : State) : State :=
  { s with jbu.jobs := s.jbu.jobs.map fun j =>
      if j.state == .ready then
        match s.offer j with
        | .inl _ => j
        | .inr j' => j'
      else j }

/-- The job is an IN-BATCH open of the opening list. -/
def Job.opening (j : Job) : Bool := j.state == .inBatch && (j.action == some .opn || j.action == some .forceOpen)

/-- The job is an IN-BATCH close of the closing list. -/
def Job.closing (j : Job) : Bool := j.state == .inBatch && j.action == some .close

/-- The crosspoint is opened for a job of the batch. -/
def State.openedByJob (s : State) (x : Xp) : Bool := s.jbu.jobs.any fun j => j.opening && j.xp == x

/-- The crosspoint is in the opening list of the batch (R150). -/
def State.inOpening (s : State) (x : Xp) : Bool := s.openedByJob x || s.cme.sweeps.any fun w => w.xp == x

/-- The sweeps of a formation are taken (R150 step 2, R143, R144). While the timer is expired every marked crosspoint is
a forced sweep whatever its quiet input, as R143 says, by which R150 has the sweeps taken (log 17). The marks of the sweeps, and of the crosspoints opened for a job, are cleared. -/
def takeSweeps (s : State) : State :=
  let forced := s.jbu.sweep == .expired
  let taken := s.xpList.filter fun p => s.eligible p.2 && !s.openedByJob p.1
  { s with
    cme.sweeps := taken.map fun p => ⟨p.1, forced⟩
    cme.xps := s.cme.xps.mapIdx fun x c =>
      if s.eligible c || s.openedByJob x then { c with marked := false } else c
    jbu.sweep := if forced then .absent else s.jbu.sweep }

/-- The result of a close whose contact stands (R10, R14). -/
def State.closedCode (s : State) (x : Xp) : ResultCode :=
  if s.warnLevel ≤ (s.xp x).wear then .closedWorn else .closed

/-- How a check of R151 decides a close. -/
inductive CloseCheck where
  | refuse (code : ResultCode)
  | keepWaiting
  | keep
deriving DecidableEq, Repr

/-- Some crosspoint of the line other than `x` is not OPEN and satisfies `p`. -/
def State.otherOnLine (s : State) (x : Xp) (p : Xp → Bool) : Bool :=
  s.xpList.any fun q => xpLine q.1 == xpLine x && q.1 != x && !q.2.isOpen && p q.1

/-- A close on another crosspoint of the line was kept before (R9). -/
def otherKept (kept : List Xp) (x : Xp) : Bool := kept.any fun y => xpLine y == xpLine x && y != x

/-- A close on any crosspoint of the line was kept before (check 9 of R151). -/
def lineKept (kept : List Xp) (x : Xp) : Bool := kept.any fun y => xpLine y == xpLine x

/-- The checks 1 to 9 of R151; `kept` are the crosspoints of the closes kept before. Of two closes for different
crosspoints of one line the later is refused at the formation whatever the opening list holds, as R9 says, so a close
that checks 4 and 7 would keep waiting is first held against the closes kept before (log 16); a close for the same
crosspoint waits by check 4 (R10, log 53). -/
def State.closeCheck (s : State) (kept : List Xp) (j : Job) : CloseCheck :=
  let x := j.xp
  let c := s.xp x
  let wait := if otherKept kept x then CloseCheck.refuse .lineTaken else .keepWaiting
  if s.stc.station == .fault then .refuse .fault
  else if s.cfg.wearLimit ≤ c.wear then .refuse .retired
  else if s.entry j.trunk != .held j.ref.origin then .refuse .notHeld
  else if !c.isOpen && s.inOpening x then wait
  else if c.state == .closed && c.owner == some j.ref then .refuse (s.closedCode x)
  else if !c.isOpen then .refuse .lineTaken
  else if s.otherOnLine x s.inOpening then wait
  else if s.otherOnLine x fun _ => true then .refuse .lineTaken
  else if lineKept kept x then .refuse .lineTaken
  else .keep

/-- The closes are checked in job-list order (R151): those that end, each with its code, and the crosspoints of those
that wait on an open of the same batch. -/
def State.closeChecks (s : State) : List Xp → List Job → List (Job × ResultCode) × List Xp
  | _, [] => ([], [])
  | kept, j :: js =>
    match s.closeCheck kept j with
    | .refuse code => ((j, code) :: (s.closeChecks kept js).1, (s.closeChecks kept js).2)
    | .keepWaiting => ((s.closeChecks (j.xp :: kept) js).1, j.xp :: (s.closeChecks (j.xp :: kept) js).2)
    | .keep => s.closeChecks (j.xp :: kept) js

/-- The code that the checks give a job, if any. -/
def endedBy (ended : List (Job × ResultCode)) (j : Job) : Option ResultCode :=
  (ended.find? fun p => p.1 == j).map Prod.snd

/-- The three steps of a formation, before any stroke starts (R150). The jobs that step 1 and step 3 ended are DONE at
one event, so their results are returned together, in job-list order (R145), each local one taken by the RTE at once
(log 43). -/
def gatherBatch (s : State) : State :=
  let s := { s with cme.sweeps := [], cme.waiting := [] }
  let t := takeSweeps (offerJobs s)
  let checks := t.closeChecks [] (t.jbu.jobs.filter Job.closing)
  endJobs (fun j => (s.offerEnds j).or (endedBy checks.1 j)) { t with cme.waiting := checks.2 }

/-! ## The strokes (R5, R152, R153) -/

/-- The bits that the CME puts out on DOUT in an engine state: those of the pass, when one runs (R147). -/
def passDout (engine : Engine) (drive : Image) : Option PassBits :=
  match engine with
  | .openDrive => some (passOut drive)
  | .openSense => some (passOut drive)
  | .closeDrive => some (passOut drive)
  | .closeSense => some (passOut drive)
  | .checkPass => some (passOut drive)
  | _ => none

/-- The CME enters an engine state in which no settle time runs; where that is a pass, its bits go out on DOUT. -/
def enterEngine (engine : Engine) (s : State) : State :=
  { s with cme.engine := engine, cme.settle := none, cme.dout := passDout engine s.cme.drive }

/-- The CME enters a settle state for `2 ^ r` periods, no pass running (R149). -/
def enterSettle (engine : Engine) (r : Nat) (s : State) : State :=
  { s with cme.engine := engine, cme.settle := some (2 ^ r), cme.dout := none }

/-- The drive pass of a stroke starts: the drive image is set from the records (R146). -/
def startDrive (engine : Engine) (s : State) : State :=
  enterEngine engine { s with cme.drive := driveImage s.cme.xps }

/-- The record of an open that an OPEN job or a sweep drives: owner and quiet index stay (R5). Only an owned crosspoint
that is not OPEN is driven so (R139, R13). -/
def Crosspoint.driveOwned (c : Crosspoint) : Crosspoint :=
  if c.isOpen || c.owner.isNone then c else { c with state := .opening, marked := false }

/-- The record of an open that is driven for a job (R5): a FORCE-OPEN puts its own route ref and quiet index. -/
def Crosspoint.driveOpen (j : Job) (c : Crosspoint) : Crosspoint :=
  if c.isOpen then c
  else if j.action == some .forceOpen then
    { c with state := .opening, owner := some j.ref, quiet := j.quiet, marked := false }
  else c.driveOwned

/-- The opening stroke starts (R152). -/
def openStroke (s : State) : State :=
  let s := (s.jbu.jobs.filter Job.opening).foldl (fun s j => modXp j.xp (Crosspoint.driveOpen j) s) s
  let s := s.cme.sweeps.foldl (fun s w =>
    let s := modXp w.xp Crosspoint.driveOwned s
    if w.forced then chargeWear Config.forcedWear w.xp s else s) s
  startDrive .openDrive s

/-- The batch ends and the CME returns to IDLE (R154). -/
def endBatch (s : State) : State :=
  enterEngine .idle { s with cme.sweeps := [], cme.waiting := [] }

/-- The record of a close that is driven (R5). -/
def Crosspoint.driveClose (j : Job) (c : Crosspoint) : Crosspoint :=
  { c with state := .closing, owner := some j.ref, quiet := j.quiet }

/-- One close at the start of the closing stroke: driven when its line has no crosspoint that is not OPEN, and
otherwise ended LINE-TAKEN (R153). The line is looked at for every close, waiting or not, since R9 is a law of the
device (log 16). -/
def closeOne (j : Job) (s : State) : State :=
  if s.jbu.jobs.contains j then
    if (s.xp j.xp).isOpen && !s.lineTaken j.xp then chargeWear 1 j.xp (modXp j.xp (Crosspoint.driveClose j) s)
    else exchange (endJob .lineTaken j s)
  else s

/-- The closing stroke starts, or is skipped when no close is left to drive (R153). The closes are settled and driven one
at a time in job-list order, so of two that waited for one crosspoint the second ends LINE-TAKEN (log 53). -/
def closeStroke (s : State) : State :=
  let s := (s.jbu.jobs.filter Job.closing).foldl (fun s j => closeOne j s) s
  let s := { s with cme.waiting := [] }
  if s.jbu.jobs.any Job.closing then startDrive .closeDrive s else endBatch s

/-- A batch formation (R150). -/
def formBatch (s : State) : State :=
  let s := gatherBatch s
  if s.jbu.jobs.any Job.opening || !s.cme.sweeps.isEmpty then openStroke s
  else if s.jbu.jobs.any Job.closing then closeStroke s
  else endBatch s

/-! ## The CHECK pass (R158, R159) -/

/-- The waiting CHECK starts its pass: the drive image is unchanged. -/
def startCheck (s : State) : State :=
  enterEngine .checkPass { s with cme.check := s.cme.check.map fun k => { k with running := true } }

/-- A waiting CHECK can start. -/
def State.checkDue (s : State) : Bool := s.cme.engine == .idle && s.cme.check.isSome

/-- The order code of CHECK, echoed by its ANSWER. -/
def checkCode : Byte := 0x23

/-- The running CHECK's ANSWER fills the place reserved for it. -/
def answerCheck (refused : Bool) (reason : Reason) (found : Option (Nat × BitVec 16)) (s : State) : State :=
  if s.cme.check.isSome then placeReport (.answer checkCode refused reason found) { s with cme.check := none } else s

/-! ## The chain fault (R156, R157) -/

/-- The station state after a chain fault (R157). -/
def StationState.faulted : StationState → StationState
  | .joining => .fault
  | .online => .fault
  | st => st

/-- The code that a chain fault gives a job that is not DONE (R156 step 5). -/
def Job.faultCode (j : Job) : Option ResultCode :=
  if j.isDone then none else if j.action == some .close then some .fault else some .opened

/-- A running CHECK is refused CHAIN (R158). -/
def refuseRunningCheck (s : State) : State :=
  match s.cme.check with
  | some k => if k.running then answerCheck true .chain none s else s
  | none => s

/-- The chain fault (R156). The RTE takes R95 and R116 in one pass of the tags (log 52), and local jobs of rounds so made
are handed over after the last tag (log 50). The ANSWER that refuses a running CHECK is placed last, after the effects of
steps 5 and 6 (R158, log 44). -/
def chainFault (s : State) : State :=
  let remembered := s.remembered
  let s := driverClear s.cfg.releaseExp s
  let s := postChainFault { s with stc.station := s.stc.station.faulted }
  let s := exchange (allTags.foldl (fun s tag => routeChainFault tag s) s)
  let s := endJobs Job.faultCode s
  let s := { s with jbu.sweep := .absent }
  refuseRunningCheck (sendAllDropped remembered s)

/-! ## Pass ends and settle expiries (R147 to R158) -/

/-- The end of a drive pass (R147, R148): DLAT and the settle time of the stroke, or a chain fault. -/
def drivePassEnd (sin : PassBits) (s : State) : State :=
  match s.cme.engine with
  | .openDrive =>
    if passMarkerGood sin then
      enterSettle .releaseSettle s.cfg.releaseExp { s with cme.coils := s.cme.drive }
    else chainFault s
  | .closeDrive =>
    if passMarkerGood sin then
      enterSettle .operateSettle s.cfg.operateExp { s with cme.coils := s.cme.drive }
    else chainFault s
  | _ => s

/-- A settle time expires: the engine state that follows it (Table 10-2). -/
def settleExpiry (during next : Engine) (s : State) : State :=
  if s.cme.engine == during then enterEngine next s else s

/-- The outcomes of a sense pass or CHECK pass on the records (R6, R7), with DLAT pulsed for a good marker (R147). -/
def applySense (contacts : Image) (s : State) : State :=
  { s with cme.xps := sensedRecords contacts s.cme.xps, cme.coils := s.cme.drive }

/-- The end of a sense pass or CHECK pass: its contact bits form the sense image; a marker failure or a line conflict
is a chain fault, and otherwise `good` goes on with the contact bits (R147, R148, R11). -/
def senseEnd (sin : PassBits) (good : Image → State → State) (s : State) : State :=
  let contacts := passContacts sin
  let s := { s with cme.sense := contacts }
  if passMarkerGood sin && !lineConflict (sensedRecords contacts s.cme.xps) then good contacts s else chainFault s

/-- The code of an open after its sense pass (R152). -/
def State.openVerdict (s : State) (j : Job) : Option ResultCode :=
  if j.opening then some (if (s.xp j.xp).isOpen then .opened else .verify) else none

/-- The code of a close after its sense pass (R153, R14). -/
def State.closeVerdict (s : State) (j : Job) : Option ResultCode :=
  if j.closing then some (if (s.xp j.xp).state == .closed then s.closedCode j.xp else .verify) else none

/-- The end of the opening stroke's sense pass (R152): results, DROPPEDs, then the closing stroke or the batch end. -/
def openSenseGood (contacts : Image) (s : State) : State :=
  let dropped := s.droppedBy contacts
  let s := applySense contacts s
  let s := endJobs s.openVerdict s
  let s := { sendAllDropped dropped s with cme.sweeps := [] }
  if s.jbu.jobs.any Job.closing then closeStroke s else endBatch s

/-- The end of the closing stroke's sense pass (R153). -/
def closeSenseGood (contacts : Image) (s : State) : State :=
  let dropped := s.droppedBy contacts
  let s := applySense contacts s
  endBatch (sendAllDropped dropped (endJobs s.closeVerdict s))

/-- The end of a CHECK pass (R158). -/
def checkGood (contacts : Image) (s : State) : State :=
  let dropped := s.droppedBy contacts
  let left := s.leavingUnknown contacts
  let line := (s.cme.check.map CheckOrder.line).getD 0
  let s := sendAllDropped dropped (applySense contacts s)
  endBatch (answerCheck false .none (some (left, lineContacts contacts line)) s)

/-- OPEN-SENSE ends. -/
def openSensePassEnd (sin : PassBits) (s : State) : State :=
  if s.cme.engine == .openSense then senseEnd sin openSenseGood s else s

/-- CLOSE-SENSE ends. -/
def closeSensePassEnd (sin : PassBits) (s : State) : State :=
  if s.cme.engine == .closeSense then senseEnd sin closeSenseGood s else s

/-- CHECK-PASS ends. -/
def checkPassEnd (sin : PassBits) (s : State) : State :=
  if s.cme.engine == .checkPass then senseEnd sin checkGood s else s

end Sys2Proof.Machine
end

