-- ==== Sys2Proof/Machine/LinkOps.lean ====
section
/-! DEFINITION. The link as the station hears it: link messages, headers, empty slots, absences, adoption, the own frame
and its settlement, frame ends, own slot starts, slot boundaries and cycle marks (02, 03, 04, 10). -/

namespace Sys2Proof.Machine

/-! ## Link messages (R36) -/

/-- The LIU delivers link events (R22). -/
def State.hears (s : State) : Bool := s.stc.station != .offline

/-- A CLAIM (R46), with the report to the RTE when the sender is this station (R47). -/
def takeClaim (sender : Addr) (t : Trunk) (tag : Tag) (gen : Gen) (leg : Fin 4) (s : State) : State :=
  if s.hears then
    let p := applyClaim sender t s
    match p.2 with
    | some won => if s.isSelf sender then exchange (reportClaim won t tag gen leg p.1) else p.1
    | none => p.1
  else s

/-- A RELEASE (R48). -/
def takeRelease (sender : Addr) (t : Trunk) (s : State) : State := if s.hears then applyRelease sender t s else s

/-- A QUARANTINE (R49). -/
def takeQuarantine (sender : Addr) (t : Trunk) (s : State) : State :=
  if s.hears then applyQuarantine sender t s else s

/-- An OPERATE (R133); an armed one with another action than CLOSE is discarded (R28). -/
def takeOperate (sender target : Addr) (q : JobRequest) (s : State) : State :=
  if s.driving && s.isSelf target && (!q.armed || q.action == .close) then
    exchange (intake { q with ref := { q.ref with origin := sender } } s)
  else s

/-- A RESULT (R100). -/
def takeResultMsg (target : Addr) (q : RouteResult) (s : State) : State :=
  if s.driving && s.isSelf target then exchange (takeResult q s) else s

/-- A result as a command (R100): a local result when the sender is this station, which its own JBU passes in every
station state (R170), and otherwise a RESULT message. -/
def takeResultCommand (target : Addr) (q : RouteResult) (s : State) : State :=
  if s.isSelf q.participant && s.isSelf target then exchange (takeResult q s) else takeResultMsg target q s

/-- An ABANDON (R140). -/
def takeAbandonMsg (ref : RouteRef) (s : State) : State := if s.driving then takeAbandon ref s else s

/-- A PERMIT (R123): the JBU first, and the RTE second when the sender is this station. -/
def takePermitMsg (ref : RouteRef) (s : State) : State :=
  if s.driving then
    let s := takePermit ref s
    if s.isSelf ref.origin then routePermitted ref.tag ref.gen s else s
  else s

/-- A FIRE (R128): the JBU first, and the RTE second when the sender is this station. -/
def takeFireMsg (ref : RouteRef) (s : State) : State :=
  if s.driving then
    let s := takeFire ref s
    if s.isSelf ref.origin then routeFired ref.tag ref.gen s else s
  else s

/-- One message of a good frame of `sender` goes to the blocks that take its kind (R35, R36). -/
def dispatchMsg (sender : Addr) (m : LinkMsg) (s : State) : State :=
  match m with
  | .claim t tag gen leg => takeClaim sender t tag gen leg s
  | .release t => takeRelease sender t s
  | .quarantine t => takeQuarantine sender t s
  | .operate a l t act tag gen q arm => takeOperate sender a ⟨⟨sender, tag, gen⟩, l, t, act, q, arm⟩ s
  | .result a tag gen l t code => takeResultMsg a ⟨sender, tag, gen, l, t, code⟩ s
  | .abandon tag gen => takeAbandonMsg ⟨sender, tag, gen⟩ s
  | .permit tag gen => takePermitMsg ⟨sender, tag, gen⟩ s
  | .fire tag gen => takeFireMsg ⟨sender, tag, gen⟩ s

/-! ## Membership (R61 to R64) -/

/-- The station with one membership entry replaced. -/
def setMember (a : Addr) (m : Member) (s : State) : State := { s with mbu.members := s.mbu.members.set a m }

/-- The entry of the sender of a good header (R61). -/
def Member.heard (f : Frame) (m : Member) : Member :=
  { state := .present, missed := 0, fault := f.fault, joining := f.joining, contacts := f.contacts,
    rejoined := match m.state with
      | .absent => f.joining
      | .unseen => false
      | .present => m.rejoined }

/-- The MBU takes a good header (R61), with PEER-JOINED and the return event. -/
def takeHeader (f : Frame) (s : State) : State :=
  let m := s.mbu.members.get f.sender
  let s := setMember f.sender (m.heard f) s
  let s := if m.state != .present && s.driving && !s.isSelf f.sender then postPeerJoined f.sender s else s
  if m.state == .absent then
    exchange (allTags.foldl (fun s tag => routeReturn f.sender f.joining tag s) s)
  else s

/-- A station is declared absent (R63): the TTU, the JBU and the RTE take the absence in that order. The RTE takes none
of this station itself (R171). It takes R94 and R107 in one pass of the tags (log 52), and local jobs of rounds so made
are handed over after the last tag (log 50). -/
def declareAbsent (a : Addr) (s : State) : State :=
  let m := s.mbu.members.get a
  let s := setMember a { m with state := .absent, missed := 3 } s
  let s := if s.isSelf a then s else postPeerAbsent a s
  let s := removeOrigin a (drainOwner a s)
  if s.isSelf a then s else exchange (allTags.foldl (fun s tag => routeAbsence a tag s) s)

/-- An empty slot (R62). -/
def emptySlot (a : Addr) (s : State) : State :=
  let m := s.mbu.members.get a
  match m.state with
  | .present => if 2 ≤ m.missed then declareAbsent a s else setMember a { m with missed := m.missed + 1 } s
  | _ => s

/-! ## Adoption (R70, R74 to R77, R86) -/

/-- The adoption event: the RTE's work, its planning steps, and then the JBU's. Local jobs of a round that the work makes
are handed over after the planning steps (log 46). The JBU places its DEFERRED jobs, with their results, before the armed
trunk test (log 59). The adoption is taken as an event of its own within its frame end or cycle mark, so a sweep timer that it
leaves without a mark is absent before the frame end's own stray-contact rule (R143, log 63). -/
def adoptionEvent (s : State) : State :=
  let s := exchange (planAll (releaseOrphans (damageUnheld (resolveClaims s))))
  settleSweepTimer (strayPoint (placeAllDeferred s))

/-- A snapshot is adopted (R70 steps 1 to 4, R73). -/
def adopt (snapshot : TrunkTable) (s : State) : State := adoptionEvent (adoptTable snapshot s)

/-- A good frame is dispatched (R35, R45). Only a flag set before this frame end allows the adoption (R70). -/
def dispatchGood (f : Frame) (s : State) : State :=
  let pending := s.ttu.pending
  let s := noteFrame f (compareHeader f (takeHeader f s))
  let s := if pending && !f.stale && !s.isSelf f.sender then adopt f.snapshot s else s
  let s := contaminate f.sender f.contacts s
  f.msgs.foldl (fun s m => dispatchMsg f.sender m s) s

/-! ## Settlement of the own frame (R37, R41, R97, R98) -/

/-- What the settlement of a message means to the RTE's rounds and timers. -/
def settleMsg (m : LinkMsg) (s : State) : State :=
  match m with
  | .operate _ _ _ _ tag gen _ _ =>
    setReplyTimer tag gen { s with rte.rounds := countSettled m s.rte.rounds }
  | .abandon tag gen => setReplyTimer tag gen s
  | _ => s

/-- The messages in flight, in the order they were taken. -/
def State.inFlight (s : State) : List LinkMsg := (s.liu.queue.filter QueueItem.inFlight).map QueueItem.msg

/-- A message that a bad own frame leaves in the queue (R37). -/
def keptWhenBad : LinkMsg → Bool
  | .release _ => true
  | .quarantine _ => true
  | .permit _ _ => true
  | .fire _ _ => true
  | .result _ _ _ _ _ code => code == .dropped
  | _ => false

/-- The own frame was good: every in-flight message leaves the queue. -/
def settleGood (s : State) : State :=
  s.inFlight.foldl (fun s m => settleMsg m s) { s with liu.queue := s.liu.queue.filter fun i => !i.inFlight }

/-- The RTE takes the settlement of a message in a bad own frame; its own PERMIT or FIRE moves its route all the same
(R123, R128). -/
def settleBadMsg (m : LinkMsg) (s : State) : State :=
  match m with
  | .permit tag gen => routePermitted tag gen s
  | .fire tag gen => routeFired tag gen s
  | m => settleMsg m s

/-- The own frame was not good: each in-flight message goes or is kept by its kind. -/
def settleBad (s : State) : State :=
  let kept := (s.inFlight.filter keptWhenBad).map fun m => (⟨m, false⟩ : QueueItem)
  s.inFlight.foldl (fun s m => settleBadMsg m s)
    { s with liu.queue := kept ++ s.liu.queue.filter fun i => !i.inFlight }

/-- Settlement, admission and handover at an own frame end or at the cut of an own slot. -/
def settleOwn (good : Bool) (s : State) : State := exchange (admitAll (if good then settleGood s else settleBad s))

/-! ## The slot position (R20, R22, log 3) -/

/-- An own slot in progress is cut off before its bit 400: LDATA is released and its messages are settled as those of
a bad own frame (R21). The drive-conflict count stands (R31). -/
def cutOwnSlot (s : State) : State :=
  if s.liu.ownSlot then settleOwn false { s with liu.ownSlot := false, liu.garbled := false } else s

/-- The position stands before a slot, or in it at a bit below `limit`. -/
def Position.before (slot : Slot) (limit : Nat) : Position → Bool
  | .at k bit _ => k < slot || (k == slot && bit < limit)
  | _ => false

/-- Bit 0 of the slot fell, or falls now, outside OFFLINE. -/
def State.heardSlot (s : State) (slot : Slot) : Bool :=
  match s.liu.pos with
  | .at k _ heard => if k == slot then heard else s.hears
  | _ => s.hears

/-- The position stands in the slot. -/
def State.inSlot (s : State) (slot : Slot) : Bool :=
  match s.liu.pos with
  | .at k _ _ => k == slot
  | _ => false

/-- The position moves on to a bit of a slot. An own slot left behind without its frame end is cut off. -/
def moveTo (slot : Slot) (bit : Nat) (s : State) : State :=
  let heard := s.heardSlot slot
  let s := if s.inSlot slot then s else cutOwnSlot s
  { s with liu.pos := .at slot bit heard }

/-! ## Clash (R170) -/

/-- The station can report a clash: it is in LISTENING, JOINING, ONLINE or FAULT. -/
def State.canClash (s : State) : Bool := s.hears && s.stc.station != .clash

/-- Entry to CLASH. The messages in flight wait in the queue again (log 30). -/
def enterClash (s : State) : State :=
  let s := postClash { s with
    stc.station := .clash
    stc.listenCount := none
    liu.ownSlot := false
    liu.garbled := false
    liu.queue := s.liu.queue.map fun i => { i with inFlight := false } }
  clearJobs (allTags.foldl (fun s tag => routeClash tag s) s)

/-! ## Frame end (R31 to R37) -/

/-- The slot is this station's own. -/
def State.ownSlotIs (s : State) (slot : Slot) : Bool := s.isSelf slot

/-- A link error at a frame end, which also spoils the listening cycle (R68, R166). -/
def frameError (s : State) : State := linkError { s with stc.cycleError := true }

/-- A station in LISTENING hears its own slot (R31, R33): a frame there is a clash and is not dispatched. -/
def listenOwnSlot (slot : Slot) (bits : FrameBits) (s : State) : State :=
  match judge slot bits false with
  | .empty => strayPoint (emptySlot slot s)
  | .bad => enterClash (frameError s)
  | .good _ => enterClash s

/-- The own slot reaches bit 400: the drive-conflict count moves (R31) and the own-slot flag goes (R29). -/
def closeOwnSlot (garbled : Bool) (s : State) : State :=
  { s with
    liu.conflicts := if s.liu.ownSlot then (if garbled then min 2 (s.liu.conflicts + 1) else 0) else s.liu.conflicts
    liu.ownSlot := false
    liu.garbled := false }

/-- The frame as judged is taken, before any settlement. -/
def takeJudged (slot : Slot) (verdict : Judged) (s : State) : State :=
  match verdict with
  | .empty => emptySlot slot s
  | .bad => frameError s
  | .good f => dispatchGood f s

/-- The verdict is good. -/
def Judged.isGood : Judged → Bool
  | .good _ => true
  | _ => false

/-- A JOINING station has received its own frame good (R168, R86). -/
def goOnline (s : State) : State :=
  if s.stc.station == .joining then exchange (planAll { s with stc.station := .online }) else s

/-- The frame end of a slot that is not the station's own. -/
def otherFrameEnd (slot : Slot) (bits : FrameBits) (s : State) : State :=
  let verdict := judge slot bits false
  let s := takeJudged slot verdict s
  if verdict == .bad then s else strayPoint s

/-- The frame end of the own slot outside LISTENING (R31, R32, R37, R168). -/
def ownFrameEnd (slot : Slot) (bits : FrameBits) (s : State) : State :=
  let garbled := s.liu.ownSlot && (s.liu.garbled || bits != s.liu.frame)
  let verdict := judge slot bits garbled
  let s := closeOwnSlot garbled s
  let s := takeJudged slot verdict s
  let s := if s.driving then settleOwn verdict.isGood s else s
  let s := if verdict == .bad then s else strayPoint s
  let s := if verdict.isGood then goOnline s else s
  if garbled && s.liu.conflicts == 2 && s.canClash then enterClash s else s

/-- A frame end (R32), when the position is where a frame end can fall and bit 0 of the slot was heard. -/
def takeFrameEnd (slot : Slot) (bits : FrameBits) (s : State) : State :=
  if s.liu.pos.before slot 400 then
    let heard := s.heardSlot slot
    let s := moveTo slot 400 s
    if s.hears && heard then
      if s.ownSlotIs slot then
        if s.stc.station == .listening then listenOwnSlot slot bits s else ownFrameEnd slot bits s
      else otherFrameEnd slot bits s
    else s
  else s

/-! ## Own slot start (R30, R40) -/

/-- A waiting CLAIM for a trunk that is not FREE (R40). -/
def State.withdrawn (s : State) (i : QueueItem) : Bool :=
  match i.msg with
  | .claim t _ _ _ => !i.inFlight && s.entry t != .free
  | _ => false

/-- A waiting CLAIM is removed and reported lost before send. -/
def withdraw (i : QueueItem) (s : State) : State :=
  if s.liu.queue.contains i then
    let s := { s with liu.queue := s.liu.queue.erase i }
    match i.msg with
    | .claim t tag gen leg => exchange (reportLostBeforeSend t tag gen leg s)
    | _ => s
  else s

/-- The first pass (R40): the CLAIMs whose trunk is not FREE at its start, each removed and reported before the next, in
queue order (log 47). -/
def withdrawClaims (s : State) : State := (s.liu.queue.filter s.withdrawn).foldl (fun s i => withdraw i s) s

/-- The trunk that a CLAIM names. -/
def claimTrunk : LinkMsg → Option Trunk
  | .claim t _ _ _ => some t
  | _ => none

/-- The first waiting message of the queue becomes in flight. -/
def markFirst : List QueueItem → List QueueItem
  | [] => []
  | i :: is => if i.inFlight then i :: markFirst is else { i with inFlight := true } :: is

/-- One message is taken into the frame; a CLAIM's leg becomes SENT (R88). -/
def takeFirst (m : LinkMsg) (s : State) : State :=
  let s := { s with liu.queue := markFirst s.liu.queue }
  match m with
  | .claim t tag gen leg => markSent t tag gen leg s
  | _ => s

/-- The second pass (R40), at most `n` messages looked at. -/
def takeMessages : Nat → State → State
  | 0, s => s
  | n + 1, s =>
    if Config.framePlaces ≤ s.inFlight.length then s
    else
      match s.liu.queue.find? fun i => !i.inFlight with
      | none => s
      | some i =>
        if (claimTrunk i.msg).isSome && (s.inFlight.map claimTrunk).contains (claimTrunk i.msg) then
          takeMessages n (withdraw i s)
        else takeMessages n (takeFirst i.msg s)

/-- The outbound queue is read at this own slot start (R38). -/
def State.readsQueue (s : State) : Bool :=
  (s.stc.station == .online || s.stc.station == .fault) && !s.ttu.stale

/-- The frame that the station sends (R23 to R26, R30); it carries no message while STALE or JOINING is set. -/
def State.ownFrame (s : State) : Frame :=
  { sender := s.self, stale := s.ttu.stale, joining := s.stc.station == .joining, fault := s.stc.station == .fault,
    snapshot := s.ttu.table, contacts := s.contactSet, msgs := if s.readsQueue then s.inFlight else [] }

/-- The own frame is fixed and driving begins (R30). -/
def fixFrame (s : State) : State :=
  { s with liu.ownSlot := true, liu.garbled := false, liu.frame := encodeFrame s.ownFrame }

/-- The work of an own slot start in a driving state. -/
def startOwnSlot (s : State) : State :=
  fixFrame (if s.readsQueue then takeMessages Config.serviceBound (admitAll (withdrawClaims s)) else s)

/-- An own slot start, when the position is where it can fall. -/
def takeOwnSlotStart (s : State) : State :=
  if s.hasSlot && s.liu.pos.before s.self 1 then
    let s := moveTo s.self 0 s
    if s.driving && !s.liu.ownSlot then startOwnSlot s else s
  else s

/-! ## Slot boundaries (R125) -/

/-- TRIG is sampled (R125). -/
def sampleTrig (trig : Bool) (s : State) : State :=
  let s' := { s with liu.trig := some trig }
  if trig && s.liu.trig == some false then takeTrigger s' else s'

/-- A slot boundary, when the position is where it can fall. The position at bit 0 does not tell whether the boundary has
been taken, so a second command for the same slot is a second sample (log 58). -/
def takeSlotBoundary (slot : Slot) (trig : Bool) (s : State) : State :=
  if s.liu.pos.before slot 1 then
    let s := moveTo slot 0 s
    if s.hears then sampleTrig trig s else s
  else s

/-! ## Cycle marks (R21, R22, R55, R72, R73, R98, R138, R143, R166, R167) -/

/-- The table that the end of listening leaves (R167). -/
def endListeningTable (s : State) : State :=
  if s.ttu.valid then s
  else
    match s.ttu.listening with
    | some c => adopt c.snapshot s
    | none => { s with ttu.table := Table.fill 16 .free, ttu.valid := true, ttu.pending := false }

/-- The listening count after a cycle mark in LISTENING (R166). -/
def nextListenCount (error : Bool) : Option Nat → Nat
  | none => 0
  | some n => if error then 0 else n + 1

/-- The cycle-mark work of the TTU, with the STC's listening count. -/
def markTtu (overrun : Bool) (s : State) : State :=
  let s := noteListening s
  let s := match s.recovers with
    | some c => adopt c.snapshot s
    | none => s
  let count := nextListenCount (overrun || s.stc.cycleError) s.stc.listenCount
  let listening := s.stc.station == .listening
  let ends := listening && 2 ≤ count
  let s := if ends then endListeningTable s else s
  let s := openRecord (drainRule s)
  { s with
    stc.station := if ends then .joining else s.stc.station
    stc.listenCount := if listening && !ends then some count else none
    stc.cycleError := false }

/-- The reply timers at a cycle mark (R98, R99): all are counted, and those brought to 0 expire one after another, in tag
order by the model's choice (log 51). What the command took before the count, an adoption or a hot-wait expiry of the
same mark, is taken as an event before it: a timer that it left without a REQUESTED endpoint is removed and not counted
(log 62). -/
def markRte (s : State) : State :=
  let s := pruneTimers s
  let s := { s with rte.routes := s.rte.routes.mapIdx fun _ r => { r with timer := r.timer.map (· - 1) } }
  allTags.foldl (fun s tag => if (s.route tag).timer == some 0 then exchange (expireReply tag s) else s) s

/-- The hot-wait counters and the sweep timer at a cycle mark (R138, R143). -/
def markJbu (s : State) : State :=
  countHotWaits { s with jbu.sweep := s.jbu.sweep.count }

/-- One taker of the cycle mark, or another event of the same LCLK edge (R22). -/
def takeMark (overrun : Bool) (taker : MarkTaker) (s : State) : State :=
  match taker with
  | .ttu => markTtu overrun s
  | .rte => markRte s
  | .jbu => markJbu s
  | .boundary trig => takeSlotBoundary 0 trig s
  | .ownStart => if s.isSelf 0 then takeOwnSlotStart s else s

/-- The order in which the mark is taken: as given, each once, and then the takers it leaves out (log 5). -/
def markOrder (order : List MarkTaker) : List MarkTaker := (order ++ [MarkTaker.ttu, MarkTaker.rte, MarkTaker.jbu]).eraseDups

/-- The mark is a slot overrun: the position was known and the mark is not one cycle after the last (R21, log 4). -/
def State.overrun (s : State) (lclk : Nat) : Bool := s.liu.pos != .unknown && lclk != Config.cyclePeriods

/-- A cycle mark (R20 to R22). An own slot that it cuts off is settled, with its handover, before the link error (log 48).
A batch formation that one of the takers brings about is taken after all of them, at the end of the event (log 49). -/
def takeCycleMark (lclk : Nat) (order : List MarkTaker) (s : State) : State :=
  let overrun := s.overrun lclk
  let s := cutOwnSlot s
  let s := { s with liu.pos := .at 0 0 s.hears }
  if s.hears then
    let s := if overrun then linkError s else s
    (markOrder order).foldl (fun s taker => takeMark overrun taker s) s
  else s

/-! ## Other link events -/

/-- The position enters beyond cycle (R20). -/
def takeBeyondCycle (s : State) : State :=
  match s.liu.pos with
  | .at _ _ _ => { cutOwnSlot s with liu.pos := .beyond }
  | _ => s

/-- A drive conflict in the own slot in progress (R30). -/
def takeDriveConflict (s : State) : State := if s.liu.ownSlot then { s with liu.garbled := true } else s

/-- An absence declared (R63) of a station that is PRESENT, with the stray-contact rule of its frame end (R142). -/
def takeAbsence (a : Addr) (s : State) : State :=
  if s.hears && (s.mbu.members.get a).state == .present then strayPoint (declareAbsent a s) else s

/-- The cycle mark that the station would take next brings the listening count to 2 (R166). -/
def State.listeningEnds (s : State) : Bool :=
  s.stc.station == .listening && 2 ≤ nextListenCount s.stc.cycleError s.stc.listenCount

/-- The end of listening (R167) by itself: the work of the TTU and the STC at the mark that brings the listening count to
2, which closes the cycle's record first, applies the drain rule and moves the station to JOINING (log 40). -/
def takeEndOfListening (s : State) : State := if s.listeningEnds then markTtu false s else s

/-- A clash reported by the LIU (R170). -/
def takeClash (s : State) : State := if s.canClash then enterClash s else s

/-- Held items are admitted (R41). -/
def takeAdmission (s : State) : State := if s.driving then admitAll s else s

end Sys2Proof.Machine
end

