-- ==== Sys2Proof/Machine/PortOps.lean ====
section
/-! DEFINITION. The Order Port and the orders it passes on (11, 05 R83 to R85, 06 R111 to R119, 07 R128, 10), and the
resets of the station. -/

namespace Sys2Proof.Machine

/-! ## Answers -/

/-- An ANSWER is placed. -/
def answer (code : Byte) (refused : Bool) (reason : Reason) (s : State) : State :=
  placeReport (.answer code refused reason none) s

/-- An order is refused with an ANSWER. -/
def refuse (code : Byte) (reason : Reason) (s : State) : State := answer code true reason s

/-- An order is accepted with an ANSWER. -/
def accept (code : Byte) (s : State) : State := answer code false .none s

/-! ## Orders of Station Control and the Commit Engine (R164, R165, R17, R18, R158) -/

/-- CONFIGURE (R164). The layout is checked before the station state (R176, log 10). -/
def orderConfigure (p : List Byte) (s : State) : State :=
  match parseConfigure p with
  | none => refuse 0x01 .badOrder s
  | some c =>
    if s.stc.station != .offline then refuse 0x01 .notOffline s
    else accept 0x01 { s with orp.config := some c }

/-- The 16 counts of a line are written (R17). -/
def loadWear (l : Line) (counts : List Nat) (s : State) : State :=
  { s with cme.xps := s.cme.xps.mapIdx fun x c =>
      if xpLine x == l then { c with wear := (counts[(xpTrunk x).val]?).getD c.wear } else c }

/-- WEAR-LOAD (R17). -/
def orderWearLoad (p : List Byte) (s : State) : State :=
  match parseWearLoad p with
  | none => refuse 0x02 .badOrder s
  | some (l, counts) =>
    if s.stc.station != .offline then refuse 0x02 .notOffline s else accept 0x02 (loadWear l counts s)

/-- The 16 counts of a line, T0 first (R18). -/
def State.wearOf (s : State) (l : Line) : List Nat := allTrunks.map fun t => (s.xp (xpNum l t)).wear

/-- WEAR-READ (R18). -/
def orderWearRead (p : List Byte) (s : State) : State :=
  match parseLine p with
  | none => refuse 0x03 .badOrder s
  | some l => placeReport (.wear l (s.wearOf l)) s

/-- The station goes from OFFLINE to LISTENING (R165, R166, R72, R78). -/
def startListening (s : State) : State :=
  { s with
    stc.station := .listening, stc.listenCount := none, stc.cycleError := false
    ttu.pending := true, ttu.watch := false, ttu.nonStaleHeard := false, ttu.candidate := none, ttu.listening := none }

/-- JOIN (R165). -/
def orderJoin (p : List Byte) (s : State) : State :=
  if !p.isEmpty then refuse 0x04 .badOrder s
  else if s.stc.station != .offline then refuse 0x04 .notOffline s
  else if s.orp.config.isNone then refuse 0x04 .notConfigured s
  else if !s.hasSlot then refuse 0x04 .badAddress s
  else accept 0x04 (startListening s)

/-- CHECK (R158, R159, R176). A CHECK that is held reserves its place by being held. -/
def orderCheck (p : List Byte) (s : State) : State :=
  match parseLine p with
  | none => refuse checkCode .badOrder s
  | some l =>
    if s.stc.station == .clash then refuse checkCode .notOnline s
    else if s.cme.check.isSome then refuse checkCode .busy s
    else { s with cme.check := some ⟨l, false⟩ }

/-! ## Route orders (R82 to R85, R111 to R115, R118, R119, R128) -/

/-- OFFLINE, LISTENING or CLASH: route orders are refused NOT-ONLINE. -/
def State.offLink (s : State) : Bool := !s.driving

/-- The tag that a refused route order names: the one its first byte gives, or else a free value (log 11). -/
def namedTag (code : Byte) (p : List Byte) (s : State) : Tag × State :=
  match p with
  | b :: _ => if h : b.toNat < 16 then (⟨b.toNat, h⟩, s) else drawTag code p s
  | [] => drawTag code p s

/-- The tag of a ROUTE-MAKE, in bits 0 to 3 of its first byte. -/
def makeTag (p : List Byte) (s : State) : Tag × State :=
  match p with
  | b :: _ => (Fin.ofNat 16 b.toNat, s)
  | [] => drawTag 0x10 p s

/-- A ROUTE-MAKE is refused at intake (R84, R118): the entry's generation, state and flags as they stand, and no legs. -/
def refuseMake (tag : Tag) (residual : Nat) (reason : Reason) (s : State) : State :=
  placeReport (.route { routeReport tag .make .refused reason (s.route tag) with residual := residual, legs := [] }) s

/-- A ROUTE-BREAK or ROUTE-CLEAR is refused at intake (R111, R118): the entry as it stands (log 14). -/
def refuseRepair (kind : OrderKind) (tag : Tag) (reason : Reason) (s : State) : State :=
  placeReport (.route (routeReport tag kind .refused reason (s.route tag))) s

/-- A leg as acceptance makes it (R85). -/
def MakeLeg.accepted (l : MakeLeg) : Leg :=
  { requested := l.requested, assigned := none, claim := .unplanned, lost := 0, replans := 0,
    endpoints := l.endpoints.map fun e => ⟨e.station, e.line, e.quiet, .idle, none⟩ }

/-- The entry after acceptance (R85). -/
def Route.accepted (o : MakeOrder) (r : Route) : Route :=
  { state := .planning, gen := r.gen + 1, stage := o.stage, avoid := o.avoid, legs := o.legs.map MakeLeg.accepted,
    timer := none, reason := none, worn := false, peerAbsent := false, owed := [⟨.make, none⟩] }

/-- The membership entry of an endpoint's station, when that is another station (R83). -/
def State.peerOf (s : State) (e : MakeEndpoint) : Option Member :=
  if s.isSelf e.station then none else some (s.mbu.members.get e.station)

/-- Checks 2 to 6 of R83. -/
def State.makeRefusal (s : State) (o : MakeOrder) : Option Reason :=
  let peers := (o.legs.flatMap MakeLeg.endpoints).filterMap s.peerOf
  if s.offLink then some .notOnline
  else if s.stc.station == .fault then some .stationFault
  else if (s.route o.tag).state != .idle then some .tagInUse
  else if peers.any fun m => m.state != .present then some .peerAbsent
  else if peers.any fun m => m.fault then some .peerFault
  else none

/-- A route is accepted, and planned at once when the station is ONLINE and not stale (R85, R86). -/
def acceptMake (o : MakeOrder) (s : State) : State :=
  let s := modRoute o.tag (Route.accepted o) s
  if s.stc.station == .online && !s.ttu.stale then planStep o.tag s else s

/-- ROUTE-MAKE (R83). -/
def orderRouteMake (p : List Byte) (s : State) : State :=
  match parseRouteMake p with
  | none =>
    let n := makeTag p s
    refuseMake n.1 (namedEndpoints p) .badOrder n.2
  | some o =>
    match s.makeRefusal o with
    | some reason => refuseMake o.tag (namedEndpoints p) reason s
    | none => acceptMake o s

/-- An order is added to the answers owed. -/
def owe (tag : Tag) (kind : OrderKind) (s : State) : State :=
  modRoute tag (fun r => { r with owed := r.owed ++ [⟨kind, none⟩] }) s

/-- A BREAK or CLEAR starts (R112, R115): its round, and the end at once when that addresses no endpoint. -/
def startRepair (kind : OrderKind) (state : RouteState) (action : Action) (sel : Endpoint → Bool) (tag : Tag)
    (s : State) : State :=
  let s := modRoute tag (fun r => { r with reason := none, state := state }) (owe tag kind s)
  exchange (testEnd tag (makeRound tag action false sel s))

/-- The endpoint is CLOSED or UNKNOWN. -/
def Endpoint.standing (e : Endpoint) : Bool := e.status == .closed || e.status == .unknown

/-- The refusal of a ROUTE-BREAK by the entry's state (Table 7-5). -/
def Route.breakRefusal (r : Route) : Option Reason :=
  match r.state with
  | .idle => some .badOrder
  | .planning => some .busy
  | .claiming => some .busy
  | .arming => none
  | .staged => none
  | .closing => none
  | .backingOut => if r.owed.any fun o => o.kind == .brk then some .busy else none
  | .made => if r.owed.length < 2 then none else some .busy
  | .damaged => if r.owed.length < 2 then none else some .busy
  | .quarantined => if r.owed.length < 2 then none else some .busy
  | .opening => some .busy
  | .clearing => some .busy
  | .ended => some .tagInUse

/-- A ROUTE-BREAK is accepted (R111 to R113). -/
def acceptBreak (tag : Tag) (s : State) : State :=
  match (s.route tag).state with
  | .backingOut => owe tag .brk s
  | .arming => exchange (failMake tag .aborted (owe tag .brk s))
  | .staged => exchange (failMake tag .aborted (owe tag .brk s))
  | .closing => exchange (failMake tag .aborted (owe tag .brk s))
  | _ => startRepair .brk .opening .opn Endpoint.standing tag s

/-- ROUTE-BREAK (R111). -/
def orderRouteBreak (p : List Byte) (s : State) : State :=
  match parseTag p with
  | none =>
    let n := namedTag 0x11 p s
    refuseRepair .brk n.1 .badOrder n.2
  | some tag =>
    if s.offLink then refuseRepair .brk tag .notOnline s
    else
      match (s.route tag).breakRefusal with
      | some reason => refuseRepair .brk tag reason s
      | none => acceptBreak tag s

/-- The refusal of a ROUTE-CLEAR by the entry's state (R115). -/
def Route.clearRefusal (r : Route) : Option Reason :=
  match r.state with
  | .idle => some .badOrder
  | .ended => some .tagInUse
  | .quarantined => if r.owed.length < 2 then none else some .busy
  | .damaged => if r.owed.length < 2 then none else some .busy
  | _ => some .busy

/-- The endpoints that a CLEAR addresses (R115). -/
def State.clearable (s : State) (e : Endpoint) : Bool :=
  e.standing && (s.isSelf e.station || (s.mbu.members.get e.station).state == .present)

/-- ROUTE-CLEAR (R115). -/
def orderRouteClear (p : List Byte) (s : State) : State :=
  match parseTag p with
  | none =>
    let n := namedTag 0x12 p s
    refuseRepair .clear n.1 .badOrder n.2
  | some tag =>
    if s.offLink then refuseRepair .clear tag .notOnline s
    else
      match (s.route tag).clearRefusal with
      | some reason => refuseRepair .clear tag reason s
      | none => startRepair .clear .clearing .forceOpen s.clearable tag s

/-- A FIRE of the route waits in the queue, is in flight, or is held pending (R128). -/
def State.fireStands (s : State) (tag : Tag) : Bool :=
  let m := LinkMsg.fire tag (s.route tag).gen
  (s.liu.queue.any fun i => i.msg == m) || s.rte.held.any fun h => h.msg == m

/-- ROUTE-FIRE (R128). -/
def orderRouteFire (p : List Byte) (s : State) : State :=
  match parseTag p with
  | none => refuse 0x13 .badOrder s
  | some tag =>
    if s.offLink then refuse 0x13 .notOnline s
    else if (s.route tag).state == .idle then refuse 0x13 .badOrder s
    else if (s.route tag).state != .staged then refuse 0x13 .busy s
    else if s.fireStands tag then refuse 0x13 .busy s
    else accept 0x13 (rteSend (some tag) (.fire tag (s.route tag).gen) s)

/-- ROUTE-QUERY (R119). One that fails its layout check is answered with an ANSWER (log 13). -/
def orderRouteQuery (p : List Byte) (s : State) : State :=
  match parseTag p with
  | none => refuse 0x14 .badOrder s
  | some tag => placeReport (.route (queryReport tag (s.route tag))) s

/-! ## Orders of the Order Port itself (R178, R180) -/

/-- The entries of a TABLE-REPORT: every one FREE while the table is invalid (R43). -/
def State.reportedTable (s : State) : TrunkTable := if s.ttu.valid then s.ttu.table else Table.fill 16 .free

/-- TABLE-QUERY (R178). -/
def orderTableQuery (p : List Byte) (s : State) : State :=
  if p.isEmpty then placeReport (.table s.ttu.valid s.ttu.stale s.reportedTable s.mbu.members) s
  else refuse 0x20 .badOrder s

/-- STATUS-QUERY (R178). -/
def orderStatusQuery (p : List Byte) (s : State) : State :=
  if p.isEmpty then
    placeReport (.status s.stc.station s.stc.strap s.ttu.stale s.ttu.valid s.orp.config.isSome s.orp.orders.length
      s.orp.reports.length s.orp.alerts) s
  else refuse 0x21 .badOrder s

/-- ALERT-CLEAR (R180). -/
def orderAlertClear (p : List Byte) (s : State) : State :=
  match parseAlertClear p with
  | none => refuse 0x22 .badOrder s
  | some c => accept 0x22 { s with orp.alerts := s.orp.alerts.clear c.members c.absent c.joined c.damaged }

/-- A code that names no order, and a RESTART whose length byte is not 0 (R175, R176). -/
def orderUnknown (code : Byte) (s : State) : State := refuse code .badOrder s

/-- The head order is passed to its taker (R176). -/
def takeOrder (o : Order) (s : State) : State :=
  if o.code == 0x01 then orderConfigure o.payload s
  else if o.code == 0x02 then orderWearLoad o.payload s
  else if o.code == 0x03 then orderWearRead o.payload s
  else if o.code == 0x04 then orderJoin o.payload s
  else if o.code == 0x10 then orderRouteMake o.payload s
  else if o.code == 0x11 then orderRouteBreak o.payload s
  else if o.code == 0x12 then orderRouteClear o.payload s
  else if o.code == 0x13 then orderRouteFire o.payload s
  else if o.code == 0x14 then orderRouteQuery o.payload s
  else if o.code == 0x20 then orderTableQuery o.payload s
  else if o.code == 0x21 then orderStatusQuery o.payload s
  else if o.code == 0x22 then orderAlertClear o.payload s
  else if o.code == 0x23 then orderCheck o.payload s
  else orderUnknown o.code s

/-! ## Resets (R162, R163, R182) -/

/-- What no reset of the part reaches: the queue of commands, the model's count of free values, and the SEL pin. -/
def carryOver (s t : State) : State :=
  { t with draws := s.draws, pending := s.pending, orp.selected := s.orp.selected }

/-- A power-on reset, or the end of RESET held low (R162). -/
def powerOn (straps : Fin 32) (quiet : BitVec 4) (s : State) : State :=
  carryOver s { State.reset with stc.strap := straps, jbu.quiet := quiet }

/-- RESET is held low: every block holds its power-on values, and READY is low (R162). The straps and the quiet inputs
are read when it ends. -/
def holdReset (s : State) : State :=
  carryOver s { State.reset with
    stc.strap := s.stc.strap, stc.resetHeld := true, jbu.quiet := s.jbu.quiet, orp.ready := false }

/-- RESTART (R163): a power-on reset that keeps the configuration record, the wear counts and the quiet levels, and
clears the drivers with the configured exponent. -/
def restart (straps : Fin 32) (s : State) : State :=
  let cme := (driverClear s.cfg.releaseExp s).cme
  carryOver s { State.reset with
    stc.strap := straps
    jbu.quiet := s.jbu.quiet
    cme := { cme with sense := State.reset.cme.sense, check := none }
    orp.config := s.orp.config }

/-! ## Receiving orders (R173 to R175) -/

/-- RESTART's order code. -/
def restartCode : Byte := 0x3C

/-- The order FIFO holds 8 orders: READY is low (R175). -/
def State.fifoFull (s : State) : Bool := Config.orderPlaces ≤ s.orp.orders.length

/-- An order has been received whole: it joins the FIFO, or is an overrun (R173, R175). -/
def completeOrder (code : Byte) (payload : List Byte) (overrun : Bool) (s : State) : State :=
  let s := { s with orp.rx := .code, orp.gap := none }
  if overrun || s.fifoFull then postOrderOverrun s else { s with orp.orders := s.orp.orders ++ [⟨code, payload⟩] }

/-- An incomplete order goes on: the gap count starts again (R174). -/
def continueOrder (rx : Reception) (s : State) : State :=
  { s with orp.rx := rx, orp.gap := some Config.gapPeriods }

/-- A framing error (R173); that of an overrun discards an overrun (R175, log 24). -/
def framingError (overrun : Bool) (s : State) : State :=
  postDiscarded overrun { s with orp.rx := .skip, orp.gap := none }

/-- One byte goes in on SDI (R173 to R175). -/
def receiveByte (b : Byte) (straps : Fin 32) (s : State) : State :=
  match s.orp.rx with
  | .code => if b == 0 then s else continueOrder (.length b s.fifoFull) s
  | .length code overrun =>
    if Config.maxPayload < b.toNat then framingError overrun s
    else if b == 0 then
      if code == restartCode then restart straps s else completeOrder code [] overrun s
    else continueOrder (.payload code b.toNat [] overrun) s
  | .payload code missing bytes overrun =>
    if missing ≤ 1 then completeOrder code (bytes ++ [b]) overrun s
    else continueOrder (.payload code (missing - 1) (bytes ++ [b]) overrun) s
  | .skip => s

/-- The byte would complete an order (R173). -/
def State.completes (s : State) (b : Byte) : Bool :=
  match s.orp.rx with
  | .length _ _ => b == 0
  | .payload _ missing _ _ => decide (missing ≤ 1)
  | _ => false

/-- The head report has been shifted out (R177). -/
def removeHead (s : State) : State := { s with orp.reports := s.orp.reports.tail, orp.sent := 0 }

/-- One byte comes out on SDO (R177): the next of the head report, or 0x00 when the FIFO held no report at the start
of the byte. -/
def sendByte (startedEmpty : Bool) (s : State) : State :=
  match s.orp.reports with
  | r :: _ =>
    if startedEmpty then { s with orp.sdo := some 0 }
    else
      let s := { s with orp.sdo := r.bytes[s.orp.sent]?, orp.sent := s.orp.sent + 1 }
      if r.bytes.length ≤ s.orp.sent then removeHead s else s
  | [] => { s with orp.sdo := some 0 }

/-- One byte of a select period: out on SDO and in on SDI (R172, log 25). A head order that the report shifted out lets go is
taken at the end of the event, so a code byte sampled at that byte still finds READY low (log 61). -/
def exchangeByte (b : Byte) (startedEmpty : Bool) (straps : Fin 32) (s : State) : State :=
  if s.orp.selected then
    let sent := sendByte startedEmpty s
    let s := receiveByte b straps sent
    { s with orp.sdo := sent.orp.sdo }
  else s

/-- An order arrives whole (R173, R175): the effect of all its bytes at its last byte, whatever SEL and the reception stand
at, which it leaves as they are (log 38). -/
def receiveOrder (code : Byte) (payload : List Byte) (straps : Fin 32) (s : State) : State :=
  if Config.maxPayload < payload.length then postDiscarded s.fifoFull s
  else if code == restartCode && payload.isEmpty then restart straps s
  else if s.fifoFull then postOrderOverrun s
  else { s with orp.orders := s.orp.orders ++ [⟨code, payload⟩] }

/-- An order is in reception. -/
def Reception.inOrder : Reception → Bool
  | .length _ _ => true
  | .payload _ _ _ _ => true
  | _ => false

/-- The order in reception is an overrun: its code byte found READY low (R175). -/
def Reception.overrun : Reception → Bool
  | .length _ overrun => overrun
  | .payload _ _ _ overrun => overrun
  | _ => false

/-- The gap count runs out (R174). -/
def cutOrder (s : State) : State :=
  if s.orp.gap.isSome then postDiscarded s.orp.rx.overrun { s with orp.rx := .code, orp.gap := none } else s

/-- SEL rises (R172, R174, R177). -/
def endSelect (s : State) : State :=
  if s.orp.selected then
    let t := { s with orp.selected := false, orp.rx := .code, orp.gap := none, orp.sent := 0, orp.sdo := none }
    if s.orp.rx.inOrder then postDiscarded s.orp.rx.overrun t else t
  else s

/-- SEL falls (R172). -/
def startSelect (s : State) : State :=
  if s.orp.selected then s
  else { s with orp.selected := true, orp.rx := .code, orp.gap := none, orp.sent := 0, orp.sdo := none }

/-- The head report's last byte has been shifted out (R177). The command's sender says that it has, so neither SEL nor the
count of bytes sent is looked at (log 54). -/
def shiftedOut (s : State) : State := if s.orp.reports.isEmpty then s else removeHead s

end Sys2Proof.Machine
end

