-- ==== Sys2Proof/Machine/Events.lean ====
section
/-! DEFINITION. What follows every event: the work that the event lets the Commit Engine and the Order Port take, the
timers it removes, and the pins. -/

namespace Sys2Proof.Machine

/-- The CME takes a waiting CHECK, or else a batch formation that is due (R150, R154, R159); none when it has no work. -/
def commitWork (s : State) : Option State :=
  if s.checkDue then some (startCheck s) else if s.formationDue then some (formBatch s) else none

/-- The ORP takes the head order while a place is free (R176). -/
def serveOrder (s : State) : Option State :=
  match s.orp.orders with
  | o :: os => if s.placeFree then some (takeOrder o { s with orp.orders := os }) else none
  | [] => none

/-- One step of what an event lets the part take: the CME's work, ready reports, and then a head order. So a formation is
taken before a CHECK at the head of the order FIFO (log 60). -/
def serveStep (s : State) : Option State :=
  match commitWork s with
  | some s' => some s'
  | none => serveOrder (placeReports s)

/-- At most `n` steps of it. -/
def serveN : Nat → State → State
  | 0, s => placeReports s
  | n + 1, s =>
    match serveStep s with
    | some s' => serveN n s'
    | none => placeReports s

/-- The end of every event: the work it allows (R150, R159, R119, R176), reply timers and the sweep timer that it leaves
without cause removed (R98, R143), READY and SRQ at their levels (R175, R181). -/
def afterEvent (s : State) : State :=
  updatePins (settleSweepTimer (pruneTimers (serveN Config.serviceBound s)))

/-- The outcome of a command. -/
abbrev Out := Host.Outcome State Fault Refusal

/-- An event of the part. While RESET is held low nothing has an effect (R162, log 31). -/
def event (f : State → State) (s : State) : State := if s.stc.resetHeld then s else afterEvent (f s)

end Sys2Proof.Machine
end

