-- ==== Sys2Proof/Machine/EngineCommands.lean ====
section
/-! DEFINITION. The meanings of the commands of the Commit Engine. -/

namespace Sys2Proof.Machine

/-- A batch formation that is due (R150). -/
def takeFormation (s : State) : State := if s.formationDue then formBatch s else s

/-- A CHECK pass that can start (R159). -/
def takeCheckStart (s : State) : State := if s.checkDue then startCheck s else s

/-- BATCH_FORMATION (R150), when one is due. -/
def execBatchFormation (s : State) : Out :=
  .next (event takeFormation s)

/-- DRIVE_PASS_END (R147, R148, R156). -/
def execDrivePassEnd (sin : PassBits) (s : State) : Out :=
  .next (event (drivePassEnd sin) s)

/-- RELEASE_SETTLE_EXPIRY (R152). -/
def execReleaseSettleExpiry (s : State) : Out :=
  .next (event (settleExpiry .releaseSettle .openSense) s)

/-- OPERATE_SETTLE_EXPIRY (R153). -/
def execOperateSettleExpiry (s : State) : Out :=
  .next (event (settleExpiry .operateSettle .closeSense) s)

/-- OPEN_SENSE_PASS_END (R152, R6, R7, R11). -/
def execOpenSensePassEnd (sin : PassBits) (s : State) : Out :=
  .next (event (Sys2Proof.Machine.openSensePassEnd sin) s)

/-- CLOSE_SENSE_PASS_END (R153, R6, R7, R11). -/
def execCloseSensePassEnd (sin : PassBits) (s : State) : Out :=
  .next (event (Sys2Proof.Machine.closeSensePassEnd sin) s)

/-- CHECK_PASS_START (R158, R159), when a CHECK waits and the CME is IDLE. -/
def execCheckPassStart (s : State) : Out :=
  .next (event takeCheckStart s)

/-- CHECK_PASS_END (R158). -/
def execCheckPassEnd (sin : PassBits) (s : State) : Out :=
  .next (event (Sys2Proof.Machine.checkPassEnd sin) s)

/-- CLEAR_SETTLE_EXPIRY (R8, R149). -/
def execClearSettleExpiry (s : State) : Out :=
  .next (event (settleExpiry .clearSettle .idle) s)

end Sys2Proof.Machine
end

