-- ==== Sys2Proof/Machine/LinkCommands.lean ====
section
/-! DEFINITION. The meanings of the commands of the link's timing and frames. -/

namespace Sys2Proof.Machine

/-- CYCLE_MARK (R20 to R22, R55, R73, R98, R138, R143, R166). -/
def execCycleMark (lclk : Nat) (order : List MarkTaker) (s : State) : Out :=
  .next (event (takeCycleMark lclk order) s)

/-- SLOT_BOUNDARY (R125). -/
def execSlotBoundary (slot : Slot) (trig : Bool) (s : State) : Out :=
  .next (event (takeSlotBoundary slot trig) s)

/-- OWN_SLOT_START (R30, R40, R41). -/
def execOwnSlotStart (s : State) : Out :=
  .next (event takeOwnSlotStart s)

/-- FRAME_END (R32 to R37). -/
def execFrameEnd (slot : Slot) (bits : FrameBits) (s : State) : Out :=
  .next (event (takeFrameEnd slot bits) s)

/-- BEYOND_CYCLE (R20). -/
def execBeyondCycle (s : State) : Out :=
  .next (event takeBeyondCycle s)

/-- DRIVE_CONFLICT_DETECTED (R30). -/
def execDriveConflictDetected (s : State) : Out :=
  .next (event takeDriveConflict s)

/-- ABSENCE (R63). -/
def execAbsence (station : Addr) (s : State) : Out :=
  .next (event (takeAbsence station) s)

/-- HELD_ITEM_ADMISSION (R41). -/
def execHeldItemAdmission (s : State) : Out :=
  .next (event takeAdmission s)

end Sys2Proof.Machine
end

