-- ==== Sys2Proof/Machine/MessageCommands.lean ====
section
/-! DEFINITION. The meanings of the commands of the link messages of a good frame. -/

namespace Sys2Proof.Machine

/-- CLAIM (R46, R47). -/
def execClaim (sender : Addr) (trunk : Trunk) (tag : Tag) (gen : Gen) (leg : Fin 4) (s : State) : Out :=
  .next (event (takeClaim sender trunk tag gen leg) s)

/-- RELEASE (R48). -/
def execRelease (sender : Addr) (trunk : Trunk) (s : State) : Out :=
  .next (event (takeRelease sender trunk) s)

/-- QUARANTINE (R49). -/
def execQuarantine (sender : Addr) (trunk : Trunk) (s : State) : Out :=
  .next (event (takeQuarantine sender trunk) s)

/-- OPERATE (R133 to R136, R121). -/
def execOperate (sender target : Addr) (line : Line) (trunk : Trunk) (action : Action) (tag : Tag) (gen : Gen)
    (quiet : QuietIndex) (armed : Bool) (s : State) : Out :=
  .next (event (takeOperate sender target ⟨⟨sender, tag, gen⟩, line, trunk, action, quiet, armed⟩) s)

/-- RESULT (R100, R101); a local result when the sender is this station. -/
def execResult (sender target : Addr) (tag : Tag) (gen : Gen) (line : Line) (trunk : Trunk)
    (code : ResultCode) (s : State) : Out :=
  .next (event (takeResultCommand target ⟨sender, tag, gen, line, trunk, code⟩) s)

/-- ABANDON (R140). -/
def execAbandon (sender : Addr) (tag : Tag) (gen : Gen) (s : State) : Out :=
  .next (event (takeAbandonMsg ⟨sender, tag, gen⟩) s)

/-- PERMIT (R123). -/
def execPermit (sender : Addr) (tag : Tag) (gen : Gen) (s : State) : Out :=
  .next (event (takePermitMsg ⟨sender, tag, gen⟩) s)

/-- FIRE (R128). -/
def execFire (sender : Addr) (tag : Tag) (gen : Gen) (s : State) : Out :=
  .next (event (takeFireMsg ⟨sender, tag, gen⟩) s)

end Sys2Proof.Machine
end

