-- ==== Sys2Proof/Machine/OrderCommands.lean ====
section
/-! DEFINITION. The meanings of the commands of the orders, each received whole (R173) and taken from the order FIFO when a report place is free (R176, log 38). -/

namespace Sys2Proof.Machine

/-- CONFIGURE (R164), received whole. -/
def execConfigure (payload : List Byte) (s : State) : Out :=
  .next (event (receiveOrder 0x01 payload s.stc.strap) s)

/-- WEAR_LOAD (R17), received whole. -/
def execWearLoad (payload : List Byte) (s : State) : Out :=
  .next (event (receiveOrder 0x02 payload s.stc.strap) s)

/-- WEAR_READ (R18), received whole. -/
def execWearRead (payload : List Byte) (s : State) : Out :=
  .next (event (receiveOrder 0x03 payload s.stc.strap) s)

/-- JOIN (R165), received whole. -/
def execJoin (payload : List Byte) (s : State) : Out :=
  .next (event (receiveOrder 0x04 payload s.stc.strap) s)

/-- ROUTE_MAKE (R83 to R85), received whole. -/
def execRouteMake (payload : List Byte) (s : State) : Out :=
  .next (event (receiveOrder 0x10 payload s.stc.strap) s)

/-- ROUTE_BREAK (R111 to R113), received whole. -/
def execRouteBreak (payload : List Byte) (s : State) : Out :=
  .next (event (receiveOrder 0x11 payload s.stc.strap) s)

/-- ROUTE_CLEAR (R115), received whole. -/
def execRouteClear (payload : List Byte) (s : State) : Out :=
  .next (event (receiveOrder 0x12 payload s.stc.strap) s)

/-- ROUTE_FIRE (R128), received whole. -/
def execRouteFire (payload : List Byte) (s : State) : Out :=
  .next (event (receiveOrder 0x13 payload s.stc.strap) s)

/-- ROUTE_QUERY (R119), received whole. -/
def execRouteQuery (payload : List Byte) (s : State) : Out :=
  .next (event (receiveOrder 0x14 payload s.stc.strap) s)

/-- TABLE_QUERY (R178), received whole. -/
def execTableQuery (payload : List Byte) (s : State) : Out :=
  .next (event (receiveOrder 0x20 payload s.stc.strap) s)

/-- STATUS_QUERY (R178), received whole. -/
def execStatusQuery (payload : List Byte) (s : State) : Out :=
  .next (event (receiveOrder 0x21 payload s.stc.strap) s)

/-- ALERT_CLEAR (R180), received whole. -/
def execAlertClear (payload : List Byte) (s : State) : Out :=
  .next (event (receiveOrder 0x22 payload s.stc.strap) s)

/-- CHECK (R158, R159), received whole. -/
def execCheck (payload : List Byte) (s : State) : Out :=
  .next (event (receiveOrder checkCode payload s.stc.strap) s)

/-- UNKNOWN_ORDER (R176), received whole. -/
def execUnknownOrder (code : Byte) (payload : List Byte) (s : State) : Out :=
  .next (event (receiveOrder code payload s.stc.strap) s)

end Sys2Proof.Machine
end

