-- ==== Sys2Proof/Machine/PortCommands.lean ====
section
/-! DEFINITION. The meanings of the commands of the bytes, select periods and reports of the order port. -/

namespace Sys2Proof.Machine

/-- The last byte of an order (R173); another byte is no such event. -/
def takeLastByte (b : Byte) (startedEmpty : Bool) (straps : Fin 32) (s : State) : State :=
  if s.completes b then exchangeByte b startedEmpty straps s else s

/-- SELECT_PERIOD_START (R172). SEL is a pin, so its level is followed while RESET is held. -/
def execSelectPeriodStart (s : State) : Out :=
  .next (if s.stc.resetHeld then { s with orp.selected := true } else afterEvent (startSelect s))

/-- BYTE_SAMPLED (R172 to R177). A byte that completes a RESTART reads the strap pins (R161, R163). -/
def execByteSampled (sdi : SampledByte) (startedEmpty : Bool) (s : State) : Out :=
  .next (event (exchangeByte sdi.byte startedEmpty sdi.straps) s)

/-- ORDER_RECEIVED (R173): the byte completes the order in reception. -/
def execOrderReceived (sdi : Byte) (startedEmpty : Bool) (straps : Fin 32) (s : State) : Out :=
  .next (event (takeLastByte sdi startedEmpty straps) s)

/-- ORDER_CUT_SHORT (R174). -/
def execOrderCutShort (s : State) : Out :=
  .next (event cutOrder s)

/-- SELECT_PERIOD_END (R172, R174). SEL is a pin, so its level is followed while RESET is held. -/
def execSelectPeriodEnd (s : State) : Out :=
  .next (if s.stc.resetHeld then { s with orp.selected := false } else afterEvent (endSelect s))

/-- REPORT_SHIFTED_OUT (R177). -/
def execReportShiftedOut (s : State) : Out :=
  .next (event shiftedOut s)

/-- REPORT_PLACEMENT (R119). -/
def execReportPlacement (s : State) : Out :=
  .next (event placeReports s)

end Sys2Proof.Machine
end

