-- ==== Sys2Proof/Machine/StationCommands.lean ====
section
/-! DEFINITION. The meanings of the commands of the resets, the end of listening and the clash. -/

namespace Sys2Proof.Machine

/-- POWER_ON_RESET (R162): it is taken at once, whatever stands, and ends a held RESET. -/
def execPowerOnReset (straps : Fin 32) (quiet : BitVec 4) (s : State) : Out :=
  .next (afterEvent (powerOn straps quiet s))

/-- RESET_PIN_ASSERTED (R162): every block holds its power-on values until POWER_ON_RESET ends the reset. -/
def execResetPinAsserted (s : State) : Out :=
  .next (updatePins (holdReset s))

/-- RESTART (R163), received whole: it acts at once, ahead of the order FIFO (R175). -/
def execRestart (straps : Fin 32) (s : State) : Out :=
  .next (event (receiveOrder restartCode [] straps) s)

/-- END_OF_LISTENING (R167). -/
def execEndOfListening (s : State) : Out :=
  .next (event takeEndOfListening s)

/-- CLASH (R170). -/
def execClash (s : State) : Out :=
  .next (event takeClash s)

end Sys2Proof.Machine
end

