-- ==== Sys2Proof/Machine/TimerCommands.lean ====
section
/-! DEFINITION. The meanings of the commands of the quiet inputs and the timers that count link cycles. -/

namespace Sys2Proof.Machine

/-- A reply timer that is present comes to 0 (R99). -/
def takeReplyExpiry (tag : Tag) (s : State) : State :=
  if (s.route tag).timer.isSome then exchange (expireReply tag s) else s

/-- A running sweep timer comes to 0 (R143). -/
def takeSweepExpiry (s : State) : State :=
  match s.jbu.sweep with
  | .running _ => { s with jbu.sweep := .expired }
  | _ => s

/-- QUIET_CHANGE (R137). -/
def execQuietChange (q : Fin 4) (asserted : Bool) (s : State) : Out :=
  .next (event (takeQuiet q asserted) s)

/-- REPLY_TIMER_EXPIRY (R99), of an entry whose timer is present. -/
def execReplyTimerExpiry (tag : Tag) (s : State) : Out :=
  .next (event (takeReplyExpiry tag) s)

/-- HOT_WAIT_EXPIRY (R138), of a job in QUIET-WAIT. -/
def execHotWaitExpiry (ref : RouteRef) (line : Line) (trunk : Trunk) (action : Action) (s : State) : Out :=
  .next (event (expireHotWait ref line trunk action) s)

/-- SWEEP_TIMER_EXPIRY (R143), of a running timer. -/
def execSweepTimerExpiry (s : State) : Out :=
  .next (event takeSweepExpiry s)

end Sys2Proof.Machine
end

