-- ==== Sys2Proof/Machine/Dispatch.lean ====
section
/-! DEFINITION. The dispatch: one arm for each command, each a call of its meaning. -/

namespace Sys2Proof.Machine

def exec (i : Instr) (s : State) : Host.Outcome State Fault Refusal :=
  match i with
  | .powerOnReset straps quiet => Sys2Proof.Machine.execPowerOnReset straps quiet s
  | .cycleMark lclk order => Sys2Proof.Machine.execCycleMark lclk order s
  | .slotBoundary slot trig => Sys2Proof.Machine.execSlotBoundary slot trig s
  | .ownSlotStart => Sys2Proof.Machine.execOwnSlotStart s
  | .frameEnd slot bits => Sys2Proof.Machine.execFrameEnd slot bits s
  | .claim sender trunk tag gen leg => Sys2Proof.Machine.execClaim sender trunk tag gen leg s
  | .release sender trunk => Sys2Proof.Machine.execRelease sender trunk s
  | .quarantine sender trunk => Sys2Proof.Machine.execQuarantine sender trunk s
  | .operate sender target line trunk action tag gen quiet armed => Sys2Proof.Machine.execOperate sender target line trunk action tag gen quiet armed s
  | .result sender target tag gen line trunk code => Sys2Proof.Machine.execResult sender target tag gen line trunk code s
  | .abandon sender tag gen => Sys2Proof.Machine.execAbandon sender tag gen s
  | .permit sender tag gen => Sys2Proof.Machine.execPermit sender tag gen s
  | .fire sender tag gen => Sys2Proof.Machine.execFire sender tag gen s
  | .absence station => Sys2Proof.Machine.execAbsence station s
  | .endOfListening => Sys2Proof.Machine.execEndOfListening s
  | .clash => Sys2Proof.Machine.execClash s
  | .quietChange q asserted => Sys2Proof.Machine.execQuietChange q asserted s
  | .replyTimerExpiry tag => Sys2Proof.Machine.execReplyTimerExpiry tag s
  | .hotWaitExpiry ref line trunk action => Sys2Proof.Machine.execHotWaitExpiry ref line trunk action s
  | .sweepTimerExpiry => Sys2Proof.Machine.execSweepTimerExpiry s
  | .batchFormation => Sys2Proof.Machine.execBatchFormation s
  | .drivePassEnd sin => Sys2Proof.Machine.execDrivePassEnd sin s
  | .releaseSettleExpiry => Sys2Proof.Machine.execReleaseSettleExpiry s
  | .operateSettleExpiry => Sys2Proof.Machine.execOperateSettleExpiry s
  | .openSensePassEnd sin => Sys2Proof.Machine.execOpenSensePassEnd sin s
  | .closeSensePassEnd sin => Sys2Proof.Machine.execCloseSensePassEnd sin s
  | .checkPassEnd sin => Sys2Proof.Machine.execCheckPassEnd sin s
  | .clearSettleExpiry => Sys2Proof.Machine.execClearSettleExpiry s
  | .checkPassStart => Sys2Proof.Machine.execCheckPassStart s
  | .heldItemAdmission => Sys2Proof.Machine.execHeldItemAdmission s
  | .reportPlacement => Sys2Proof.Machine.execReportPlacement s
  | .orderReceived sdi startedEmpty straps => Sys2Proof.Machine.execOrderReceived sdi startedEmpty straps s
  | .orderCutShort => Sys2Proof.Machine.execOrderCutShort s
  | .selectPeriodEnd => Sys2Proof.Machine.execSelectPeriodEnd s
  | .reportShiftedOut => Sys2Proof.Machine.execReportShiftedOut s
  | .configure payload => Sys2Proof.Machine.execConfigure payload s
  | .wearLoad payload => Sys2Proof.Machine.execWearLoad payload s
  | .wearRead payload => Sys2Proof.Machine.execWearRead payload s
  | .join payload => Sys2Proof.Machine.execJoin payload s
  | .routeMake payload => Sys2Proof.Machine.execRouteMake payload s
  | .routeBreak payload => Sys2Proof.Machine.execRouteBreak payload s
  | .routeClear payload => Sys2Proof.Machine.execRouteClear payload s
  | .routeFire payload => Sys2Proof.Machine.execRouteFire payload s
  | .routeQuery payload => Sys2Proof.Machine.execRouteQuery payload s
  | .tableQuery payload => Sys2Proof.Machine.execTableQuery payload s
  | .statusQuery payload => Sys2Proof.Machine.execStatusQuery payload s
  | .alertClear payload => Sys2Proof.Machine.execAlertClear payload s
  | .check payload => Sys2Proof.Machine.execCheck payload s
  | .restart straps => Sys2Proof.Machine.execRestart straps s
  | .unknownOrder code payload => Sys2Proof.Machine.execUnknownOrder code payload s
  | .resetPinAsserted => Sys2Proof.Machine.execResetPinAsserted s
  | .beyondCycle => Sys2Proof.Machine.execBeyondCycle s
  | .driveConflictDetected => Sys2Proof.Machine.execDriveConflictDetected s
  | .byteSampled sdi startedEmpty => Sys2Proof.Machine.execByteSampled sdi startedEmpty s
  | .selectPeriodStart => Sys2Proof.Machine.execSelectPeriodStart s

end Sys2Proof.Machine
end

