-- ==== Sys2Proof/Safety.lean ====
section
/-! DEFINITION. The predicates that the statements about the machine use: a station at rest, and the laws of the device
that every step keeps. -/

namespace Sys2Proof.Machine

/-- Nothing is left for the end of an event to do but to set the pins: RESET is not held, the CME has no work to take, no
ready report and no head order has a place, no local job or local result waits, and no timer runs without cause. -/
def State.calm (s : State) : Bool :=
  !s.stc.resetHeld && (commitWork s).isNone && (placeNextReport s).isNone && (serveOrder s).isNone
    && (exchangeStep s).isNone && (s.rte.routes.cells.all fun r => r.timer.isNone || r.anyRequested)
    && (s.anyMark || s.jbu.sweep == .absent)

/-- At rest, with the CME busy: a job that becomes READY, or a mark, starts nothing yet. -/
def State.calmBusy (s : State) : Bool := s.calm && s.cme.engine != .idle

/-- At rest, with an empty order FIFO and a free report place: an order is taken when it is received (R176). -/
def State.calmOrders (s : State) : Bool := s.calm && s.orp.orders.isEmpty && s.placeFree

/-- What the owner law and the field table say of one record (R2, R3, R4, R13, R15): an OPEN record has no owner, quiet
index NONE and no mark; CLOSED, CLOSING and OPENING have an owner; an ownerless UNKNOWN has drive direction open, quiet
index NONE and no mark; CLOSING and OPENING are not marked; the wear count stays in its range. -/
def Crosspoint.lawful (c : Crosspoint) : Bool :=
  decide (c.wear ≤ Config.wearMax) &&
    match c.state with
    | .opn => c.owner.isNone && c.quiet == .none && !c.marked
    | .closing => c.owner.isSome && !c.marked
    | .opening => c.owner.isSome && !c.marked
    | .closed => c.owner.isSome
    | .unknown driveClosed => c.owner.isSome || (!driveClosed && c.quiet == .none && !c.marked)

/-- Every record is lawful, and every line has at most one crosspoint that is not OPEN (R3, R9). -/
def State.recordsLawful (s : State) : Bool :=
  s.cme.xps.cells.all Crosspoint.lawful && !lineConflict s.cme.xps

/-- The capacities: 24 messages (R38), 32 jobs (R132), 8 orders (R175), 8 reports with the reserved place (R176). -/
def State.withinCapacity (s : State) : Bool :=
  decide (s.liu.queue.length ≤ Config.queuePlaces) && decide (s.jbu.jobs.length ≤ Config.jobPlaces)
    && decide (s.orp.orders.length ≤ Config.orderPlaces)
    && decide (s.orp.reports.length + (if s.cme.check.isSome then 1 else 0) ≤ Config.reportPlaces)

/-- READY and SRQ stand at the levels that R175 and R181 give them. -/
def State.pinsAtLevel (s : State) : Bool := s.orp.ready == s.readyLevel && s.orp.srq == s.srqLevel

/-- Commands that may lower a wear count whatever the station state: the power-on reset and the RESET pin (R15). -/
def clearsWear : Instr → Bool
  | .powerOnReset _ _ => true
  | .resetPinAsserted => true
  | _ => false

/-- Commands that act while RESET is held low: its end, its assertion, and the level of SEL (log 31). -/
def actsInReset : Instr → Bool
  | .powerOnReset _ _ => true
  | .resetPinAsserted => true
  | .selectPeriodStart => true
  | .selectPeriodEnd => true
  | _ => false

/-- A message that a station can send: the armed flag stands with CLOSE only (R28). -/
def LinkMsg.sendable : LinkMsg → Bool
  | .operate _ _ _ action _ _ _ armed => !armed || action == .close
  | _ => true

/-- A frame that a station can send: at most six messages (R25), none while STALE or JOINING is set (R23). -/
def Frame.sendable (f : Frame) : Bool :=
  decide (f.msgs.length ≤ Config.framePlaces) && (f.msgs.isEmpty || (!f.stale && !f.joining))
    && f.msgs.all LinkMsg.sendable

/-! ## What statements compare a state with -/

/-- What the table shows after the contamination rule for a header. -/
def contaminatedEntry (f : Frame) (s : State) (k : Trunk) : TrunkEntry :=
  if s.entry k = .free ∧ f.contacts.getLsbD k.val = true then .draining f.sender else s.entry k

/-- What the table shows after the adoption of a snapshot over a membership table: a FREE trunk that a stored
contact set contains is DRAINING with the lowest such station as its owner (R70, R52). -/
def adoptedEntry (snapshot : TrunkTable) (members : Table 24 Member) (k : Trunk) : TrunkEntry :=
  if snapshot.get k = .free then
    match (List.finRange 24).find? fun a =>
        (members.get a).state != .unseen && (members.get a).contacts.getLsbD k.val with
    | some a => .draining a
    | none => .free
  else snapshot.get k

/-- What the drain rule leaves of an entry: a DRAINING trunk in no stored contact set, whose owner is not UNSEEN, is FREE
(R55). -/
def drainedEntry (members : Table 24 Member) (k : Trunk) (e : TrunkEntry) : TrunkEntry :=
  match e with
  | .draining o =>
    if (members.get o).state ≠ .unseen
        ∧ ∀ a, (members.get a).state = .unseen ∨ (members.get a).contacts.getLsbD k.val = false
    then .free else e
  | _ => e

/-- None of the first three checks of R151 holds of a close: the station is not in FAULT, the crosspoint is not retired,
and the trunk is HELD by the origin. -/
abbrev State.passesFirstChecks (s : State) (j : Job) : Prop :=
  s.stc.station ≠ .fault ∧ (s.xp j.xp).wear < s.cfg.wearLimit ∧ s.entry j.trunk = .held j.ref.origin

/-- A RESULT for another station has where to go: the origin is another station and not ABSENT, the station is not in CLASH,
and the queue has a place. -/
abbrev State.canAnswer (s : State) (ref : RouteRef) : Prop :=
  s.isSelf ref.origin = false ∧ s.stc.station ≠ .clash ∧ (s.mbu.members.get ref.origin).state ≠ .absent
    ∧ s.queueHasPlace = true

/-- The entry of a ROUTE-MAKE accepted in a state, with its legs as `plan` leaves them. -/
def acceptedEntry (o : MakeOrder) (s : State) (st : RouteState) (plan : MakeLeg → Leg) : Route :=
  { state := st, gen := (s.route o.tag).gen + 1, stage := o.stage, avoid := o.avoid, legs := o.legs.map plan,
    timer := none, reason := none, worn := false, peerAbsent := false, owed := [⟨.make, none⟩] }

end Sys2Proof.Machine
end

