-- ==== Sys2Proof/WellFormed.lean ====
section
/-! DEFINITION. Which commands can come about at all: the checks that the operand types leave over. -/

namespace Sys2Proof

/-- The order codes of Table 12-1. -/
def orderCodes : List Byte :=
  [0x01, 0x02, 0x03, 0x04, 0x10, 0x11, 0x12, 0x13, 0x14, 0x20, 0x21, 0x22, 0x23, 0x3C]

/-- A payload that a length byte of 0 to 60 can give (R173). -/
def payloadOk (payload : List Byte) : Bool := payload.length ≤ Config.maxPayload

/-- Every taker of a cycle mark once, and no event of the edge twice (R22). -/
def markOrderOk (order : List MarkTaker) : Bool :=
  order.count .ttu == 1 && order.count .rte == 1 && order.count .jbu == 1 &&
    order.count .ownStart ≤ 1 && order.count (.boundary true) + order.count (.boundary false) ≤ 1

/-- The checks on a command. -/
def Instr.wf : Instr → Bool
  | .powerOnReset _ _ => true
  | .cycleMark lclk order => 0 < lclk && markOrderOk order
  | .slotBoundary _ _ => true
  | .ownSlotStart => true
  | .frameEnd _ _ => true
  | .claim _ _ _ _ _ => true
  | .release _ _ => true
  | .quarantine _ _ => true
  -- R28: an armed flag stands with CLOSE only
  | .operate _ _ _ _ action _ _ _ armed => !armed || action == .close
  | .result _ _ _ _ _ _ _ => true
  | .abandon _ _ _ => true
  | .permit _ _ _ => true
  | .fire _ _ _ => true
  | .absence _ => true
  | .endOfListening => true
  | .clash => true
  | .quietChange _ _ => true
  | .replyTimerExpiry _ => true
  | .hotWaitExpiry _ _ _ _ => true
  | .sweepTimerExpiry => true
  | .batchFormation => true
  | .drivePassEnd _ => true
  | .releaseSettleExpiry => true
  | .operateSettleExpiry => true
  | .openSensePassEnd _ => true
  | .closeSensePassEnd _ => true
  | .checkPassEnd _ => true
  | .clearSettleExpiry => true
  | .checkPassStart => true
  | .heldItemAdmission => true
  | .reportPlacement => true
  | .orderReceived _ _ _ => true
  | .orderCutShort => true
  | .selectPeriodEnd => true
  | .reportShiftedOut => true
  | .configure p => payloadOk p
  | .wearLoad p => payloadOk p
  | .wearRead p => payloadOk p
  | .join p => payloadOk p
  | .routeMake p => payloadOk p
  | .routeBreak p => payloadOk p
  | .routeClear p => payloadOk p
  | .routeFire p => payloadOk p
  | .routeQuery p => payloadOk p
  | .tableQuery p => payloadOk p
  | .statusQuery p => payloadOk p
  | .alertClear p => payloadOk p
  | .check p => payloadOk p
  | .restart _ => true
  -- R173: 0x00 is filler, and a code of Table 12-1 names an order
  | .unknownOrder code p => payloadOk p && code != 0 && !orderCodes.contains code
  | .resetPinAsserted => true
  | .beyondCycle => true
  | .driveConflictDetected => true
  | .byteSampled _ _ => true
  | .selectPeriodStart => true

end Sys2Proof
end

