-- ==== Sys2Proof/Certificates/Slice0/Obligations.lean ====
section
/-! DEFINITION. The statements for the provers. `calm` says that an event leaves nothing to do but to set READY and SRQ
(`updatePins`), so a statement that ends in `updatePins` of a state gives every field after the command. -/

open Sys2Proof Sys2Proof.Machine

/-! ## The queue of commands, reset, and the laws of the device -/

/-- A step takes the command at the front of the queue and runs it on the state with the queue's rest. -/
def Obligations.StepRunsFrontCommand : Prop :=
  ∀ (c : Instr) (s : State) (rest : List Instr),
    s.pending = c :: rest → step s = exec c { s with pending := rest }

/-- With no command waiting the block idles, the model's choice (log 2); and every command has a next state in every
state, with the queue of commands unchanged. -/
def Obligations.CommandsAnswerAndQueueStands : Prop :=
  ∀ s : State, (s.pending = [] → step s = .next s)
    ∧ ∀ c : Instr, ∃ t, exec c s = .next t ∧ t.pending = s.pending

/-- The values that the spec gives for a power-on reset. -/
def Obligations.ResetValues : Prop :=
  State.reset.stc.station = .offline ∧ State.reset.liu.pos = .unknown ∧ State.reset.liu.conflicts = 0
    ∧ State.reset.liu.queue = [] ∧ State.reset.liu.trig = none
    ∧ (∀ a, State.reset.mbu.members.get a = Member.unseen)
    ∧ State.reset.ttu.valid = false ∧ State.reset.ttu.stale = false ∧ State.reset.ttu.pending = false
    ∧ State.reset.ttu.mismatch = false ∧ State.reset.ttu.watch = false ∧ State.reset.ttu.candidate = none
    ∧ State.reset.ttu.listening = none
    ∧ (∀ tag, State.reset.route tag = Route.idle) ∧ State.reset.rte.held = []
    ∧ State.reset.jbu.jobs = [] ∧ State.reset.jbu.sweep = .absent
    ∧ (∀ x, State.reset.xp x = Crosspoint.reset) ∧ State.reset.cme.drive = 0
    ∧ State.reset.cme.engine = .clearSettle ∧ State.reset.cme.settle = some 1024 ∧ State.reset.cme.check = none
    ∧ State.reset.orp.orders = [] ∧ State.reset.orp.reports = [] ∧ State.reset.orp.alerts = Alerts.empty
    ∧ State.reset.orp.config = none ∧ State.reset.orp.ready = true ∧ State.reset.orp.srq = false

/-- The state after reset satisfies the laws that every step keeps. -/
def Obligations.ResetIsLawful : Prop :=
  State.reset.recordsLawful = true ∧ State.reset.withinCapacity = true ∧ State.reset.pinsAtLevel = true

/-- Every step keeps the laws of the crosspoint records: owners as R3 says, and on every line at most one crosspoint that
is not OPEN. -/
def Obligations.StepKeepsRecordsLawful : Prop :=
  ∀ s t : State, s.recordsLawful = true → step s = .next t → t.recordsLawful = true

/-- Every step keeps the capacities of the outbound queue, the job list and the two FIFOs. -/
def Obligations.StepKeepsCapacities : Prop :=
  ∀ s t : State, s.withinCapacity = true → step s = .next t → t.withinCapacity = true

/-- Every step leaves READY and SRQ at their levels. -/
def Obligations.StepKeepsPinsAtLevel : Prop :=
  ∀ s t : State, s.pinsAtLevel = true → step s = .next t → t.pinsAtLevel = true

/-- Outside OFFLINE no command but a power-on reset or the RESET pin lowers a wear count. -/
def Obligations.WearNeverDecreases : Prop :=
  ∀ (c : Instr) (s t : State), s.recordsLawful = true → s.stc.station ≠ .offline → clearsWear c = false →
    exec c s = .next t → ∀ x, (s.xp x).wear ≤ (t.xp x).wear

/-! ## Link layouts -/

/-- Every message that a station can send is read back as it was. -/
def Obligations.MessageReadsBack : Prop :=
  ∀ m : LinkMsg, m.sendable = true → decodeMsg (encodeMsg m) = some m

/-- Every frame that a station can send is judged good in its sender's slot, and read back as it was. -/
def Obligations.FrameReadsBack : Prop :=
  ∀ f : Frame, f.sendable = true → judge f.sender (encodeFrame f) false = .good f

/-! ## Resets and station life -/

/-- A power-on reset leaves every block at its power-on values, with the straps and the quiet inputs as read, READY high
and SRQ deasserted. -/
def Obligations.PowerOnResetSets : Prop :=
  ∀ (straps : Fin 32) (quiet : BitVec 4) (s : State), ∃ t, exec (.powerOnReset straps quiet) s = .next t
    ∧ t.stc.resetHeld = false ∧ t.stc.station = .offline ∧ t.stc.strap = straps ∧ t.stc.listenCount = none
    ∧ t.liu.ownSlot = false ∧ t.liu.garbled = false ∧ t.liu.pos = .unknown ∧ t.liu.conflicts = 0 ∧ t.liu.queue = []
    ∧ t.liu.trig = none ∧ (∀ a, t.mbu.members.get a = Member.unseen)
    ∧ t.ttu.valid = false ∧ t.ttu.stale = false ∧ t.ttu.pending = false ∧ t.ttu.mismatch = false
    ∧ t.ttu.watch = false ∧ t.ttu.candidate = none ∧ t.ttu.listening = none
    ∧ (∀ tag, t.route tag = Route.idle) ∧ t.rte.held = [] ∧ t.rte.rounds = []
    ∧ t.jbu.jobs = [] ∧ t.jbu.sweep = .absent ∧ t.jbu.quiet = quiet
    ∧ (∀ x, t.xp x = Crosspoint.reset) ∧ t.cme.drive = 0 ∧ t.cme.coils = 0 ∧ t.cme.dout = none
    ∧ t.cme.engine = .clearSettle ∧ t.cme.settle = some 1024 ∧ t.cme.check = none
    ∧ t.orp.ready = true ∧ t.orp.srq = false ∧ t.orp.orders = [] ∧ t.orp.reports = [] ∧ t.orp.rx = .code
    ∧ t.orp.gap = none ∧ t.orp.sent = 0 ∧ t.orp.alerts = Alerts.empty ∧ t.orp.config = none
    ∧ t.orp.selected = s.orp.selected ∧ t.pending = s.pending

/-- While RESET is held low LDATA is released, READY is low and SRQ is deasserted, and every block holds its power-on
values; the straps and the quiet levels stand until the reset ends. -/
def Obligations.ResetPinHolds : Prop :=
  ∀ s : State, ∃ t, exec .resetPinAsserted s = .next t
    ∧ t.stc.resetHeld = true ∧ t.stc.station = .offline ∧ t.stc.strap = s.stc.strap ∧ t.stc.listenCount = none
    ∧ t.liu.ownSlot = false ∧ t.liu.garbled = false ∧ t.liu.pos = .unknown ∧ t.liu.conflicts = 0 ∧ t.liu.queue = []
    ∧ t.liu.trig = none ∧ (∀ a, t.mbu.members.get a = Member.unseen)
    ∧ t.ttu.valid = false ∧ t.ttu.stale = false ∧ t.ttu.pending = false ∧ t.ttu.mismatch = false
    ∧ t.ttu.watch = false ∧ t.ttu.candidate = none ∧ t.ttu.listening = none
    ∧ (∀ tag, t.route tag = Route.idle) ∧ t.rte.held = [] ∧ t.rte.rounds = []
    ∧ t.jbu.jobs = [] ∧ t.jbu.sweep = .absent ∧ t.jbu.quiet = s.jbu.quiet
    ∧ (∀ x, t.xp x = Crosspoint.reset) ∧ t.cme.drive = 0 ∧ t.cme.coils = 0 ∧ t.cme.dout = none
    ∧ t.cme.engine = .clearSettle ∧ t.cme.settle = some 1024 ∧ t.cme.check = none
    ∧ t.orp.ready = false ∧ t.orp.srq = false ∧ t.orp.orders = [] ∧ t.orp.reports = [] ∧ t.orp.rx = .code
    ∧ t.orp.alerts = Alerts.empty ∧ t.orp.config = none ∧ t.pending = s.pending

/-- While RESET is held low no other command has an effect: the model's reading, log 31. -/
def Obligations.HeldResetIgnoresCommands : Prop :=
  ∀ (c : Instr) (s : State), s.stc.resetHeld = true → actsInReset c = false → exec c s = .next s

/-- A RESTART returns the station to OFFLINE and keeps the configuration record, the wear counts and the quiet levels; its
driver clear uses the configured release exponent. -/
def Obligations.RestartKeepsSetUp : Prop :=
  ∀ (straps : Fin 32) (s : State), s.stc.resetHeld = false → ∃ t, exec (.restart straps) s = .next t
    ∧ t.stc.station = .offline ∧ t.stc.strap = straps ∧ t.orp.config = s.orp.config ∧ t.jbu.quiet = s.jbu.quiet
    ∧ (∀ x, t.xp x = { Crosspoint.reset with wear := (s.xp x).wear })
    ∧ t.cme.engine = .clearSettle ∧ t.cme.settle = some (2 ^ s.cfg.releaseExp) ∧ t.cme.drive = 0
    ∧ (∀ tag, t.route tag = Route.idle) ∧ t.jbu.jobs = [] ∧ t.liu.queue = [] ∧ t.liu.ownSlot = false
    ∧ t.liu.pos = .unknown ∧ t.orp.orders = [] ∧ t.orp.reports = [] ∧ t.orp.alerts = Alerts.empty
    ∧ (∀ a, t.mbu.members.get a = Member.unseen) ∧ t.ttu.valid = false ∧ t.ttu.stale = false

/-- The end of listening, at the mark that brings the listening count to 2: with no good header heard the table is valid
with every trunk FREE; with only STALE headers heard the candidate's snapshot is adopted, a candidate of the closing
cycle before an older one, a FREE trunk that a stored contact set contains becoming DRAINING, and the mark's drain rule is
applied. The station is JOINING, and a new recovery record is open. That END_OF_LISTENING by itself does this work of the
mark is the model's choice (logs 6, 40), and so is that it changes nothing in another state, at another count or after a
link error in the running cycle. -/
def Obligations.EndOfListeningFreesTable : Prop :=
  ∀ s : State, s.calm = true →
    (s.stc.station = .listening → s.stc.listenCount = some 1 → s.stc.cycleError = false → s.ttu.valid = false →
      s.ttu.stale = false →
      (s.ttu.candidate = none → s.ttu.listening = none →
        ∃ t, exec .endOfListening s = .next t ∧ t.stc.station = .joining ∧ t.ttu.valid = true ∧ t.ttu.pending = false
          ∧ (∀ k, t.entry k = .free) ∧ t.mbu = s.mbu ∧ t.cme = s.cme ∧ t.rte = s.rte ∧ t.jbu = s.jbu)
      ∧ (∀ c, (s.ttu.candidate = some c ∨ s.ttu.candidate = none ∧ s.ttu.listening = some c) →
        ∃ t, exec .endOfListening s = .next t ∧ t.stc.station = .joining ∧ t.ttu.valid = true ∧ t.ttu.pending = false
          ∧ t.ttu.candidate = none ∧ t.mbu = s.mbu
          ∧ t.ttu.mismatch = false ∧ t.ttu.stale = false
          ∧ ∀ k, t.entry k = drainedEntry s.mbu.members k (adoptedEntry c.snapshot s.mbu.members k)))
    ∧ (s.stc.station ≠ .listening ∨ s.stc.listenCount = none ∨ s.stc.listenCount = some 0 ∨ s.stc.cycleError = true →
      exec .endOfListening s = .next (updatePins s))

/-- A clash silences the station: CLASH, its alert, LDATA released, the waiting jobs gone, MADE routes DAMAGED. -/
def Obligations.ClashSilencesStation : Prop :=
  ∀ s : State, s.calm = true → s.orp.orders = [] → s.canClash = true →
    ∃ t, exec .clash s = .next t ∧ t.stc.station = .clash ∧ t.orp.alerts.clash = true ∧ t.liu.ownSlot = false
      ∧ t.jbu.jobs = s.jbu.jobs.filter (fun j => j.state == .inBatch)
      ∧ (∀ tag, (s.route tag).state = .made → (t.route tag).state = .damaged)
      ∧ t.ttu = s.ttu ∧ t.mbu = s.mbu ∧ t.cme = s.cme

/-! ## Link timing -/

/-- The drain rule at a cycle mark that is on time, for a station that hears the link and is not stale; the position is
bit 0 of slot 0, and the membership table is unchanged. -/
def Obligations.CycleMarkDrains : Prop :=
  ∀ (order : List MarkTaker) (s : State), s.stc.resetHeld = false → s.hears = true → s.ttu.valid = true →
    s.ttu.stale = false → ∃ t, exec (.cycleMark 10752 order) s = .next t
      ∧ (∀ k, t.entry k = if s.drains k then .free else s.entry k)
      ∧ t.liu.pos = .at 0 0 true ∧ t.mbu = s.mbu

/-- A cycle mark that is a slot overrun makes a station with a valid table stale, and posts STALE-ENTERED; LDATA is
released, unless an own slot of slot 0 starts at the same edge. -/
def Obligations.OverrunMakesStale : Prop :=
  ∀ (lclk : Nat) (order : List MarkTaker) (s : State), s.calm = true → s.hears = true → s.ttu.valid = true →
    s.ttu.stale = false → s.ttu.watch = false → s.overrun lclk = true → s.orp.orders = [] →
    ∃ t, exec (.cycleMark lclk order) s = .next t ∧ t.ttu.stale = true ∧ t.ttu.pending = true
      ∧ t.ttu.mismatch = false ∧ t.orp.alerts.staleEntered = true
      ∧ (MarkTaker.ownStart ∉ order → t.liu.ownSlot = false) ∧ t.mbu = s.mbu

/-- A trigger fires every PERMITTED job, whose held ARMED answer goes with it (the model's reading, log 34), and every STAGED
route, whose reply timer is set; jobs and routes in other states are unchanged. -/
def Obligations.TriggerFires : Prop :=
  ∀ (slot : Slot) (s : State), s.calmBusy = true → s.hears = true → s.liu.pos.before slot 1 = true →
    s.liu.ownSlot = false → s.liu.trig = some false →
    ∃ t, exec (.slotBoundary slot true) s = .next t
      ∧ t.jbu.jobs = s.jbu.jobs.map (fun j =>
          if j.state = .permitted then { j with state := .ready, heldArmed := false } else j)
      ∧ (∀ tag, (s.route tag).state = .staged → (t.route tag).state = .closing
          ∧ (t.route tag).endpoints = (s.route tag).endpoints.map (fun e =>
              if e.status = .armed then { e with status := .requested, request := some ⟨.close, .armed⟩ } else e)
          ∧ ((∃ e ∈ (s.route tag).endpoints, e.status = .armed) → (t.route tag).timer = some s.cfg.replyLimit))
      ∧ (∀ tag, (s.route tag).state ≠ .staged → t.route tag = s.route tag)
      ∧ t.liu.queue = s.liu.queue ∧ t.orp.reports = s.orp.reports ∧ t.orp.alerts = s.orp.alerts ∧ t.stc = s.stc
      ∧ t.ttu = s.ttu ∧ t.mbu = s.mbu ∧ t.cme = s.cme

/-- An own slot start fixes the frame and driving begins. A station that is stale or JOINING sends no message; otherwise,
with nothing held and no CLAIM waiting, the first six waiting messages are taken into the frame and become in flight. -/
def Obligations.OwnSlotStartFixesFrame : Prop :=
  ∀ s : State, s.calm = true → s.driving = true → s.hasSlot = true → s.liu.pos.before s.self 1 = true →
    s.liu.ownSlot = false →
    (s.readsQueue = false → exec .ownSlotStart s = .next (updatePins { s with
      liu.pos := .at s.self 0 (s.heardSlot s.self), liu.ownSlot := true, liu.garbled := false,
      liu.frame := encodeFrame {
        sender := s.self, stale := s.ttu.stale, joining := s.stc.station == .joining,
        fault := s.stc.station == .fault, snapshot := s.ttu.table, contacts := s.contactSet, msgs := [] } }))
    ∧ (s.readsQueue = true → s.rte.held = [] → (∀ j ∈ s.jbu.jobs, j.isDone = false ∧ j.heldArmed = false) →
      (∀ i ∈ s.liu.queue, i.inFlight = false ∧ claimTrunk i.msg = none) →
      exec .ownSlotStart s = .next (updatePins { s with
        liu.pos := .at s.self 0 (s.heardSlot s.self), liu.ownSlot := true, liu.garbled := false,
        liu.queue := (s.liu.queue.take 6).map (fun i => { i with inFlight := true }) ++ s.liu.queue.drop 6,
        liu.frame := encodeFrame {
          sender := s.self, stale := s.ttu.stale, joining := s.stc.station == .joining,
          fault := s.stc.station == .fault, snapshot := s.ttu.table, contacts := s.contactSet,
          msgs := (s.liu.queue.take 6).map QueueItem.msg } }))

/-- A slot boundary without a trigger keeps its sample of TRIG and moves the position, and nothing else. BEYOND_CYCLE takes
the position beyond cycle. A drive conflict in the own slot garbles the own frame. That a boundary is taken from any earlier
slot, and BEYOND_CYCLE from any slot and not from slot 23 alone, is the model's reading, log 3. -/
def Obligations.PositionAndConflictEvents : Prop :=
  ∀ s : State, s.calm = true →
    (∀ slot trig, s.hears = true → s.liu.pos.before slot 1 = true → s.liu.ownSlot = false →
      ¬(trig = true ∧ s.liu.trig = some false) → exec (.slotBoundary slot trig) s =
        .next (updatePins { s with liu.pos := .at slot 0 (s.heardSlot slot), liu.trig := some trig }))
    ∧ (∀ k bit heard, s.liu.pos = .at k bit heard → s.liu.ownSlot = false →
      exec .beyondCycle s = .next (updatePins { s with liu.pos := .beyond }))
    ∧ (s.liu.ownSlot = true → exec .driveConflictDetected s = .next (updatePins { s with liu.garbled := true }))

/-! ## Frames received -/

/-- A good frame of another station makes its sender PRESENT with the flags and the contact set of its header, and no
other membership entry changes. -/
def Obligations.GoodFrameUpdatesMember : Prop :=
  ∀ (slot : Slot) (bits : FrameBits) (f : Frame) (s : State), s.stc.resetHeld = false → s.hears = true →
    s.liu.pos.before slot 400 = true → s.heardSlot slot = true → s.isSelf slot = false →
    judge slot bits false = .good f → ∃ t, exec (.frameEnd slot bits) s = .next t
      ∧ t.mbu.members = s.mbu.members.set f.sender ((s.mbu.members.get f.sender).heard f)
      ∧ t.liu.pos = .at slot 400 true

/-- An empty slot of a PRESENT station with missed count 0 or 1 adds 1 to the count and is no link error. A bad frame
makes a station with a valid table stale, posts STALE-ENTERED, and changes neither table. -/
def Obligations.EmptyAndBadSlots : Prop :=
  ∀ (slot : Slot) (bits : FrameBits) (s : State), s.stc.resetHeld = false → s.hears = true →
    s.liu.pos.before slot 400 = true → s.heardSlot slot = true → s.isSelf slot = false →
    (judge slot bits false = .empty → (s.mbu.members.get slot).state = .present →
      (s.mbu.members.get slot).missed < 2 → ∃ t, exec (.frameEnd slot bits) s = .next t
        ∧ t.mbu.members = s.mbu.members.set slot
            { s.mbu.members.get slot with missed := (s.mbu.members.get slot).missed + 1 }
        ∧ t.ttu = s.ttu)
    ∧ (judge slot bits false = .bad → s.calm = true → s.liu.ownSlot = false → s.ttu.valid = true →
      s.ttu.stale = false → exec (.frameEnd slot bits) s = .next (updatePins (postStaleEntered { s with
        stc.cycleError := true, liu.pos := .at slot 400 true,
        ttu.stale := true, ttu.pending := true, ttu.mismatch := false })))

/-- The trunk table at the end of a good frame of another station that carries no message. A snapshot that agrees clears
the mismatch counter; a first mismatch sets it; a second one in a row makes the station stale and posts STALE-ENTERED;
in each case, and for a STALE header, every FREE trunk of the header's contact set becomes DRAINING with its sender. With
adoption pending, the snapshot of a header that is not STALE is adopted. -/
def Obligations.GoodFrameMovesTrunkTable : Prop :=
  ∀ (slot : Slot) (bits : FrameBits) (f : Frame) (s : State), s.stc.resetHeld = false → s.hears = true →
    s.liu.pos.before slot 400 = true → s.heardSlot slot = true → s.isSelf slot = false →
    judge slot bits false = .good f → f.msgs = [] →
    (s.ttu.valid = true → s.ttu.stale = false → s.ttu.pending = false → f.stale = false →
      ((∀ k, f.snapshot.get k = s.entry k) → ∃ t, exec (.frameEnd slot bits) s = .next t
        ∧ (∀ k, t.entry k = contaminatedEntry f s k) ∧ t.ttu.mismatch = false ∧ t.ttu.stale = false
        ∧ t.ttu.pending = false)
      ∧ (slot ≠ 0 → (∃ k, f.snapshot.get k ≠ s.entry k) → s.ttu.mismatch = false →
        ∃ t, exec (.frameEnd slot bits) s = .next t
          ∧ (∀ k, t.entry k = contaminatedEntry f s k) ∧ t.ttu.mismatch = true ∧ t.ttu.stale = false
          ∧ t.ttu.pending = false)
      ∧ (slot ≠ 0 → (∃ k, f.snapshot.get k ≠ s.entry k) → s.ttu.mismatch = true → s.orp.orders = [] →
        ∃ t, exec (.frameEnd slot bits) s = .next t
          ∧ (∀ k, t.entry k = contaminatedEntry f s k) ∧ t.ttu.mismatch = false ∧ t.ttu.stale = true
          ∧ t.ttu.pending = true ∧ t.orp.alerts.staleEntered = true))
    ∧ (s.ttu.valid = true → f.stale = true → ∃ t, exec (.frameEnd slot bits) s = .next t
      ∧ (∀ k, t.entry k = contaminatedEntry f s k) ∧ t.ttu.mismatch = s.ttu.mismatch
      ∧ t.ttu.stale = s.ttu.stale ∧ t.ttu.pending = s.ttu.pending)
    ∧ (s.ttu.pending = true → f.stale = false → ∃ t, exec (.frameEnd slot bits) s = .next t
      ∧ (∀ k, t.entry k = adoptedEntry f.snapshot
        (s.mbu.members.set f.sender ((s.mbu.members.get f.sender).heard f)) k) ∧ t.ttu.valid = true ∧ t.ttu.mismatch = false
      ∧ t.ttu.stale = false ∧ t.ttu.pending = false)

/-- The end of the own frame. Received good: no message is in flight any more, the drive-conflict count is 0, LDATA is
released, and a JOINING station is ONLINE; and a round whose one OPERATE the frame carried is handed over, its local close
job placed and the reply timer set. With a drive conflict: the count rises by 1 and the station is stale; at 1 the messages
that R37 keeps stand at the head of the queue, and at 2 the station is in CLASH. -/
def Obligations.OwnFrameSettles : Prop :=
  ∀ s : State, s.driving = true → s.hasSlot = true → s.liu.ownSlot = true → s.inSlot s.self = true →
    s.liu.pos.before s.self 400 = true → s.heardSlot s.self = true →
    (∀ f, s.stc.resetHeld = false → s.liu.garbled = false → judge s.self s.liu.frame false = .good f →
      (∃ t, exec (.frameEnd s.self s.liu.frame) s = .next t ∧ (∀ i ∈ t.liu.queue, i.inFlight = false)
        ∧ t.liu.conflicts = 0 ∧ t.liu.ownSlot = false ∧ t.liu.pos = .at s.self 400 true
        ∧ t.stc.station = (if s.stc.station = .joining then .online else s.stc.station)
        ∧ t.mbu.members = s.mbu.members.set s.self ((s.mbu.members.get s.self).heard f))
      ∧ (∀ (a : Addr) (l : Line) (k : Trunk) (q : QuietIndex) (j : JobRequest), s.calmBusy = true →
        s.stc.station = .online → s.ttu.stale = false → (s.mbu.members.get s.self).state ≠ .absent →
        s.isSelf a = false → j.action = .close → j.armed = false →
        j.ref.origin = s.self → (s.route j.ref.tag).gen = j.ref.gen → (s.route j.ref.tag).state = .closing →
        (s.route j.ref.tag).anyRequested = true → s.jbu.jobs = [] → s.rte.held = [] →
        f.msgs = [.operate a l k .close j.ref.tag j.ref.gen q false] →
        s.liu.queue = [⟨.operate a l k .close j.ref.tag j.ref.gen q false, true⟩] →
        s.rte.rounds = [⟨j.ref.tag, j.ref.gen, .close, [.operate a l k .close j.ref.tag j.ref.gen q false], [j]⟩] →
        ∃ t, exec (.frameEnd s.self s.liu.frame) s = .next t ∧ t.liu.queue = [] ∧ t.rte.rounds = []
          ∧ (t.route j.ref.tag).timer = some s.cfg.replyLimit
          ∧ t.jbu.jobs = [if quietOk s.jbu.quiet j.quiet = true then { Job.ofRequest j with state := .ready }
              else { Job.ofRequest j with state := .quietWait, counter := some s.cfg.hotWait }]))
    ∧ (∀ bits, s.calm = true → (s.liu.garbled = true ∨ bits ≠ s.liu.frame) →
      judge s.self bits true = .bad → s.rte.held = [] → s.rte.rounds = [] →
      (∀ j ∈ s.jbu.jobs, j.isDone = false ∧ j.heldArmed = false) → s.orp.orders = [] →
      ∃ t, exec (.frameEnd s.self bits) s = .next t ∧ t.liu.conflicts = min 2 (s.liu.conflicts + 1)
        ∧ t.liu.ownSlot = false ∧ t.mbu = s.mbu ∧ (s.ttu.valid = true → t.ttu.stale = true)
        ∧ (s.liu.conflicts = 0 → t.stc.station = s.stc.station
          ∧ t.liu.queue = (((s.liu.queue.filter fun i => i.inFlight).map QueueItem.msg).filter keptWhenBad).map
              (fun m => (⟨m, false⟩ : QueueItem)) ++ s.liu.queue.filter (fun i => !i.inFlight))
        ∧ (1 ≤ s.liu.conflicts → t.stc.station = .clash ∧ t.orp.alerts.clash = true))

/-- A declared absence: the entry becomes ABSENT with missed count 3, and the absent station's trunks drain. -/
def Obligations.AbsenceDrainsTrunks : Prop :=
  ∀ (a : Addr) (s : State), s.stc.resetHeld = false → s.hears = true → s.isSelf a = false →
    (s.mbu.members.get a).state = .present → s.ttu.valid = true → ∃ t, exec (.absence a) s = .next t
      ∧ t.mbu.members = s.mbu.members.set a { s.mbu.members.get a with state := .absent, missed := 3 }
      ∧ (∀ k, t.entry k = if (s.entry k).ownedBy a then .draining a else s.entry k)

/-- Messages that the RTE holds pending join the tail of the queue in the order of making, while places remain. -/
def Obligations.AdmissionFillsQueue : Prop :=
  ∀ s : State, s.calm = true → s.driving = true → (∀ j ∈ s.jbu.jobs, j.isDone = false ∧ j.heldArmed = false) →
    exec .heldItemAdmission s = .next (updatePins { s with
      liu.queue := s.liu.queue
        ++ (s.rte.held.take (24 - s.liu.queue.length)).map (fun h => ⟨h.msg, false⟩),
      rte.held := s.rte.held.drop (24 - s.liu.queue.length) })

/-! ## Link messages -/

/-- A CLAIM that no route of this station waits for: a FREE trunk becomes HELD by the sender, any other entry is
unchanged, and nothing else changes. -/
def Obligations.ClaimDecides : Prop :=
  ∀ (sender : Addr) (k : Trunk) (tag : Tag) (gen : Gen) (leg : Fin 4) (s : State), s.calm = true → s.hears = true →
    s.ttu.valid = true → (s.isSelf sender = true → s.claimLeg .sent k tag gen leg = false) →
    (s.entry k = .free → exec (.claim sender k tag gen leg) s =
      .next (updatePins { s with ttu.table := s.ttu.table.set k (.held sender) }))
    ∧ (s.entry k ≠ .free → exec (.claim sender k tag gen leg) s = .next (updatePins s))

/-- This station's own CLAIM wins a FREE trunk: the leg becomes WON, and with legs still to win the route stays in
CLAIMING. -/
def Obligations.OwnClaimWinsLeg : Prop :=
  ∀ (k : Trunk) (tag : Tag) (gen : Gen) (leg : Fin 4) (s : State), s.calm = true → s.hasSlot = true →
    s.hears = true → s.ttu.valid = true → s.claimLeg .sent k tag gen leg = true → s.entry k = .free →
    (s.route tag).reason = none →
    (∃ i l, i ≠ leg.val ∧ (s.route tag).legs[i]? = some l ∧ l.claim ≠ .won) →
    exec (.claim s.self k tag gen leg) s =
      .next (updatePins (modLeg tag leg.val (fun l => { l with claim := .won })
        { s with ttu.table := s.ttu.table.set k (.held s.self) }))

/-- A RELEASE moves a trunk HELD or QUARANTINED by its sender to DRAINING, and a QUARANTINE one HELD by its sender to
QUARANTINED; any other entry is unchanged, and nothing else changes. -/
def Obligations.ReleaseAndQuarantine : Prop :=
  ∀ (sender : Addr) (k : Trunk) (s : State), s.calm = true → s.hears = true → s.ttu.valid = true →
    (s.entry k = .held sender ∨ s.entry k = .quarantined sender → exec (.release sender k) s =
      .next (updatePins { s with ttu.table := s.ttu.table.set k (.draining sender) }))
    ∧ (s.entry k ≠ .held sender → s.entry k ≠ .quarantined sender →
      exec (.release sender k) s = .next (updatePins s))
    ∧ (s.entry k = .held sender → exec (.quarantine sender k) s =
      .next (updatePins { s with ttu.table := s.ttu.table.set k (.quarantined sender) }))
    ∧ (s.entry k ≠ .held sender → exec (.quarantine sender k) s = .next (updatePins s))

/-- An OPERATE from another station that intake does not place: FAULT and BUSY are answered when the queue has a place and
lost otherwise, and a duplicate is dropped. -/
def Obligations.OperateAnsweredAtIntake : Prop :=
  ∀ (sender target : Addr) (q : JobRequest) (s : State), s.calm = true → s.driving = true → s.isSelf target = true →
    s.isSelf sender = false → q.ref.origin = sender → (q.armed = true → q.action = .close) →
    (∀ code, (s.stc.station = .fault ∧ code = .fault
        ∨ s.stc.station ≠ .fault ∧ s.jobPlace = false ∧ code = .busy) →
      exec (.operate sender target q.line q.trunk q.action q.ref.tag q.ref.gen q.quiet q.armed) s =
        .next (updatePins (if s.queueHasPlace
          then { s with liu.queue := s.liu.queue ++ [⟨.result sender q.ref.tag q.ref.gen q.line q.trunk code, false⟩] }
          else s)))
    ∧ (s.stc.station ≠ .fault → s.jobPlace = true →
      (∃ j ∈ s.jbu.jobs, j.ref = q.ref ∧ j.line = q.line ∧ j.trunk = q.trunk ∧ j.action = some q.action) →
      exec (.operate sender target q.line q.trunk q.action q.ref.tag q.ref.gen q.quiet q.armed) s =
        .next (updatePins s))

/-- An OPERATE CLOSE from another station that intake places: DEFERRED while stale; otherwise READY when its quiet input is
asserted or NONE, QUIET-WAIT with the counter at the hot-wait limit when not, and ARMED-HELD with an ARMED answer when
armed. -/
def Obligations.OperateClosePlaced : Prop :=
  ∀ (sender target : Addr) (q : JobRequest) (s : State), s.calmBusy = true → s.driving = true →
    s.isSelf target = true → s.isSelf sender = false → q.ref.origin = sender → q.action = .close →
    s.stc.station ≠ .fault → s.jobPlace = true →
    (∀ j ∈ s.jbu.jobs, ¬(j.ref = q.ref ∧ j.line = q.line ∧ j.trunk = q.trunk ∧ j.action = some .close)) →
    (s.ttu.stale = true →
      exec (.operate sender target q.line q.trunk .close q.ref.tag q.ref.gen q.quiet q.armed) s =
        .next (updatePins { s with jbu.jobs := s.jbu.jobs ++ [Job.ofRequest q] }))
    ∧ (s.ttu.stale = false → q.armed = false → quietOk s.jbu.quiet q.quiet = true →
      exec (.operate sender target q.line q.trunk .close q.ref.tag q.ref.gen q.quiet q.armed) s =
        .next (updatePins { s with jbu.jobs := s.jbu.jobs ++ [{ Job.ofRequest q with state := .ready }] }))
    ∧ (s.ttu.stale = false → q.armed = false → quietOk s.jbu.quiet q.quiet = false →
      exec (.operate sender target q.line q.trunk .close q.ref.tag q.ref.gen q.quiet q.armed) s =
        .next (updatePins { s with jbu.jobs :=
          s.jbu.jobs ++ [{ Job.ofRequest q with state := .quietWait, counter := some s.cfg.hotWait }] }))
    ∧ (s.ttu.stale = false → q.armed = true → s.queueHasPlace = true →
      exec (.operate sender target q.line q.trunk .close q.ref.tag q.ref.gen q.quiet q.armed) s =
        .next (updatePins { s with
          jbu.jobs := s.jbu.jobs ++ [{ Job.ofRequest q with state := .armedHeld }],
          liu.queue := s.liu.queue ++ [⟨.result sender q.ref.tag q.ref.gen q.line q.trunk .armed, false⟩] }))

/-- An OPERATE OPEN or FORCE-OPEN from another station. A FORCE-OPEN whose trunk its origin does not own is answered
NOT-HELD. Else an OPEN crosspoint is answered OPENED at once, with no job and no drive; for one that is not OPEN a job is
placed, READY when its quiet input is asserted or NONE and QUIET-WAIT when not; and a close of the same route on the
crosspoint that waits in the list ends CANCELLED behind that job. -/
def Obligations.OperateOpenAnswered : Prop :=
  ∀ (sender target : Addr) (q : JobRequest) (s : State), s.calm = true → s.driving = true → s.isSelf target = true →
    s.isSelf sender = false → q.ref.origin = sender → q.action ≠ .close → q.armed = false →
    s.stc.station ≠ .fault → s.ttu.stale = false → s.jobPlace = true →
    ((∀ j ∈ s.jbu.jobs, j.line ≠ q.line ∨ j.trunk ≠ q.trunk) →
      (s.queueHasPlace = true → q.action = .forceOpen → (s.entry q.trunk).ownedBy sender = false →
        exec (.operate sender target q.line q.trunk q.action q.ref.tag q.ref.gen q.quiet q.armed) s =
          .next (updatePins { s with liu.queue :=
            s.liu.queue ++ [⟨.result sender q.ref.tag q.ref.gen q.line q.trunk .notHeld, false⟩] }))
      ∧ (s.queueHasPlace = true → (q.action = .forceOpen → (s.entry q.trunk).ownedBy sender = true) →
        (s.xp (xpNum q.line q.trunk)).state = .opn →
        exec (.operate sender target q.line q.trunk q.action q.ref.tag q.ref.gen q.quiet q.armed) s =
          .next (updatePins { s with liu.queue :=
            s.liu.queue ++ [⟨.result sender q.ref.tag q.ref.gen q.line q.trunk .opened, false⟩] }))
      ∧ ((q.action = .forceOpen → (s.entry q.trunk).ownedBy sender = true) →
        (s.xp (xpNum q.line q.trunk)).state ≠ .opn → s.cme.engine ≠ .idle → quietOk s.jbu.quiet q.quiet = true →
        exec (.operate sender target q.line q.trunk q.action q.ref.tag q.ref.gen q.quiet q.armed) s =
          .next (updatePins { s with jbu.jobs := s.jbu.jobs ++ [{ Job.ofRequest q with state := .ready }] }))
      ∧ ((q.action = .forceOpen → (s.entry q.trunk).ownedBy sender = true) →
        (s.xp (xpNum q.line q.trunk)).state ≠ .opn → quietOk s.jbu.quiet q.quiet = false →
        exec (.operate sender target q.line q.trunk q.action q.ref.tag q.ref.gen q.quiet q.armed) s =
          .next (updatePins { s with jbu.jobs :=
            s.jbu.jobs ++ [{ Job.ofRequest q with state := .quietWait, counter := some s.cfg.hotWait }] })))
    ∧ (∀ c, s.jbu.jobs = [c] → c.ref = q.ref → c.line = q.line → c.trunk = q.trunk → c.action = some .close →
      c.cancellable = true → (q.action = .forceOpen → (s.entry q.trunk).ownedBy sender = true) →
      (s.xp (xpNum q.line q.trunk)).state ≠ .opn → s.cme.engine ≠ .idle → quietOk s.jbu.quiet q.quiet = true →
      exec (.operate sender target q.line q.trunk q.action q.ref.tag q.ref.gen q.quiet q.armed) s =
        .next (updatePins { s with jbu.jobs :=
          [{ c.finish .cancelled with behind := some q.action }, { Job.ofRequest q with state := .ready }] }))

/-- A late result, of another station or local (in every station state), to a DAMAGED or QUARANTINED route moves the endpoint it concerns as Table 7-3 gives, an ARMED leaving its
status as it stands (the model's reading, log 28), and a result of another generation changes nothing. -/
def Obligations.ResultMovesEndpoint : Prop :=
  ∀ (target : Addr) (q : RouteResult) (s : State), s.calm = true →
    s.driving = true ∨ s.isSelf q.participant = true → s.isSelf target = true →
    (∀ e st, ((s.route q.tag).state = .damaged ∨ (s.route q.tag).state = .quarantined) →
      (s.route q.tag).gen = q.gen → (s.route q.tag).timer = none → (s.route q.tag).findEndpoint q = some e →
      statusAfter false e q.code = some st →
      exec (.result q.participant target q.tag q.gen q.line q.trunk q.code) s =
        .next (updatePins (modRoute q.tag (fun r =>
          { (r.mapEndpoints fun l e => if concerns q l e then { e with status := st } else e) with
            worn := r.worn || q.code == .closedWorn }) s)))
    ∧ ((s.route q.tag).gen ≠ q.gen →
      exec (.result q.participant target q.tag q.gen q.line q.trunk q.code) s = .next (updatePins s))

/-- The last CLOSED of a route in CLOSING makes the route: it is MADE, its timer is gone, and the MAKE is answered
COMPLETE. -/
def Obligations.LastClosedMakesRoute : Prop :=
  ∀ (target : Addr) (q : RouteResult) (e : Endpoint) (s : State), s.calmOrders = true → s.driving = true →
    s.isSelf target = true → q.code = .closed → (s.route q.tag).state = .closing → (s.route q.tag).gen = q.gen →
    (s.route q.tag).worn = false → (s.route q.tag).owed = [⟨.make, none⟩] →
    (s.route q.tag).findEndpoint q = some e → e.status = .requested → e.request = some ⟨.close, .idle⟩ →
    (∀ l ∈ (s.route q.tag).legs, ∀ e' ∈ l.endpoints, e'.status = .closed ∨ concerns q l e' = true) →
    ∃ t r, exec (.result q.participant target q.tag q.gen q.line q.trunk q.code) s = .next t
      ∧ (t.route q.tag).state = .made ∧ (t.route q.tag).timer = none ∧ (t.route q.tag).owed = []
      ∧ (∀ e' ∈ (t.route q.tag).endpoints, e'.status = .closed)
      ∧ t.orp.reports = s.orp.reports ++ [.route r] ∧ r.tag = q.tag ∧ r.gen = q.gen ∧ r.kind = some .make
      ∧ r.cls = .complete ∧ r.reason = .none ∧ r.residual = 0 ∧ r.state = .made
      ∧ t.ttu = s.ttu ∧ t.cme = s.cme ∧ t.jbu = s.jbu ∧ t.liu = s.liu

/-- An ABANDON ends with CANCELLED every CLOSE job of its route ref that is not in a batch. With the outbound queue full
the results stay in the list; a single such job leaves when its RESULT has a place. -/
def Obligations.AbandonCancelsCloses : Prop :=
  ∀ (sender : Addr) (tag : Tag) (gen : Gen) (s : State), s.calm = true → s.driving = true →
    s.isSelf sender = false →
    (s.queueHasPlace = false → exec (.abandon sender tag gen) s = .next (updatePins { s with
      jbu.jobs := s.jbu.jobs.map (fun j =>
        if j.ref = ⟨sender, tag, gen⟩ ∧ j.action = some .close ∧ j.cancellable = true then j.finish .cancelled
        else j) }))
    ∧ (∀ j, s.jbu.jobs = [j] → j.ref = ⟨sender, tag, gen⟩ → j.action = some .close → j.cancellable = true →
      s.queueHasPlace = true → exec (.abandon sender tag gen) s = .next (updatePins { s with
        jbu.jobs := [],
        liu.queue := s.liu.queue ++ [⟨.result sender tag gen j.line j.trunk .cancelled, false⟩] }))

/-- A PERMIT moves the ARMED-HELD jobs of its route ref to PERMITTED, and at its sender the route from ARMING to STAGED. A
FIRE moves the PERMITTED jobs of its route ref to READY, a held ARMED answer going with it (the model's reading, log 34),
and at its sender the STAGED route to CLOSING, its ARMED endpoints REQUESTED and its reply timer set. Nothing else
changes. -/
def Obligations.PermitAndFire : Prop :=
  ∀ (sender : Addr) (tag : Tag) (gen : Gen) (s : State), s.calm = true → s.driving = true →
    (s.isSelf sender = false → exec (.permit sender tag gen) s = .next (updatePins { s with
      jbu.jobs := s.jbu.jobs.map (fun j =>
        if j.ref = ⟨sender, tag, gen⟩ ∧ j.state = .armedHeld then { j with state := .permitted } else j) }))
    ∧ (s.isSelf sender = true → (s.route tag).gen = gen → (s.route tag).state = .arming →
      (s.route tag).timer = none → exec (.permit sender tag gen) s = .next (updatePins { s with
        jbu.jobs := s.jbu.jobs.map (fun j =>
          if j.ref = ⟨sender, tag, gen⟩ ∧ j.state = .armedHeld then { j with state := .permitted } else j),
        rte.routes := s.rte.routes.set tag { s.route tag with state := .staged } }))
    ∧ (s.cme.engine ≠ .idle → s.isSelf sender = false → exec (.fire sender tag gen) s = .next (updatePins { s with
      jbu.jobs := s.jbu.jobs.map (fun j =>
        if j.ref = ⟨sender, tag, gen⟩ ∧ j.state = .permitted then { j with state := .ready, heldArmed := false }
        else j) }))
    ∧ (s.cme.engine ≠ .idle → s.isSelf sender = true → (s.route tag).gen = gen → (s.route tag).state = .staged →
      (∃ e ∈ (s.route tag).endpoints, e.status = .armed) → exec (.fire sender tag gen) s = .next (updatePins { s with
        jbu.jobs := s.jbu.jobs.map (fun j =>
          if j.ref = ⟨sender, tag, gen⟩ ∧ j.state = .permitted then { j with state := .ready, heldArmed := false }
          else j),
        rte.routes := s.rte.routes.set tag
          { (s.route tag).mapEndpoints (fun _ e =>
              if e.status = .armed then { e with status := .requested, request := some ⟨.close, .armed⟩ } else e) with
            state := .closing, timer := some s.cfg.replyLimit } }))

/-! ## Quiet inputs and timers -/

/-- A quiet change sets the level held; one to asserted makes READY every QUIET-WAIT job of that input, its counter kept. -/
def Obligations.QuietChangeMovesJobs : Prop :=
  ∀ (q : Fin 4) (s : State), s.calm = true →
    exec (.quietChange q false) s = .next (updatePins { s with jbu.quiet := s.jbu.quiet &&& ~~~(1#4 <<< q.val) })
    ∧ (s.cme.engine ≠ .idle → exec (.quietChange q true) s = .next (updatePins { s with
        jbu.quiet := s.jbu.quiet ||| (1#4 <<< q.val),
        jbu.jobs := s.jbu.jobs.map (fun j =>
          if j.state = .quietWait ∧ quietInput j.quiet = some q then { j with state := .ready } else j) }))

/-- The reply timer of a break expires: its REQUESTED endpoints become UNKNOWN and the route ends QUARANTINED, for
NO-REPLY when no reason stood before. -/
def Obligations.ReplyTimerEndsBreak : Prop :=
  ∀ (tag : Tag) (s : State), s.calm = true → (s.route tag).state = .opening → (s.route tag).timer.isSome = true →
    (s.route tag).reason = none → ∃ t, exec (.replyTimerExpiry tag) s = .next t
      ∧ (t.route tag).state = .quarantined ∧ (t.route tag).timer = none ∧ (t.route tag).reason = some .noReply
      ∧ (t.route tag).endpoints = (s.route tag).endpoints.map (fun e =>
          if e.status = .requested then { e with status := .unknown } else e)
      ∧ (∀ tag', tag' ≠ tag → t.route tag' = s.route tag')
      ∧ t.stc = s.stc ∧ t.ttu = s.ttu ∧ t.mbu = s.mbu ∧ t.cme = s.cme ∧ t.jbu = s.jbu

/-- A hot-wait expiry ends its job HOT; the RESULT joins the queue, the job leaves, and no crosspoint is driven. A running
sweep timer that comes to 0 is expired. -/
def Obligations.WaitAndSweepTimersExpire : Prop :=
  ∀ s : State,
    (∀ (j : Job) (action : Action), s.calm = true → s.jbu.jobs = [j] → j.state = .quietWait →
      j.action = some action → s.isSelf j.ref.origin = false → s.queueHasPlace = true →
      exec (.hotWaitExpiry j.ref j.line j.trunk action) s = .next (updatePins { s with
        jbu.jobs := [],
        liu.queue := s.liu.queue ++ [⟨.result j.ref.origin j.ref.tag j.ref.gen j.line j.trunk .hot, false⟩] }))
    ∧ (∀ n, s.calmBusy = true → s.jbu.sweep = .running n →
      exec .sweepTimerExpiry s = .next (updatePins { s with jbu.sweep := .expired }))

/-! ## The Commit Engine -/

/-- A formation with one READY job that passes its checks starts its stroke. A close whose quiet input is asserted, whose
trunk is HELD by its origin, whose wear is below the limit and whose line is open: its record becomes CLOSING with the job's
owner and quiet index and one more wear, and the closing drive pass starts. An OPEN of the crosspoint's owner, or a
FORCE-OPEN, on a crosspoint CLOSED or UNKNOWN: its record becomes OPENING, with the job's route ref and quiet index for a
FORCE-OPEN, and the opening drive pass starts. The pass puts the drive image and the marker out on DOUT. -/
def Obligations.FormationDrivesClose : Prop :=
  ∀ (j : Job) (s : State), ({ s with jbu.jobs := [] } : State).calm = true → s.jbu.jobs = [j] → j.state = .ready →
    s.cme.engine = .idle → s.cme.check = none → s.anyMark = false → quietOk s.jbu.quiet j.quiet = true →
    (j.action = some .close → s.stc.station ≠ .fault → (s.xp j.xp).wear < s.cfg.wearLimit →
      s.entry j.trunk = .held j.ref.origin → (∀ k, (s.xp (xpNum j.line k)).state = .opn) →
      ∃ t, exec .batchFormation s = .next t ∧ t.cme.engine = .closeDrive
        ∧ t.jbu.jobs = [{ j with state := .inBatch }]
        ∧ (∀ x, t.xp x = if x = j.xp
            then { (s.xp x) with state := .closing, owner := some j.ref, quiet := j.quiet,
                                 wear := min ((s.xp x).wear + 1) 16777215 }
            else s.xp x)
        ∧ t.cme.drive = driveImage t.cme.xps ∧ t.cme.dout = some (t.cme.drive ++ 0x6D2B#16)
        ∧ t.cme.coils = s.cme.coils ∧ t.liu = s.liu ∧ t.rte = s.rte)
    ∧ (j.action = some .opn ∧ (s.xp j.xp).owner = some j.ref ∨ j.action = some .forceOpen →
      (s.xp j.xp).state = .closed ∨ (∃ d, (s.xp j.xp).state = .unknown d) →
      ∃ t, exec .batchFormation s = .next t ∧ t.cme.engine = .openDrive
        ∧ t.jbu.jobs = [{ j with state := .inBatch }]
        ∧ (∀ x, t.xp x = if x = j.xp
            then { (s.xp x) with
              state := .opening
              owner := if j.action = some .forceOpen then some j.ref else (s.xp x).owner
              quiet := if j.action = some .forceOpen then j.quiet else (s.xp x).quiet }
            else s.xp x)
        ∧ t.cme.drive = driveImage t.cme.xps ∧ t.cme.dout = some (t.cme.drive ++ 0x6D2B#16)
        ∧ t.cme.coils = s.cme.coils ∧ t.liu = s.liu ∧ t.rte = s.rte)

/-- A formation decides the READY closes of other stations by the first check of R151 that holds. A close by itself ends
FAULT, RETIRED or NOT-HELD by checks 1 to 3; CLOSED, or CLOSED-WORN at or above the warning level, when its own crosspoint
is CLOSED for its route ref (check 5); LINE-TAKEN when its own crosspoint is otherwise not OPEN (check 6), or is OPEN and
another of its line is not (check 8): the result joins the queue, no crosspoint is driven and the CME stays IDLE. Beside an
OPEN or FORCE-OPEN whose crosspoint, its own (check 4) or another of its line (check 7), enters the opening list, it is kept
and waits, and the opening stroke starts. Of two closes for one line the later ends LINE-TAKEN and the earlier is driven
(check 9). -/
def Obligations.FormationDecidesClose : Prop :=
  ∀ (j : Job) (s : State), ({ s with jbu.jobs := [] } : State).calm = true → j.state = .ready →
    j.action = some .close → j.behind = none → s.cme.engine = .idle → s.cme.check = none →
    s.anyMark = false → quietOk s.jbu.quiet j.quiet = true →
    (∀ code, s.jbu.jobs = [j] → s.canAnswer j.ref →
      (s.stc.station = .fault ∧ code = .fault
        ∨ s.stc.station ≠ .fault ∧ s.cfg.wearLimit ≤ (s.xp j.xp).wear ∧ code = .retired
        ∨ s.stc.station ≠ .fault ∧ (s.xp j.xp).wear < s.cfg.wearLimit ∧ s.entry j.trunk ≠ .held j.ref.origin
          ∧ code = .notHeld
        ∨ s.passesFirstChecks j ∧ (s.xp j.xp).state = .closed ∧ (s.xp j.xp).owner = some j.ref
          ∧ code = (if s.warnLevel ≤ (s.xp j.xp).wear then .closedWorn else .closed)
        ∨ s.passesFirstChecks j ∧ (s.xp j.xp).state ≠ .opn
          ∧ ¬((s.xp j.xp).state = .closed ∧ (s.xp j.xp).owner = some j.ref) ∧ code = .lineTaken
        ∨ s.passesFirstChecks j ∧ (s.xp j.xp).state = .opn ∧ (∃ k, (s.xp (xpNum j.line k)).state ≠ .opn)
          ∧ code = .lineTaken) →
      ∃ t, exec .batchFormation s = .next t ∧ t.cme.engine = .idle ∧ t.cme.xps = s.cme.xps ∧ t.jbu.jobs = []
        ∧ t.liu.queue = s.liu.queue ++ [⟨.result j.ref.origin j.ref.tag j.ref.gen j.line j.trunk code, false⟩])
    ∧ (∀ o, s.jbu.jobs = [o, j] ∨ s.jbu.jobs = [j, o] → o.state = .ready → quietOk s.jbu.quiet o.quiet = true →
      o.action = some .opn ∧ (s.xp o.xp).owner = some o.ref ∨ o.action = some .forceOpen →
      (s.xp o.xp).state = .closed ∨ (∃ d, (s.xp o.xp).state = .unknown d) →
      s.passesFirstChecks j → o.line = j.line → o.trunk = j.trunk ∨ (s.xp j.xp).state = .opn →
      ∃ t, exec .batchFormation s = .next t ∧ t.cme.engine = .openDrive ∧ t.cme.waiting = [j.xp]
        ∧ t.jbu.jobs = s.jbu.jobs.map (fun i => { i with state := .inBatch })
        ∧ (t.xp o.xp).state = .opening ∧ (∀ x, x ≠ o.xp → t.xp x = s.xp x) ∧ t.liu = s.liu)
    ∧ (∀ i, s.jbu.jobs = [j, i] → i ≠ j → i.state = .ready → i.action = some .close →
      quietOk s.jbu.quiet i.quiet = true → s.canAnswer i.ref → s.passesFirstChecks j → s.passesFirstChecks i →
      i.line = j.line → (∀ k, (s.xp (xpNum j.line k)).state = .opn) →
      ∃ t, exec .batchFormation s = .next t ∧ t.cme.engine = .closeDrive
        ∧ t.jbu.jobs = [{ j with state := .inBatch }] ∧ (t.xp j.xp).state = .closing
        ∧ (∀ x, x ≠ j.xp → t.xp x = s.xp x)
        ∧ t.liu.queue = s.liu.queue ++ [⟨.result i.ref.origin i.ref.tag i.ref.gen i.line i.trunk .lineTaken, false⟩])

/-- A marker failure at any pass end is a chain fault: every record OPEN with its wear kept, no coil energised,
CLEAR-SETTLE for the release settle time, the station in FAULT when it was JOINING or ONLINE, and CHAIN-FAULT posted. That it
is posted in OFFLINE, LISTENING and CLASH too is the model's reading, log 27. -/
def Obligations.MarkerFailureIsChainFault : Prop :=
  ∀ (c : Instr) (sin : PassBits) (s : State), s.stc.resetHeld = false → s.orp.orders = [] →
    passMarkerGood sin = false →
    (s.cme.engine = .openDrive ∧ c = .drivePassEnd sin ∨ s.cme.engine = .closeDrive ∧ c = .drivePassEnd sin
      ∨ s.cme.engine = .openSense ∧ c = .openSensePassEnd sin
      ∨ s.cme.engine = .closeSense ∧ c = .closeSensePassEnd sin
      ∨ s.cme.engine = .checkPass ∧ c = .checkPassEnd sin) →
    ∃ t, exec c s = .next t ∧ t.cme.engine = .clearSettle ∧ t.cme.settle = some (2 ^ s.cfg.releaseExp)
      ∧ (∀ x, t.xp x = { Crosspoint.reset with wear := (s.xp x).wear }) ∧ t.cme.drive = 0 ∧ t.cme.coils = 0
      ∧ t.cme.dout = none
      ∧ t.stc.station = (if s.stc.station = .joining ∨ s.stc.station = .online then .fault else s.stc.station)
      ∧ t.orp.alerts.chainFault = true ∧ (s.driving = true → ∀ j ∈ t.jbu.jobs, j.isDone = true)
      ∧ t.ttu = s.ttu ∧ t.mbu = s.mbu

/-- The end of a drive pass with a good marker: DLAT applies the drive image to the coils, and the settle time of the
stroke starts. Each settle expiry moves the engine on, and nothing else: RELEASE-SETTLE to OPEN-SENSE and OPERATE-SETTLE to
CLOSE-SENSE, whose pass puts the unchanged drive image and the marker out on DOUT, and CLEAR-SETTLE to IDLE when no CHECK
and no formation follows. -/
def Obligations.StrokeTimesMoveEngine : Prop :=
  ∀ s : State, s.calm = true →
    (∀ sin, passMarkerGood sin = true → s.cme.engine = .openDrive →
      exec (.drivePassEnd sin) s = .next (updatePins { s with
        cme.coils := s.cme.drive, cme.engine := .releaseSettle, cme.settle := some (2 ^ s.cfg.releaseExp),
        cme.dout := none }))
    ∧ (∀ sin, passMarkerGood sin = true → s.cme.engine = .closeDrive →
      exec (.drivePassEnd sin) s = .next (updatePins { s with
        cme.coils := s.cme.drive, cme.engine := .operateSettle, cme.settle := some (2 ^ s.cfg.operateExp),
        cme.dout := none }))
    ∧ (s.cme.engine = .releaseSettle → exec .releaseSettleExpiry s =
      .next (updatePins { s with
        cme.engine := .openSense, cme.settle := none, cme.dout := some (s.cme.drive ++ 0x6D2B#16) }))
    ∧ (s.cme.engine = .operateSettle → exec .operateSettleExpiry s =
      .next (updatePins { s with
        cme.engine := .closeSense, cme.settle := none, cme.dout := some (s.cme.drive ++ 0x6D2B#16) }))
    ∧ (s.cme.engine = .clearSettle → s.cme.check = none → (∀ j ∈ s.jbu.jobs, j.state ≠ .ready) →
      s.anyMark = false → exec .clearSettleExpiry s =
        .next (updatePins { s with cme.engine := .idle, cme.settle := none, cme.dout := none }))

/-- The sense pass of an opening stroke, with a good marker and no line conflict: every record moves by its contact bit. A
batch that opened crosspoints for sweeps only ends. With one OPEN or FORCE-OPEN of another station the batch ends with the
result OPENED where its crosspoint was read open, and VERIFY, the record UNKNOWN with drive direction open, where it was
read closed. -/
def Obligations.OpenSenseSettlesRecords : Prop :=
  ∀ (sin : PassBits) (s : State), s.calm = true → s.cme.engine = .openSense → passMarkerGood sin = true →
    lineConflict (sensedRecords (passContacts sin) s.cme.xps) = false → s.cme.check = none →
    s.droppedBy (passContacts sin) = [] →
    (∀ x, ((s.xp x).sensed ((passContacts sin).getLsbD x.val)).marked = false) → s.jbu.sweep = .absent →
    (s.jbu.jobs = [] → exec (.openSensePassEnd sin) s = .next (updatePins { s with
      cme.xps := s.cme.xps.mapIdx (fun x c => c.sensed ((passContacts sin).getLsbD x.val)),
      cme.coils := s.cme.drive, cme.sense := passContacts sin, cme.engine := .idle, cme.settle := none,
      cme.dout := none, cme.sweeps := [], cme.waiting := [] }))
    ∧ (∀ j, s.jbu.jobs = [j] → j.state = .inBatch → j.action = some .opn ∨ j.action = some .forceOpen →
      (s.xp j.xp).state = .opening → s.isSelf j.ref.origin = false → s.stc.station ≠ .clash →
      (s.mbu.members.get j.ref.origin).state ≠ .absent → s.queueHasPlace = true →
      ∃ t code, exec (.openSensePassEnd sin) s = .next t ∧ t.cme.engine = .idle ∧ t.jbu.jobs = []
        ∧ t.cme.xps = sensedRecords (passContacts sin) s.cme.xps
        ∧ t.liu.queue = s.liu.queue ++ [⟨.result j.ref.origin j.ref.tag j.ref.gen j.line j.trunk code, false⟩]
        ∧ ((passContacts sin).getLsbD j.xp.val = false → (t.xp j.xp).state = .opn ∧ (t.xp j.xp).owner = none
            ∧ code = .opened)
        ∧ ((passContacts sin).getLsbD j.xp.val = true → (t.xp j.xp).state = .unknown false ∧ code = .verify))

/-- The sense pass of a closing stroke with one close of another station: read closed, the record is CLOSED and the result
CLOSED, or CLOSED-WORN at or above the warning level; read open, the record is UNKNOWN with drive direction closed and
the result VERIFY. The batch ends. -/
def Obligations.CloseSenseVerifies : Prop :=
  ∀ (j : Job) (sin : PassBits) (s : State), s.calm = true → s.cme.engine = .closeSense → passMarkerGood sin = true →
    lineConflict (sensedRecords (passContacts sin) s.cme.xps) = false → s.cme.check = none →
    s.droppedBy (passContacts sin) = [] → s.anyMark = false → s.jbu.jobs = [j] → j.state = .inBatch →
    j.action = some .close → (s.xp j.xp).state = .closing → s.isSelf j.ref.origin = false →
    s.stc.station ≠ .clash → (s.mbu.members.get j.ref.origin).state ≠ .absent → s.queueHasPlace = true →
    ∃ t code, exec (.closeSensePassEnd sin) s = .next t ∧ t.cme.engine = .idle ∧ t.jbu.jobs = []
      ∧ t.cme.xps = sensedRecords (passContacts sin) s.cme.xps
      ∧ t.liu.queue = s.liu.queue ++ [⟨.result j.ref.origin j.ref.tag j.ref.gen j.line j.trunk code, false⟩]
      ∧ ((passContacts sin).getLsbD j.xp.val = true → (t.xp j.xp).state = .closed
          ∧ code = if s.warnLevel ≤ (s.xp j.xp).wear then .closedWorn else .closed)
      ∧ ((passContacts sin).getLsbD j.xp.val = false → (t.xp j.xp).state = .unknown true ∧ code = .verify)

/-- A CHECK that waits starts its pass when the CME is IDLE, with the drive image unchanged. At its end, with a good marker,
no line conflict and no DROPPED, the records move by their contact bits, and the ANSWER gives the count of crosspoints
that left UNKNOWN and the contact bits of the line. -/
def Obligations.CheckPassRuns : Prop :=
  ∀ (l : Line) (sin : PassBits) (s : State), s.stc.resetHeld = false →
    (s.cme.engine = .idle → s.cme.check = some ⟨l, false⟩ →
      ({ s with cme.check := some ⟨l, true⟩, cme.engine := .checkPass, cme.settle := none } : State).calm = true →
      exec .checkPassStart s = .next (updatePins { s with
        cme.check := some ⟨l, true⟩, cme.engine := .checkPass, cme.settle := none,
        cme.dout := some (s.cme.drive ++ 0x6D2B#16) }))
    ∧ (s.calm = true → s.cme.engine = .checkPass → s.cme.check = some ⟨l, true⟩ → passMarkerGood sin = true →
      lineConflict (sensedRecords (passContacts sin) s.cme.xps) = false → s.droppedBy (passContacts sin) = [] →
      s.jbu.jobs = [] → s.anyMark = false → s.orp.orders = [] →
      ∃ t, exec (.checkPassEnd sin) s = .next t ∧ t.cme.engine = .idle ∧ t.cme.check = none
        ∧ t.cme.xps = sensedRecords (passContacts sin) s.cme.xps ∧ t.cme.coils = s.cme.drive
        ∧ t.orp.reports = s.orp.reports ++ [.answer 0x23 false .none
            (some (s.leavingUnknown (passContacts sin), (passContacts sin).extractLsb' (16 * l.val) 16))])

/-! ## The order port -/

/-- SEL falling begins a select period. SEL rising ends it: SDO is high impedance, the head report will be sent from its
first byte, and an order in reception is cut short with ORDER-GAP, an overrun with ORDER-OVERRUN too. One byte of a select period with filler on SDI: 0x00
comes out when the report FIFO is empty, and otherwise the next byte of the head report, which leaves the FIFO with its last
byte. -/
def Obligations.SelectPeriods : Prop :=
  ∀ s : State, s.calm = true →
    (s.orp.selected = false → exec .selectPeriodStart s = .next (updatePins { s with
      orp.selected := true, orp.rx := .code, orp.gap := none, orp.sent := 0, orp.sdo := none }))
    ∧ (s.orp.selected = true → s.orp.rx.inOrder = false → exec .selectPeriodEnd s = .next (updatePins { s with
      orp.selected := false, orp.rx := .code, orp.gap := none, orp.sent := 0, orp.sdo := none }))
    ∧ (s.orp.selected = true → s.orp.rx.inOrder = true → exec .selectPeriodEnd s = .next (updatePins
      (postDiscarded s.orp.rx.overrun { s with orp.selected := false, orp.rx := .code, orp.gap := none, orp.sent := 0, orp.sdo := none })))
    ∧ (∀ straps, s.orp.selected = true → s.orp.rx = .code →
      (s.orp.reports = [] → exec (.byteSampled ⟨0, straps⟩ true) s = .next (updatePins { s with orp.sdo := some 0 }))
      ∧ (∀ r rs, s.orp.reports = r :: rs → s.orp.sent + 1 < r.bytes.length →
        exec (.byteSampled ⟨0, straps⟩ false) s = .next (updatePins { s with
          orp.sdo := r.bytes[s.orp.sent]?, orp.sent := s.orp.sent + 1 }))
      ∧ (∀ r rs, s.orp.reports = r :: rs → s.orp.sent + 1 = r.bytes.length → s.orp.orders = [] →
        (∀ tag, (s.route tag).headReady = none) →
        exec (.byteSampled ⟨0, straps⟩ false) s = .next (updatePins { s with
          orp.sdo := r.bytes[s.orp.sent]?, orp.sent := 0, orp.reports := rs })))

/-- The last byte of an order puts it at the tail of the order FIFO, where it waits while no report place is free. That of an
overrun discards it with ORDER-OVERRUN. A length byte above 60, and a gap count that runs out, discard the order whole with
ORDER-GAP, and with ORDER-OVERRUN beside it when it is an overrun (the model's reading, log 24); after such a length byte
input is ignored. -/
def Obligations.OrderReceivedOrCut : Prop :=
  ∀ (code b : Byte) (bytes : List Byte) (straps : Fin 32) (s : State), s.calm = true →
    (∀ r rs, s.orp.selected = true → s.placeFree = false → s.fifoFull = false → s.orp.reports = r :: rs →
      s.orp.sent + 1 < r.bytes.length → s.orp.rx = .payload code 1 bytes false →
      exec (.orderReceived b false straps) s = .next (updatePins { s with
        orp.orders := s.orp.orders ++ [⟨code, bytes ++ [b]⟩], orp.rx := .code, orp.gap := none,
        orp.sdo := r.bytes[s.orp.sent]?, orp.sent := s.orp.sent + 1 }))
    ∧ (∀ r rs, s.orp.selected = true → s.orp.reports = r :: rs → s.orp.sent + 1 < r.bytes.length →
      s.orp.rx = .payload code 1 bytes true →
      exec (.orderReceived b false straps) s = .next (updatePins (postOrderOverrun { s with
        orp.rx := .code, orp.gap := none, orp.sdo := r.bytes[s.orp.sent]?, orp.sent := s.orp.sent + 1 })))
    ∧ (∀ r rs overrun, s.orp.selected = true → s.orp.reports = r :: rs → s.orp.sent + 1 < r.bytes.length →
      s.orp.rx = .length code overrun → 60 < b.toNat →
      exec (.byteSampled ⟨b, straps⟩ false) s = .next (updatePins (postDiscarded overrun { s with
        orp.rx := .skip, orp.gap := none, orp.sdo := r.bytes[s.orp.sent]?, orp.sent := s.orp.sent + 1 })))
    ∧ (s.orp.gap.isSome = true → exec .orderCutShort s =
      .next (updatePins (postDiscarded s.orp.rx.overrun { s with orp.rx := .code, orp.gap := none })))

/-- A ready report of the only route that has one is placed when a place is free; a report whose last byte has been shifted
out leaves the FIFO. -/
def Obligations.ReportsPlacedAndRemoved : Prop :=
  ∀ (tag : Tag) (rep : RouteReport) (s : State), s.stc.resetHeld = false → commitWork s = none → s.orp.orders = [] →
    (s.placeFree = true → (s.route tag).owed = [⟨.make, some rep⟩] →
      (∀ tag', tag' ≠ tag → (s.route tag').headReady = none) →
      ∃ t, exec .reportPlacement s = .next t ∧ t.orp.reports = s.orp.reports ++ [.route rep]
        ∧ (t.route tag).owed = [] ∧ t.liu = s.liu ∧ t.cme = s.cme ∧ t.ttu = s.ttu ∧ t.mbu = s.mbu)
    ∧ (∀ r rs, s.orp.reports = r :: rs → (∀ tag', (s.route tag').headReady = none) →
      ∃ t, exec .reportShiftedOut s = .next t ∧ t.orp.reports = rs ∧ t.orp.sent = 0
        ∧ t.liu = s.liu ∧ t.cme = s.cme ∧ t.ttu = s.ttu ∧ t.mbu = s.mbu)

/-! ## Orders -/

/-- CONFIGURE and WEAR-LOAD in OFFLINE replace the record and the 16 counts of the line; in any other state they are refused
NOT-OFFLINE and change nothing. -/
def Obligations.SetUpOrders : Prop :=
  ∀ s : State, s.calmOrders = true →
    (∀ p c, parseConfigure p = some c → s.stc.station = .offline →
      exec (.configure p) s = .next (updatePins { s with
        orp.config := some c, orp.reports := s.orp.reports ++ [.answer 0x01 false .none none] }))
    ∧ (∀ p l counts, parseWearLoad p = some (l, counts) → s.stc.station = .offline →
      ∃ t, exec (.wearLoad p) s = .next t ∧ t.orp.reports = s.orp.reports ++ [.answer 0x02 false .none none]
        ∧ (∀ x, t.xp x = if xpLine x = l
            then { s.xp x with wear := (counts[(xpTrunk x).val]?).getD (s.xp x).wear } else s.xp x))
    ∧ (∀ p c, parseConfigure p = some c → s.stc.station ≠ .offline →
      exec (.configure p) s = .next (updatePins { s with
        orp.reports := s.orp.reports ++ [.answer 0x01 true .notOffline none] }))
    ∧ (∀ p x, parseWearLoad p = some x → s.stc.station ≠ .offline →
      exec (.wearLoad p) s = .next (updatePins { s with
        orp.reports := s.orp.reports ++ [.answer 0x02 true .notOffline none] }))

/-- A WEAR-READ reports the 16 counts of its line in trunk order and changes no record; one that names no line 0 to 31 is
refused BAD-ORDER. -/
def Obligations.WearReadReports : Prop :=
  ∀ (p : List Byte) (s : State), s.calmOrders = true → p.length ≤ 60 →
    (∀ l : Line, p = [BitVec.ofNat 8 l.val] → exec (.wearRead p) s = .next (updatePins { s with
      orp.reports := s.orp.reports
        ++ [.wear l ((List.finRange 16).map fun k => (s.xp (xpNum l k)).wear)] }))
    ∧ ((∀ l : Line, p ≠ [BitVec.ofNat 8 l.val]) → exec (.wearRead p) s = .next (updatePins { s with
      orp.reports := s.orp.reports ++ [.answer 0x03 true .badOrder none] }))

/-- A JOIN: accepted in OFFLINE with the record set and a strap address 0 to 23, when the station becomes LISTENING with
adoption pending; else refused with the reason of the first check that fails. -/
def Obligations.JoinChecks : Prop :=
  ∀ s : State, s.calmOrders = true →
    (s.stc.station = .offline → s.orp.config.isSome = true → s.stc.strap.val < 24 →
      exec (.join []) s = .next (updatePins { s with
        stc.station := .listening, stc.listenCount := none, stc.cycleError := false,
        ttu.pending := true, ttu.watch := false, ttu.nonStaleHeard := false, ttu.candidate := none,
        ttu.listening := none, orp.reports := s.orp.reports ++ [.answer 0x04 false .none none] }))
    ∧ (∀ reason, (s.stc.station ≠ .offline ∧ reason = .notOffline
        ∨ s.stc.station = .offline ∧ s.orp.config = none ∧ reason = .notConfigured
        ∨ s.stc.station = .offline ∧ s.orp.config.isSome = true ∧ 24 ≤ s.stc.strap.val ∧ reason = .badAddress) →
      exec (.join []) s = .next (updatePins { s with
        orp.reports := s.orp.reports ++ [.answer 0x04 true reason none] }))

/-- A ROUTE-MAKE that passes every check enters its entry with the next generation and a MAKE owed. In JOINING it waits in
PLANNING, its legs unplanned. In ONLINE it is planned at once, here for one leg: a fixed leg takes its trunk when that is
FREE and not in the avoid set, an AUTO leg the lowest such trunk that no CLAIM of this station names; the leg is QUEUED, its
CLAIM joins the queue, and the route is CLAIMING. A fixed leg whose trunk is not to be had ends the route REFUSED for
NO-TRUNK, and no CLAIM is made. -/
def Obligations.RouteMakeAccepted : Prop :=
  ∀ (p : List Byte) (o : MakeOrder) (s : State), s.calmOrders = true → p.length ≤ 60 → parseRouteMake p = some o →
    (s.route o.tag).state = .idle →
    (∀ l ∈ o.legs, ∀ e ∈ l.endpoints, s.isSelf e.station = true
      ∨ (s.mbu.members.get e.station).state = .present ∧ (s.mbu.members.get e.station).fault = false) →
    (s.stc.station = .joining → exec (.routeMake p) s = .next (updatePins { s with
      rte.routes := s.rte.routes.set o.tag (acceptedEntry o s .planning fun l =>
        ⟨l.requested, none, .unplanned, 0, 0, l.endpoints.map (fun e => ⟨e.station, e.line, e.quiet, .idle, none⟩)⟩) }))
    ∧ (∀ l k, s.stc.station = .online → s.ttu.stale = false → o.legs = [l] → s.queueHasPlace = true →
      s.entry k = .free → o.avoid.getLsbD k.val = false →
      (l.requested = some k ∨ l.requested = none
        ∧ (∀ tag, tag ≠ o.tag → ∀ g ∈ (s.route tag).legs, g.assigned = some k → g.claim ≠ .queued ∧ g.claim ≠ .sent)
        ∧ ∀ k', k' < k → s.entry k' ≠ .free ∨ o.avoid.getLsbD k'.val = true ∨ ∃ tag, tag ≠ o.tag ∧
            ∃ g ∈ (s.route tag).legs, g.assigned = some k' ∧ (g.claim = .queued ∨ g.claim = .sent)) →
      exec (.routeMake p) s = .next (updatePins { s with
        rte.routes := s.rte.routes.set o.tag (acceptedEntry o s .claiming fun l =>
          ⟨l.requested, some k, .queued, 0, 0, l.endpoints.map (fun e => ⟨e.station, e.line, e.quiet, .idle, none⟩)⟩),
        liu.queue := s.liu.queue ++ [⟨.claim k o.tag ((s.route o.tag).gen + 1) 0, false⟩] }))
    ∧ (∀ l k, s.stc.station = .online → s.ttu.stale = false → o.legs = [l] → l.requested = some k →
      s.entry k ≠ .free ∨ o.avoid.getLsbD k.val = true →
      ∃ t r, exec (.routeMake p) s = .next t ∧ t.orp.reports = s.orp.reports ++ [.route r] ∧ r.tag = o.tag
        ∧ r.kind = some .make ∧ r.cls = .refused ∧ r.reason = .noTrunk ∧ (t.route o.tag).state = .idle
        ∧ (t.route o.tag).gen = (s.route o.tag).gen + 1 ∧ t.liu = s.liu)

/-- Route orders in OFFLINE, LISTENING or CLASH are refused NOT-ONLINE and change no route. -/
def Obligations.RouteOrdersNeedTheLink : Prop :=
  ∀ (tag : Tag) (s : State), s.calmOrders = true →
    (s.stc.station = .offline ∨ s.stc.station = .listening ∨ s.stc.station = .clash) →
    (∀ p o, p.length ≤ 60 → parseRouteMake p = some o → ∃ t r, exec (.routeMake p) s = .next t
      ∧ t.orp.reports = s.orp.reports ++ [.route r] ∧ r.tag = o.tag ∧ r.kind = some .make ∧ r.cls = .refused
      ∧ r.reason = .notOnline ∧ r.legs = [] ∧ t.rte = s.rte)
    ∧ (∃ t r, exec (.routeBreak [BitVec.ofNat 8 tag.val]) s = .next t
      ∧ t.orp.reports = s.orp.reports ++ [.route r] ∧ r.tag = tag ∧ r.kind = some .brk ∧ r.cls = .refused
      ∧ r.reason = .notOnline ∧ t.rte = s.rte)
    ∧ (∃ t r, exec (.routeClear [BitVec.ofNat 8 tag.val]) s = .next t
      ∧ t.orp.reports = s.orp.reports ++ [.route r] ∧ r.tag = tag ∧ r.kind = some .clear ∧ r.cls = .refused
      ∧ r.reason = .notOnline ∧ t.rte = s.rte)
    ∧ exec (.routeFire [BitVec.ofNat 8 tag.val]) s = .next (updatePins { s with
      orp.reports := s.orp.reports ++ [.answer 0x13 true .notOnline none] })

/-- A ROUTE-BREAK of a MADE route, and a ROUTE-CLEAR of a QUARANTINED one, whose endpoints all lie on other stations: the
route is OPENING or CLEARING, the order is owed an answer, and the endpoints that the order addresses are REQUESTED. -/
def Obligations.BreakAndClearStart : Prop :=
  ∀ (tag : Tag) (s : State), s.calmOrders = true → s.driving = true → (s.route tag).owed.length < 2 →
    (∀ e ∈ (s.route tag).endpoints, s.isSelf e.station = false) → (∀ l ∈ (s.route tag).legs, l.assigned.isSome = true) →
    ((s.route tag).state = .made → (∃ e ∈ (s.route tag).endpoints, e.status = .closed) →
      ∃ t, exec (.routeBreak [BitVec.ofNat 8 tag.val]) s = .next t
        ∧ (t.route tag).state = .opening ∧ (t.route tag).reason = none
        ∧ (t.route tag).owed = (s.route tag).owed ++ [⟨.brk, none⟩]
        ∧ (t.route tag).endpoints = (s.route tag).endpoints.map (fun e =>
            if e.status = .closed ∨ e.status = .unknown
            then { e with status := .requested, request := some ⟨.opn, e.status⟩ } else e))
    ∧ ((s.route tag).state = .quarantined →
      (∃ e ∈ (s.route tag).endpoints, e.status = .unknown
        ∧ (s.mbu.members.get e.station).state = .present) →
      ∃ t, exec (.routeClear [BitVec.ofNat 8 tag.val]) s = .next t
        ∧ (t.route tag).state = .clearing ∧ (t.route tag).reason = none
        ∧ (t.route tag).owed = (s.route tag).owed ++ [⟨.clear, none⟩]
        ∧ (t.route tag).endpoints = (s.route tag).endpoints.map (fun e =>
            if (e.status = .closed ∨ e.status = .unknown) ∧ (s.mbu.members.get e.station).state = .present
            then { e with status := .requested, request := some ⟨.forceOpen, e.status⟩ } else e))

/-- A ROUTE-FIRE of a STAGED route whose FIRE does not stand yet queues one FIRE and is answered accepted. A ROUTE-QUERY
reports the entry as it stands, marked as a query, and changes no entry. TABLE-QUERY and STATUS-QUERY report the state as
it stands, the table as FREE throughout while it is invalid, and change no state. -/
def Obligations.FireAndQuery : Prop :=
  ∀ (tag : Tag) (s : State), s.calmOrders = true →
    (s.driving = true → (s.route tag).state = .staged → s.fireStands tag = false → s.queueHasPlace = true →
      exec (.routeFire [BitVec.ofNat 8 tag.val]) s = .next (updatePins { s with
        liu.queue := s.liu.queue ++ [⟨.fire tag (s.route tag).gen, false⟩],
        orp.reports := s.orp.reports ++ [.answer 0x13 false .none none] }))
    ∧ (∃ r, exec (.routeQuery [BitVec.ofNat 8 tag.val]) s = .next (updatePins { s with
        orp.reports := s.orp.reports ++ [.route r] })
      ∧ r.tag = tag ∧ r.gen = (s.route tag).gen ∧ r.kind = none ∧ r.cls = .query
      ∧ r.reason = (s.route tag).reason.getD .none ∧ r.state = (s.route tag).state
      ∧ r.legs = (s.route tag).legReports)
    ∧ exec (.tableQuery []) s = .next (updatePins { s with
      orp.reports := s.orp.reports ++ [.table s.ttu.valid s.ttu.stale
        (if s.ttu.valid then s.ttu.table else Table.fill 16 .free) s.mbu.members] })
    ∧ exec (.statusQuery []) s = .next (updatePins { s with
      orp.reports := s.orp.reports ++ [.status s.stc.station s.stc.strap s.ttu.stale s.ttu.valid
        s.orp.config.isSome 0 s.orp.reports.length s.orp.alerts] })

/-- An ALERT-CLEAR removes the flag members whose bit is set and the stations and tags that it names, and no other; it is
answered accepted. -/
def Obligations.AlertClearRemoves : Prop :=
  ∀ (p : List Byte) (c : ClearSets) (s : State), s.calmOrders = true → parseAlertClear p = some c →
    ∃ t, exec (.alertClear p) s = .next t
      ∧ t.orp.reports = s.orp.reports ++ [.answer 0x22 false .none none]
      ∧ t.orp.alerts.staleEntered = (s.orp.alerts.staleEntered && !c.members.getLsbD 2)
      ∧ t.orp.alerts.clash = (s.orp.alerts.clash && !c.members.getLsbD 3)
      ∧ t.orp.alerts.chainFault = (s.orp.alerts.chainFault && !c.members.getLsbD 4)
      ∧ t.orp.alerts.wearWarn = (s.orp.alerts.wearWarn && !c.members.getLsbD 6)
      ∧ t.orp.alerts.orderOverrun = (s.orp.alerts.orderOverrun && !c.members.getLsbD 7)
      ∧ t.orp.alerts.orderGap = (s.orp.alerts.orderGap && !c.members.getLsbD 8)
      ∧ t.orp.alerts.droppedLost = (s.orp.alerts.droppedLost && !c.members.getLsbD 9)
      ∧ (∀ n, n < 24 → t.orp.alerts.peerAbsent.getLsbD n = (s.orp.alerts.peerAbsent.getLsbD n && !c.absent.getLsbD n))
      ∧ (∀ n, n < 24 → t.orp.alerts.peerJoined.getLsbD n = (s.orp.alerts.peerJoined.getLsbD n && !c.joined.getLsbD n))
      ∧ (∀ n, n < 16 → t.orp.alerts.routeDamaged.getLsbD n
          = (s.orp.alerts.routeDamaged.getLsbD n && !c.damaged.getLsbD n))
      ∧ t.cme = s.cme ∧ t.ttu = s.ttu ∧ t.rte = s.rte ∧ t.jbu = s.jbu ∧ t.liu = s.liu

/-- A CHECK taken while the CME is busy and holds none waits, with its place reserved; one taken while another is held is
refused BUSY, and one in CLASH NOT-ONLINE. A code that names no order is refused BAD-ORDER, its code echoed. -/
def Obligations.CheckAndUnknownOrders : Prop :=
  ∀ (l : Line) (s : State), s.calmOrders = true →
    (s.stc.station ≠ .clash → s.cme.check = none → s.cme.engine ≠ .idle →
      exec (.check [BitVec.ofNat 8 l.val]) s = .next (updatePins { s with cme.check := some ⟨l, false⟩ }))
    ∧ (s.stc.station ≠ .clash → s.cme.check.isSome = true →
      exec (.check [BitVec.ofNat 8 l.val]) s = .next (updatePins { s with
        orp.reports := s.orp.reports ++ [.answer 0x23 true .busy none] }))
    ∧ (s.stc.station = .clash →
      exec (.check [BitVec.ofNat 8 l.val]) s = .next (updatePins { s with
        orp.reports := s.orp.reports ++ [.answer 0x23 true .notOnline none] }))
    ∧ (∀ code p, (Instr.unknownOrder code p).wf = true →
      exec (.unknownOrder code p) s = .next (updatePins { s with
        orp.reports := s.orp.reports ++ [.answer code true .badOrder none] }))

/-- An order that fails its layout check is refused BAD-ORDER in every station state, with an ANSWER, or for ROUTE-MAKE,
ROUTE-BREAK and ROUTE-CLEAR with a ROUTE-REPORT; it changes nothing else of the station but the model's count of free
values. That a refused ROUTE-QUERY draws an ANSWER is the model's reading, log 13. -/
def Obligations.BadLayoutsRefused : Prop :=
  ∀ (p : List Byte) (s : State), s.calmOrders = true → p.length ≤ 60 →
    (∀ code c, (code = 0x01 ∧ c = Instr.configure p ∧ parseConfigure p = none
        ∨ code = 0x02 ∧ c = .wearLoad p ∧ parseWearLoad p = none ∨ code = 0x04 ∧ c = .join p ∧ p ≠ []
        ∨ code = 0x13 ∧ c = .routeFire p ∧ parseTag p = none ∨ code = 0x14 ∧ c = .routeQuery p ∧ parseTag p = none
        ∨ code = 0x20 ∧ c = .tableQuery p ∧ p ≠ [] ∨ code = 0x21 ∧ c = .statusQuery p ∧ p ≠ []
        ∨ code = 0x22 ∧ c = .alertClear p ∧ parseAlertClear p = none
        ∨ code = 0x23 ∧ c = .check p ∧ parseLine p = none) →
      exec c s = .next (updatePins { s with orp.reports := s.orp.reports ++ [.answer code true .badOrder none] }))
    ∧ (∀ kind c, (kind = OrderKind.make ∧ c = Instr.routeMake p ∧ parseRouteMake p = none
        ∨ kind = .brk ∧ c = .routeBreak p ∧ parseTag p = none
        ∨ kind = .clear ∧ c = .routeClear p ∧ parseTag p = none) →
      ∃ r draws, exec c s = .next (updatePins { s with orp.reports := s.orp.reports ++ [.route r], draws := draws })
        ∧ r.kind = some kind ∧ r.cls = .refused ∧ r.reason = .badOrder)
end

