-- ==== Sys2Proof/Laws/Table.lean ====
section
/-! SUPPORT. The laws of `Table`: what each operation reads back as. -/

namespace Sys2Proof.Table

variable {n : Nat} {α β : Type}

/-- Two tables with equal cells are equal. -/
theorem ext_get {t u : Table n α} (h : ∀ i, t.get i = u.get i) : t = u := by
  obtain ⟨l, hl⟩ := t
  obtain ⟨m, hm⟩ := u
  have : l = m := by
    apply List.ext_getElem (hl.trans hm.symm)
    intro i h1 _
    exact h ⟨i, by omega⟩
  subst this
  rfl

theorem get_set (t : Table n α) (i j : Fin n) (x : α) : (t.set i x).get j = if i = j then x else t.get j := by
  simp only [get, set, List.getElem_set, Fin.ext_iff]

@[simp] theorem get_set_self (t : Table n α) (i : Fin n) (x : α) : (t.set i x).get i = x := by
  simp [get_set]

theorem get_set_ne (t : Table n α) {i j : Fin n} (h : i ≠ j) (x : α) : (t.set i x).get j = t.get j := by
  simp [get_set, h]

theorem get_modify (t : Table n α) (i j : Fin n) (f : α → α) :
    (t.modify i f).get j = if i = j then f (t.get i) else t.get j := by
  simp only [modify, get_set]

@[simp] theorem get_mapIdx (t : Table n α) (f : Fin n → α → β) (i : Fin n) : (t.mapIdx f).get i = f i (t.get i) := by
  simp [get, mapIdx]

@[simp] theorem get_tabulate (f : Fin n → α) (i : Fin n) : (tabulate n f).get i = f i := by
  simp [get, tabulate]

@[simp] theorem get_fill (x : α) (i : Fin n) : (fill n x).get i = x := by
  simp [get, fill]

/-- A table changed cell by cell to what it was is the same table. -/
theorem mapIdx_eq_self {t : Table n α} {f : Fin n → α → α} (h : ∀ i, f i (t.get i) = t.get i) : t.mapIdx f = t :=
  ext_get fun i => by rw [get_mapIdx, h]

/-- A cell is a member of the cells. -/
theorem get_mem (t : Table n α) (i : Fin n) : t.get i ∈ t.cells := List.getElem_mem _

/-- A member of the cells is a cell. -/
theorem exists_get {t : Table n α} {x : α} (h : x ∈ t.cells) : ∃ i, t.get i = x := by
  obtain ⟨k, hk, e⟩ := List.getElem_of_mem h
  exact ⟨⟨k, by rw [← t.size_eq]; exact hk⟩, e⟩

/-- What holds of every cell holds of all the cells. -/
theorem all_iff (t : Table n α) (p : α → Bool) : t.cells.all p = true ↔ ∀ i, p (t.get i) = true := by
  rw [List.all_eq_true]
  constructor
  · intro h i
    exact h _ (t.get_mem i)
  · intro h x hx
    obtain ⟨i, rfl⟩ := exists_get hx
    exact h i

end Sys2Proof.Table
end

