-- ==== Sys2Proof/Laws/Codec.lean ====
section
/-! SUPPORT. Fields of packed numbers, and that the coded values of the link read back as they were. -/

namespace Sys2Proof.Machine

/-! ## Packed fields -/

/-- The number of bits of a list of fields. -/
def fieldBits (fields : List (Nat × Nat)) : Nat := (fields.map Prod.fst).sum

@[simp] theorem fieldBits_nil : fieldBits [] = 0 := rfl

@[simp] theorem fieldBits_cons (f : Nat × Nat) (fs : List (Nat × Nat)) : fieldBits (f :: fs) = f.1 + fieldBits fs := by
  simp [fieldBits]

@[simp] theorem fieldBits_append (a b : List (Nat × Nat)) : fieldBits (a ++ b) = fieldBits a + fieldBits b := by
  simp [fieldBits]

/-- The fold of `pack` from any number. -/
theorem packFrom (fields : List (Nat × Nat)) (n : Nat) :
    fields.foldl (fun n f => n * 2 ^ f.1 + f.2 % 2 ^ f.1) n = n * 2 ^ fieldBits fields + pack fields := by
  induction fields generalizing n with
  | nil => simp [pack]
  | cons f fs ih =>
    have h : pack (f :: fs) = f.2 % 2 ^ f.1 * 2 ^ fieldBits fs + pack fs := by
      conv_lhs => unfold pack
      rw [List.foldl_cons, ih]
      simp
    rw [List.foldl_cons, ih, h, fieldBits_cons, pow_add]
    ring

/-- The first field stands above the others. -/
theorem pack_cons (f : Nat × Nat) (fs : List (Nat × Nat)) :
    pack (f :: fs) = f.2 % 2 ^ f.1 * 2 ^ fieldBits fs + pack fs := by
  conv_lhs => unfold pack
  rw [List.foldl_cons, packFrom]
  simp

theorem pack_append (a b : List (Nat × Nat)) : pack (a ++ b) = pack a * 2 ^ fieldBits b + pack b := by
  conv_lhs => unfold pack
  rw [List.foldl_append, packFrom]
  rfl

/-- A packed number fits its bits. -/
theorem pack_lt (fields : List (Nat × Nat)) : pack fields < 2 ^ fieldBits fields := by
  induction fields with
  | nil => simp [pack]
  | cons f fs ih =>
    rw [pack_cons, fieldBits_cons, pow_add]
    have h : f.2 % 2 ^ f.1 < 2 ^ f.1 := Nat.mod_lt _ (Nat.two_pow_pos _)
    calc f.2 % 2 ^ f.1 * 2 ^ fieldBits fs + pack fs < f.2 % 2 ^ f.1 * 2 ^ fieldBits fs + 2 ^ fieldBits fs := by omega
      _ = (f.2 % 2 ^ f.1 + 1) * 2 ^ fieldBits fs := by ring
      _ ≤ 2 ^ f.1 * 2 ^ fieldBits fs := Nat.mul_le_mul_right _ h

/-- A field of a packed number reads back its value. -/
theorem field_pack (a b : List (Nat × Nat)) (w v : Nat) :
    field (pack (a ++ (w, v) :: b)) (fieldBits b) w = v % 2 ^ w := by
  have hb := pack_lt b
  have hv : v % 2 ^ w < 2 ^ w := Nat.mod_lt _ (Nat.two_pow_pos _)
  rw [pack_append, pack_cons, fieldBits_cons, pow_add, field]
  have e : pack a * (2 ^ w * 2 ^ fieldBits b) + (v % 2 ^ w * 2 ^ fieldBits b + pack b)
      = pack b + (pack a * 2 ^ w + v % 2 ^ w) * 2 ^ fieldBits b := by ring
  rw [e, Nat.add_mul_div_right _ _ (Nat.two_pow_pos _), Nat.div_eq_of_lt hb, Nat.zero_add, Nat.mul_add_mod_self_right,
    Nat.mod_eq_of_lt hv]

/-- The same, with the fields and the place of the field given as they stand. -/
theorem field_pack_of {fs : List (Nat × Nat)} {a b : List (Nat × Nat)} {w v k : Nat} (h : fs = a ++ (w, v) :: b)
    (hk : k = fieldBits b) (hv : v < 2 ^ w) : field (pack fs) k w = v := by
  rw [h, hk, field_pack, Nat.mod_eq_of_lt hv]

/-- A field above appended low bits. -/
theorem field_above {n c m k w : Nat} (h : c < 2 ^ m) : field (n * 2 ^ m + c) (m + k) w = field n k w := by
  unfold field
  rw [pow_add, ← Nat.div_div_eq_div_mul, Nat.mul_comm n, Nat.mul_add_div (Nat.two_pow_pos _), Nat.div_eq_of_lt h,
    Nat.add_zero]

/-- A field of width `w` is below `2 ^ w`. -/
theorem field_lt (n k w : Nat) : field n k w < 2 ^ w := Nat.mod_lt _ (Nat.two_pow_pos _)

/-! ## Coded values -/

@[simp] theorem readAction_code (a : Action) : readAction (actionCode a) = some a := by cases a <;> rfl

@[simp] theorem readQuiet_code (q : QuietIndex) : readQuiet (quietCode q) = some q := by cases q <;> rfl

@[simp] theorem readResultCode_code (c : ResultCode) : readResultCode (resultCode c) = some c := by cases c <;> rfl

@[simp] theorem readAddr_val (a : Addr) : readAddr a.val = some a := by simp [readAddr]

@[simp] theorem readEntry_code (e : TrunkEntry) : readEntry e.code = some e := by
  cases e with
  | free => rfl
  | held o =>
    have := o.isLt
    have h1 : (32 + o.val) / 32 % 4 = 1 := by omega
    have h2 : (32 + o.val) % 32 = o.val := by omega
    simp only [TrunkEntry.code, readEntry, h1, h2, readAddr_val]
  | quarantined o =>
    have := o.isLt
    have h1 : (64 + o.val) / 32 % 4 = 2 := by omega
    have h2 : (64 + o.val) % 32 = o.val := by omega
    simp only [TrunkEntry.code, readEntry, h1, h2, readAddr_val]
  | draining o =>
    have := o.isLt
    have h1 : (96 + o.val) / 32 % 4 = 3 := by omega
    have h2 : (96 + o.val) % 32 = o.val := by omega
    simp only [TrunkEntry.code, readEntry, h1, h2, readAddr_val]

theorem TrunkEntry.code_lt (e : TrunkEntry) : e.code < 2 ^ 7 := by
  cases e with
  | free => decide
  | _ o => have := o.isLt; simp only [TrunkEntry.code]; omega

theorem bit1_lt (b : Bool) : bit1 b < 2 ^ 1 := by cases b <;> decide

@[simp] theorem bit1_beq (b : Bool) : (bit1 b == 1) = b := by cases b <;> rfl

end Sys2Proof.Machine
end

