-- ==== Sys2Proof/Laws/Route.lean ====
section
/-! SUPPORT. What the operations of the Route Engine can do to the rest of the station: they change route entries, held
messages and rounds, the outbound queue, reports and alerts, and nothing else, within the capacities. -/

namespace Sys2Proof.Machine

/-- What the work of the Route Engine can do. -/
structure RteWork (s t : State) : Prop where
  stc : t.stc = s.stc
  mbu : t.mbu = s.mbu
  ttu : t.ttu = s.ttu
  jbu : t.jbu = s.jbu
  cme : t.cme = s.cme
  draws : t.draws = s.draws
  pending : t.pending = s.pending
  inbox : t.rte.inbox = s.rte.inbox
  liu : t.liu = { s.liu with queue := t.liu.queue }
  orp : t.orp = { s.orp with reports := t.orp.reports, alerts := t.orp.alerts }
  queue : s.liu.queue.length ≤ Config.queuePlaces → t.liu.queue.length ≤ Config.queuePlaces
  reports : s.orp.reports.length + (if s.cme.check.isSome then 1 else 0) ≤ Config.reportPlaces →
    t.orp.reports.length + (if s.cme.check.isSome then 1 else 0) ≤ Config.reportPlaces

namespace RteWork

theorem refl (s : State) : RteWork s s := ⟨rfl, rfl, rfl, rfl, rfl, rfl, rfl, rfl, rfl, rfl, id, id⟩

theorem trans {s t u : State} (h : RteWork s t) (g : RteWork t u) : RteWork s u := by
  refine ⟨g.stc.trans h.stc, g.mbu.trans h.mbu, g.ttu.trans h.ttu, g.jbu.trans h.jbu, g.cme.trans h.cme,
    g.draws.trans h.draws, g.pending.trans h.pending, g.inbox.trans h.inbox, ?_, ?_, fun q => g.queue (h.queue q), ?_⟩
  · rw [g.liu, h.liu]
  · rw [g.orp, h.orp]
  · intro q
    have := g.reports (by rw [h.cme]; exact h.reports q)
    rwa [h.cme] at this

/-- A fold of such work. -/
theorem foldl {α : Type} {f : State → α → State} (h : ∀ s a, RteWork s (f s a)) (l : List α) (s : State) :
    RteWork s (l.foldl f s) := by
  induction l generalizing s with
  | nil => exact RteWork.refl s
  | cons a l ih => exact (h s a).trans (ih _)

/-- One of two. -/
theorem ite {p : Prop} [Decidable p] {s t u : State} (h : p → RteWork s t) (g : ¬p → RteWork s u) :
    RteWork s (if p then t else u) := by
  split
  · exact h ‹_›
  · exact g ‹_›

/-- A change of the RTE's own fields but the inbox. -/
theorem rte {s t : State} (h : t = { s with rte := t.rte }) (hi : t.rte.inbox = s.rte.inbox) : RteWork s t := by
  rw [h]
  exact ⟨rfl, rfl, rfl, rfl, rfl, rfl, rfl, hi, rfl, rfl, id, id⟩

end RteWork

theorem rteWork_modRoute (tag : Tag) (f : Route → Route) (s : State) : RteWork s (modRoute tag f s) :=
  RteWork.rte rfl rfl

theorem rteWork_enqueue (m : LinkMsg) (s : State) : RteWork s (enqueue m s) := by
  unfold enqueue
  refine RteWork.ite (fun h => ?_) fun _ => RteWork.refl s
  refine ⟨rfl, rfl, rfl, rfl, rfl, rfl, rfl, rfl, rfl, rfl, fun _ => ?_, id⟩
  have : s.liu.queue.length < Config.queuePlaces := by simpa [State.queueHasPlace] using h
  simpa using this

theorem rteWork_rteSend (owner : Option Tag) (m : LinkMsg) (s : State) : RteWork s (rteSend owner m s) := by
  unfold rteSend
  refine RteWork.ite (fun h => ?_) fun _ => RteWork.rte rfl rfl
  refine ⟨rfl, rfl, rfl, rfl, rfl, rfl, rfl, rfl, rfl, rfl, fun _ => ?_, id⟩
  have : s.liu.queue.length < Config.queuePlaces := by simpa [State.queueHasPlace] using h
  simpa using this

theorem rteWork_dropUnsent (p : LinkMsg → Bool) (s : State) : RteWork s (dropUnsent p s) :=
  ⟨rfl, rfl, rfl, rfl, rfl, rfl, rfl, rfl, rfl, rfl, fun h => (List.length_filter_le _ _).trans h, id⟩

theorem rteWork_placeReport {s : State} (h : s.placeFree = true) (r : Report) : RteWork s (placeReport r s) := by
  refine ⟨rfl, rfl, rfl, rfl, rfl, rfl, rfl, rfl, rfl, rfl, id, fun _ => ?_⟩
  have : s.orp.reports.length + (if s.cme.check.isSome then 1 else 0) < Config.reportPlaces := by
    simpa [State.placeFree] using h
  simp only [placeReport, List.length_append, List.length_singleton]
  omega

theorem rteWork_postRouteDamaged (tag : Tag) (s : State) : RteWork s (postRouteDamaged tag s) :=
  ⟨rfl, rfl, rfl, rfl, rfl, rfl, rfl, rfl, rfl, rfl, id, id⟩

theorem rteWork_fixReports (tag : Tag) (cls : OutcomeClass) (reason : Reason) (s : State) :
    RteWork s (fixReports tag cls reason s) := rteWork_modRoute _ _ _

theorem rteWork_disownHeld (tag : Tag) (s : State) : RteWork s (disownHeld tag s) := by
  unfold disownHeld
  exact RteWork.ite (fun _ => RteWork.rte rfl rfl) fun _ => RteWork.refl s

theorem rteWork_placeNextReport {s t : State} (h : placeNextReport s = some t) : RteWork s t := by
  unfold placeNextReport at h
  split at h
  · rename_i hp
    rw [Option.bind_eq_some_iff] at h
    obtain ⟨tag, _, h⟩ := h
    rw [Option.map_eq_some_iff] at h
    obtain ⟨rep, _, rfl⟩ := h
    exact ((rteWork_placeReport hp _).trans (rteWork_modRoute _ _ _)).trans (rteWork_disownHeld _ _)
  · cases h

theorem rteWork_placeReportsN (n : Nat) (s : State) : RteWork s (placeReportsN n s) := by
  induction n generalizing s with
  | zero => exact RteWork.refl s
  | succ n ih =>
    unfold placeReportsN
    split
    · exact (rteWork_placeNextReport ‹_›).trans (ih _)
    · exact RteWork.refl s

theorem rteWork_placeReports (s : State) : RteWork s (placeReports s) := rteWork_placeReportsN _ s

theorem rteWork_setReplyTimer (tag : Tag) (gen : Gen) (s : State) : RteWork s (setReplyTimer tag gen s) := by
  unfold setReplyTimer
  exact RteWork.ite (fun _ => rteWork_modRoute _ _ _) fun _ => RteWork.refl s

theorem rteWork_pruneTimers (s : State) : RteWork s (pruneTimers s) := RteWork.rte rfl rfl

theorem rteWork_makeRound (tag : Tag) (action : Action) (armed : Bool) (sel : Endpoint → Bool) (s : State) :
    RteWork s (makeRound tag action armed sel s) := by
  unfold makeRound
  dsimp only
  split
  · exact (rteWork_modRoute _ _ _).trans (RteWork.foldl (fun s _ => rteWork_rteSend _ _ s) _ _)
  · split
    · refine RteWork.trans ?_ (rteWork_setReplyTimer _ _ _)
      exact ((rteWork_modRoute _ _ _).trans (RteWork.foldl (fun s _ => rteWork_rteSend _ _ s) _ _)).trans
        (RteWork.rte rfl rfl)
    · exact ((rteWork_modRoute _ _ _).trans (RteWork.foldl (fun s _ => rteWork_rteSend _ _ s) _ _)).trans
        (RteWork.rte rfl rfl)

theorem rteWork_sendForTrunks (msg : Trunk → LinkMsg) (l : List Trunk) (s : State) :
    RteWork s (sendForTrunks msg l s) := RteWork.foldl (fun s _ => rteWork_rteSend _ _ s) _ _

theorem rteWork_endOperation (linked : Bool) (tag : Tag) (state : RouteState) (cls : OutcomeClass) (reason : Reason)
    (s : State) : RteWork s (endOperation linked tag state cls reason s) := by
  unfold endOperation
  refine RteWork.trans ?_ (((rteWork_modRoute _ _ _).trans (rteWork_fixReports _ _ _ _)).trans (rteWork_placeReports _))
  exact RteWork.ite (fun _ => rteWork_sendForTrunks _ _ _) fun _ => RteWork.refl s

theorem rteWork_endBackout (linked : Bool) (tag : Tag) (s : State) : RteWork s (endBackout linked tag s) :=
  rteWork_endOperation _ _ _ _ _ _

theorem rteWork_endBreak (linked : Bool) (tag : Tag) (s : State) : RteWork s (endBreak linked tag s) :=
  rteWork_endOperation _ _ _ _ _ _

theorem rteWork_testEnd (tag : Tag) (s : State) : RteWork s (testEnd tag s) := by
  unfold testEnd
  split
  · exact RteWork.ite (fun _ => RteWork.refl s) fun _ => rteWork_endBackout _ _ _
  · exact RteWork.ite (fun _ => RteWork.refl s) fun _ => rteWork_endBreak _ _ _
  · exact RteWork.ite (fun _ => RteWork.refl s) fun _ => rteWork_endBreak _ _ _
  · exact RteWork.refl s

theorem rteWork_becomeMade (tag : Tag) (s : State) : RteWork s (becomeMade tag s) :=
  ((rteWork_modRoute _ _ _).trans (rteWork_fixReports _ _ _ _)).trans (rteWork_placeReports _)

theorem rteWork_becomeDamaged (tag : Tag) (s : State) : RteWork s (becomeDamaged tag s) :=
  (rteWork_modRoute _ _ _).trans (rteWork_postRouteDamaged _ _)

theorem rteWork_withdrawCloses (tag : Tag) (s : State) : RteWork s (withdrawCloses tag s) := by
  unfold withdrawCloses
  dsimp only
  refine RteWork.trans ?_ (rteWork_dropUnsent _ _)
  exact (rteWork_modRoute _ _ _).trans (RteWork.rte rfl rfl)

theorem rteWork_startBackout (tag : Tag) (s : State) : RteWork s (startBackout tag s) := by
  unfold startBackout
  dsimp only
  exact ((((((rteWork_modRoute _ _ _).trans (rteWork_withdrawCloses _ _)).trans
    (RteWork.ite (fun _ => rteWork_dropUnsent _ _) fun _ => RteWork.refl _)).trans
    (rteWork_rteSend _ _ _)).trans (rteWork_modRoute _ _ _)).trans (rteWork_makeRound _ _ _ _ _)).trans
    (rteWork_testEnd _ _)

theorem rteWork_failMake (tag : Tag) (reason : Reason) (s : State) : RteWork s (failMake tag reason s) :=
  (rteWork_modRoute _ _ _).trans (rteWork_startBackout _ _)

theorem rteWork_noteDecline (tag : Tag) (code : ResultCode) (status : EndpointStatus) (s : State) :
    RteWork s (noteDecline tag code status s) := by
  unfold noteDecline
  exact RteWork.ite (fun _ => RteWork.refl s) fun _ => rteWork_modRoute _ _ _

theorem rteWork_afterStatus (q : RouteResult) (status : EndpointStatus) (s : State) :
    RteWork s (afterStatus q status s) := by
  unfold afterStatus
  dsimp only
  split
  · exact RteWork.ite (fun _ => RteWork.ite (fun _ => rteWork_becomeMade _ _) fun _ => RteWork.refl s)
      fun _ => rteWork_failMake _ _ _
  · exact RteWork.ite (fun _ => RteWork.ite (fun _ => rteWork_rteSend _ _ _) fun _ => RteWork.refl s)
      fun _ => RteWork.ite (fun _ => RteWork.refl s) fun _ => rteWork_failMake _ _ _
  · exact (RteWork.ite (fun _ => rteWork_makeRound _ _ _ _ _) fun _ => RteWork.refl s).trans (rteWork_testEnd _ _)
  · exact RteWork.ite (fun _ => RteWork.refl s) fun _ => rteWork_becomeDamaged _ _
  · exact (rteWork_noteDecline _ _ _ _).trans (rteWork_testEnd _ _)
  · exact (rteWork_noteDecline _ _ _ _).trans (rteWork_testEnd _ _)
  · exact RteWork.refl s

theorem rteWork_takeResult (q : RouteResult) (s : State) : RteWork s (takeResult q s) := by
  unfold takeResult
  dsimp only
  refine RteWork.ite (fun _ => ?_) fun _ => RteWork.refl s
  split
  · exact RteWork.refl s
  · split
    · exact RteWork.refl s
    · exact (rteWork_modRoute _ _ _).trans (rteWork_afterStatus _ _ _)

theorem rteWork_refuseRoute (tag : Tag) (reason : Reason) (s : State) : RteWork s (refuseRoute tag reason s) :=
  ((rteWork_modRoute _ _ _).trans (rteWork_fixReports _ _ _ _)).trans (rteWork_placeReports _)

theorem rteWork_planStep (tag : Tag) (s : State) : RteWork s (planStep tag s) := by
  unfold planStep
  dsimp only
  refine RteWork.ite (fun _ => ?_) fun _ => RteWork.refl s
  split
  · exact rteWork_refuseRoute _ _ _
  · refine (rteWork_modRoute _ _ _).trans (RteWork.foldl (fun s p => ?_) _ _)
    split
    · exact rteWork_rteSend _ _ _
    · exact RteWork.refl s

theorem rteWork_planAll (s : State) : RteWork s (planAll s) :=
  RteWork.ite (fun _ => RteWork.foldl (fun s tag => rteWork_planStep tag s) _ _) fun _ => RteWork.refl s

theorem rteWork_modLeg (tag : Tag) (i : Nat) (f : Leg → Leg) (s : State) : RteWork s (modLeg tag i f s) :=
  rteWork_modRoute _ _ _

theorem rteWork_endIfResolved (tag : Tag) (s : State) : RteWork s (endIfResolved tag s) :=
  RteWork.ite (fun _ => rteWork_refuseRoute _ _ _) fun _ => RteWork.refl s

theorem rteWork_removeClaims (tag : Tag) (s : State) : RteWork s (removeClaims tag s) :=
  (rteWork_modRoute _ _ _).trans (rteWork_dropUnsent _ _)

theorem rteWork_failClaiming (tag : Tag) (reason : Reason) (s : State) : RteWork s (failClaiming tag reason s) := by
  unfold failClaiming
  dsimp only
  refine RteWork.ite (fun _ => RteWork.ite (fun _ => rteWork_endIfResolved _ _) fun _ => ?_) fun _ => RteWork.refl s
  exact (((rteWork_modRoute _ _ _).trans (rteWork_removeClaims _ _)).trans (rteWork_sendForTrunks _ _ _)).trans
    (rteWork_endIfResolved _ _)

theorem rteWork_replan (tag : Tag) (i : Nat) (s : State) : RteWork s (replan tag i s) := by
  unfold replan
  dsimp only
  split
  · exact RteWork.refl s
  · split
    · exact (rteWork_modLeg _ _ _ _).trans (rteWork_rteSend _ _ _)
    · exact rteWork_failClaiming _ _ _

theorem rteWork_loseClaim (tag : Tag) (i : Nat) (t : Trunk) (charged : Bool) (s : State) :
    RteWork s (loseClaim tag i t charged s) := by
  unfold loseClaim
  dsimp only
  split
  · exact RteWork.refl s
  · split
    · exact (rteWork_modLeg _ _ _ _).trans (rteWork_endIfResolved _ _)
    · split
      · exact (rteWork_modLeg _ _ _ _).trans (rteWork_failClaiming _ _ _)
      · exact ((rteWork_modLeg _ _ _ _).trans (rteWork_modLeg _ _ _ _)).trans (rteWork_replan _ _ _)

theorem rteWork_winClaim (tag : Tag) (i : Nat) (t : Trunk) (s : State) : RteWork s (winClaim tag i t s) := by
  unfold winClaim
  dsimp only
  split
  · exact ((rteWork_modLeg _ _ _ _).trans (rteWork_rteSend _ _ _)).trans (rteWork_endIfResolved _ _)
  · split
    · exact ((rteWork_modLeg _ _ _ _).trans (rteWork_modRoute _ _ _)).trans (rteWork_makeRound _ _ _ _ _)
    · exact rteWork_modLeg _ _ _ _

theorem rteWork_reportClaim (won : Bool) (t : Trunk) (tag : Tag) (gen : Gen) (leg : Fin 4) (s : State) :
    RteWork s (reportClaim won t tag gen leg s) :=
  RteWork.ite (fun _ => RteWork.ite (fun _ => rteWork_winClaim _ _ _ _) fun _ => rteWork_loseClaim _ _ _ _ _)
    fun _ => RteWork.refl s

theorem rteWork_reportLostBeforeSend (t : Trunk) (tag : Tag) (gen : Gen) (leg : Fin 4) (s : State) :
    RteWork s (reportLostBeforeSend t tag gen leg s) :=
  RteWork.ite (fun _ => rteWork_loseClaim _ _ _ _ _) fun _ => RteWork.refl s

theorem rteWork_markSent (t : Trunk) (tag : Tag) (gen : Gen) (leg : Fin 4) (s : State) :
    RteWork s (markSent t tag gen leg s) :=
  RteWork.ite (fun _ => rteWork_modLeg _ _ _ _) fun _ => RteWork.refl s

theorem rteWork_resolveLeg (tag : Tag) (i : Nat) (s : State) : RteWork s (resolveLeg tag i s) := by
  unfold resolveLeg
  split
  · split
    · exact RteWork.ite (fun _ => rteWork_winClaim _ _ _ _) fun _ => rteWork_loseClaim _ _ _ _ _
    · exact RteWork.refl s
  · exact RteWork.refl s

theorem rteWork_resolveClaims (s : State) : RteWork s (resolveClaims s) :=
  RteWork.foldl (fun s _ => RteWork.foldl (fun s _ => rteWork_resolveLeg _ _ s) _ s) _ s

theorem rteWork_damageUnheld (s : State) : RteWork s (damageUnheld s) :=
  RteWork.foldl (fun s _ => RteWork.ite (fun _ => rteWork_becomeDamaged _ _) fun _ => RteWork.refl s) _ s

theorem rteWork_releaseOrphans (s : State) : RteWork s (releaseOrphans s) :=
  RteWork.foldl (fun s _ => RteWork.ite (fun _ => rteWork_rteSend _ _ _) fun _ => RteWork.refl s) _ s

theorem rteWork_routeAbsence (a : Addr) (tag : Tag) (s : State) : RteWork s (routeAbsence a tag s) := by
  unfold routeAbsence
  dsimp only
  refine RteWork.ite (fun _ => ?_) fun _ => RteWork.refl s
  split
  · exact RteWork.refl s
  · exact RteWork.refl s
  · exact rteWork_refuseRoute _ _ _
  · exact rteWork_failClaiming _ _ _
  · exact (rteWork_modRoute _ _ _).trans (rteWork_failMake _ _ _)
  · exact (rteWork_modRoute _ _ _).trans (rteWork_failMake _ _ _)
  · exact (rteWork_modRoute _ _ _).trans (rteWork_failMake _ _ _)
  · exact (rteWork_modRoute _ _ _).trans (RteWork.ite (fun _ => RteWork.refl _) fun _ => rteWork_becomeDamaged _ _)
  · exact (rteWork_modRoute _ _ _).trans (rteWork_testEnd _ _)
  · exact (rteWork_modRoute _ _ _).trans (rteWork_testEnd _ _)
  · exact (rteWork_modRoute _ _ _).trans (rteWork_testEnd _ _)
  · exact rteWork_modRoute _ _ _
  · exact rteWork_modRoute _ _ _

theorem rteWork_routeReturn (a : Addr) (rejoining : Bool) (tag : Tag) (s : State) :
    RteWork s (routeReturn a rejoining tag s) := (rteWork_modRoute _ _ _).trans (rteWork_testEnd _ _)

theorem rteWork_routeChainFault (tag : Tag) (s : State) : RteWork s (routeChainFault tag s) := by
  unfold routeChainFault
  dsimp only
  split
  · exact rteWork_refuseRoute _ _ _
  · exact rteWork_failClaiming _ _ _
  · exact (rteWork_modRoute _ _ _).trans (rteWork_startBackout _ _)
  · exact (rteWork_modRoute _ _ _).trans (rteWork_startBackout _ _)
  · exact (rteWork_modRoute _ _ _).trans (rteWork_startBackout _ _)
  · exact rteWork_modRoute _ _ _
  · exact rteWork_modRoute _ _ _
  · exact rteWork_modRoute _ _ _
  · exact RteWork.refl s

theorem rteWork_routeClash (tag : Tag) (s : State) : RteWork s (routeClash tag s) := by
  unfold routeClash
  dsimp only
  split
  · exact rteWork_refuseRoute _ _ _
  · exact ((rteWork_dropUnsent _ _).trans (rteWork_modRoute _ _ _)).trans (rteWork_refuseRoute _ _ _)
  · exact (rteWork_modRoute _ _ _).trans (rteWork_endBackout _ _ _)
  · exact (rteWork_modRoute _ _ _).trans (rteWork_endBackout _ _ _)
  · exact (rteWork_modRoute _ _ _).trans (rteWork_endBackout _ _ _)
  · exact (rteWork_modRoute _ _ _).trans (rteWork_endBackout _ _ _)
  · exact (rteWork_modRoute _ _ _).trans (rteWork_endBreak _ _ _)
  · exact (rteWork_modRoute _ _ _).trans (rteWork_endBreak _ _ _)
  · exact rteWork_becomeDamaged _ _
  · exact RteWork.refl s

theorem rteWork_routePermitted (tag : Tag) (gen : Gen) (s : State) : RteWork s (routePermitted tag gen s) :=
  RteWork.ite (fun _ => rteWork_modRoute _ _ _) fun _ => RteWork.refl s

theorem rteWork_fireRoute (tag : Tag) (s : State) : RteWork s (fireRoute tag s) :=
  RteWork.ite (fun _ => rteWork_modRoute _ _ _) fun _ => RteWork.refl s

theorem rteWork_routeFired (tag : Tag) (gen : Gen) (s : State) : RteWork s (routeFired tag gen s) :=
  RteWork.ite (fun _ => rteWork_fireRoute _ _) fun _ => RteWork.refl s

theorem rteWork_expireReply (tag : Tag) (s : State) : RteWork s (expireReply tag s) := by
  unfold expireReply
  dsimp only
  split
  · exact (rteWork_modRoute _ _ _).trans (rteWork_startBackout _ _)
  · exact (rteWork_modRoute _ _ _).trans (rteWork_startBackout _ _)
  · exact (rteWork_modRoute _ _ _).trans (rteWork_startBackout _ _)
  · exact (rteWork_modRoute _ _ _).trans (rteWork_testEnd _ _)

end Sys2Proof.Machine
end

