-- ==== Sys2Proof/Laws/Jobs.lean ====
section
/-! SUPPORT. What the operations of the Job Unit, with the exchange with the Route Engine, can do to the rest of the station:
they change the job list, the route table with its pending work, the outbound queue, reports and alerts, and nothing else,
within the capacities. -/

namespace Sys2Proof.Machine

/-- What the work of the Job Unit and of the exchange can do. -/
structure JobWork (s t : State) : Prop where
  stc : t.stc = s.stc
  mbu : t.mbu = s.mbu
  ttu : t.ttu = s.ttu
  cme : t.cme = s.cme
  draws : t.draws = s.draws
  pending : t.pending = s.pending
  jbu : t.jbu = { s.jbu with jobs := t.jbu.jobs }
  liu : t.liu = { s.liu with queue := t.liu.queue }
  orp : t.orp = { s.orp with reports := t.orp.reports, alerts := t.orp.alerts }
  jobs : s.jbu.jobs.length ≤ Config.jobPlaces → t.jbu.jobs.length ≤ Config.jobPlaces
  queue : s.liu.queue.length ≤ Config.queuePlaces → t.liu.queue.length ≤ Config.queuePlaces
  reports : s.orp.reports.length + (if s.cme.check.isSome then 1 else 0) ≤ Config.reportPlaces →
    t.orp.reports.length + (if s.cme.check.isSome then 1 else 0) ≤ Config.reportPlaces

/-- The work of the Route Engine is such work. -/
theorem RteWork.job {s t : State} (h : RteWork s t) : JobWork s t :=
  ⟨h.stc, h.mbu, h.ttu, h.cme, h.draws, h.pending, by rw [h.jbu], h.liu, h.orp, by rw [h.jbu]; exact id, h.queue,
    h.reports⟩

namespace JobWork

theorem refl (s : State) : JobWork s s := (RteWork.refl s).job

theorem trans {s t u : State} (h : JobWork s t) (g : JobWork t u) : JobWork s u := by
  refine ⟨g.stc.trans h.stc, g.mbu.trans h.mbu, g.ttu.trans h.ttu, g.cme.trans h.cme, g.draws.trans h.draws,
    g.pending.trans h.pending, ?_, ?_, ?_, fun q => g.jobs (h.jobs q), fun q => g.queue (h.queue q), ?_⟩
  · rw [g.jbu, h.jbu]
  · rw [g.liu, h.liu]
  · rw [g.orp, h.orp]
  · intro q
    have := g.reports (by rw [h.cme]; exact h.reports q)
    rwa [h.cme] at this

/-- A fold of such work. -/
theorem foldl {α : Type} {f : State → α → State} (h : ∀ s a, JobWork s (f s a)) (l : List α) (s : State) :
    JobWork s (l.foldl f s) := by
  induction l generalizing s with
  | nil => exact refl s
  | cons a l ih => exact (h s a).trans (ih _)

/-- One of two. -/
theorem ite {p : Prop} [Decidable p] {s t u : State} (h : p → JobWork s t) (g : ¬p → JobWork s u) :
    JobWork s (if p then t else u) := by
  split
  · exact h ‹_›
  · exact g ‹_›

/-- A change of the job list that does not make it longer. -/
theorem list {s t : State} (h : t = { s with jbu.jobs := t.jbu.jobs })
    (hl : t.jbu.jobs.length ≤ s.jbu.jobs.length) : JobWork s t := by
  have e : ∀ js : List Job, js.length ≤ s.jbu.jobs.length → JobWork s { s with jbu.jobs := js } := fun js hj =>
    ⟨rfl, rfl, rfl, rfl, rfl, rfl, rfl, rfl, rfl, fun q => hj.trans q, id, id⟩
  rw [h]
  exact e _ hl

/-- A job joins the list while it has a place. -/
theorem append {s : State} (h : s.jobPlace = true) (j : Job) :
    JobWork s { s with jbu.jobs := s.jbu.jobs ++ [j] } := by
  refine ⟨rfl, rfl, rfl, rfl, rfl, rfl, rfl, rfl, rfl, fun _ => ?_, id, id⟩
  have : s.jbu.jobs.length < Config.jobPlaces := by simpa [State.jobPlace] using h
  simpa using this

/-- A change of the RTE's own fields. -/
theorem rte {s t : State} (h : t = { s with rte := t.rte }) : JobWork s t := by
  rw [h]
  exact ⟨rfl, rfl, rfl, rfl, rfl, rfl, rfl, rfl, rfl, id, id, id⟩

end JobWork

theorem jobWork_replaceJob (old new : Job) (s : State) : JobWork s (replaceJob old new s) :=
  JobWork.list rfl (by simp [replaceJob])

theorem jobWork_removeJob (j : Job) (s : State) : JobWork s (removeJob j s) :=
  JobWork.list rfl List.length_erase_le

theorem jobWork_deliverLocal (ref : RouteRef) (line : Line) (trunk : Trunk) (code : ResultCode) (s : State) :
    JobWork s (deliverLocal ref line trunk code s) := JobWork.rte rfl

theorem jobWork_enqueue (m : LinkMsg) (s : State) : JobWork s (enqueue m s) := (rteWork_enqueue m s).job

theorem jobWork_returnFollower (c : Job) (s : State) : JobWork s (returnFollower c s) := by
  unfold returnFollower
  refine JobWork.ite (fun _ => ?_) fun _ => JobWork.ite (fun _ => ?_) fun _ => jobWork_replaceJob _ _ _
  · exact (jobWork_deliverLocal _ _ _ _ _).trans (jobWork_removeJob _ _)
  · exact (jobWork_enqueue _ _).trans (jobWork_removeJob _ _)

theorem jobWork_returnFollowers (j : Job) (s : State) : JobWork s (returnFollowers j s) :=
  JobWork.foldl (fun s _ => jobWork_returnFollower _ s) _ s

theorem jobWork_returnJob (fromBatch : Bool) (j : Job) (s : State) : JobWork s (returnJob fromBatch j s) := by
  unfold returnJob
  split
  · refine JobWork.ite (fun _ => ?_) fun _ => JobWork.ite (fun _ => ?_) fun _ => JobWork.ite (fun _ => ?_)
      fun _ => JobWork.refl s
    · exact ((jobWork_deliverLocal _ _ _ _ _).trans (jobWork_removeJob _ _)).trans (jobWork_returnFollowers _ _)
    · exact JobWork.list rfl ((List.length_filter_le _ _).trans List.length_erase_le)
    · exact ((jobWork_enqueue _ _).trans (jobWork_removeJob _ _)).trans (jobWork_returnFollowers _ _)
  · exact JobWork.refl s

theorem jobWork_endJob (code : ResultCode) (j : Job) (s : State) : JobWork s (endJob code j s) :=
  (jobWork_replaceJob _ _ _).trans (jobWork_returnJob _ _ _)

theorem jobWork_answerAtIntake (q : JobRequest) (code : ResultCode) (s : State) :
    JobWork s (answerAtIntake q code s) :=
  JobWork.ite (fun _ => jobWork_deliverLocal _ _ _ _ _) fun _ => jobWork_enqueue _ _

theorem jobWork_armJob (j : Job) (s : State) : JobWork s (armJob j s) := by
  unfold armJob
  refine JobWork.ite (fun _ => ?_) fun _ => JobWork.ite (fun _ => ?_) fun _ => jobWork_replaceJob _ _ _
  · exact (jobWork_replaceJob _ _ _).trans (jobWork_deliverLocal _ _ _ _ _)
  · exact (jobWork_replaceJob _ _ _).trans (jobWork_enqueue _ _)

theorem jobWork_cancelCloses (j : Job) (s : State) : JobWork s (cancelCloses j s) :=
  JobWork.list rfl (by simp [cancelCloses])

theorem jobWork_placeByQuiet (j : Job) (s : State) : JobWork s (placeByQuiet j s) := jobWork_replaceJob _ _ _

theorem jobWork_placeOpen (j : Job) (s : State) : JobWork s (placeOpen j s) := by
  unfold placeOpen
  dsimp only
  split
  · exact (jobWork_cancelCloses _ _).trans (jobWork_endJob _ _ _)
  · exact (jobWork_cancelCloses _ _).trans (jobWork_placeByQuiet _ _)

theorem jobWork_placeJob (j : Job) (s : State) : JobWork s (placeJob j s) := by
  unfold placeJob
  refine JobWork.ite (fun _ => jobWork_armJob _ _) fun _ => ?_
  split
  · exact JobWork.ite (fun _ => jobWork_placeOpen _ _) fun _ => jobWork_endJob _ _ _
  · exact jobWork_placeOpen _ _
  · exact jobWork_placeByQuiet _ _

theorem jobWork_intake (q : JobRequest) (s : State) : JobWork s (intake q s) := by
  unfold intake
  refine JobWork.ite (fun _ => jobWork_answerAtIntake _ _ _) fun _ =>
    JobWork.ite (fun _ => jobWork_answerAtIntake _ _ _) fun h => JobWork.ite (fun _ => JobWork.refl s) fun _ => ?_
  have hp : s.jobPlace = true := by simpa using h
  dsimp only
  split
  · exact JobWork.append hp _
  · exact (JobWork.append hp _).trans (jobWork_placeJob _ _)

theorem jobWork_takeResult (q : RouteResult) (s : State) : JobWork s (takeResult q s) := (rteWork_takeResult q s).job

theorem jobWork_exchangeStep {s t : State} (h : exchangeStep s = some t) : JobWork s t := by
  unfold exchangeStep at h
  split at h
  · cases h
    exact JobWork.trans (JobWork.rte rfl) (jobWork_takeResult _ _)
  · rw [Option.map_eq_some_iff] at h
    obtain ⟨p, _, rfl⟩ := h
    exact JobWork.trans (JobWork.rte rfl) (jobWork_intake _ _)

theorem jobWork_exchangeN (n : Nat) (s : State) : JobWork s (exchangeN n s) := by
  induction n generalizing s with
  | zero => exact JobWork.refl s
  | succ n ih =>
    unfold exchangeN
    split
    · exact (jobWork_exchangeStep ‹_›).trans (ih _)
    · exact JobWork.refl s

theorem jobWork_exchange (s : State) : JobWork s (exchange s) := jobWork_exchangeN _ s

theorem jobWork_endJobs (verdict : Job → Option ResultCode) (s : State) : JobWork s (endJobs verdict s) := by
  unfold endJobs
  refine JobWork.trans ?_ (JobWork.foldl (fun s _ => (jobWork_returnJob _ _ s).trans (jobWork_exchange _)) _ _)
  exact JobWork.list rfl (by simp)

theorem jobWork_sendDropped (ref : RouteRef) (x : Xp) (s : State) : JobWork s (sendDropped ref x s) := by
  unfold sendDropped
  refine JobWork.ite (fun _ => jobWork_deliverLocal _ _ _ _ _) fun _ => JobWork.ite (fun _ => JobWork.refl s) fun _ =>
    JobWork.ite (fun _ => jobWork_enqueue _ _) fun _ => JobWork.ite (fun h => JobWork.append h _) fun _ => ?_
  exact ⟨rfl, rfl, rfl, rfl, rfl, rfl, rfl, rfl, rfl, id, id, id⟩

theorem jobWork_sendAllDropped (found : List (RouteRef × Xp)) (s : State) : JobWork s (sendAllDropped found s) :=
  JobWork.foldl (fun s _ => (jobWork_sendDropped _ _ s).trans (jobWork_exchange _)) _ s

theorem jobWork_admitJob (j : Job) (s : State) : JobWork s (admitJob j s) := by
  unfold admitJob
  refine JobWork.ite (fun _ => ?_) fun _ => JobWork.refl s
  split
  · exact jobWork_returnJob _ _ _
  · exact JobWork.refl s
  · exact JobWork.ite (fun _ => (jobWork_replaceJob _ _ _).trans (jobWork_enqueue _ _)) fun _ => JobWork.refl s

theorem jobWork_admitHeld (h : HeldMsg) (s : State) : JobWork s (admitHeld h s) :=
  JobWork.ite (fun _ => (jobWork_enqueue h.msg s).trans (JobWork.rte rfl)) fun _ => JobWork.refl s

theorem jobWork_admit (s : State) : JobWork s (admitAll s) :=
  (JobWork.foldl (fun s j => jobWork_admitJob j s) _ s).trans (JobWork.foldl (fun s h => jobWork_admitHeld h s) _ _)

theorem jobWork_takeAbandon (ref : RouteRef) (s : State) : JobWork s (takeAbandon ref s) := jobWork_endJobs _ s

theorem jobWork_expireHotWait (ref : RouteRef) (line : Line) (trunk : Trunk) (action : Action) (s : State) :
    JobWork s (expireHotWait ref line trunk action s) := by
  unfold expireHotWait
  exact JobWork.trans (JobWork.list rfl (by simp)) (jobWork_endJobs _ _)

theorem jobWork_countHotWaits (s : State) : JobWork s (countHotWaits s) := by
  unfold countHotWaits
  exact JobWork.trans (JobWork.list rfl (by simp)) (jobWork_endJobs _ _)

theorem jobWork_removeOrigin (a : Addr) (s : State) : JobWork s (removeOrigin a s) :=
  JobWork.list rfl (List.length_filter_le _ _)

theorem jobWork_clearJobs (s : State) : JobWork s (clearJobs s) := JobWork.list rfl (List.length_filter_le _ _)

theorem jobWork_takePermit (ref : RouteRef) (s : State) : JobWork s (takePermit ref s) :=
  JobWork.list rfl (by simp [takePermit])

theorem jobWork_fireJobs (fires : Job → Bool) (s : State) : JobWork s (fireJobs fires s) :=
  JobWork.list rfl (by simp [fireJobs])

theorem jobWork_takeFire (ref : RouteRef) (s : State) : JobWork s (takeFire ref s) := jobWork_fireJobs _ s

theorem jobWork_takeTrigger (s : State) : JobWork s (takeTrigger s) :=
  (RteWork.foldl (fun s tag => rteWork_fireRoute tag s) _ s).job.trans (jobWork_fireJobs _ _)

theorem jobWork_armedTest (s : State) : JobWork s (armedTest s) :=
  JobWork.ite (fun _ => jobWork_endJobs _ s) fun _ => JobWork.refl s

theorem jobWork_placeDeferred (j : Job) (s : State) : JobWork s (placeDeferred j s) :=
  JobWork.ite (fun _ => (jobWork_placeJob j s).trans (jobWork_exchange _)) fun _ => JobWork.refl s

theorem jobWork_placeAllDeferred (s : State) : JobWork s (placeAllDeferred s) :=
  JobWork.foldl (fun s j => jobWork_placeDeferred j s) _ s

end Sys2Proof.Machine
end

