-- ==== Sys2Proof/Laws/Records.lean ====
section
/-! SUPPORT. The crosspoint records: what each move keeps of the record laws, of the line law and of the wear counts. -/

namespace Sys2Proof.Machine

/-! ## Geometry -/

@[simp] theorem xpLine_xpNum (l : Line) (t : Trunk) : xpLine (xpNum l t) = l := by
  apply Fin.ext
  have := t.isLt
  simp only [xpLine, xpNum]
  omega

@[simp] theorem xpTrunk_xpNum (l : Line) (t : Trunk) : xpTrunk (xpNum l t) = t := by
  apply Fin.ext
  have := t.isLt
  simp only [xpTrunk, xpNum]
  omega

@[simp] theorem xpNum_line_trunk (x : Xp) : xpNum (xpLine x) (xpTrunk x) = x := by
  apply Fin.ext
  simp only [xpTrunk, xpNum, xpLine]
  omega

theorem xpNum_inj {l m : Line} {t u : Trunk} : xpNum l t = xpNum m u ↔ l = m ∧ t = u := by
  constructor
  · intro h
    have h1 := congrArg xpLine h
    have h2 := congrArg xpTrunk h
    simp only [xpLine_xpNum, xpTrunk_xpNum] at h1 h2
    exact ⟨h1, h2⟩
  · rintro ⟨rfl, rfl⟩
    rfl

/-! ## The list of records -/

/-- The records listed with their numbers. -/
theorem zip_allXps (xps : Table 512 Crosspoint) : List.zip allXps xps.cells = allXps.map fun x => (x, xps.get x) := by
  apply List.ext_getElem
  · simp [allXps, xps.size_eq]
  · intro i h1 h2
    simp [allXps, Table.get]

theorem xpList_eq (s : State) : s.xpList = allXps.map fun x => (x, s.xp x) := zip_allXps s.cme.xps

/-- A test over the list of records is a test over the crosspoints. -/
theorem xpList_any (s : State) (p : Xp × Crosspoint → Bool) : s.xpList.any p = true ↔ ∃ x, p (x, s.xp x) = true := by
  rw [xpList_eq, List.any_map, List.any_eq_true]
  constructor
  · rintro ⟨x, _, h⟩
    exact ⟨x, h⟩
  · rintro ⟨x, h⟩
    exact ⟨x, List.mem_finRange x, h⟩

/-- At most one member of a list without repeats satisfies a test, said by length. -/
theorem filter_length_le_one {α : Type} {l : List α} (hl : l.Nodup) (p : α → Bool) :
    (l.filter p).length ≤ 1 ↔ ∀ x ∈ l, ∀ y ∈ l, p x = true → p y = true → x = y := by
  constructor
  · intro h x hx y hy px py
    have mx : x ∈ l.filter p := List.mem_filter.2 ⟨hx, px⟩
    have my : y ∈ l.filter p := List.mem_filter.2 ⟨hy, py⟩
    obtain ⟨a, ha⟩ | ha : (∃ a, l.filter p = [a]) ∨ l.filter p = [] := by
      match hf : l.filter p with
      | [] => exact Or.inr rfl
      | [a] => exact Or.inl ⟨a, rfl⟩
      | a :: b :: r => simp [hf] at h
    · rw [ha, List.mem_singleton] at mx my
      rw [mx, my]
    · rw [ha] at mx
      cases mx
  · intro h
    have hn : (l.filter p).Nodup := hl.filter p
    match hf : l.filter p with
    | [] => simp
    | [a] => simp
    | a :: b :: r =>
      exfalso
      have ma : a ∈ l.filter p := by rw [hf]; simp
      have mb : b ∈ l.filter p := by rw [hf]; simp
      have hab : a = b := h a (List.mem_filter.1 ma).1 b (List.mem_filter.1 mb).1 (List.mem_filter.1 ma).2
        (List.mem_filter.1 mb).2
      rw [hf, hab] at hn
      simp at hn

/-- No line has two crosspoints that are not OPEN (R9). -/
theorem lineConflict_eq_false (xps : Table 512 Crosspoint) : lineConflict xps = false ↔
    ∀ x y, xpLine x = xpLine y → (xps.get x).isOpen = false → (xps.get y).isOpen = false → x = y := by
  have key : ∀ l : Line, ((List.zip allXps xps.cells).filter fun p => xpLine p.1 == l && !p.2.isOpen).length
      = (allXps.filter fun x => xpLine x == l && !(xps.get x).isOpen).length := by
    intro l
    rw [zip_allXps, List.filter_map, List.length_map]
    rfl
  unfold lineConflict
  rw [List.any_eq_false]
  constructor
  · intro h x y hl hx hy
    have := h (xpLine x) (List.mem_finRange _)
    rw [decide_eq_true_eq, Nat.not_lt, key, filter_length_le_one (l := allXps) (List.nodup_finRange 512)] at this
    refine this x (List.mem_finRange x) y (List.mem_finRange y) ?_ ?_
    · simp [hx]
    · simp [hy, hl]
  · intro h l _
    rw [decide_eq_true_eq, Nat.not_lt, key, filter_length_le_one (l := allXps) (List.nodup_finRange 512)]
    intro x _ y _ hx hy
    simp only [Bool.and_eq_true, beq_iff_eq, Bool.not_eq_true'] at hx hy
    exact h x y (hx.1.trans hy.1.symm) hx.2 hy.2

/-- The line of `x` has no other crosspoint that is not OPEN. -/
theorem lineTaken_eq_false (s : State) (x : Xp) : s.lineTaken x = false ↔
    ∀ y, xpLine y = xpLine x → y ≠ x → (s.xp y).isOpen = true := by
  rw [← Bool.not_eq_true, State.lineTaken, xpList_any]
  constructor
  · intro h y hl hy
    by_contra hc
    exact h ⟨y, by simp [hl, hy, hc]⟩
  · rintro h ⟨y, hy⟩
    simp only [Bool.and_eq_true, beq_iff_eq, bne_iff_ne, ne_eq, Bool.not_eq_true'] at hy
    have := h y hy.1.1 hy.1.2
    rw [hy.2] at this
    cases this

theorem isOpen_iff (c : Crosspoint) : c.isOpen = true ↔ c.state = .opn := by
  simp [Crosspoint.isOpen]

theorem isOpen_eq_false (c : Crosspoint) : c.isOpen = false ↔ c.state ≠ .opn := by
  rw [← Bool.not_eq_true, isOpen_iff]

/-! ## One record -/

theorem lawful_wear {c : Crosspoint} (h : c.lawful = true) : c.wear ≤ Config.wearMax := by
  simp only [Crosspoint.lawful, Bool.and_eq_true, decide_eq_true_eq] at h
  exact h.1

/-- An OPEN record as the laws have it. -/
theorem lawful_opn {c : Crosspoint} (h : c.lawful = true) (ho : c.isOpen = true) :
    c.owner = none ∧ c.quiet = .none ∧ c.marked = false := by
  rw [isOpen_iff] at ho
  simp only [Crosspoint.lawful, ho, Bool.and_eq_true, decide_eq_true_eq, Option.isNone_iff_eq_none, beq_iff_eq,
    Bool.not_eq_true'] at h
  exact ⟨h.2.1.1, h.2.1.2, h.2.2⟩

theorem lawful_enterOpen {c : Crosspoint} (h : c.lawful = true) : c.enterOpen.lawful = true := by
  have := lawful_wear h
  simp [Crosspoint.lawful, Crosspoint.enterOpen, this]

@[simp] theorem isOpen_enterOpen (c : Crosspoint) : c.enterOpen.isOpen = true := rfl

@[simp] theorem wear_enterOpen (c : Crosspoint) : c.enterOpen.wear = c.wear := rfl

theorem lawful_sensed {c : Crosspoint} (h : c.lawful = true) (contact : Bool) : (c.sensed contact).lawful = true := by
  obtain ⟨st, ow, qu, w, m⟩ := c
  cases st with
  | unknown d =>
    cases d <;> cases contact <;> cases ow <;> cases m <;> cases qu <;>
      simp_all [Crosspoint.lawful, Crosspoint.sensed, Crosspoint.enterOpen]
  | _ =>
    cases contact <;> cases ow <;> cases m <;>
      simp_all [Crosspoint.lawful, Crosspoint.sensed, Crosspoint.enterOpen]

@[simp] theorem wear_sensed (c : Crosspoint) (contact : Bool) : (c.sensed contact).wear = c.wear := by
  obtain ⟨st, ow, qu, w, m⟩ := c
  cases st with
  | unknown d => cases d <;> cases contact <;> rfl
  | _ => cases contact <;> rfl

theorem lawful_strayMark {c : Crosspoint} (h : c.lawful = true) (e : TrunkEntry) : (c.strayMark e).lawful = true := by
  obtain ⟨st, ow, qu, w, m⟩ := c
  cases st <;> cases ow <;> cases m <;>
    simp_all [Crosspoint.lawful, Crosspoint.strayMark, Crosspoint.standing, Crosspoint.isUnknown]

@[simp] theorem isOpen_strayMark (c : Crosspoint) (e : TrunkEntry) : (c.strayMark e).isOpen = c.isOpen := by
  obtain ⟨st, ow, qu, w, m⟩ := c
  cases st <;> cases ow <;> rfl

@[simp] theorem wear_strayMark (c : Crosspoint) (e : TrunkEntry) : (c.strayMark e).wear = c.wear := by
  obtain ⟨st, ow, qu, w, m⟩ := c
  cases st <;> cases ow <;> rfl

/-- A mark is removed. -/
theorem lawful_unmark {c : Crosspoint} (h : c.lawful = true) : ({ c with marked := false } : Crosspoint).lawful = true := by
  obtain ⟨st, ow, qu, w, m⟩ := c
  cases st <;> cases ow <;> simp_all [Crosspoint.lawful]

theorem lawful_driveOwned {c : Crosspoint} (h : c.lawful = true) : c.driveOwned.lawful = true := by
  obtain ⟨st, ow, qu, w, m⟩ := c
  cases st <;> cases ow <;> simp_all [Crosspoint.lawful, Crosspoint.driveOwned, Crosspoint.isOpen]

@[simp] theorem isOpen_driveOwned (c : Crosspoint) : c.driveOwned.isOpen = c.isOpen := by
  obtain ⟨st, ow, qu, w, m⟩ := c
  cases st <;> cases ow <;> rfl

@[simp] theorem wear_driveOwned (c : Crosspoint) : c.driveOwned.wear = c.wear := by
  obtain ⟨st, ow, qu, w, m⟩ := c
  cases st <;> cases ow <;> rfl

theorem lawful_driveOpen {c : Crosspoint} (h : c.lawful = true) (j : Job) : (c.driveOpen j).lawful = true := by
  unfold Crosspoint.driveOpen
  split
  · exact h
  · split
    · have := lawful_wear h
      simp [Crosspoint.lawful, this]
    · exact lawful_driveOwned h

@[simp] theorem isOpen_driveOpen (c : Crosspoint) (j : Job) : (c.driveOpen j).isOpen = c.isOpen := by
  unfold Crosspoint.driveOpen
  split
  · rfl
  · rename_i ho
    split
    · simp only [Bool.not_eq_true] at ho
      rw [ho]
      rfl
    · exact isOpen_driveOwned c

@[simp] theorem wear_driveOpen (c : Crosspoint) (j : Job) : (c.driveOpen j).wear = c.wear := by
  unfold Crosspoint.driveOpen
  split
  · rfl
  · split
    · rfl
    · exact wear_driveOwned c

theorem lawful_driveClose {c : Crosspoint} (h : c.lawful = true) (ho : c.isOpen = true) (j : Job) :
    (c.driveClose j).lawful = true := by
  have hm := (lawful_opn h ho).2.2
  have := lawful_wear h
  simp [Crosspoint.lawful, Crosspoint.driveClose, hm, this]

theorem lawful_raise {c : Crosspoint} (h : c.lawful = true) (n : Nat) :
    ({ c with wear := raiseWear c.wear n } : Crosspoint).lawful = true := by
  obtain ⟨st, ow, qu, w, m⟩ := c
  cases st <;> simp_all [Crosspoint.lawful, raiseWear]

theorem le_raiseWear {c : Crosspoint} (h : c.lawful = true) (n : Nat) : c.wear ≤ raiseWear c.wear n := by
  have := lawful_wear h
  unfold raiseWear
  omega

/-! ## All records -/

/-- The laws of the records (R3, R9). -/
def XpsOk (xps : Table 512 Crosspoint) : Prop := (∀ x, (xps.get x).lawful = true) ∧ lineConflict xps = false

theorem recordsLawful_iff (s : State) : s.recordsLawful = true ↔ XpsOk s.cme.xps := by
  rw [State.recordsLawful, Bool.and_eq_true, Table.all_iff, Bool.not_eq_true', XpsOk]

/-- A move of the records that keeps the laws and lowers no wear count. -/
structure XpsStep (a b : Table 512 Crosspoint) : Prop where
  ok : XpsOk a → XpsOk b
  wear : XpsOk a → ∀ x, (a.get x).wear ≤ (b.get x).wear

namespace XpsStep

theorem refl (a : Table 512 Crosspoint) : XpsStep a a := ⟨id, fun _ _ => le_refl _⟩

theorem trans {a b c : Table 512 Crosspoint} (h : XpsStep a b) (g : XpsStep b c) : XpsStep a c :=
  ⟨fun o => g.ok (h.ok o), fun o x => (h.wear o x).trans (g.wear (h.ok o) x)⟩

/-- A move cell by cell that opens or keeps: no record leaves OPEN. -/
theorem cells {a b : Table 512 Crosspoint} (hl : ∀ x, (a.get x).lawful = true → (b.get x).lawful = true)
    (ho : ∀ x, (a.get x).isOpen = true → (b.get x).isOpen = true)
    (hw : ∀ x, (a.get x).lawful = true → (a.get x).wear ≤ (b.get x).wear) : XpsStep a b := by
  refine ⟨fun o => ⟨fun x => hl x (o.1 x), ?_⟩, fun o x => hw x (o.1 x)⟩
  have h2 := o.2
  rw [lineConflict_eq_false] at h2 ⊢
  have back : ∀ x, (b.get x).isOpen = false → (a.get x).isOpen = false := fun x hb => by
    by_contra hc
    rw [Bool.not_eq_false] at hc
    rw [ho x hc] at hb
    cases hb
  exact fun x y hxy hx hy => h2 x y hxy (back x hx) (back y hy)

/-- One record is changed, and does not leave OPEN. -/
theorem modify (a : Table 512 Crosspoint) (x : Xp) (f : Crosspoint → Crosspoint)
    (hl : ∀ c, c.lawful = true → (f c).lawful = true) (ho : ∀ c, c.isOpen = true → (f c).isOpen = true)
    (hw : ∀ c, c.lawful = true → c.wear ≤ (f c).wear) : XpsStep a (a.modify x f) := by
  apply cells <;> intro y <;> rw [Table.get_modify] <;> split <;> rename_i he
  · subst he
    exact hl _
  · exact id
  · subst he
    exact ho _
  · exact id
  · subst he
    exact hw _
  · exact fun _ => le_refl _

end XpsStep

/-- A sense pass without a line conflict keeps the laws (R6, R7, R11). -/
theorem xpsStep_sensed {contacts : Image} {xps : Table 512 Crosspoint}
    (h : lineConflict (sensedRecords contacts xps) = false) : XpsStep xps (sensedRecords contacts xps) := by
  refine ⟨fun o => ⟨fun x => ?_, h⟩, fun o x => ?_⟩
  · rw [sensedRecords, Table.get_mapIdx]
    exact lawful_sensed (o.1 x) _
  · rw [sensedRecords, Table.get_mapIdx, wear_sensed]

/-- The driver clear (R8). -/
theorem xpsStep_cleared (xps : Table 512 Crosspoint) : XpsStep xps (xps.mapIdx fun _ c => c.enterOpen) := by
  apply XpsStep.cells <;> intro x <;> rw [Table.get_mapIdx]
  · exact lawful_enterOpen
  · exact fun _ => rfl
  · exact fun _ => le_refl _

/-- A close is driven on a line that has no crosspoint that is not OPEN (R9, R153). -/
theorem xpsStep_driveClose {s : State} {j : Job} {x : Xp} (ho : (s.xp x).isOpen = true)
    (hl : s.lineTaken x = false) : XpsStep s.cme.xps (s.cme.xps.modify x (Crosspoint.driveClose j)) := by
  have ho' : (s.cme.xps.get x).isOpen = true := ho
  have hl' : ∀ y, xpLine y = xpLine x → y ≠ x → (s.cme.xps.get y).isOpen = true := (lineTaken_eq_false s x).1 hl
  refine ⟨fun o => ⟨fun y => ?_, ?_⟩, fun o y => ?_⟩
  · rw [Table.get_modify]
    split
    · exact lawful_driveClose (o.1 x) ho' j
    · exact o.1 y
  · rw [lineConflict_eq_false]
    intro y z hyz hy hz
    have step : ∀ w, xpLine w = xpLine x → ((s.cme.xps.modify x (Crosspoint.driveClose j)).get w).isOpen = false →
        w = x := by
      intro w hw hn
      by_contra hne
      rw [Table.get_modify, if_neg (Ne.symm hne), hl' w hw hne] at hn
      cases hn
    by_cases hline : xpLine y = xpLine x
    · rw [step y hline hy, step z (hyz.symm.trans hline) hz]
    · have hy' : x ≠ y := fun e => hline (by rw [e])
      have hz' : x ≠ z := fun e => hline (by rw [e, hyz])
      rw [Table.get_modify, if_neg hy'] at hy
      rw [Table.get_modify, if_neg hz'] at hz
      exact (lineConflict_eq_false _).1 o.2 y z hyz hy hz
  · rw [Table.get_modify]
    split
    · rename_i e
      subst e
      exact le_refl _
    · exact le_refl _

/-! ## Sense passes that find nothing amiss -/

/-- A sense pass marks no record. -/
theorem sensed_unmarked {c : Crosspoint} (h : c.marked = false) (b : Bool) : (c.sensed b).marked = false := by
  obtain ⟨state, _, _, _, _⟩ := c
  rcases state with _ | _ | _ | _ | d <;> cases b <;> (try cases d) <;> first | exact h | rfl

/-- With no record CLOSED, no owner is sent DROPPED. -/
theorem droppedBy_eq_nil {s : State} (contacts : Image) (h : ∀ x, (s.xp x).state ≠ .closed) :
    s.droppedBy contacts = [] := by
  rw [State.droppedBy, xpList_eq, List.filterMap_map, List.filterMap_eq_nil_iff]
  intro x _
  simp only [Function.comp_apply, Option.map_eq_none_iff, Crosspoint.drops]
  rw [if_neg]
  simp [h x]

/-- With every crosspoint but one OPEN and read open, a sense pass leaves no line with two that are not OPEN. -/
theorem lineConflict_sensed_single {xps : Table 512 Crosspoint} {contacts : Image} (x : Xp)
    (h : ∀ y, y ≠ x → (xps.get y).state = .opn ∧ contacts.getLsbD y.val = false) :
    lineConflict (sensedRecords contacts xps) = false := by
  rw [lineConflict_eq_false]
  have only : ∀ y, ((sensedRecords contacts xps).get y).isOpen = false → y = x := by
    intro y hy
    by_contra hne
    obtain ⟨h1, h2⟩ := h y hne
    rw [sensedRecords, Table.get_mapIdx, h2] at hy
    simp [Crosspoint.sensed, h1, Crosspoint.isOpen] at hy
  intro y z _ hy hz
  rw [only y hy, only z hz]

end Sys2Proof.Machine
end

