-- ==== Sys2Proof/Laws/Engine.lean ====
section
/-! SUPPORT. What any work of the station keeps (`Sound`), what the work inside it keeps besides (`Inner`), and that every
operation of the Commit Engine is such work. -/

namespace Sys2Proof.Machine

/-- What all work but a reset keeps: the command queue, the held reset, the straps, being on the link, the record laws,
the wear counts outside OFFLINE, and the capacities. -/
structure Sound (s t : State) : Prop where
  pending : t.pending = s.pending
  held : t.stc.resetHeld = s.stc.resetHeld
  strap : t.stc.strap = s.stc.strap
  online : s.stc.station ≠ .offline → t.stc.station ≠ .offline
  records : XpsOk s.cme.xps → XpsOk t.cme.xps
  wear : s.stc.station ≠ .offline → XpsOk s.cme.xps → ∀ x, (s.xp x).wear ≤ (t.xp x).wear
  within : s.withinCapacity = true → t.withinCapacity = true

namespace Sound

theorem refl (s : State) : Sound s s := ⟨rfl, rfl, rfl, id, id, fun _ _ _ => le_refl _, id⟩

theorem trans {s t u : State} (h : Sound s t) (g : Sound t u) : Sound s u :=
  ⟨g.pending.trans h.pending, g.held.trans h.held, g.strap.trans h.strap, fun o => g.online (h.online o),
    fun o => g.records (h.records o),
    fun o k x => (h.wear o k x).trans (g.wear (h.online o) (h.records k) x), fun o => g.within (h.within o)⟩

theorem foldl {α : Type} {f : State → α → State} (h : ∀ s a, Sound s (f s a)) (l : List α) (s : State) :
    Sound s (l.foldl f s) := by
  induction l generalizing s with
  | nil => exact refl s
  | cons a l ih => exact (h s a).trans (ih _)

theorem ite {p : Prop} [Decidable p] {s t u : State} (h : p → Sound s t) (g : ¬p → Sound s u) :
    Sound s (if p then t else u) := by
  split
  · exact h ‹_›
  · exact g ‹_›

end Sound

/-- What the work inside the station keeps besides: the membership table, the link but for its queue, and, outside
OFFLINE, the trunk table. -/
structure Inner (s t : State) : Prop extends Sound s t where
  mbu : t.mbu = s.mbu
  liu : t.liu = { s.liu with queue := t.liu.queue }
  ttu : s.stc.station ≠ .offline → t.ttu = s.ttu

namespace Inner

theorem refl (s : State) : Inner s s := ⟨Sound.refl s, rfl, rfl, fun _ => rfl⟩

theorem trans {s t u : State} (h : Inner s t) (g : Inner t u) : Inner s u := by
  refine ⟨h.toSound.trans g.toSound, g.mbu.trans h.mbu, ?_, fun o => (g.ttu (h.online o)).trans (h.ttu o)⟩
  rw [g.liu, h.liu]

theorem foldl {α : Type} {f : State → α → State} (h : ∀ s a, Inner s (f s a)) (l : List α) (s : State) :
    Inner s (l.foldl f s) := by
  induction l generalizing s with
  | nil => exact refl s
  | cons a l ih => exact (h s a).trans (ih _)

theorem ite {p : Prop} [Decidable p] {s t u : State} (h : p → Inner s t) (g : ¬p → Inner s u) :
    Inner s (if p then t else u) := by
  split
  · exact h ‹_›
  · exact g ‹_›

/-- A change of the Commit Engine and the sweep timer that holds no new CHECK. -/
theorem cme {s t : State} (h : t = { s with cme := t.cme, jbu.sweep := t.jbu.sweep })
    (hx : XpsStep s.cme.xps t.cme.xps) (hc : t.cme.check.isSome = true → s.cme.check.isSome = true) : Inner s t := by
  have e : ∀ (c : Cme) (w : SweepTimer), XpsStep s.cme.xps c.xps → (c.check.isSome = true → s.cme.check.isSome = true) →
      Inner s { s with cme := c, jbu.sweep := w } := by
    intro c w hx hc
    refine ⟨⟨rfl, rfl, rfl, id, hx.ok, fun _ o => hx.wear o, ?_⟩, rfl, rfl, fun _ => rfl⟩
    simp only [State.withinCapacity, Bool.and_eq_true, decide_eq_true_eq]
    rintro ⟨⟨⟨h1, h2⟩, h3⟩, h4⟩
    refine ⟨⟨⟨h1, h2⟩, h3⟩, ?_⟩
    split
    · rename_i k
      rw [if_pos (hc k)] at h4
      exact h4
    · omega
  rw [h]
  exact e _ _ hx hc

/-- A change of the alert set. -/
theorem alerts {s t : State} (h : t = { s with orp.alerts := t.orp.alerts }) : Inner s t := by
  have e : ∀ a : Alerts, Inner s { s with orp.alerts := a } := fun a =>
    ⟨⟨rfl, rfl, rfl, id, id, fun _ _ _ => le_refl _, id⟩, rfl, rfl, fun _ => rfl⟩
  rw [h]
  exact e _

/-- A change of the sweep timer. -/
theorem sweep {s t : State} (h : t = { s with jbu.sweep := t.jbu.sweep }) : Inner s t := by
  have e : ∀ w : SweepTimer, Inner s { s with jbu.sweep := w } := fun w =>
    ⟨⟨rfl, rfl, rfl, id, id, fun _ _ _ => le_refl _, id⟩, rfl, rfl, fun _ => rfl⟩
  rw [h]
  exact e _

end Inner

/-- The work of the Job Unit is such work. -/
theorem JobWork.inner {s t : State} (h : JobWork s t) : Inner s t := by
  refine ⟨⟨h.pending, by rw [h.stc], by rw [h.stc], by rw [h.stc]; exact id, by rw [h.cme]; exact id, ?_, ?_⟩, h.mbu,
    h.liu, fun _ => h.ttu⟩
  · intro _ _ x
    rw [State.xp, State.xp, h.cme]
  · have e := congrArg Orp.orders h.orp
    simp only [State.withinCapacity, Bool.and_eq_true, decide_eq_true_eq, h.cme]
    rintro ⟨⟨⟨h1, h2⟩, h3⟩, h4⟩
    refine ⟨⟨⟨h.queue h1, h.jobs h2⟩, ?_⟩, h.reports h4⟩
    rw [e]
    exact h3

theorem RteWork.inner {s t : State} (h : RteWork s t) : Inner s t := h.job.inner

/-! ## The records (01) -/

theorem inner_modXp (x : Xp) (f : Crosspoint → Crosspoint) (s : State)
    (hl : ∀ c, c.lawful = true → (f c).lawful = true) (ho : ∀ c, c.isOpen = true → (f c).isOpen = true)
    (hw : ∀ c, c.lawful = true → c.wear ≤ (f c).wear) : Inner s (modXp x f s) :=
  Inner.cme rfl (XpsStep.modify _ x f hl ho hw) id

theorem inner_chargeWear (n : Nat) (x : Xp) (s : State) : Inner s (chargeWear n x s) := by
  have h : Inner s (modXp x (fun c => { c with wear := raiseWear c.wear n }) s) :=
    inner_modXp x _ s (fun _ o => lawful_raise o n) (fun _ o => o) fun _ o => le_raiseWear o n
  unfold chargeWear
  dsimp only
  split
  · exact h.trans (Inner.alerts rfl)
  · exact h

theorem inner_strayRule (s : State) : Inner s (strayRule s) := by
  unfold strayRule
  refine Inner.ite (fun _ => ?_) fun _ => Inner.refl s
  refine Inner.cme rfl (XpsStep.cells ?_ ?_ ?_) id <;> intro x <;> rw [Table.get_mapIdx]
  · exact fun o => lawful_strayMark o _
  · rw [isOpen_strayMark]
    exact id
  · rw [wear_strayMark]
    exact fun _ => le_refl _

theorem inner_strayPoint (s : State) : Inner s (strayPoint s) :=
  (inner_strayRule s).trans (jobWork_armedTest _).inner

theorem inner_settleSweepTimer (s : State) : Inner s (settleSweepTimer s) :=
  Inner.ite (fun _ => Inner.refl s) fun _ => Inner.sweep rfl

/-- An event that leaves no mark leaves no sweep timer (R143, "No marks"). -/
theorem settleSweepTimer_absent {s : State} (h : (settleSweepTimer s).anyMark = false) :
    (settleSweepTimer s).jbu.sweep = .absent := by
  unfold settleSweepTimer at h ⊢
  split at h
  · next hm => rw [hm] at h; cases h
  · next hm => rw [if_neg hm]

/-! ## Batch formation (R150, R151) -/

theorem jobWork_offerJobs (s : State) : JobWork s (offerJobs s) := JobWork.list rfl (by simp [offerJobs])

theorem inner_takeSweeps (s : State) : Inner s (takeSweeps s) := by
  unfold takeSweeps
  refine Inner.cme rfl (XpsStep.cells ?_ ?_ ?_) id <;> intro x <;> dsimp only <;> rw [Table.get_mapIdx] <;> split
  · exact lawful_unmark
  · exact id
  · exact id
  · exact id
  · exact fun _ => le_refl _
  · exact fun _ => le_refl _

theorem inner_gatherBatch (s : State) : Inner s (gatherBatch s) := by
  unfold gatherBatch
  dsimp only
  refine Inner.trans ?_ (jobWork_endJobs _ _).inner
  have h : ∀ (t : State) (w : List Xp), Inner t { t with cme.waiting := w } := fun t w => Inner.cme rfl (XpsStep.refl _) id
  refine Inner.trans ?_ (h _ _)
  refine Inner.trans ?_ (inner_takeSweeps _)
  refine Inner.trans ?_ (jobWork_offerJobs _).inner
  exact Inner.cme rfl (XpsStep.refl _) id

/-! ## The strokes (R5, R152, R153) -/

theorem inner_startDrive (engine : Engine) (s : State) : Inner s (startDrive engine s) :=
  Inner.cme rfl (XpsStep.refl _) id

theorem inner_endBatch (s : State) : Inner s (endBatch s) := Inner.cme rfl (XpsStep.refl _) id

theorem inner_driveOpen (j : Job) (x : Xp) (s : State) : Inner s (modXp x (Crosspoint.driveOpen j) s) :=
  inner_modXp x _ s (fun _ o => lawful_driveOpen o j) (fun c o => by rwa [isOpen_driveOpen])
    fun c _ => by rw [wear_driveOpen]

theorem inner_driveOwned (x : Xp) (s : State) : Inner s (modXp x Crosspoint.driveOwned s) :=
  inner_modXp x _ s (fun _ o => lawful_driveOwned o) (fun c o => by rwa [isOpen_driveOwned])
    fun c _ => by rw [wear_driveOwned]

theorem inner_openStroke (s : State) : Inner s (openStroke s) := by
  unfold openStroke
  refine Inner.trans ?_ (inner_startDrive _ _)
  refine Inner.trans (Inner.foldl (fun s j => inner_driveOpen j _ s) _ _) (Inner.foldl (fun s w => ?_) _ _)
  dsimp only
  split
  · exact (inner_driveOwned _ _).trans (inner_chargeWear _ _ _)
  · exact inner_driveOwned _ _

theorem inner_closeOne (j : Job) (s : State) : Inner s (closeOne j s) := by
  unfold closeOne
  refine Inner.ite (fun _ => Inner.ite (fun h => ?_) fun _ => ?_) fun _ => Inner.refl s
  · rw [Bool.and_eq_true, Bool.not_eq_true'] at h
    refine Inner.trans ?_ (inner_chargeWear _ _ _)
    exact Inner.cme rfl (xpsStep_driveClose h.1 h.2) id
  · exact ((jobWork_endJob _ _ _).trans (jobWork_exchange _)).inner

theorem inner_closeStroke (s : State) : Inner s (closeStroke s) := by
  unfold closeStroke
  dsimp only
  have h : ∀ l : List Job, Inner s (l.foldl (fun s j => closeOne j s) s) := fun l =>
    Inner.foldl (fun s j => inner_closeOne j s) l s
  split
  · refine Inner.trans ?_ (inner_startDrive _ _)
    exact (h _).trans (Inner.cme rfl (XpsStep.refl _) id)
  · refine Inner.trans ?_ (inner_endBatch _)
    exact (h _).trans (Inner.cme rfl (XpsStep.refl _) id)

theorem inner_formBatch (s : State) : Inner s (formBatch s) := by
  unfold formBatch
  dsimp only
  split
  · exact (inner_gatherBatch s).trans (inner_openStroke _)
  · split
    · exact (inner_gatherBatch s).trans (inner_closeStroke _)
    · exact (inner_gatherBatch s).trans (inner_endBatch _)

/-! ## CHECK and the chain fault -/

theorem inner_startCheck (s : State) : Inner s (startCheck s) := by
  refine Inner.cme rfl (XpsStep.refl _) ?_
  unfold startCheck enterEngine
  cases s.cme.check <;> simp

theorem inner_answerCheck (refused : Bool) (reason : Reason) (found : Option (Nat × BitVec 16)) (s : State) :
    Inner s (answerCheck refused reason found s) := by
  unfold answerCheck
  refine Inner.ite (fun h => ?_) fun _ => Inner.refl s
  refine ⟨⟨rfl, rfl, rfl, id, id, fun _ _ _ => le_refl _, ?_⟩, rfl, rfl, fun _ => rfl⟩
  unfold State.withinCapacity placeReport
  simp only [Bool.and_eq_true, decide_eq_true_eq, List.length_append, List.length_singleton, h, if_true,
    Option.isSome_none, Bool.false_eq_true, if_false]
  rintro ⟨⟨⟨h1, h2⟩, h3⟩, h4⟩
  exact ⟨⟨⟨h1, h2⟩, h3⟩, by omega⟩

theorem inner_refuseRunningCheck (s : State) : Inner s (refuseRunningCheck s) := by
  unfold refuseRunningCheck
  split
  · exact Inner.ite (fun _ => inner_answerCheck _ _ _ _) fun _ => Inner.refl s
  · exact Inner.refl s

theorem inner_driverClear (r : Nat) (s : State) : Inner s (driverClear r s) := by
  unfold driverClear
  exact Inner.cme rfl (xpsStep_cleared _) id

/-- The station state after a chain fault (R157). -/
theorem inner_faulted (s : State) : Inner s { s with stc.station := s.stc.station.faulted } := by
  refine ⟨⟨rfl, rfl, rfl, ?_, id, fun _ _ _ => le_refl _, id⟩, rfl, rfl, fun _ => rfl⟩
  dsimp only
  cases s.stc.station <;> simp [StationState.faulted]

theorem inner_chainFault (s : State) : Inner s (chainFault s) := by
  unfold chainFault
  dsimp only
  refine Inner.trans ?_ (inner_refuseRunningCheck _)
  refine Inner.trans ?_ (jobWork_sendAllDropped _ _).inner
  refine Inner.trans (t := endJobs Job.faultCode _) ?_ (Inner.sweep rfl)
  refine Inner.trans ?_ (jobWork_endJobs _ _).inner
  refine Inner.trans ?_ (jobWork_exchange _).inner
  refine Inner.trans ?_ (RteWork.foldl (fun s tag => rteWork_routeChainFault tag s) _ _).inner
  exact (inner_driverClear _ s).trans ((inner_faulted _).trans (Inner.alerts rfl))

/-! ## Pass ends and settle expiries -/

theorem inner_drivePassEnd (sin : PassBits) (s : State) : Inner s (drivePassEnd sin s) := by
  unfold drivePassEnd
  split
  · exact Inner.ite (fun _ => Inner.cme rfl (XpsStep.refl _) id) fun _ => inner_chainFault s
  · exact Inner.ite (fun _ => Inner.cme rfl (XpsStep.refl _) id) fun _ => inner_chainFault s
  · exact Inner.refl s

theorem inner_settleExpiry (during next : Engine) (s : State) : Inner s (settleExpiry during next s) :=
  Inner.ite (fun _ => Inner.cme rfl (XpsStep.refl _) id) fun _ => Inner.refl s

theorem inner_applySense {contacts : Image} {s : State} (h : lineConflict (sensedRecords contacts s.cme.xps) = false) :
    Inner s (applySense contacts s) := by
  unfold applySense
  exact Inner.cme rfl (xpsStep_sensed h) id

/-- The end of a pass that reads contacts, for a continuation that is such work when no line conflict stands. -/
theorem inner_senseEnd {sin : PassBits} {good : Image → State → State} {s : State}
    (h : ∀ contacts t, lineConflict (sensedRecords contacts t.cme.xps) = false → Inner t (good contacts t)) :
    Inner s (senseEnd sin good s) := by
  unfold senseEnd
  dsimp only
  have e : ∀ c : Image, Inner s { s with cme.sense := c } := fun c => Inner.cme rfl (XpsStep.refl _) id
  split
  · rename_i k
    rw [Bool.and_eq_true, Bool.not_eq_true'] at k
    exact (e _).trans (h _ _ k.2)
  · exact (e _).trans (inner_chainFault _)

theorem inner_openSenseGood {contacts : Image} {s : State}
    (h : lineConflict (sensedRecords contacts s.cme.xps) = false) : Inner s (openSenseGood contacts s) := by
  unfold openSenseGood
  dsimp only
  have a := (inner_applySense h).trans (jobWork_endJobs (applySense contacts s).openVerdict _).inner
  have b := a.trans (jobWork_sendAllDropped (s.droppedBy contacts) _).inner
  have e : ∀ t : State, Inner t { t with cme.sweeps := [] } := fun t => Inner.cme rfl (XpsStep.refl _) id
  split
  · exact (b.trans (e _)).trans (inner_closeStroke _)
  · exact (b.trans (e _)).trans (inner_endBatch _)

theorem inner_closeSenseGood {contacts : Image} {s : State}
    (h : lineConflict (sensedRecords contacts s.cme.xps) = false) : Inner s (closeSenseGood contacts s) :=
  (((inner_applySense h).trans (jobWork_endJobs _ _).inner).trans (jobWork_sendAllDropped _ _).inner).trans
    (inner_endBatch _)

theorem inner_checkGood {contacts : Image} {s : State}
    (h : lineConflict (sensedRecords contacts s.cme.xps) = false) : Inner s (checkGood contacts s) :=
  (((inner_applySense h).trans (jobWork_sendAllDropped _ _).inner).trans (inner_answerCheck _ _ _ _)).trans
    (inner_endBatch _)

theorem inner_openSensePassEnd (sin : PassBits) (s : State) : Inner s (openSensePassEnd sin s) :=
  Inner.ite (fun _ => inner_senseEnd fun _ _ h => inner_openSenseGood h) fun _ => Inner.refl s

theorem inner_closeSensePassEnd (sin : PassBits) (s : State) : Inner s (closeSensePassEnd sin s) :=
  Inner.ite (fun _ => inner_senseEnd fun _ _ h => inner_closeSenseGood h) fun _ => Inner.refl s

theorem inner_checkPassEnd (sin : PassBits) (s : State) : Inner s (checkPassEnd sin s) :=
  Inner.ite (fun _ => inner_senseEnd fun _ _ h => inner_checkGood h) fun _ => Inner.refl s

end Sys2Proof.Machine
end

