-- ==== Sys2Proof/Laws/Events.lean ====
section
/-! SUPPORT. What the end of an event does to a station at rest, and how an order is taken at its receipt. -/

namespace Sys2Proof.Machine

/-- The parts of `calm`. -/
theorem State.calm_iff (s : State) : s.calm = true ↔
    s.stc.resetHeld = false ∧ commitWork s = none ∧ placeNextReport s = none ∧ serveOrder s = none
      ∧ exchangeStep s = none ∧ (∀ tag, (s.route tag).timer = none ∨ (s.route tag).anyRequested = true)
      ∧ (s.anyMark = true ∨ s.jbu.sweep = .absent) := by
  simp only [State.calm, Bool.and_eq_true, Bool.not_eq_true', Option.isNone_iff_eq_none, Table.all_iff, Bool.or_eq_true,
    beq_iff_eq, State.route, and_assoc]

theorem commitWork_eq_none (s : State) : commitWork s = none ↔ s.checkDue = false ∧ s.formationDue = false := by
  unfold commitWork
  cases s.checkDue <;> cases s.formationDue <;> simp

theorem placeNextReport_eq_none (s : State) :
    placeNextReport s = none ↔ s.placeFree = false ∨ ∀ tag, (s.route tag).headReady = none := by
  unfold placeNextReport
  cases hp : s.placeFree with
  | false => simp
  | true =>
    simp only [if_true, Option.bind_eq_none_iff, Option.map_eq_none_iff, reduceCtorEq, false_or]
    constructor
    · intro h tag
      by_contra hn
      have hs : (allTags.find? fun tag => (s.route tag).headReady.isSome).isSome = true := by
        rw [List.find?_isSome]
        exact ⟨tag, List.mem_finRange tag, Option.isSome_iff_ne_none.2 hn⟩
      obtain ⟨x, hx⟩ := Option.isSome_iff_exists.1 hs
      have h1 := List.find?_some hx
      rw [h x hx] at h1
      simp at h1
    · intro h x _
      exact h x

theorem serveOrder_eq_none (s : State) : serveOrder s = none ↔ s.orp.orders = [] ∨ s.placeFree = false := by
  unfold serveOrder
  cases s.orp.orders with
  | nil => simp
  | cons o os => cases s.placeFree <;> simp

theorem exchangeStep_eq_none (s : State) :
    exchangeStep s = none ↔ s.rte.inbox = [] ∧ nextHandover s.rte.rounds = none := by
  unfold exchangeStep
  cases s.rte.inbox <;> simp

/-- `calm` in the fields that it looks at. -/
theorem State.calm_spec (s : State) : s.calm = true ↔
    s.stc.resetHeld = false ∧ (s.checkDue = false ∧ s.formationDue = false)
      ∧ (s.placeFree = false ∨ ∀ tag, (s.route tag).headReady = none)
      ∧ (s.orp.orders = [] ∨ s.placeFree = false) ∧ (s.rte.inbox = [] ∧ nextHandover s.rte.rounds = none)
      ∧ (∀ tag, (s.route tag).timer = none ∨ (s.route tag).anyRequested = true)
      ∧ (s.anyMark = true ∨ s.jbu.sweep = .absent) := by
  rw [State.calm_iff, commitWork_eq_none, placeNextReport_eq_none, serveOrder_eq_none, exchangeStep_eq_none]

/-- Whether a station is at rest depends on nothing but the fields named here. -/
theorem State.calm_congr {s t : State} (h1 : t.stc.resetHeld = s.stc.resetHeld) (h2 : t.cme = s.cme)
    (h3 : t.jbu = s.jbu) (h4 : t.rte.routes = s.rte.routes) (h5 : t.rte.inbox = s.rte.inbox)
    (h6 : t.rte.rounds = s.rte.rounds) (h7 : t.orp.orders = s.orp.orders) (h8 : t.orp.reports = s.orp.reports) :
    t.calm = s.calm := by
  rw [Bool.eq_iff_iff, State.calm_spec, State.calm_spec]
  have e1 : t.checkDue = s.checkDue := by unfold State.checkDue; rw [h2]
  have e2 : t.formationDue = s.formationDue := by
    have : t.eligible = s.eligible := by funext c; unfold State.eligible; rw [h3]
    unfold State.formationDue; rw [h2, h3, this]
  have e3 : t.placeFree = s.placeFree := by unfold State.placeFree; rw [h8, h2]
  have e4 : ∀ tag, t.route tag = s.route tag := fun tag => by unfold State.route; rw [h4]
  have e5 : t.anyMark = s.anyMark := by unfold State.anyMark; rw [h2]
  simp only [e1, e2, e3, e4, e5, h1, h3, h5, h6, h7]

/-- With the CME busy, and no CHECK due, nothing in the job list or in the marks starts work. -/
theorem formationDue_busy {s : State} (h : s.cme.engine ≠ .idle) : s.checkDue = false ∧ s.formationDue = false := by
  unfold State.checkDue State.formationDue
  have : (s.cme.engine == .idle) = false := by simpa using h
  simp [this]

theorem placeReports_of_none {s : State} (h : placeNextReport s = none) : placeReports s = s := by
  unfold placeReports Config.reportPlaces placeReportsN
  rw [h]

theorem exchange_of_none {s : State} (h : exchangeStep s = none) : exchange s = s := by
  unfold exchange Config.exchangeBound exchangeN
  rw [h]

theorem exchange_calm {s : State} (h : s.calm = true) : exchange s = s :=
  exchange_of_none ((State.calm_iff s).1 h).2.2.2.2.1

theorem pruneTimers_of {s : State} (h : ∀ tag, (s.route tag).timer = none ∨ (s.route tag).anyRequested = true) :
    pruneTimers s = s := by
  have e : s.rte.routes.mapIdx (fun _ r => if r.anyRequested then r else { r with timer := none }) = s.rte.routes := by
    apply Table.mapIdx_eq_self
    intro i
    have hi : (s.rte.routes.get i).timer = none ∨ (s.rte.routes.get i).anyRequested = true := h i
    generalize s.rte.routes.get i = r at hi ⊢
    cases hr : r.anyRequested with
    | true => simp
    | false =>
      rcases hi with hi | hi
      · obtain ⟨⟩ := r
        simp only at hi
        simp [hi]
      · simp [hr] at hi
  unfold pruneTimers
  rw [e]

theorem settleSweepTimer_of {s : State} (h : s.anyMark = true ∨ s.jbu.sweep = .absent) : settleSweepTimer s = s := by
  unfold settleSweepTimer
  rcases h with h | h
  · simp [h]
  · split
    · rfl
    · have e : { s with jbu.sweep := s.jbu.sweep } = s := rfl
      rwa [h] at e

/-- A station at rest has nothing to take. -/
theorem serveN_calm {s : State} (h : s.calm = true) (n : Nat) : serveN n s = s := by
  obtain ⟨_, hc, hp, ho, _, _, _⟩ := (State.calm_iff s).1 h
  cases n with
  | zero => exact placeReports_of_none hp
  | succ n => simp only [serveN, serveStep, hc, placeReports_of_none hp, ho]

/-- At rest the end of an event sets the pins and nothing else. -/
theorem afterEvent_calm {s : State} (h : s.calm = true) : afterEvent s = updatePins s := by
  obtain ⟨_, _, _, _, _, ht, hm⟩ := (State.calm_iff s).1 h
  rw [afterEvent, serveN_calm h, pruneTimers_of ht, settleSweepTimer_of hm]

/-- An event that leaves the station at rest. -/
theorem event_calm {f : State → State} {s : State} (hr : s.stc.resetHeld = false) (h : (f s).calm = true) :
    event f s = updatePins (f s) := by
  rw [event, hr, if_neg (by decide), afterEvent_calm h]

/-- An event whose own change `t` leaves the station at rest is that change and the pins. -/
theorem event_eq {f : State → State} {s t : State} (hr : s.stc.resetHeld = false) (e : f s = t) (h : t.calm = true) :
    event f s = updatePins t := by
  rw [event_calm hr (by rw [e]; exact h), e]

theorem resetHeld_of_calm {s : State} (h : s.calm = true) : s.stc.resetHeld = false := ((State.calm_iff s).1 h).1

/-- A busy CME stays at rest whatever happens to the job list, the link and the alerts. -/
theorem State.calm_of_busy {s t : State} (hs : s.calm = true) (h1 : t.stc.resetHeld = s.stc.resetHeld)
    (h2 : t.cme.engine ≠ .idle) (h3 : t.cme.xps = s.cme.xps) (h4 : t.cme.check = s.cme.check)
    (h5 : t.jbu.sweep = s.jbu.sweep) (h6 : t.rte.routes = s.rte.routes) (h7 : t.rte.inbox = s.rte.inbox)
    (h8 : t.rte.rounds = s.rte.rounds) (h9 : t.orp.orders = s.orp.orders) (h10 : t.orp.reports = s.orp.reports) :
    t.calm = true := by
  rw [State.calm_spec] at hs ⊢
  obtain ⟨a, -, b, c, d, e, f⟩ := hs
  have ep : t.placeFree = s.placeFree := by unfold State.placeFree; rw [h10, h4]
  have er : ∀ tag, t.route tag = s.route tag := fun tag => by unfold State.route; rw [h6]
  have em : t.anyMark = s.anyMark := by unfold State.anyMark; rw [h3]
  simp only [ep, er, em, h1, h5, h7, h8, h9]
  exact ⟨a, formationDue_busy h2, b, c, d, e, f⟩

/-- An order received by a station at rest with an empty order FIFO is taken at once (R176); when its effect leaves the
station at rest again, that effect and the pins are all that happens. -/
theorem afterEvent_order {s : State} {o : Order} (h : s.calmOrders = true) (ht : (takeOrder o s).calm = true) :
    afterEvent { s with orp.orders := [o] } = updatePins (takeOrder o s) := by
  simp only [State.calmOrders, Bool.and_eq_true, List.isEmpty_iff] at h
  obtain ⟨⟨hc, he⟩, hp⟩ := h
  obtain ⟨_, hw, hr, _, _, _, _⟩ := (State.calm_iff s).1 hc
  have hw' : commitWork { s with orp.orders := [o] } = none := by
    unfold commitWork at hw ⊢
    have e1 : State.checkDue { s with orp.orders := [o] } = s.checkDue := rfl
    have e2 : State.formationDue { s with orp.orders := [o] } = s.formationDue := rfl
    rw [e1, e2]
    split at hw
    · simp at hw
    · split at hw
      · simp at hw
      · rename_i h1 h2
        simp [h1, h2]
  have hr' : placeNextReport { s with orp.orders := [o] } = none := by
    unfold placeNextReport at hr ⊢
    have e1 : State.placeFree { s with orp.orders := [o] } = s.placeFree := rfl
    have e2 : ∀ t, State.route { s with orp.orders := [o] } t = s.route t := fun _ => rfl
    rw [e1]
    simp only [e2]
    rw [if_pos hp] at hr ⊢
    simp only [Option.bind_eq_none_iff, Option.map_eq_none_iff] at hr ⊢
    exact hr
  have hs : { s with orp.orders := [] } = s := by
    have e : { s with orp.orders := s.orp.orders } = s := rfl
    rwa [he] at e
  have ho : serveOrder { s with orp.orders := [o] } = some (takeOrder o s) := by
    have e1 : State.placeFree { s with orp.orders := [o] } = s.placeFree := rfl
    simp only [serveOrder, e1, hp, if_true]
    exact congrArg (fun t => some (takeOrder o t)) hs
  have hn : serveN Config.serviceBound { s with orp.orders := [o] } = takeOrder o s := by
    unfold Config.serviceBound
    rw [serveN]
    simp only [serveStep, hw', placeReports_of_none hr', ho]
    exact serveN_calm ht 63
  obtain ⟨_, _, _, _, _, hti, hma⟩ := (State.calm_iff _).1 ht
  rw [afterEvent, hn, pruneTimers_of hti, settleSweepTimer_of hma]

end Sys2Proof.Machine
end

