-- ==== Sys2Proof/Laws/Link.lean ====
section
/-! SUPPORT. What the operations of the link keep: all of them are `Sound`; those of the station's own slot and of the timers
leave both tables as they are (`OwnWork`), and those that take a frame's content leave the membership table and the slot
position as they are (`LinkWork`). -/

namespace Sys2Proof.Machine

/-- A change that touches neither the Commit Engine, nor the job list, nor the FIFOs, and makes the queue no longer. -/
theorem Sound.of {s t : State} (hp : t.pending = s.pending) (hh : t.stc.resetHeld = s.stc.resetHeld)
    (hs : t.stc.strap = s.stc.strap) (ho : s.stc.station ≠ .offline → t.stc.station ≠ .offline) (hc : t.cme = s.cme)
    (hj : t.jbu.jobs.length ≤ s.jbu.jobs.length) (hq : t.liu.queue.length ≤ s.liu.queue.length)
    (hr : t.orp.reports = s.orp.reports) (hd : t.orp.orders = s.orp.orders) : Sound s t := by
  refine ⟨hp, hh, hs, ho, by rw [hc]; exact id, fun _ _ x => by rw [State.xp, State.xp, hc], ?_⟩
  simp only [State.withinCapacity, Bool.and_eq_true, decide_eq_true_eq, hc, hr, hd]
  rintro ⟨⟨⟨h1, h2⟩, h3⟩, h4⟩
  exact ⟨⟨⟨hq.trans h1, hj.trans h2⟩, h3⟩, h4⟩

/-- The work of the own slot and of the timers: neither table changes outside OFFLINE. -/
structure OwnWork (s t : State) : Prop extends Sound s t where
  mbu : t.mbu = s.mbu
  ttu : s.stc.station ≠ .offline → t.ttu = s.ttu

theorem Inner.own {s t : State} (h : Inner s t) : OwnWork s t := ⟨h.toSound, h.mbu, h.ttu⟩
theorem JobWork.own {s t : State} (h : JobWork s t) : OwnWork s t := h.inner.own
theorem RteWork.own {s t : State} (h : RteWork s t) : OwnWork s t := h.inner.own

namespace OwnWork

theorem refl (s : State) : OwnWork s s := ⟨Sound.refl s, rfl, fun _ => rfl⟩

theorem trans {s t u : State} (h : OwnWork s t) (g : OwnWork t u) : OwnWork s u :=
  ⟨h.toSound.trans g.toSound, g.mbu.trans h.mbu, fun o => (g.ttu (h.online o)).trans (h.ttu o)⟩

theorem foldl {α : Type} {f : State → α → State} (h : ∀ s a, OwnWork s (f s a)) (l : List α) (s : State) :
    OwnWork s (l.foldl f s) := by
  induction l generalizing s with
  | nil => exact refl s
  | cons a l ih => exact (h s a).trans (ih _)

theorem ite {p : Prop} [Decidable p] {s t u : State} (h : p → OwnWork s t) (g : ¬p → OwnWork s u) :
    OwnWork s (if p then t else u) := by
  split
  · exact h ‹_›
  · exact g ‹_›

/-- A change of the link fields that makes the queue no longer. -/
theorem liu {s t : State} (h : t = { s with liu := t.liu }) (hq : t.liu.queue.length ≤ s.liu.queue.length) :
    OwnWork s t := by
  have e : ∀ l : Liu, l.queue.length ≤ s.liu.queue.length → OwnWork s { s with liu := l } := fun l hq =>
    ⟨Sound.of rfl rfl rfl id rfl (le_refl _) hq rfl rfl, rfl, fun _ => rfl⟩
  rw [h]
  exact e _ hq

end OwnWork

/-- The work on a frame's content: the membership table and the slot position stand. -/
structure LinkWork (s t : State) : Prop extends Sound s t where
  mbu : t.mbu = s.mbu
  pos : t.liu.pos = s.liu.pos

theorem Inner.link {s t : State} (h : Inner s t) : LinkWork s t := ⟨h.toSound, h.mbu, by rw [h.liu]⟩
theorem JobWork.link {s t : State} (h : JobWork s t) : LinkWork s t := h.inner.link
theorem RteWork.link {s t : State} (h : RteWork s t) : LinkWork s t := h.inner.link

namespace LinkWork

theorem refl (s : State) : LinkWork s s := ⟨Sound.refl s, rfl, rfl⟩

theorem trans {s t u : State} (h : LinkWork s t) (g : LinkWork t u) : LinkWork s u :=
  ⟨h.toSound.trans g.toSound, g.mbu.trans h.mbu, g.pos.trans h.pos⟩

theorem foldl {α : Type} {f : State → α → State} (h : ∀ s a, LinkWork s (f s a)) (l : List α) (s : State) :
    LinkWork s (l.foldl f s) := by
  induction l generalizing s with
  | nil => exact refl s
  | cons a l ih => exact (h s a).trans (ih _)

theorem ite {p : Prop} [Decidable p] {s t u : State} (h : p → LinkWork s t) (g : ¬p → LinkWork s u) :
    LinkWork s (if p then t else u) := by
  split
  · exact h ‹_›
  · exact g ‹_›

/-- A change of the trunk table unit and of what the station control and the alert set hold beside the station state. -/
theorem ttu {s t : State}
    (h : t = { s with ttu := t.ttu, stc.listenCount := t.stc.listenCount, stc.cycleError := t.stc.cycleError,
                      orp.alerts := t.orp.alerts }) : LinkWork s t := by
  have e : ∀ (w : Ttu) (a : Alerts) (n : Option Nat) (b : Bool),
      LinkWork s { s with ttu := w, stc.listenCount := n, stc.cycleError := b, orp.alerts := a } := fun w a n b =>
    ⟨Sound.of rfl rfl rfl id rfl (le_refl _) (le_refl _) rfl rfl, rfl, rfl⟩
  rw [h]
  exact e _ _ _ _

end LinkWork

/-! ## The trunk table (03, 04) -/

theorem linkWork_applyClaim (sender : Addr) (t : Trunk) (s : State) : LinkWork s (applyClaim sender t s).1 := by
  unfold applyClaim
  split
  · split
    · exact LinkWork.ttu rfl
    · exact LinkWork.refl s
  · exact LinkWork.refl s

theorem linkWork_applyRelease (sender : Addr) (t : Trunk) (s : State) : LinkWork s (applyRelease sender t s) :=
  LinkWork.ite (fun _ => LinkWork.ttu rfl) fun _ => LinkWork.refl s

theorem linkWork_applyQuarantine (sender : Addr) (t : Trunk) (s : State) :
    LinkWork s (applyQuarantine sender t s) :=
  LinkWork.ite (fun _ => LinkWork.ttu rfl) fun _ => LinkWork.refl s

theorem linkWork_contaminate (sender : Addr) (contacts : TrunkSet) (s : State) :
    LinkWork s (contaminate sender contacts s) :=
  LinkWork.ite (fun _ => LinkWork.ttu rfl) fun _ => LinkWork.refl s

theorem linkWork_drainOwner (a : Addr) (s : State) : LinkWork s (drainOwner a s) :=
  LinkWork.ite (fun _ => LinkWork.ttu rfl) fun _ => LinkWork.refl s

theorem linkWork_drainRule (s : State) : LinkWork s (drainRule s) :=
  LinkWork.ite (fun _ => LinkWork.ttu rfl) fun _ => LinkWork.ttu rfl

theorem linkWork_becomeStale (s : State) : LinkWork s (becomeStale s) := LinkWork.ttu rfl

theorem linkWork_linkError (s : State) : LinkWork s (linkError s) :=
  LinkWork.ite (fun _ => linkWork_becomeStale s) fun _ => LinkWork.refl s

theorem linkWork_compareHeader (f : Frame) (s : State) : LinkWork s (compareHeader f s) :=
  LinkWork.ite (fun _ => LinkWork.ite (fun _ => LinkWork.ttu rfl) fun _ =>
    LinkWork.ite (fun _ => linkWork_becomeStale s) fun _ => LinkWork.ttu rfl) fun _ => LinkWork.refl s

theorem linkWork_adoptTable (snapshot : TrunkTable) (s : State) : LinkWork s (adoptTable snapshot s) := LinkWork.ttu rfl

theorem linkWork_noteFrame (f : Frame) (s : State) : LinkWork s (noteFrame f s) := LinkWork.ttu rfl

theorem linkWork_noteListening (s : State) : LinkWork s (noteListening s) :=
  LinkWork.ite (fun _ => LinkWork.ttu rfl) fun _ => LinkWork.refl s

theorem linkWork_openRecord (s : State) : LinkWork s (openRecord s) := LinkWork.ttu rfl

/-! ## Link messages (R36) -/

theorem linkWork_takeClaim (sender : Addr) (t : Trunk) (tag : Tag) (gen : Gen) (leg : Fin 4) (s : State) :
    LinkWork s (takeClaim sender t tag gen leg s) := by
  unfold takeClaim
  refine LinkWork.ite (fun _ => ?_) fun _ => LinkWork.refl s
  dsimp only
  split
  · split
    · exact ((linkWork_applyClaim _ _ s).trans (rteWork_reportClaim _ _ _ _ _ _).link).trans (jobWork_exchange _).link
    · exact linkWork_applyClaim _ _ s
  · exact linkWork_applyClaim _ _ s

theorem linkWork_takeRelease (sender : Addr) (t : Trunk) (s : State) : LinkWork s (takeRelease sender t s) :=
  LinkWork.ite (fun _ => linkWork_applyRelease _ _ s) fun _ => LinkWork.refl s

theorem linkWork_takeQuarantine (sender : Addr) (t : Trunk) (s : State) : LinkWork s (takeQuarantine sender t s) :=
  LinkWork.ite (fun _ => linkWork_applyQuarantine _ _ s) fun _ => LinkWork.refl s

theorem jobWork_takeOperate (sender target : Addr) (q : JobRequest) (s : State) :
    JobWork s (takeOperate sender target q s) :=
  JobWork.ite (fun _ => (jobWork_intake _ s).trans (jobWork_exchange _)) fun _ => JobWork.refl s

theorem jobWork_takeResultMsg (target : Addr) (q : RouteResult) (s : State) : JobWork s (takeResultMsg target q s) :=
  JobWork.ite (fun _ => (jobWork_takeResult _ s).trans (jobWork_exchange _)) fun _ => JobWork.refl s

theorem jobWork_takeResultCommand (target : Addr) (q : RouteResult) (s : State) :
    JobWork s (takeResultCommand target q s) :=
  JobWork.ite (fun _ => (jobWork_takeResult _ s).trans (jobWork_exchange _)) fun _ => jobWork_takeResultMsg _ _ s

theorem jobWork_takeAbandonMsg (ref : RouteRef) (s : State) : JobWork s (takeAbandonMsg ref s) :=
  JobWork.ite (fun _ => jobWork_takeAbandon _ s) fun _ => JobWork.refl s

theorem jobWork_takePermitMsg (ref : RouteRef) (s : State) : JobWork s (takePermitMsg ref s) := by
  unfold takePermitMsg
  refine JobWork.ite (fun _ => ?_) fun _ => JobWork.refl s
  dsimp only
  split
  · exact (jobWork_takePermit _ s).trans (rteWork_routePermitted _ _ _).job
  · exact jobWork_takePermit _ s

theorem jobWork_takeFireMsg (ref : RouteRef) (s : State) : JobWork s (takeFireMsg ref s) := by
  unfold takeFireMsg
  refine JobWork.ite (fun _ => ?_) fun _ => JobWork.refl s
  dsimp only
  split
  · exact (jobWork_takeFire _ s).trans (rteWork_routeFired _ _ _).job
  · exact jobWork_takeFire _ s

theorem linkWork_dispatchMsg (sender : Addr) (m : LinkMsg) (s : State) : LinkWork s (dispatchMsg sender m s) := by
  cases m with
  | claim t tag gen leg => exact linkWork_takeClaim _ _ _ _ _ s
  | release t => exact linkWork_takeRelease _ _ s
  | quarantine t => exact linkWork_takeQuarantine _ _ s
  | operate a l t act tag gen q arm => exact (jobWork_takeOperate _ _ _ s).link
  | result a tag gen l t code => exact (jobWork_takeResultMsg _ _ s).link
  | abandon tag gen => exact (jobWork_takeAbandonMsg _ s).link
  | permit tag gen => exact (jobWork_takePermitMsg _ s).link
  | fire tag gen => exact (jobWork_takeFireMsg _ s).link

/-! ## Adoption (R70, R73) -/

theorem inner_adoptionEvent (s : State) : Inner s (adoptionEvent s) := by
  unfold adoptionEvent
  refine Inner.trans ?_ ((inner_strayPoint _).trans (inner_settleSweepTimer _))
  refine Inner.trans ?_ (jobWork_placeAllDeferred _).inner
  refine Inner.trans ?_ (jobWork_exchange _).inner
  exact ((((rteWork_resolveClaims s).trans (rteWork_damageUnheld _)).trans (rteWork_releaseOrphans _)).trans
    (rteWork_planAll _)).inner

/-- An adoption that leaves no mark leaves no sweep timer (R143, log 63). -/
theorem adoptionEvent_sweep {s : State} (h : (adoptionEvent s).anyMark = false) :
    (adoptionEvent s).jbu.sweep = .absent := by
  simp only [adoptionEvent] at h ⊢
  generalize strayPoint _ = t at h ⊢
  exact settleSweepTimer_absent h

theorem linkWork_adopt (snapshot : TrunkTable) (s : State) : LinkWork s (adopt snapshot s) :=
  (linkWork_adoptTable snapshot s).trans (inner_adoptionEvent _).link

/-! ## Membership (R61 to R63) -/

theorem sound_setMember (a : Addr) (m : Member) (s : State) : Sound s (setMember a m s) :=
  Sound.of rfl rfl rfl id rfl (le_refl _) (le_refl _) rfl rfl

theorem sound_takeHeader (f : Frame) (s : State) : Sound s (takeHeader f s) := by
  unfold takeHeader
  dsimp only
  have h : ∀ t : State, Sound t (postPeerJoined f.sender t) := fun t => (Inner.alerts rfl).toSound
  have r : ∀ t : State, Sound t (exchange (allTags.foldl (fun s tag => routeReturn f.sender f.joining tag s) t)) :=
    fun t => ((RteWork.foldl (fun s tag => rteWork_routeReturn _ _ tag s) _ t).job.trans
      (jobWork_exchange _)).inner.toSound
  split
  · refine Sound.trans ?_ (r _)
    split
    · exact (sound_setMember _ _ s).trans (h _)
    · exact sound_setMember _ _ s
  · split
    · exact (sound_setMember _ _ s).trans (h _)
    · exact sound_setMember _ _ s

theorem sound_declareAbsent (a : Addr) (s : State) : Sound s (declareAbsent a s) := by
  unfold declareAbsent
  extract_lets m b c d
  have hb : Sound s b := sound_setMember _ _ s
  have hc : Sound s c := Sound.ite (fun _ => hb) fun _ => hb.trans (Inner.alerts rfl).toSound
  have hd : Sound s d :=
    (hc.trans (linkWork_drainOwner a c).toSound).trans (jobWork_removeOrigin a _).inner.toSound
  refine Sound.ite (fun _ => hd) fun _ => Sound.trans ?_ (jobWork_exchange _).inner.toSound
  exact hd.trans (RteWork.foldl (fun s tag => rteWork_routeAbsence _ tag s) _ _).inner.toSound

theorem sound_emptySlot (a : Addr) (s : State) : Sound s (emptySlot a s) := by
  unfold emptySlot
  dsimp only
  split
  · exact Sound.ite (fun _ => sound_declareAbsent _ _) fun _ => sound_setMember _ _ s
  · exact Sound.refl s

/-- All that a good frame does after its header has reached the membership table. -/
theorem linkWork_afterHeader (pending : Bool) (f : Frame) (s : State) :
    LinkWork s
      (f.msgs.foldl (fun s m => dispatchMsg f.sender m s) (contaminate f.sender f.contacts
        (if pending && !f.stale && !(noteFrame f (compareHeader f s)).isSelf f.sender
          then adopt f.snapshot (noteFrame f (compareHeader f s)) else noteFrame f (compareHeader f s)))) := by
  have h := (linkWork_compareHeader f s).trans (linkWork_noteFrame f _)
  refine LinkWork.trans ?_ (LinkWork.foldl (fun s m => linkWork_dispatchMsg _ m s) _ _)
  refine LinkWork.trans ?_ (linkWork_contaminate _ _ _)
  split
  · exact h.trans (linkWork_adopt _ _)
  · exact h

theorem sound_dispatchGood (f : Frame) (s : State) : Sound s (dispatchGood f s) :=
  (sound_takeHeader f s).trans (linkWork_afterHeader s.ttu.pending f _).toSound

/-! ## Settlement of the own frame (R37) -/

theorem rteWork_settleMsg (m : LinkMsg) (s : State) : RteWork s (settleMsg m s) := by
  cases m with
  | operate a l t act tag gen q arm =>
    unfold settleMsg
    refine RteWork.trans ?_ (rteWork_setReplyTimer _ _ _)
    exact RteWork.rte rfl rfl
  | abandon tag gen => exact rteWork_setReplyTimer _ _ s
  | _ => exact RteWork.refl s

theorem rteWork_settleBadMsg (m : LinkMsg) (s : State) : RteWork s (settleBadMsg m s) := by
  cases m with
  | permit tag gen => exact rteWork_routePermitted _ _ s
  | fire tag gen => exact rteWork_routeFired _ _ s
  | _ =>
    unfold settleBadMsg
    exact rteWork_settleMsg _ s

theorem ownWork_settleGood (s : State) : OwnWork s (settleGood s) := by
  unfold settleGood
  refine OwnWork.trans ?_ (RteWork.foldl (fun s m => rteWork_settleMsg m s) _ _).own
  exact OwnWork.liu rfl (List.length_filter_le _ _)

/-- The kept messages and the waiting ones are no more than the queue held. -/
theorem settleBad_length (s : State) :
    (((s.inFlight.filter keptWhenBad).map fun m => (⟨m, false⟩ : QueueItem))
      ++ s.liu.queue.filter fun i => !i.inFlight).length ≤ s.liu.queue.length := by
  have h1 : ((s.inFlight.filter keptWhenBad).map fun m => (⟨m, false⟩ : QueueItem)).length
      ≤ (s.liu.queue.filter QueueItem.inFlight).length := by
    rw [List.length_map]
    exact (List.length_filter_le _ _).trans (by rw [State.inFlight, List.length_map])
  have h2 : (s.liu.queue.filter QueueItem.inFlight).length + (s.liu.queue.filter fun i => !i.inFlight).length
      = s.liu.queue.length := (List.length_eq_length_filter_add _).symm
  rw [List.length_append]
  omega

theorem ownWork_settleBad (s : State) : OwnWork s (settleBad s) := by
  unfold settleBad
  refine OwnWork.trans ?_ (RteWork.foldl (fun s m => rteWork_settleBadMsg m s) _ _).own
  exact OwnWork.liu rfl (settleBad_length s)

theorem ownWork_settleOwn (good : Bool) (s : State) : OwnWork s (settleOwn good s) := by
  unfold settleOwn
  refine OwnWork.trans ?_ ((jobWork_admit _).trans (jobWork_exchange _)).own
  exact OwnWork.ite (fun _ => ownWork_settleGood s) fun _ => ownWork_settleBad s

theorem ownWork_cutOwnSlot (s : State) : OwnWork s (cutOwnSlot s) := by
  unfold cutOwnSlot
  refine OwnWork.ite (fun _ => ?_) fun _ => OwnWork.refl s
  refine OwnWork.trans ?_ (ownWork_settleOwn _ _)
  exact OwnWork.liu rfl (le_refl _)

theorem ownWork_moveTo (slot : Slot) (bit : Nat) (s : State) : OwnWork s (moveTo slot bit s) := by
  unfold moveTo
  dsimp only
  have e : ∀ (p : Position) (t : State), OwnWork t { t with liu.pos := p } := fun p t => OwnWork.liu rfl (le_refl _)
  split
  · exact e _ s
  · exact (ownWork_cutOwnSlot s).trans (e _ _)

/-- The position after a move. -/
@[simp] theorem moveTo_pos (slot : Slot) (bit : Nat) (s : State) :
    (moveTo slot bit s).liu.pos = .at slot bit (s.heardSlot slot) := rfl

/-! ## Clash, frame ends -/

theorem sound_enterClash (s : State) : Sound s (enterClash s) := by
  unfold enterClash
  dsimp only
  refine Sound.trans ?_ (jobWork_clearJobs _).inner.toSound
  refine Sound.trans ?_ (RteWork.foldl (fun s tag => rteWork_routeClash tag s) _ _).inner.toSound
  exact Sound.of rfl rfl rfl (by simp [postClash]) rfl (le_refl _) (by simp [postClash]) rfl rfl

theorem linkWork_frameError (s : State) : LinkWork s (frameError s) := by
  unfold frameError
  exact LinkWork.trans (LinkWork.ttu rfl) (linkWork_linkError _)

theorem sound_listenOwnSlot (slot : Slot) (bits : FrameBits) (s : State) : Sound s (listenOwnSlot slot bits s) := by
  unfold listenOwnSlot
  split
  · exact (sound_emptySlot _ s).trans (inner_strayPoint _).toSound
  · exact (linkWork_frameError s).toSound.trans (sound_enterClash _)
  · exact sound_enterClash s

theorem ownWork_closeOwnSlot (garbled : Bool) (s : State) : OwnWork s (closeOwnSlot garbled s) :=
  OwnWork.liu rfl (le_refl _)

theorem sound_takeJudged (slot : Slot) (verdict : Judged) (s : State) : Sound s (takeJudged slot verdict s) := by
  unfold takeJudged
  split
  · exact sound_emptySlot _ s
  · exact (linkWork_frameError s).toSound
  · exact sound_dispatchGood _ s

theorem sound_goOnline (s : State) : Sound s (goOnline s) := by
  unfold goOnline
  refine Sound.ite (fun _ => ?_) fun _ => Sound.refl s
  refine Sound.trans ?_ ((rteWork_planAll _).job.trans (jobWork_exchange _)).inner.toSound
  exact Sound.of rfl rfl rfl (by simp) rfl (le_refl _) (le_refl _) rfl rfl

theorem sound_otherFrameEnd (slot : Slot) (bits : FrameBits) (s : State) : Sound s (otherFrameEnd slot bits s) := by
  unfold otherFrameEnd
  dsimp only
  split
  · exact sound_takeJudged _ _ s
  · exact (sound_takeJudged _ _ s).trans (inner_strayPoint _).toSound

theorem sound_ownFrameEnd (slot : Slot) (bits : FrameBits) (s : State) : Sound s (ownFrameEnd slot bits s) := by
  unfold ownFrameEnd
  extract_lets garbled verdict a b c d e
  have ha : Sound s a := (ownWork_closeOwnSlot garbled s).toSound
  have hb : Sound s b := ha.trans (sound_takeJudged _ _ _)
  have hc : Sound s c := Sound.ite (fun _ => hb.trans (ownWork_settleOwn _ _).toSound) fun _ => hb
  have hd : Sound s d := Sound.ite (fun _ => hc) fun _ => hc.trans (inner_strayPoint _).toSound
  have he : Sound s e := Sound.ite (fun _ => hd.trans (sound_goOnline _)) fun _ => hd
  exact Sound.ite (fun _ => he.trans (sound_enterClash _)) fun _ => he

theorem sound_takeFrameEnd (slot : Slot) (bits : FrameBits) (s : State) : Sound s (takeFrameEnd slot bits s) := by
  unfold takeFrameEnd
  dsimp only
  have h := (ownWork_moveTo slot 400 s).toSound
  refine Sound.ite (fun _ => Sound.ite (fun _ => Sound.ite (fun _ => Sound.ite (fun _ => ?_) fun _ => ?_) fun _ => ?_)
    fun _ => h) fun _ => Sound.refl s
  · exact h.trans (sound_listenOwnSlot _ _ _)
  · exact h.trans (sound_ownFrameEnd _ _ _)
  · exact h.trans (sound_otherFrameEnd _ _ _)

/-! ## Own slot start (R30, R40) -/

theorem ownWork_withdraw (i : QueueItem) (s : State) : OwnWork s (withdraw i s) := by
  unfold withdraw
  refine OwnWork.ite (fun _ => ?_) fun _ => OwnWork.refl s
  have e : OwnWork s { s with liu.queue := s.liu.queue.erase i } := OwnWork.liu rfl List.length_erase_le
  dsimp only
  split
  · exact e.trans ((rteWork_reportLostBeforeSend _ _ _ _ _).job.trans (jobWork_exchange _)).own
  · exact e

theorem ownWork_withdrawClaims (s : State) : OwnWork s (withdrawClaims s) :=
  OwnWork.foldl (fun s i => ownWork_withdraw i s) _ s

theorem markFirst_length (q : List QueueItem) : (markFirst q).length = q.length := by
  induction q with
  | nil => rfl
  | cons i is ih =>
    unfold markFirst
    split
    · rw [List.length_cons, ih, List.length_cons]
    · rfl

theorem ownWork_takeFirst (m : LinkMsg) (s : State) : OwnWork s (takeFirst m s) := by
  unfold takeFirst
  have e : OwnWork s { s with liu.queue := markFirst s.liu.queue } := OwnWork.liu rfl (markFirst_length _).le
  dsimp only
  split
  · exact e.trans (rteWork_markSent _ _ _ _ _).own
  · exact e

theorem ownWork_takeMessages (n : Nat) (s : State) : OwnWork s (takeMessages n s) := by
  induction n generalizing s with
  | zero => exact OwnWork.refl s
  | succ n ih =>
    unfold takeMessages
    refine OwnWork.ite (fun _ => OwnWork.refl s) fun _ => ?_
    split
    · exact OwnWork.refl s
    · exact OwnWork.ite (fun _ => (ownWork_withdraw _ s).trans (ih _)) fun _ => (ownWork_takeFirst _ s).trans (ih _)

theorem ownWork_fixFrame (s : State) : OwnWork s (fixFrame s) := OwnWork.liu rfl (le_refl _)

theorem ownWork_startOwnSlot (s : State) : OwnWork s (startOwnSlot s) := by
  unfold startOwnSlot
  refine OwnWork.trans ?_ (ownWork_fixFrame _)
  exact OwnWork.ite (fun _ => ((ownWork_withdrawClaims s).trans (jobWork_admit _).own).trans (ownWork_takeMessages _ _))
    fun _ => OwnWork.refl s

theorem ownWork_takeOwnSlotStart (s : State) : OwnWork s (takeOwnSlotStart s) := by
  unfold takeOwnSlotStart
  dsimp only
  refine OwnWork.ite (fun _ => OwnWork.ite (fun _ => ?_) fun _ => ownWork_moveTo _ _ s) fun _ => OwnWork.refl s
  exact (ownWork_moveTo _ _ s).trans (ownWork_startOwnSlot _)

/-! ## Slot boundaries and cycle marks -/

theorem ownWork_sampleTrig (trig : Bool) (s : State) : OwnWork s (sampleTrig trig s) := by
  unfold sampleTrig
  have e : OwnWork s { s with liu.trig := some trig } := OwnWork.liu rfl (le_refl _)
  exact OwnWork.ite (fun _ => e.trans (jobWork_takeTrigger _).own) fun _ => e

theorem ownWork_takeSlotBoundary (slot : Slot) (trig : Bool) (s : State) :
    OwnWork s (takeSlotBoundary slot trig s) := by
  unfold takeSlotBoundary
  dsimp only
  refine OwnWork.ite (fun _ => OwnWork.ite (fun _ => ?_) fun _ => ownWork_moveTo _ _ s) fun _ => OwnWork.refl s
  exact (ownWork_moveTo _ _ s).trans (ownWork_sampleTrig _ _)

theorem linkWork_endListeningTable (s : State) : LinkWork s (endListeningTable s) := by
  unfold endListeningTable
  refine LinkWork.ite (fun _ => LinkWork.refl s) fun _ => ?_
  split
  · exact linkWork_adopt _ s
  · exact LinkWork.ttu rfl

theorem linkWork_markTtu (overrun : Bool) (s : State) : LinkWork s (markTtu overrun s) := by
  unfold markTtu
  extract_lets a b count listening ends c d
  have ha : LinkWork s a := linkWork_noteListening s
  have hb : LinkWork s b := by
    unfold b
    split
    · exact ha.trans (linkWork_adopt _ _)
    · exact ha
  have hc : LinkWork s c := LinkWork.ite (fun _ => hb.trans (linkWork_endListeningTable _)) fun _ => hb
  have hd : LinkWork s d := hc.trans ((linkWork_drainRule _).trans (linkWork_openRecord _))
  refine hd.trans ⟨Sound.of rfl rfl rfl ?_ rfl (le_refl _) (le_refl _) rfl rfl, rfl, rfl⟩
  intro o
  dsimp only
  split
  · simp
  · exact o

theorem ownWork_markRte (s : State) : OwnWork s (markRte s) := by
  unfold markRte
  dsimp only
  refine OwnWork.trans (JobWork.own ?_) (OwnWork.foldl (fun s tag => OwnWork.ite (fun _ =>
    ((rteWork_expireReply tag s).job.trans (jobWork_exchange _)).own) fun _ => OwnWork.refl s) _ _)
  exact (rteWork_pruneTimers s).job.trans (JobWork.rte rfl)

theorem ownWork_markJbu (s : State) : OwnWork s (markJbu s) := by
  unfold markJbu
  refine OwnWork.trans ?_ (jobWork_countHotWaits _).own
  exact (Inner.sweep rfl).own

theorem sound_takeMark (overrun : Bool) (taker : MarkTaker) (s : State) : Sound s (takeMark overrun taker s) := by
  cases taker with
  | ttu => exact (linkWork_markTtu _ s).toSound
  | rte => exact (ownWork_markRte s).toSound
  | jbu => exact (ownWork_markJbu s).toSound
  | boundary trig => exact (ownWork_takeSlotBoundary _ _ s).toSound
  | ownStart => exact Sound.ite (fun _ => (ownWork_takeOwnSlotStart s).toSound) fun _ => Sound.refl s

theorem sound_takeCycleMark (lclk : Nat) (order : List MarkTaker) (s : State) :
    Sound s (takeCycleMark lclk order s) := by
  unfold takeCycleMark
  dsimp only
  have e : ∀ (p : Position) (t : State), OwnWork t { t with liu.pos := p } := fun p t => OwnWork.liu rfl (le_refl _)
  have h : Sound s { cutOwnSlot s with liu.pos := .at 0 0 (cutOwnSlot s).hears } :=
    ((ownWork_cutOwnSlot s).trans (e _ _)).toSound
  refine Sound.ite (fun _ => ?_) fun _ => h
  refine Sound.trans ?_ (Sound.foldl (fun s taker => sound_takeMark _ taker s) _ _)
  exact Sound.ite (fun _ => h.trans (linkWork_linkError _).toSound) fun _ => h

/-! ## Other link events -/

theorem ownWork_takeBeyondCycle (s : State) : OwnWork s (takeBeyondCycle s) := by
  unfold takeBeyondCycle
  have e : ∀ (p : Position) (t : State), OwnWork t { t with liu.pos := p } := fun p t => OwnWork.liu rfl (le_refl _)
  split
  · exact (ownWork_cutOwnSlot s).trans (e _ _)
  · exact OwnWork.refl s

theorem ownWork_takeDriveConflict (s : State) : OwnWork s (takeDriveConflict s) :=
  OwnWork.ite (fun _ => OwnWork.liu rfl (le_refl _)) fun _ => OwnWork.refl s

theorem sound_takeAbsence (a : Addr) (s : State) : Sound s (takeAbsence a s) :=
  Sound.ite (fun _ => (sound_declareAbsent a s).trans (inner_strayPoint _).toSound) fun _ => Sound.refl s

theorem linkWork_takeEndOfListening (s : State) : LinkWork s (takeEndOfListening s) :=
  LinkWork.ite (fun _ => linkWork_markTtu false s) fun _ => LinkWork.refl s

theorem sound_takeClash (s : State) : Sound s (takeClash s) :=
  Sound.ite (fun _ => sound_enterClash s) fun _ => Sound.refl s

theorem jobWork_takeAdmission (s : State) : JobWork s (takeAdmission s) :=
  JobWork.ite (fun _ => jobWork_admit s) fun _ => JobWork.refl s

/-- With no own slot in progress nothing is cut off. -/
theorem cutOwnSlot_of {s : State} (h : s.liu.ownSlot = false) : cutOwnSlot s = s := by
  unfold cutOwnSlot
  rw [h]
  rfl

/-- With no own slot in progress a move of the position is that move alone. -/
theorem moveTo_of {s : State} (h : s.liu.ownSlot = false) (k : Slot) (b : Nat) :
    moveTo k b s = { s with liu.pos := .at k b (s.heardSlot k) } := by
  unfold moveTo
  dsimp only
  rw [cutOwnSlot_of h]
  split <;> rfl

end Sys2Proof.Machine
end

