-- ==== Sys2Proof/Laws/Port.lean ====
section
/-! SUPPORT. What the orders, the bytes of the port, the resets and the end of an event keep. -/

namespace Sys2Proof.Machine

/-! ## Reports and answers -/

/-- A change of the alert set, the configuration record, the bytes of the port and the pins. -/
theorem Inner.port {s t : State}
    (h : t = { s with orp := { t.orp with orders := s.orp.orders, reports := s.orp.reports } }) : Inner s t := by
  have e : ∀ o : Orp, Inner s { s with orp := { o with orders := s.orp.orders, reports := s.orp.reports } } := fun o =>
    ⟨⟨rfl, rfl, rfl, id, id, fun _ _ _ => le_refl _, id⟩, rfl, rfl, fun _ => rfl⟩
  rw [h]
  exact e _

theorem inner_placeReport {s : State} (h : s.placeFree = true) (r : Report) : Inner s (placeReport r s) :=
  (rteWork_placeReport h r).inner

theorem inner_refuse {s : State} (h : s.placeFree = true) (code : Byte) (reason : Reason) :
    Inner s (refuse code reason s) := inner_placeReport h _

/-- An accepted order: its effect, which frees and takes no report place, and its ANSWER. -/
theorem inner_accept {s t : State} (h : Inner s t) (hp : t.placeFree = true) (code : Byte) :
    Inner s (accept code t) := h.trans (inner_placeReport hp _)

/-! ## Orders -/

theorem inner_orderConfigure {s : State} (h : s.placeFree = true) (p : List Byte) : Inner s (orderConfigure p s) := by
  unfold orderConfigure
  split
  · exact inner_refuse h _ _
  · refine Inner.ite (fun _ => inner_refuse h _ _) fun _ => ?_
    exact inner_accept (Inner.port rfl) (by exact h) _

theorem bytesNat_three (a b c : Byte) : bytesNat [a, b, c] ≤ Config.wearMax := by
  have ha := a.isLt
  have hb := b.isLt
  have hc := c.isLt
  simp only [bytesNat, List.foldl_cons, List.foldl_nil, Config.wearMax]
  omega

/-- The counts of a WEAR-LOAD are wear counts. -/
theorem threes_le (bs : List Byte) : ∀ n ∈ threes bs, n ≤ Config.wearMax := by
  induction bs using threes.induct with
  | case1 a b c rest ih =>
    intro n hn
    rw [threes, List.mem_cons] at hn
    rcases hn with rfl | hn
    · exact bytesNat_three a b c
    · exact ih n hn
  | case2 bs hbs =>
    intro n hn
    unfold threes at hn
    split at hn
    · rename_i a b c rest
      exact absurd rfl (hbs a b c rest)
    · cases hn

/-- The counts loaded keep the record laws. -/
theorem xpsOk_loadWear {s : State} {l : Line} {counts : List Nat} (h : ∀ n ∈ counts, n ≤ Config.wearMax)
    (o : XpsOk s.cme.xps) : XpsOk (loadWear l counts s).cme.xps := by
  have hl : ∀ x, ((loadWear l counts s).cme.xps.get x).state = (s.cme.xps.get x).state := by
    intro x
    unfold loadWear
    dsimp only
    rw [Table.get_mapIdx]
    split <;> rfl
  refine ⟨fun x => ?_, ?_⟩
  · have ox := o.1 x
    unfold loadWear
    dsimp only
    rw [Table.get_mapIdx]
    generalize s.cme.xps.get x = c at ox ⊢
    have hw : (counts[(xpTrunk x).val]?).getD c.wear ≤ Config.wearMax := by
      cases hc : counts[(xpTrunk x).val]? with
      | none => exact lawful_wear ox
      | some n => exact h n (List.mem_of_getElem? hc)
    split
    · obtain ⟨st, ow, qu, w, m⟩ := c
      simp only [Crosspoint.lawful, Bool.and_eq_true, decide_eq_true_eq] at ox hw ⊢
      exact ⟨hw, ox.2⟩
    · exact ox
  · have o2 := o.2
    rw [lineConflict_eq_false] at o2 ⊢
    intro x y hxy hx hy
    rw [isOpen_eq_false, hl] at hx hy
    exact o2 x y hxy ((isOpen_eq_false _).2 hx) ((isOpen_eq_false _).2 hy)

theorem parseWearLoad_le {p : List Byte} {l : Line} {counts : List Nat} (h : parseWearLoad p = some (l, counts)) :
    ∀ n ∈ counts, n ≤ Config.wearMax := by
  unfold parseWearLoad at h
  split at h
  · split at h
    · rw [Option.map_eq_some_iff] at h
      obtain ⟨_, _, h⟩ := h
      cases h
      exact threes_le _
    · cases h
  · cases h

theorem inner_orderWearLoad {s : State} (h : s.placeFree = true) (p : List Byte) : Inner s (orderWearLoad p s) := by
  unfold orderWearLoad
  split
  · exact inner_refuse h _ _
  · rename_i l counts hp
    refine Inner.ite (fun _ => inner_refuse h _ _) fun hs => ?_
    have off : s.stc.station = .offline := by simpa using hs
    have e : ∀ xps, (XpsOk s.cme.xps → XpsOk xps) → Inner s { s with cme.xps := xps } := fun xps k =>
      ⟨⟨rfl, rfl, rfl, id, k, fun o => absurd off o, id⟩, rfl, rfl, fun _ => rfl⟩
    have k : ∀ xps, State.placeFree { s with cme.xps := xps } = true := fun _ => h
    exact inner_accept (e _ (xpsOk_loadWear (parseWearLoad_le hp))) (k _) _

theorem inner_orderWearRead {s : State} (h : s.placeFree = true) (p : List Byte) : Inner s (orderWearRead p s) := by
  unfold orderWearRead
  split
  · exact inner_refuse h _ _
  · exact inner_placeReport h _

theorem inner_orderJoin {s : State} (h : s.placeFree = true) (p : List Byte) : Inner s (orderJoin p s) := by
  unfold orderJoin
  refine Inner.ite (fun _ => inner_refuse h _ _) fun _ => Inner.ite (fun _ => inner_refuse h _ _) fun hs =>
    Inner.ite (fun _ => inner_refuse h _ _) fun _ => Inner.ite (fun _ => inner_refuse h _ _) fun _ => ?_
  have off : s.stc.station = .offline := by simpa using hs
  have e : Inner s (startListening s) := by
    refine ⟨⟨rfl, rfl, rfl, fun _ => ?_, id, fun o => absurd off o, id⟩, rfl, rfl, fun o => absurd off o⟩
    simp [startListening]
  exact inner_accept e (by exact h) _

theorem inner_orderCheck {s : State} (h : s.placeFree = true) (p : List Byte) : Inner s (orderCheck p s) := by
  unfold orderCheck
  split
  · exact inner_refuse h _ _
  · refine Inner.ite (fun _ => inner_refuse h _ _) fun _ => Inner.ite (fun _ => inner_refuse h _ _) fun _ => ?_
    refine ⟨⟨rfl, rfl, rfl, id, id, fun _ _ _ => le_refl _, ?_⟩, rfl, rfl, fun _ => rfl⟩
    have hp : s.orp.reports.length + (if s.cme.check.isSome then 1 else 0) < Config.reportPlaces := by
      simpa [State.placeFree] using h
    simp only [State.withinCapacity, Bool.and_eq_true, decide_eq_true_eq, Option.isSome_some, if_true]
    rintro ⟨⟨⟨h1, h2⟩, h3⟩, _⟩
    exact ⟨⟨⟨h1, h2⟩, h3⟩, by omega⟩

/-- A change of the RTE's own fields. -/
theorem inner_modRoute (tag : Tag) (f : Route → Route) (s : State) : Inner s (modRoute tag f s) :=
  (rteWork_modRoute tag f s).inner

/-- The free value drawn changes the count of draws only. -/
theorem inner_draws (s : State) (n : Nat) : Inner s { s with draws := n } :=
  ⟨⟨rfl, rfl, rfl, id, id, fun _ _ _ => le_refl _, id⟩, rfl, rfl, fun _ => rfl⟩

theorem drawTag_snd (code : Byte) (p : List Byte) (s : State) :
    (drawTag code p s).2 = { s with draws := s.draws + 1 } := rfl

/-- The tag that a refused order names is found without a change but of the count of draws. -/
theorem namedTag_snd (code : Byte) (p : List Byte) (s : State) :
    ∃ n, (namedTag code p s).2 = { s with draws := n } := by
  unfold namedTag
  split
  · split
    · exact ⟨s.draws, rfl⟩
    · exact ⟨_, rfl⟩
  · exact ⟨_, rfl⟩

theorem makeTag_snd (p : List Byte) (s : State) : ∃ n, (makeTag p s).2 = { s with draws := n } := by
  unfold makeTag
  split
  · exact ⟨s.draws, rfl⟩
  · exact ⟨_, rfl⟩

theorem inner_acceptMake (o : MakeOrder) (s : State) : Inner s (acceptMake o s) := by
  unfold acceptMake
  dsimp only
  split
  · exact (inner_modRoute _ _ s).trans (rteWork_planStep _ _).inner
  · exact inner_modRoute _ _ s

theorem inner_orderRouteMake {s : State} (h : s.placeFree = true) (p : List Byte) : Inner s (orderRouteMake p s) := by
  unfold orderRouteMake
  split
  · obtain ⟨n, hn⟩ := makeTag_snd p s
    dsimp only
    rw [hn]
    exact (inner_draws s n).trans (inner_placeReport (by exact h) _)
  · split
    · exact inner_placeReport h _
    · exact inner_acceptMake _ s

theorem inner_startRepair (kind : OrderKind) (state : RouteState) (action : Action) (sel : Endpoint → Bool) (tag : Tag)
    (s : State) : Inner s (startRepair kind state action sel tag s) := by
  unfold startRepair
  dsimp only
  refine Inner.trans ?_ (jobWork_exchange _).inner
  refine Inner.trans ?_ (rteWork_testEnd _ _).inner
  refine Inner.trans ?_ (rteWork_makeRound _ _ _ _ _).inner
  exact (inner_modRoute _ _ s).trans (inner_modRoute _ _ _)

theorem inner_acceptBreak (tag : Tag) (s : State) : Inner s (acceptBreak tag s) := by
  unfold acceptBreak
  have h : Inner s (exchange (failMake tag .aborted (owe tag .brk s))) :=
    ((inner_modRoute _ _ s).trans (rteWork_failMake _ _ _).inner).trans (jobWork_exchange _).inner
  split
  · exact inner_modRoute _ _ s
  · exact h
  · exact h
  · exact h
  · exact inner_startRepair _ _ _ _ _ s

theorem inner_orderRouteBreak {s : State} (h : s.placeFree = true) (p : List Byte) :
    Inner s (orderRouteBreak p s) := by
  unfold orderRouteBreak
  split
  · obtain ⟨n, hn⟩ := namedTag_snd 0x11 p s
    dsimp only
    rw [hn]
    exact (inner_draws s n).trans (inner_placeReport (by exact h) _)
  · refine Inner.ite (fun _ => inner_placeReport h _) fun _ => ?_
    split
    · exact inner_placeReport h _
    · exact inner_acceptBreak _ s

theorem inner_orderRouteClear {s : State} (h : s.placeFree = true) (p : List Byte) :
    Inner s (orderRouteClear p s) := by
  unfold orderRouteClear
  split
  · obtain ⟨n, hn⟩ := namedTag_snd 0x12 p s
    dsimp only
    rw [hn]
    exact (inner_draws s n).trans (inner_placeReport (by exact h) _)
  · refine Inner.ite (fun _ => inner_placeReport h _) fun _ => ?_
    split
    · exact inner_placeReport h _
    · exact inner_startRepair _ _ _ _ _ s

theorem placeFree_rteSend {s : State} (h : s.placeFree = true) (owner : Option Tag) (m : LinkMsg) :
    (rteSend owner m s).placeFree = true := by
  unfold rteSend
  split
  · exact h
  · exact h

theorem inner_orderRouteFire {s : State} (h : s.placeFree = true) (p : List Byte) : Inner s (orderRouteFire p s) := by
  unfold orderRouteFire
  split
  · exact inner_refuse h _ _
  · refine Inner.ite (fun _ => inner_refuse h _ _) fun _ => Inner.ite (fun _ => inner_refuse h _ _) fun _ =>
      Inner.ite (fun _ => inner_refuse h _ _) fun _ => Inner.ite (fun _ => inner_refuse h _ _) fun _ => ?_
    exact inner_accept (rteWork_rteSend _ _ s).inner (placeFree_rteSend h _ _) _

theorem inner_orderRouteQuery {s : State} (h : s.placeFree = true) (p : List Byte) :
    Inner s (orderRouteQuery p s) := by
  unfold orderRouteQuery
  split
  · exact inner_refuse h _ _
  · exact inner_placeReport h _

theorem inner_orderAlertClear {s : State} (h : s.placeFree = true) (p : List Byte) :
    Inner s (orderAlertClear p s) := by
  unfold orderAlertClear
  split
  · exact inner_refuse h _ _
  · exact inner_accept (Inner.alerts rfl) (by exact h) _

/-- Every order, taken while a report place is free (R176). -/
theorem inner_takeOrder {s : State} (h : s.placeFree = true) (o : Order) : Inner s (takeOrder o s) := by
  unfold takeOrder
  refine Inner.ite (fun _ => inner_orderConfigure h _) fun _ => Inner.ite (fun _ => inner_orderWearLoad h _) fun _ =>
    Inner.ite (fun _ => inner_orderWearRead h _) fun _ => Inner.ite (fun _ => inner_orderJoin h _) fun _ =>
    Inner.ite (fun _ => inner_orderRouteMake h _) fun _ => Inner.ite (fun _ => inner_orderRouteBreak h _) fun _ =>
    Inner.ite (fun _ => inner_orderRouteClear h _) fun _ => Inner.ite (fun _ => inner_orderRouteFire h _) fun _ =>
    Inner.ite (fun _ => inner_orderRouteQuery h _) fun _ => Inner.ite (fun _ => ?_) fun _ =>
    Inner.ite (fun _ => ?_) fun _ => Inner.ite (fun _ => inner_orderAlertClear h _) fun _ =>
    Inner.ite (fun _ => inner_orderCheck h _) fun _ => inner_refuse h _ _
  · exact Inner.ite (fun _ => inner_placeReport h _) fun _ => inner_refuse h _ _
  · exact Inner.ite (fun _ => inner_placeReport h _) fun _ => inner_refuse h _ _

/-! ## The end of an event -/

theorem inner_commitWork {s t : State} (h : commitWork s = some t) : Inner s t := by
  unfold commitWork at h
  split at h
  · cases h
    exact inner_startCheck s
  · split at h
    · cases h
      exact inner_formBatch s
    · cases h

theorem inner_serveOrder {s t : State} (h : serveOrder s = some t) : Inner s t := by
  unfold serveOrder at h
  split at h
  · rename_i o os ho
    split at h
    · rename_i hp
      cases h
      have hl : os.length ≤ s.orp.orders.length := by rw [ho, List.length_cons]; omega
      have hp' : ({ s with orp.orders := os } : State).placeFree = true := hp
      refine Inner.trans ?_ (inner_takeOrder hp' o)
      refine ⟨⟨rfl, rfl, rfl, id, id, fun _ _ _ => le_refl _, ?_⟩, rfl, rfl, fun _ => rfl⟩
      simp only [State.withinCapacity, Bool.and_eq_true, decide_eq_true_eq]
      rintro ⟨⟨⟨h1, h2⟩, h3⟩, h4⟩
      exact ⟨⟨⟨h1, h2⟩, hl.trans h3⟩, h4⟩
    · cases h
  · cases h

theorem inner_serveStep {s t : State} (h : serveStep s = some t) : Inner s t := by
  unfold serveStep at h
  split at h
  · cases h
    exact inner_commitWork ‹_›
  · exact (rteWork_placeReports s).inner.trans (inner_serveOrder h)

theorem inner_serveN (n : Nat) (s : State) : Inner s (serveN n s) := by
  induction n generalizing s with
  | zero => exact (rteWork_placeReports s).inner
  | succ n ih =>
    unfold serveN
    split
    · exact (inner_serveStep ‹_›).trans (ih _)
    · exact (rteWork_placeReports s).inner

theorem inner_updatePins (s : State) : Inner s (updatePins s) := Inner.port rfl

/-- The end of an event. -/
theorem inner_afterEvent (s : State) : Inner s (afterEvent s) :=
  (((inner_serveN _ s).trans (rteWork_pruneTimers _).inner).trans (inner_settleSweepTimer _)).trans
    (inner_updatePins _)

/-- An event whose own work is `Sound`. -/
theorem sound_event {f : State → State} {s : State} (h : Sound s (f s)) : Sound s (event f s) := by
  unfold event
  exact Sound.ite (fun _ => Sound.refl s) fun _ => h.trans (inner_afterEvent _).toSound

/-- An event whose own work is `Inner`. -/
theorem inner_event {f : State → State} {s : State} (h : Inner s (f s)) : Inner s (event f s) := by
  unfold event
  exact Inner.ite (fun _ => Inner.refl s) fun _ => h.trans (inner_afterEvent _)

/-- The pins after `updatePins` stand at their levels. -/
theorem pinsAtLevel_updatePins (s : State) : (updatePins s).pinsAtLevel = true := by
  have h1 : (updatePins s).readyLevel = s.readyLevel := rfl
  have h2 : (updatePins s).srqLevel = s.srqLevel := rfl
  simp only [State.pinsAtLevel, h1, h2]
  simp [updatePins]

theorem pinsAtLevel_afterEvent (s : State) : (afterEvent s).pinsAtLevel = true := pinsAtLevel_updatePins _

theorem pinsAtLevel_event {f : State → State} {s : State} (h : s.pinsAtLevel = true) :
    (event f s).pinsAtLevel = true := by
  unfold event
  split
  · exact h
  · exact pinsAtLevel_afterEvent _

/-! ## Resets and the bytes of the port -/

theorem xpsOk_fill : XpsOk (Table.fill 512 Crosspoint.reset) := by
  refine ⟨fun x => ?_, ?_⟩
  · rw [Table.get_fill]
    rfl
  · rw [lineConflict_eq_false]
    intro x y _ hx _
    rw [Table.get_fill] at hx
    cases hx

/-- What an event keeps that may be a RESTART: afterwards the station is on the link as it was, or at rest. -/
structure Taken (s t : State) : Prop where
  pending : t.pending = s.pending
  records : XpsOk s.cme.xps → XpsOk t.cme.xps
  wear : s.stc.station ≠ .offline → XpsOk s.cme.xps → ∀ x, (s.xp x).wear ≤ (t.xp x).wear
  within : s.withinCapacity = true → t.withinCapacity = true
  rest : (s.stc.station ≠ .offline → t.stc.station ≠ .offline) ∨ t.calm = true

theorem Sound.taken {s t : State} (h : Sound s t) : Taken s t :=
  ⟨h.pending, h.records, h.wear, h.within, Or.inl h.online⟩

/-- The end of an event after such work. -/
theorem taken_event {f : State → State} {s : State} (h : Taken s (f s)) : Taken s (event f s) := by
  unfold event
  split
  · exact (Sound.refl s).taken
  · have a := (inner_afterEvent (f s)).toSound
    refine ⟨a.pending.trans h.pending, fun o => a.records (h.records o), fun o k x => ?_, fun o => a.within (h.within o),
      ?_⟩
    · rcases h.rest with g | g
      · exact (h.wear o k x).trans (a.wear (g o) (h.records k) x)
      · rw [afterEvent_calm g]
        exact h.wear o k x
    · rcases h.rest with g | g
      · exact Or.inl fun o => a.online (g o)
      · right
        rw [afterEvent_calm g]
        rw [← g]
        exact State.calm_congr rfl rfl rfl rfl rfl rfl rfl rfl

/-- A station just restarted has nothing to do. -/
theorem calm_restart (straps : Fin 32) (s : State) : (restart straps s).calm = true := by
  rw [State.calm_spec]
  refine ⟨rfl, ⟨rfl, rfl⟩, Or.inr fun tag => ?_, Or.inl rfl, ⟨rfl, rfl⟩, fun tag => Or.inl ?_, Or.inr rfl⟩
  · have : (restart straps s).route tag = Route.idle := Table.get_fill _ _
    rw [this]
    rfl
  · have : (restart straps s).route tag = Route.idle := Table.get_fill _ _
    rw [this]
    rfl

theorem taken_restart (straps : Fin 32) (s : State) : Taken s (restart straps s) := by
  have hx : (restart straps s).cme.xps = s.cme.xps.mapIdx fun _ c => c.enterOpen := rfl
  refine ⟨rfl, fun o => ?_, fun _ o x => ?_, fun _ => ?_, Or.inr (calm_restart straps s)⟩
  · rw [hx]
    exact (xpsStep_cleared _).ok o
  · rw [State.xp, State.xp, hx]
    exact (xpsStep_cleared _).wear o x
  · simp [State.withinCapacity, restart, carryOver, State.reset, Config.reportPlaces]

/-- Bytes of the port that bring no order to its end change the Order Port only. -/
theorem sound_completeOrder (code : Byte) (payload : List Byte) (overrun : Bool) (s : State) :
    Sound s (completeOrder code payload overrun s) := by
  unfold completeOrder
  dsimp only
  split
  · exact (Inner.port rfl).toSound
  · rename_i h
    refine ⟨rfl, rfl, rfl, id, id, fun _ _ _ => le_refl _, ?_⟩
    have hf : s.orp.orders.length < Config.orderPlaces := by
      simp only [Bool.or_eq_true, not_or, Bool.not_eq_true] at h
      simpa [State.fifoFull] using h.2
    simp only [State.withinCapacity, Bool.and_eq_true, decide_eq_true_eq, List.length_append, List.length_singleton]
    rintro ⟨⟨⟨h1, h2⟩, _⟩, h4⟩
    exact ⟨⟨⟨h1, h2⟩, by omega⟩, h4⟩

theorem sound_continueOrder (rx : Reception) (s : State) : Sound s (continueOrder rx s) := (Inner.port rfl).toSound

theorem taken_receiveByte (b : Byte) (straps : Fin 32) (s : State) : Taken s (receiveByte b straps s) := by
  unfold receiveByte
  split
  · split
    · exact (Sound.refl s).taken
    · exact (sound_continueOrder _ s).taken
  · split
    · exact (Inner.port rfl).toSound.taken
    · split
      · split
        · exact taken_restart _ s
        · exact (sound_completeOrder _ _ _ s).taken
      · exact (sound_continueOrder _ s).taken
  · split
    · exact (sound_completeOrder _ _ _ s).taken
    · exact (sound_continueOrder _ s).taken
  · exact (Sound.refl s).taken

theorem sound_removeHead (s : State) : Sound s (removeHead s) := by
  refine ⟨rfl, rfl, rfl, id, id, fun _ _ _ => le_refl _, ?_⟩
  unfold State.withinCapacity removeHead
  simp only [Bool.and_eq_true, decide_eq_true_eq, List.length_tail]
  rintro ⟨⟨⟨h1, h2⟩, h3⟩, h4⟩
  exact ⟨⟨⟨h1, h2⟩, h3⟩, by omega⟩

theorem sound_sendByte (startedEmpty : Bool) (s : State) : Sound s (sendByte startedEmpty s) := by
  unfold sendByte
  split
  · split
    · exact (Inner.port rfl).toSound
    · dsimp only
      split
      · exact Sound.trans (Inner.port rfl).toSound (sound_removeHead _)
      · exact (Inner.port rfl).toSound
  · exact (Inner.port rfl).toSound

theorem taken_exchangeByte (b : Byte) (startedEmpty : Bool) (straps : Fin 32) (s : State) :
    Taken s (exchangeByte b startedEmpty straps s) := by
  unfold exchangeByte
  split
  · have h := sound_sendByte startedEmpty s
    have g := taken_receiveByte b straps (sendByte startedEmpty s)
    dsimp only
    refine ⟨g.pending.trans h.pending, fun o => g.records (h.records o),
      fun o k x => (h.wear o k x).trans (g.wear (h.online o) (h.records k) x), fun o => g.within (h.within o), ?_⟩
    rcases g.rest with r | r
    · exact Or.inl fun o => r (h.online o)
    · right
      rw [← r]
      exact State.calm_congr rfl rfl rfl rfl rfl rfl rfl rfl
  · exact (Sound.refl s).taken

/-- An order that arrives whole. -/
theorem taken_receiveOrder (code : Byte) (payload : List Byte) (straps : Fin 32) (s : State) :
    Taken s (receiveOrder code payload straps s) := by
  unfold receiveOrder
  split
  · exact (Inner.alerts rfl).toSound.taken
  · split
    · exact taken_restart _ s
    · split
      · exact (Inner.alerts rfl).toSound.taken
      · rename_i h
        refine Sound.taken ⟨rfl, rfl, rfl, id, id, fun _ _ _ => le_refl _, ?_⟩
        have hf : s.orp.orders.length < Config.orderPlaces := by
          simp only [Bool.not_eq_true] at h
          simpa [State.fifoFull] using h
        simp only [State.withinCapacity, Bool.and_eq_true, decide_eq_true_eq, List.length_append, List.length_singleton]
        rintro ⟨⟨⟨h1, h2⟩, _⟩, h4⟩
        exact ⟨⟨⟨h1, h2⟩, by omega⟩, h4⟩

theorem inner_cutOrder (s : State) : Inner s (cutOrder s) :=
  Inner.ite (fun _ => Inner.port rfl) fun _ => Inner.refl s

theorem inner_endSelect (s : State) : Inner s (endSelect s) :=
  Inner.ite (fun _ => Inner.ite (fun _ => Inner.port rfl) fun _ => Inner.port rfl) fun _ => Inner.refl s

theorem inner_startSelect (s : State) : Inner s (startSelect s) :=
  Inner.ite (fun _ => Inner.refl s) fun _ => Inner.port rfl

theorem sound_shiftedOut (s : State) : Sound s (shiftedOut s) :=
  Sound.ite (fun _ => Sound.refl s) fun _ => sound_removeHead s

/-- The station after a power-on reset. -/
theorem powerOn_within (straps : Fin 32) (quiet : BitVec 4) (s : State) :
    (powerOn straps quiet s).withinCapacity = true := by
  simp [State.withinCapacity, powerOn, carryOver, State.reset]

theorem powerOn_xpsOk (straps : Fin 32) (quiet : BitVec 4) (s : State) : XpsOk (powerOn straps quiet s).cme.xps :=
  xpsOk_fill

theorem holdReset_within (s : State) : (holdReset s).withinCapacity = true := by
  simp [State.withinCapacity, holdReset, carryOver, State.reset]

theorem holdReset_xpsOk (s : State) : XpsOk (holdReset s).cme.xps := xpsOk_fill

end Sys2Proof.Machine
end

