-- ==== Sys2Proof/Laws/State.lean ====
section
/-! SUPPORT. The fields of the state after each named update, one lemma for each field, true by definition. -/

namespace Sys2Proof.Machine

variable (s : State)


/-! ### modXp -/

@[simp] theorem modXp_stc (x : Xp) (f : Crosspoint → Crosspoint) : (modXp x f s).stc = s.stc := rfl
@[simp] theorem modXp_liu (x : Xp) (f : Crosspoint → Crosspoint) : (modXp x f s).liu = s.liu := rfl
@[simp] theorem modXp_mbu (x : Xp) (f : Crosspoint → Crosspoint) : (modXp x f s).mbu = s.mbu := rfl
@[simp] theorem modXp_ttu (x : Xp) (f : Crosspoint → Crosspoint) : (modXp x f s).ttu = s.ttu := rfl
@[simp] theorem modXp_rte (x : Xp) (f : Crosspoint → Crosspoint) : (modXp x f s).rte = s.rte := rfl
@[simp] theorem modXp_jbu (x : Xp) (f : Crosspoint → Crosspoint) : (modXp x f s).jbu = s.jbu := rfl
@[simp] theorem modXp_cme_xps (x : Xp) (f : Crosspoint → Crosspoint) :
    (modXp x f s).cme.xps = s.cme.xps.modify x f := rfl
@[simp] theorem modXp_cme_drive (x : Xp) (f : Crosspoint → Crosspoint) : (modXp x f s).cme.drive = s.cme.drive := rfl
@[simp] theorem modXp_cme_sense (x : Xp) (f : Crosspoint → Crosspoint) : (modXp x f s).cme.sense = s.cme.sense := rfl
@[simp] theorem modXp_cme_coils (x : Xp) (f : Crosspoint → Crosspoint) : (modXp x f s).cme.coils = s.cme.coils := rfl
@[simp] theorem modXp_cme_dout (x : Xp) (f : Crosspoint → Crosspoint) : (modXp x f s).cme.dout = s.cme.dout := rfl
@[simp] theorem modXp_cme_engine (x : Xp) (f : Crosspoint → Crosspoint) : (modXp x f s).cme.engine = s.cme.engine := rfl
@[simp] theorem modXp_cme_settle (x : Xp) (f : Crosspoint → Crosspoint) : (modXp x f s).cme.settle = s.cme.settle := rfl
@[simp] theorem modXp_cme_sweeps (x : Xp) (f : Crosspoint → Crosspoint) : (modXp x f s).cme.sweeps = s.cme.sweeps := rfl
@[simp] theorem modXp_cme_waiting (x : Xp) (f : Crosspoint → Crosspoint) :
    (modXp x f s).cme.waiting = s.cme.waiting := rfl
@[simp] theorem modXp_cme_check (x : Xp) (f : Crosspoint → Crosspoint) : (modXp x f s).cme.check = s.cme.check := rfl
@[simp] theorem modXp_orp (x : Xp) (f : Crosspoint → Crosspoint) : (modXp x f s).orp = s.orp := rfl
@[simp] theorem modXp_draws (x : Xp) (f : Crosspoint → Crosspoint) : (modXp x f s).draws = s.draws := rfl
@[simp] theorem modXp_pending (x : Xp) (f : Crosspoint → Crosspoint) : (modXp x f s).pending = s.pending := rfl

/-! ### modRoute -/

@[simp] theorem modRoute_stc (tag : Tag) (f : Route → Route) : (modRoute tag f s).stc = s.stc := rfl
@[simp] theorem modRoute_liu (tag : Tag) (f : Route → Route) : (modRoute tag f s).liu = s.liu := rfl
@[simp] theorem modRoute_mbu (tag : Tag) (f : Route → Route) : (modRoute tag f s).mbu = s.mbu := rfl
@[simp] theorem modRoute_ttu (tag : Tag) (f : Route → Route) : (modRoute tag f s).ttu = s.ttu := rfl
@[simp] theorem modRoute_rte_routes (tag : Tag) (f : Route → Route) :
    (modRoute tag f s).rte.routes = s.rte.routes.modify tag f := rfl
@[simp] theorem modRoute_rte_held (tag : Tag) (f : Route → Route) : (modRoute tag f s).rte.held = s.rte.held := rfl
@[simp] theorem modRoute_rte_rounds (tag : Tag) (f : Route → Route) :
    (modRoute tag f s).rte.rounds = s.rte.rounds := rfl
@[simp] theorem modRoute_rte_inbox (tag : Tag) (f : Route → Route) : (modRoute tag f s).rte.inbox = s.rte.inbox := rfl
@[simp] theorem modRoute_jbu (tag : Tag) (f : Route → Route) : (modRoute tag f s).jbu = s.jbu := rfl
@[simp] theorem modRoute_cme (tag : Tag) (f : Route → Route) : (modRoute tag f s).cme = s.cme := rfl
@[simp] theorem modRoute_orp (tag : Tag) (f : Route → Route) : (modRoute tag f s).orp = s.orp := rfl
@[simp] theorem modRoute_draws (tag : Tag) (f : Route → Route) : (modRoute tag f s).draws = s.draws := rfl
@[simp] theorem modRoute_pending (tag : Tag) (f : Route → Route) : (modRoute tag f s).pending = s.pending := rfl

/-! ### dropUnsent -/

@[simp] theorem dropUnsent_stc (p : LinkMsg → Bool) : (dropUnsent p s).stc = s.stc := rfl
@[simp] theorem dropUnsent_liu_pos (p : LinkMsg → Bool) : (dropUnsent p s).liu.pos = s.liu.pos := rfl
@[simp] theorem dropUnsent_liu_ownSlot (p : LinkMsg → Bool) : (dropUnsent p s).liu.ownSlot = s.liu.ownSlot := rfl
@[simp] theorem dropUnsent_liu_frame (p : LinkMsg → Bool) : (dropUnsent p s).liu.frame = s.liu.frame := rfl
@[simp] theorem dropUnsent_liu_garbled (p : LinkMsg → Bool) : (dropUnsent p s).liu.garbled = s.liu.garbled := rfl
@[simp] theorem dropUnsent_liu_conflicts (p : LinkMsg → Bool) : (dropUnsent p s).liu.conflicts = s.liu.conflicts := rfl
@[simp] theorem dropUnsent_liu_queue (p : LinkMsg → Bool) :
    (dropUnsent p s).liu.queue = s.liu.queue.filter fun i => i.inFlight || !p i.msg := rfl
@[simp] theorem dropUnsent_liu_trig (p : LinkMsg → Bool) : (dropUnsent p s).liu.trig = s.liu.trig := rfl
@[simp] theorem dropUnsent_mbu (p : LinkMsg → Bool) : (dropUnsent p s).mbu = s.mbu := rfl
@[simp] theorem dropUnsent_ttu (p : LinkMsg → Bool) : (dropUnsent p s).ttu = s.ttu := rfl
@[simp] theorem dropUnsent_rte_routes (p : LinkMsg → Bool) : (dropUnsent p s).rte.routes = s.rte.routes := rfl
@[simp] theorem dropUnsent_rte_held (p : LinkMsg → Bool) :
    (dropUnsent p s).rte.held = s.rte.held.filter fun h => !p h.msg := rfl
@[simp] theorem dropUnsent_rte_rounds (p : LinkMsg → Bool) : (dropUnsent p s).rte.rounds = s.rte.rounds := rfl
@[simp] theorem dropUnsent_rte_inbox (p : LinkMsg → Bool) : (dropUnsent p s).rte.inbox = s.rte.inbox := rfl
@[simp] theorem dropUnsent_jbu (p : LinkMsg → Bool) : (dropUnsent p s).jbu = s.jbu := rfl
@[simp] theorem dropUnsent_cme (p : LinkMsg → Bool) : (dropUnsent p s).cme = s.cme := rfl
@[simp] theorem dropUnsent_orp (p : LinkMsg → Bool) : (dropUnsent p s).orp = s.orp := rfl
@[simp] theorem dropUnsent_draws (p : LinkMsg → Bool) : (dropUnsent p s).draws = s.draws := rfl
@[simp] theorem dropUnsent_pending (p : LinkMsg → Bool) : (dropUnsent p s).pending = s.pending := rfl

/-! ### placeReport -/

@[simp] theorem placeReport_stc (r : Report) : (placeReport r s).stc = s.stc := rfl
@[simp] theorem placeReport_liu (r : Report) : (placeReport r s).liu = s.liu := rfl
@[simp] theorem placeReport_mbu (r : Report) : (placeReport r s).mbu = s.mbu := rfl
@[simp] theorem placeReport_ttu (r : Report) : (placeReport r s).ttu = s.ttu := rfl
@[simp] theorem placeReport_rte (r : Report) : (placeReport r s).rte = s.rte := rfl
@[simp] theorem placeReport_jbu (r : Report) : (placeReport r s).jbu = s.jbu := rfl
@[simp] theorem placeReport_cme (r : Report) : (placeReport r s).cme = s.cme := rfl
@[simp] theorem placeReport_orp_selected (r : Report) : (placeReport r s).orp.selected = s.orp.selected := rfl
@[simp] theorem placeReport_orp_rx (r : Report) : (placeReport r s).orp.rx = s.orp.rx := rfl
@[simp] theorem placeReport_orp_gap (r : Report) : (placeReport r s).orp.gap = s.orp.gap := rfl
@[simp] theorem placeReport_orp_orders (r : Report) : (placeReport r s).orp.orders = s.orp.orders := rfl
@[simp] theorem placeReport_orp_reports (r : Report) : (placeReport r s).orp.reports = s.orp.reports ++ [r] := rfl
@[simp] theorem placeReport_orp_sent (r : Report) : (placeReport r s).orp.sent = s.orp.sent := rfl
@[simp] theorem placeReport_orp_sdo (r : Report) : (placeReport r s).orp.sdo = s.orp.sdo := rfl
@[simp] theorem placeReport_orp_alerts (r : Report) : (placeReport r s).orp.alerts = s.orp.alerts := rfl
@[simp] theorem placeReport_orp_config (r : Report) : (placeReport r s).orp.config = s.orp.config := rfl
@[simp] theorem placeReport_orp_ready (r : Report) : (placeReport r s).orp.ready = s.orp.ready := rfl
@[simp] theorem placeReport_orp_srq (r : Report) : (placeReport r s).orp.srq = s.orp.srq := rfl
@[simp] theorem placeReport_draws (r : Report) : (placeReport r s).draws = s.draws := rfl
@[simp] theorem placeReport_pending (r : Report) : (placeReport r s).pending = s.pending := rfl

/-! ### postPeerAbsent -/

@[simp] theorem postPeerAbsent_stc (a : Addr) : (postPeerAbsent a s).stc = s.stc := rfl
@[simp] theorem postPeerAbsent_liu (a : Addr) : (postPeerAbsent a s).liu = s.liu := rfl
@[simp] theorem postPeerAbsent_mbu (a : Addr) : (postPeerAbsent a s).mbu = s.mbu := rfl
@[simp] theorem postPeerAbsent_ttu (a : Addr) : (postPeerAbsent a s).ttu = s.ttu := rfl
@[simp] theorem postPeerAbsent_rte (a : Addr) : (postPeerAbsent a s).rte = s.rte := rfl
@[simp] theorem postPeerAbsent_jbu (a : Addr) : (postPeerAbsent a s).jbu = s.jbu := rfl
@[simp] theorem postPeerAbsent_cme (a : Addr) : (postPeerAbsent a s).cme = s.cme := rfl
@[simp] theorem postPeerAbsent_orp_selected (a : Addr) : (postPeerAbsent a s).orp.selected = s.orp.selected := rfl
@[simp] theorem postPeerAbsent_orp_rx (a : Addr) : (postPeerAbsent a s).orp.rx = s.orp.rx := rfl
@[simp] theorem postPeerAbsent_orp_gap (a : Addr) : (postPeerAbsent a s).orp.gap = s.orp.gap := rfl
@[simp] theorem postPeerAbsent_orp_orders (a : Addr) : (postPeerAbsent a s).orp.orders = s.orp.orders := rfl
@[simp] theorem postPeerAbsent_orp_reports (a : Addr) : (postPeerAbsent a s).orp.reports = s.orp.reports := rfl
@[simp] theorem postPeerAbsent_orp_sent (a : Addr) : (postPeerAbsent a s).orp.sent = s.orp.sent := rfl
@[simp] theorem postPeerAbsent_orp_sdo (a : Addr) : (postPeerAbsent a s).orp.sdo = s.orp.sdo := rfl
@[simp] theorem postPeerAbsent_orp_config (a : Addr) : (postPeerAbsent a s).orp.config = s.orp.config := rfl
@[simp] theorem postPeerAbsent_orp_ready (a : Addr) : (postPeerAbsent a s).orp.ready = s.orp.ready := rfl
@[simp] theorem postPeerAbsent_orp_srq (a : Addr) : (postPeerAbsent a s).orp.srq = s.orp.srq := rfl
@[simp] theorem postPeerAbsent_draws (a : Addr) : (postPeerAbsent a s).draws = s.draws := rfl
@[simp] theorem postPeerAbsent_pending (a : Addr) : (postPeerAbsent a s).pending = s.pending := rfl

/-! ### postPeerJoined -/

@[simp] theorem postPeerJoined_stc (a : Addr) : (postPeerJoined a s).stc = s.stc := rfl
@[simp] theorem postPeerJoined_liu (a : Addr) : (postPeerJoined a s).liu = s.liu := rfl
@[simp] theorem postPeerJoined_mbu (a : Addr) : (postPeerJoined a s).mbu = s.mbu := rfl
@[simp] theorem postPeerJoined_ttu (a : Addr) : (postPeerJoined a s).ttu = s.ttu := rfl
@[simp] theorem postPeerJoined_rte (a : Addr) : (postPeerJoined a s).rte = s.rte := rfl
@[simp] theorem postPeerJoined_jbu (a : Addr) : (postPeerJoined a s).jbu = s.jbu := rfl
@[simp] theorem postPeerJoined_cme (a : Addr) : (postPeerJoined a s).cme = s.cme := rfl
@[simp] theorem postPeerJoined_orp_selected (a : Addr) : (postPeerJoined a s).orp.selected = s.orp.selected := rfl
@[simp] theorem postPeerJoined_orp_rx (a : Addr) : (postPeerJoined a s).orp.rx = s.orp.rx := rfl
@[simp] theorem postPeerJoined_orp_gap (a : Addr) : (postPeerJoined a s).orp.gap = s.orp.gap := rfl
@[simp] theorem postPeerJoined_orp_orders (a : Addr) : (postPeerJoined a s).orp.orders = s.orp.orders := rfl
@[simp] theorem postPeerJoined_orp_reports (a : Addr) : (postPeerJoined a s).orp.reports = s.orp.reports := rfl
@[simp] theorem postPeerJoined_orp_sent (a : Addr) : (postPeerJoined a s).orp.sent = s.orp.sent := rfl
@[simp] theorem postPeerJoined_orp_sdo (a : Addr) : (postPeerJoined a s).orp.sdo = s.orp.sdo := rfl
@[simp] theorem postPeerJoined_orp_config (a : Addr) : (postPeerJoined a s).orp.config = s.orp.config := rfl
@[simp] theorem postPeerJoined_orp_ready (a : Addr) : (postPeerJoined a s).orp.ready = s.orp.ready := rfl
@[simp] theorem postPeerJoined_orp_srq (a : Addr) : (postPeerJoined a s).orp.srq = s.orp.srq := rfl
@[simp] theorem postPeerJoined_draws (a : Addr) : (postPeerJoined a s).draws = s.draws := rfl
@[simp] theorem postPeerJoined_pending (a : Addr) : (postPeerJoined a s).pending = s.pending := rfl

/-! ### postStaleEntered -/

@[simp] theorem postStaleEntered_stc : (postStaleEntered s).stc = s.stc := rfl
@[simp] theorem postStaleEntered_liu : (postStaleEntered s).liu = s.liu := rfl
@[simp] theorem postStaleEntered_mbu : (postStaleEntered s).mbu = s.mbu := rfl
@[simp] theorem postStaleEntered_ttu : (postStaleEntered s).ttu = s.ttu := rfl
@[simp] theorem postStaleEntered_rte : (postStaleEntered s).rte = s.rte := rfl
@[simp] theorem postStaleEntered_jbu : (postStaleEntered s).jbu = s.jbu := rfl
@[simp] theorem postStaleEntered_cme : (postStaleEntered s).cme = s.cme := rfl
@[simp] theorem postStaleEntered_orp_selected : (postStaleEntered s).orp.selected = s.orp.selected := rfl
@[simp] theorem postStaleEntered_orp_rx : (postStaleEntered s).orp.rx = s.orp.rx := rfl
@[simp] theorem postStaleEntered_orp_gap : (postStaleEntered s).orp.gap = s.orp.gap := rfl
@[simp] theorem postStaleEntered_orp_orders : (postStaleEntered s).orp.orders = s.orp.orders := rfl
@[simp] theorem postStaleEntered_orp_reports : (postStaleEntered s).orp.reports = s.orp.reports := rfl
@[simp] theorem postStaleEntered_orp_sent : (postStaleEntered s).orp.sent = s.orp.sent := rfl
@[simp] theorem postStaleEntered_orp_sdo : (postStaleEntered s).orp.sdo = s.orp.sdo := rfl
@[simp] theorem postStaleEntered_orp_config : (postStaleEntered s).orp.config = s.orp.config := rfl
@[simp] theorem postStaleEntered_orp_ready : (postStaleEntered s).orp.ready = s.orp.ready := rfl
@[simp] theorem postStaleEntered_orp_srq : (postStaleEntered s).orp.srq = s.orp.srq := rfl
@[simp] theorem postStaleEntered_draws : (postStaleEntered s).draws = s.draws := rfl
@[simp] theorem postStaleEntered_pending : (postStaleEntered s).pending = s.pending := rfl

/-! ### postClash -/

@[simp] theorem postClash_stc : (postClash s).stc = s.stc := rfl
@[simp] theorem postClash_liu : (postClash s).liu = s.liu := rfl
@[simp] theorem postClash_mbu : (postClash s).mbu = s.mbu := rfl
@[simp] theorem postClash_ttu : (postClash s).ttu = s.ttu := rfl
@[simp] theorem postClash_rte : (postClash s).rte = s.rte := rfl
@[simp] theorem postClash_jbu : (postClash s).jbu = s.jbu := rfl
@[simp] theorem postClash_cme : (postClash s).cme = s.cme := rfl
@[simp] theorem postClash_orp_selected : (postClash s).orp.selected = s.orp.selected := rfl
@[simp] theorem postClash_orp_rx : (postClash s).orp.rx = s.orp.rx := rfl
@[simp] theorem postClash_orp_gap : (postClash s).orp.gap = s.orp.gap := rfl
@[simp] theorem postClash_orp_orders : (postClash s).orp.orders = s.orp.orders := rfl
@[simp] theorem postClash_orp_reports : (postClash s).orp.reports = s.orp.reports := rfl
@[simp] theorem postClash_orp_sent : (postClash s).orp.sent = s.orp.sent := rfl
@[simp] theorem postClash_orp_sdo : (postClash s).orp.sdo = s.orp.sdo := rfl
@[simp] theorem postClash_orp_config : (postClash s).orp.config = s.orp.config := rfl
@[simp] theorem postClash_orp_ready : (postClash s).orp.ready = s.orp.ready := rfl
@[simp] theorem postClash_orp_srq : (postClash s).orp.srq = s.orp.srq := rfl
@[simp] theorem postClash_draws : (postClash s).draws = s.draws := rfl
@[simp] theorem postClash_pending : (postClash s).pending = s.pending := rfl

/-! ### postChainFault -/

@[simp] theorem postChainFault_stc : (postChainFault s).stc = s.stc := rfl
@[simp] theorem postChainFault_liu : (postChainFault s).liu = s.liu := rfl
@[simp] theorem postChainFault_mbu : (postChainFault s).mbu = s.mbu := rfl
@[simp] theorem postChainFault_ttu : (postChainFault s).ttu = s.ttu := rfl
@[simp] theorem postChainFault_rte : (postChainFault s).rte = s.rte := rfl
@[simp] theorem postChainFault_jbu : (postChainFault s).jbu = s.jbu := rfl
@[simp] theorem postChainFault_cme : (postChainFault s).cme = s.cme := rfl
@[simp] theorem postChainFault_orp_selected : (postChainFault s).orp.selected = s.orp.selected := rfl
@[simp] theorem postChainFault_orp_rx : (postChainFault s).orp.rx = s.orp.rx := rfl
@[simp] theorem postChainFault_orp_gap : (postChainFault s).orp.gap = s.orp.gap := rfl
@[simp] theorem postChainFault_orp_orders : (postChainFault s).orp.orders = s.orp.orders := rfl
@[simp] theorem postChainFault_orp_reports : (postChainFault s).orp.reports = s.orp.reports := rfl
@[simp] theorem postChainFault_orp_sent : (postChainFault s).orp.sent = s.orp.sent := rfl
@[simp] theorem postChainFault_orp_sdo : (postChainFault s).orp.sdo = s.orp.sdo := rfl
@[simp] theorem postChainFault_orp_config : (postChainFault s).orp.config = s.orp.config := rfl
@[simp] theorem postChainFault_orp_ready : (postChainFault s).orp.ready = s.orp.ready := rfl
@[simp] theorem postChainFault_orp_srq : (postChainFault s).orp.srq = s.orp.srq := rfl
@[simp] theorem postChainFault_draws : (postChainFault s).draws = s.draws := rfl
@[simp] theorem postChainFault_pending : (postChainFault s).pending = s.pending := rfl

/-! ### postRouteDamaged -/

@[simp] theorem postRouteDamaged_stc (tag : Tag) : (postRouteDamaged tag s).stc = s.stc := rfl
@[simp] theorem postRouteDamaged_liu (tag : Tag) : (postRouteDamaged tag s).liu = s.liu := rfl
@[simp] theorem postRouteDamaged_mbu (tag : Tag) : (postRouteDamaged tag s).mbu = s.mbu := rfl
@[simp] theorem postRouteDamaged_ttu (tag : Tag) : (postRouteDamaged tag s).ttu = s.ttu := rfl
@[simp] theorem postRouteDamaged_rte (tag : Tag) : (postRouteDamaged tag s).rte = s.rte := rfl
@[simp] theorem postRouteDamaged_jbu (tag : Tag) : (postRouteDamaged tag s).jbu = s.jbu := rfl
@[simp] theorem postRouteDamaged_cme (tag : Tag) : (postRouteDamaged tag s).cme = s.cme := rfl
@[simp] theorem postRouteDamaged_orp_selected (tag : Tag) :
    (postRouteDamaged tag s).orp.selected = s.orp.selected := rfl
@[simp] theorem postRouteDamaged_orp_rx (tag : Tag) : (postRouteDamaged tag s).orp.rx = s.orp.rx := rfl
@[simp] theorem postRouteDamaged_orp_gap (tag : Tag) : (postRouteDamaged tag s).orp.gap = s.orp.gap := rfl
@[simp] theorem postRouteDamaged_orp_orders (tag : Tag) : (postRouteDamaged tag s).orp.orders = s.orp.orders := rfl
@[simp] theorem postRouteDamaged_orp_reports (tag : Tag) : (postRouteDamaged tag s).orp.reports = s.orp.reports := rfl
@[simp] theorem postRouteDamaged_orp_sent (tag : Tag) : (postRouteDamaged tag s).orp.sent = s.orp.sent := rfl
@[simp] theorem postRouteDamaged_orp_sdo (tag : Tag) : (postRouteDamaged tag s).orp.sdo = s.orp.sdo := rfl
@[simp] theorem postRouteDamaged_orp_config (tag : Tag) : (postRouteDamaged tag s).orp.config = s.orp.config := rfl
@[simp] theorem postRouteDamaged_orp_ready (tag : Tag) : (postRouteDamaged tag s).orp.ready = s.orp.ready := rfl
@[simp] theorem postRouteDamaged_orp_srq (tag : Tag) : (postRouteDamaged tag s).orp.srq = s.orp.srq := rfl
@[simp] theorem postRouteDamaged_draws (tag : Tag) : (postRouteDamaged tag s).draws = s.draws := rfl
@[simp] theorem postRouteDamaged_pending (tag : Tag) : (postRouteDamaged tag s).pending = s.pending := rfl

/-! ### postWearWarn -/

@[simp] theorem postWearWarn_stc : (postWearWarn s).stc = s.stc := rfl
@[simp] theorem postWearWarn_liu : (postWearWarn s).liu = s.liu := rfl
@[simp] theorem postWearWarn_mbu : (postWearWarn s).mbu = s.mbu := rfl
@[simp] theorem postWearWarn_ttu : (postWearWarn s).ttu = s.ttu := rfl
@[simp] theorem postWearWarn_rte : (postWearWarn s).rte = s.rte := rfl
@[simp] theorem postWearWarn_jbu : (postWearWarn s).jbu = s.jbu := rfl
@[simp] theorem postWearWarn_cme : (postWearWarn s).cme = s.cme := rfl
@[simp] theorem postWearWarn_orp_selected : (postWearWarn s).orp.selected = s.orp.selected := rfl
@[simp] theorem postWearWarn_orp_rx : (postWearWarn s).orp.rx = s.orp.rx := rfl
@[simp] theorem postWearWarn_orp_gap : (postWearWarn s).orp.gap = s.orp.gap := rfl
@[simp] theorem postWearWarn_orp_orders : (postWearWarn s).orp.orders = s.orp.orders := rfl
@[simp] theorem postWearWarn_orp_reports : (postWearWarn s).orp.reports = s.orp.reports := rfl
@[simp] theorem postWearWarn_orp_sent : (postWearWarn s).orp.sent = s.orp.sent := rfl
@[simp] theorem postWearWarn_orp_sdo : (postWearWarn s).orp.sdo = s.orp.sdo := rfl
@[simp] theorem postWearWarn_orp_config : (postWearWarn s).orp.config = s.orp.config := rfl
@[simp] theorem postWearWarn_orp_ready : (postWearWarn s).orp.ready = s.orp.ready := rfl
@[simp] theorem postWearWarn_orp_srq : (postWearWarn s).orp.srq = s.orp.srq := rfl
@[simp] theorem postWearWarn_draws : (postWearWarn s).draws = s.draws := rfl
@[simp] theorem postWearWarn_pending : (postWearWarn s).pending = s.pending := rfl

/-! ### postOrderOverrun -/

@[simp] theorem postOrderOverrun_stc : (postOrderOverrun s).stc = s.stc := rfl
@[simp] theorem postOrderOverrun_liu : (postOrderOverrun s).liu = s.liu := rfl
@[simp] theorem postOrderOverrun_mbu : (postOrderOverrun s).mbu = s.mbu := rfl
@[simp] theorem postOrderOverrun_ttu : (postOrderOverrun s).ttu = s.ttu := rfl
@[simp] theorem postOrderOverrun_rte : (postOrderOverrun s).rte = s.rte := rfl
@[simp] theorem postOrderOverrun_jbu : (postOrderOverrun s).jbu = s.jbu := rfl
@[simp] theorem postOrderOverrun_cme : (postOrderOverrun s).cme = s.cme := rfl
@[simp] theorem postOrderOverrun_orp_selected : (postOrderOverrun s).orp.selected = s.orp.selected := rfl
@[simp] theorem postOrderOverrun_orp_rx : (postOrderOverrun s).orp.rx = s.orp.rx := rfl
@[simp] theorem postOrderOverrun_orp_gap : (postOrderOverrun s).orp.gap = s.orp.gap := rfl
@[simp] theorem postOrderOverrun_orp_orders : (postOrderOverrun s).orp.orders = s.orp.orders := rfl
@[simp] theorem postOrderOverrun_orp_reports : (postOrderOverrun s).orp.reports = s.orp.reports := rfl
@[simp] theorem postOrderOverrun_orp_sent : (postOrderOverrun s).orp.sent = s.orp.sent := rfl
@[simp] theorem postOrderOverrun_orp_sdo : (postOrderOverrun s).orp.sdo = s.orp.sdo := rfl
@[simp] theorem postOrderOverrun_orp_config : (postOrderOverrun s).orp.config = s.orp.config := rfl
@[simp] theorem postOrderOverrun_orp_ready : (postOrderOverrun s).orp.ready = s.orp.ready := rfl
@[simp] theorem postOrderOverrun_orp_srq : (postOrderOverrun s).orp.srq = s.orp.srq := rfl
@[simp] theorem postOrderOverrun_draws : (postOrderOverrun s).draws = s.draws := rfl
@[simp] theorem postOrderOverrun_pending : (postOrderOverrun s).pending = s.pending := rfl

/-! ### postOrderGap -/

@[simp] theorem postOrderGap_stc : (postOrderGap s).stc = s.stc := rfl
@[simp] theorem postOrderGap_liu : (postOrderGap s).liu = s.liu := rfl
@[simp] theorem postOrderGap_mbu : (postOrderGap s).mbu = s.mbu := rfl
@[simp] theorem postOrderGap_ttu : (postOrderGap s).ttu = s.ttu := rfl
@[simp] theorem postOrderGap_rte : (postOrderGap s).rte = s.rte := rfl
@[simp] theorem postOrderGap_jbu : (postOrderGap s).jbu = s.jbu := rfl
@[simp] theorem postOrderGap_cme : (postOrderGap s).cme = s.cme := rfl
@[simp] theorem postOrderGap_orp_selected : (postOrderGap s).orp.selected = s.orp.selected := rfl
@[simp] theorem postOrderGap_orp_rx : (postOrderGap s).orp.rx = s.orp.rx := rfl
@[simp] theorem postOrderGap_orp_gap : (postOrderGap s).orp.gap = s.orp.gap := rfl
@[simp] theorem postOrderGap_orp_orders : (postOrderGap s).orp.orders = s.orp.orders := rfl
@[simp] theorem postOrderGap_orp_reports : (postOrderGap s).orp.reports = s.orp.reports := rfl
@[simp] theorem postOrderGap_orp_sent : (postOrderGap s).orp.sent = s.orp.sent := rfl
@[simp] theorem postOrderGap_orp_sdo : (postOrderGap s).orp.sdo = s.orp.sdo := rfl
@[simp] theorem postOrderGap_orp_config : (postOrderGap s).orp.config = s.orp.config := rfl
@[simp] theorem postOrderGap_orp_ready : (postOrderGap s).orp.ready = s.orp.ready := rfl
@[simp] theorem postOrderGap_orp_srq : (postOrderGap s).orp.srq = s.orp.srq := rfl
@[simp] theorem postOrderGap_draws : (postOrderGap s).draws = s.draws := rfl
@[simp] theorem postOrderGap_pending : (postOrderGap s).pending = s.pending := rfl

/-! ### postDiscarded -/

@[simp] theorem postDiscarded_stc (b : Bool) : (postDiscarded b s).stc = s.stc := rfl
@[simp] theorem postDiscarded_liu (b : Bool) : (postDiscarded b s).liu = s.liu := rfl
@[simp] theorem postDiscarded_mbu (b : Bool) : (postDiscarded b s).mbu = s.mbu := rfl
@[simp] theorem postDiscarded_ttu (b : Bool) : (postDiscarded b s).ttu = s.ttu := rfl
@[simp] theorem postDiscarded_rte (b : Bool) : (postDiscarded b s).rte = s.rte := rfl
@[simp] theorem postDiscarded_jbu (b : Bool) : (postDiscarded b s).jbu = s.jbu := rfl
@[simp] theorem postDiscarded_cme (b : Bool) : (postDiscarded b s).cme = s.cme := rfl
@[simp] theorem postDiscarded_orp_selected (b : Bool) : (postDiscarded b s).orp.selected = s.orp.selected := rfl
@[simp] theorem postDiscarded_orp_rx (b : Bool) : (postDiscarded b s).orp.rx = s.orp.rx := rfl
@[simp] theorem postDiscarded_orp_gap (b : Bool) : (postDiscarded b s).orp.gap = s.orp.gap := rfl
@[simp] theorem postDiscarded_orp_orders (b : Bool) : (postDiscarded b s).orp.orders = s.orp.orders := rfl
@[simp] theorem postDiscarded_orp_reports (b : Bool) : (postDiscarded b s).orp.reports = s.orp.reports := rfl
@[simp] theorem postDiscarded_orp_sent (b : Bool) : (postDiscarded b s).orp.sent = s.orp.sent := rfl
@[simp] theorem postDiscarded_orp_sdo (b : Bool) : (postDiscarded b s).orp.sdo = s.orp.sdo := rfl
@[simp] theorem postDiscarded_orp_config (b : Bool) : (postDiscarded b s).orp.config = s.orp.config := rfl
@[simp] theorem postDiscarded_orp_ready (b : Bool) : (postDiscarded b s).orp.ready = s.orp.ready := rfl
@[simp] theorem postDiscarded_orp_srq (b : Bool) : (postDiscarded b s).orp.srq = s.orp.srq := rfl
@[simp] theorem postDiscarded_draws (b : Bool) : (postDiscarded b s).draws = s.draws := rfl
@[simp] theorem postDiscarded_pending (b : Bool) : (postDiscarded b s).pending = s.pending := rfl

/-! ### postDroppedLost -/

@[simp] theorem postDroppedLost_stc : (postDroppedLost s).stc = s.stc := rfl
@[simp] theorem postDroppedLost_liu : (postDroppedLost s).liu = s.liu := rfl
@[simp] theorem postDroppedLost_mbu : (postDroppedLost s).mbu = s.mbu := rfl
@[simp] theorem postDroppedLost_ttu : (postDroppedLost s).ttu = s.ttu := rfl
@[simp] theorem postDroppedLost_rte : (postDroppedLost s).rte = s.rte := rfl
@[simp] theorem postDroppedLost_jbu : (postDroppedLost s).jbu = s.jbu := rfl
@[simp] theorem postDroppedLost_cme : (postDroppedLost s).cme = s.cme := rfl
@[simp] theorem postDroppedLost_orp_selected : (postDroppedLost s).orp.selected = s.orp.selected := rfl
@[simp] theorem postDroppedLost_orp_rx : (postDroppedLost s).orp.rx = s.orp.rx := rfl
@[simp] theorem postDroppedLost_orp_gap : (postDroppedLost s).orp.gap = s.orp.gap := rfl
@[simp] theorem postDroppedLost_orp_orders : (postDroppedLost s).orp.orders = s.orp.orders := rfl
@[simp] theorem postDroppedLost_orp_reports : (postDroppedLost s).orp.reports = s.orp.reports := rfl
@[simp] theorem postDroppedLost_orp_sent : (postDroppedLost s).orp.sent = s.orp.sent := rfl
@[simp] theorem postDroppedLost_orp_sdo : (postDroppedLost s).orp.sdo = s.orp.sdo := rfl
@[simp] theorem postDroppedLost_orp_config : (postDroppedLost s).orp.config = s.orp.config := rfl
@[simp] theorem postDroppedLost_orp_ready : (postDroppedLost s).orp.ready = s.orp.ready := rfl
@[simp] theorem postDroppedLost_orp_srq : (postDroppedLost s).orp.srq = s.orp.srq := rfl
@[simp] theorem postDroppedLost_draws : (postDroppedLost s).draws = s.draws := rfl
@[simp] theorem postDroppedLost_pending : (postDroppedLost s).pending = s.pending := rfl

/-! ### updatePins -/

@[simp] theorem updatePins_stc : (updatePins s).stc = s.stc := rfl
@[simp] theorem updatePins_liu : (updatePins s).liu = s.liu := rfl
@[simp] theorem updatePins_mbu : (updatePins s).mbu = s.mbu := rfl
@[simp] theorem updatePins_ttu : (updatePins s).ttu = s.ttu := rfl
@[simp] theorem updatePins_rte : (updatePins s).rte = s.rte := rfl
@[simp] theorem updatePins_jbu : (updatePins s).jbu = s.jbu := rfl
@[simp] theorem updatePins_cme : (updatePins s).cme = s.cme := rfl
@[simp] theorem updatePins_orp_selected : (updatePins s).orp.selected = s.orp.selected := rfl
@[simp] theorem updatePins_orp_rx : (updatePins s).orp.rx = s.orp.rx := rfl
@[simp] theorem updatePins_orp_gap : (updatePins s).orp.gap = s.orp.gap := rfl
@[simp] theorem updatePins_orp_orders : (updatePins s).orp.orders = s.orp.orders := rfl
@[simp] theorem updatePins_orp_reports : (updatePins s).orp.reports = s.orp.reports := rfl
@[simp] theorem updatePins_orp_sent : (updatePins s).orp.sent = s.orp.sent := rfl
@[simp] theorem updatePins_orp_sdo : (updatePins s).orp.sdo = s.orp.sdo := rfl
@[simp] theorem updatePins_orp_alerts : (updatePins s).orp.alerts = s.orp.alerts := rfl
@[simp] theorem updatePins_orp_config : (updatePins s).orp.config = s.orp.config := rfl
@[simp] theorem updatePins_orp_ready : (updatePins s).orp.ready = s.readyLevel := rfl
@[simp] theorem updatePins_orp_srq : (updatePins s).orp.srq = s.srqLevel := rfl
@[simp] theorem updatePins_draws : (updatePins s).draws = s.draws := rfl
@[simp] theorem updatePins_pending : (updatePins s).pending = s.pending := rfl

/-! ### setEntry -/

@[simp] theorem setEntry_stc (t : Trunk) (e : TrunkEntry) : (setEntry t e s).stc = s.stc := rfl
@[simp] theorem setEntry_liu (t : Trunk) (e : TrunkEntry) : (setEntry t e s).liu = s.liu := rfl
@[simp] theorem setEntry_mbu (t : Trunk) (e : TrunkEntry) : (setEntry t e s).mbu = s.mbu := rfl
@[simp] theorem setEntry_ttu_table (t : Trunk) (e : TrunkEntry) :
    (setEntry t e s).ttu.table = s.ttu.table.set t e := rfl
@[simp] theorem setEntry_ttu_valid (t : Trunk) (e : TrunkEntry) : (setEntry t e s).ttu.valid = s.ttu.valid := rfl
@[simp] theorem setEntry_ttu_mismatch (t : Trunk) (e : TrunkEntry) :
    (setEntry t e s).ttu.mismatch = s.ttu.mismatch := rfl
@[simp] theorem setEntry_ttu_stale (t : Trunk) (e : TrunkEntry) : (setEntry t e s).ttu.stale = s.ttu.stale := rfl
@[simp] theorem setEntry_ttu_pending (t : Trunk) (e : TrunkEntry) : (setEntry t e s).ttu.pending = s.ttu.pending := rfl
@[simp] theorem setEntry_ttu_watch (t : Trunk) (e : TrunkEntry) : (setEntry t e s).ttu.watch = s.ttu.watch := rfl
@[simp] theorem setEntry_ttu_nonStaleHeard (t : Trunk) (e : TrunkEntry) :
    (setEntry t e s).ttu.nonStaleHeard = s.ttu.nonStaleHeard := rfl
@[simp] theorem setEntry_ttu_candidate (t : Trunk) (e : TrunkEntry) :
    (setEntry t e s).ttu.candidate = s.ttu.candidate := rfl
@[simp] theorem setEntry_ttu_listening (t : Trunk) (e : TrunkEntry) :
    (setEntry t e s).ttu.listening = s.ttu.listening := rfl
@[simp] theorem setEntry_ttu_drained (t : Trunk) (e : TrunkEntry) : (setEntry t e s).ttu.drained = s.ttu.drained := rfl
@[simp] theorem setEntry_rte (t : Trunk) (e : TrunkEntry) : (setEntry t e s).rte = s.rte := rfl
@[simp] theorem setEntry_jbu (t : Trunk) (e : TrunkEntry) : (setEntry t e s).jbu = s.jbu := rfl
@[simp] theorem setEntry_cme (t : Trunk) (e : TrunkEntry) : (setEntry t e s).cme = s.cme := rfl
@[simp] theorem setEntry_orp (t : Trunk) (e : TrunkEntry) : (setEntry t e s).orp = s.orp := rfl
@[simp] theorem setEntry_draws (t : Trunk) (e : TrunkEntry) : (setEntry t e s).draws = s.draws := rfl
@[simp] theorem setEntry_pending (t : Trunk) (e : TrunkEntry) : (setEntry t e s).pending = s.pending := rfl

/-! ### setMember -/

@[simp] theorem setMember_stc (a : Addr) (m : Member) : (setMember a m s).stc = s.stc := rfl
@[simp] theorem setMember_liu (a : Addr) (m : Member) : (setMember a m s).liu = s.liu := rfl
@[simp] theorem setMember_mbu_members (a : Addr) (m : Member) :
    (setMember a m s).mbu.members = s.mbu.members.set a m := rfl
@[simp] theorem setMember_ttu (a : Addr) (m : Member) : (setMember a m s).ttu = s.ttu := rfl
@[simp] theorem setMember_rte (a : Addr) (m : Member) : (setMember a m s).rte = s.rte := rfl
@[simp] theorem setMember_jbu (a : Addr) (m : Member) : (setMember a m s).jbu = s.jbu := rfl
@[simp] theorem setMember_cme (a : Addr) (m : Member) : (setMember a m s).cme = s.cme := rfl
@[simp] theorem setMember_orp (a : Addr) (m : Member) : (setMember a m s).orp = s.orp := rfl
@[simp] theorem setMember_draws (a : Addr) (m : Member) : (setMember a m s).draws = s.draws := rfl
@[simp] theorem setMember_pending (a : Addr) (m : Member) : (setMember a m s).pending = s.pending := rfl

/-! ### deliverLocal -/

@[simp] theorem deliverLocal_stc (ref : RouteRef) (line : Line) (trunk : Trunk) (code : ResultCode) :
    (deliverLocal ref line trunk code s).stc = s.stc := rfl
@[simp] theorem deliverLocal_liu (ref : RouteRef) (line : Line) (trunk : Trunk) (code : ResultCode) :
    (deliverLocal ref line trunk code s).liu = s.liu := rfl
@[simp] theorem deliverLocal_mbu (ref : RouteRef) (line : Line) (trunk : Trunk) (code : ResultCode) :
    (deliverLocal ref line trunk code s).mbu = s.mbu := rfl
@[simp] theorem deliverLocal_ttu (ref : RouteRef) (line : Line) (trunk : Trunk) (code : ResultCode) :
    (deliverLocal ref line trunk code s).ttu = s.ttu := rfl
@[simp] theorem deliverLocal_rte_routes (ref : RouteRef) (line : Line) (trunk : Trunk) (code : ResultCode) :
    (deliverLocal ref line trunk code s).rte.routes = s.rte.routes := rfl
@[simp] theorem deliverLocal_rte_held (ref : RouteRef) (line : Line) (trunk : Trunk) (code : ResultCode) :
    (deliverLocal ref line trunk code s).rte.held = s.rte.held := rfl
@[simp] theorem deliverLocal_rte_rounds (ref : RouteRef) (line : Line) (trunk : Trunk) (code : ResultCode) :
    (deliverLocal ref line trunk code s).rte.rounds = s.rte.rounds := rfl
@[simp] theorem deliverLocal_rte_inbox (ref : RouteRef) (line : Line) (trunk : Trunk) (code : ResultCode) :
    (deliverLocal ref line trunk code s).rte.inbox = s.rte.inbox ++ [⟨s.self, ref.tag, ref.gen, line, trunk, code⟩] := rfl
@[simp] theorem deliverLocal_jbu (ref : RouteRef) (line : Line) (trunk : Trunk) (code : ResultCode) :
    (deliverLocal ref line trunk code s).jbu = s.jbu := rfl
@[simp] theorem deliverLocal_cme (ref : RouteRef) (line : Line) (trunk : Trunk) (code : ResultCode) :
    (deliverLocal ref line trunk code s).cme = s.cme := rfl
@[simp] theorem deliverLocal_orp (ref : RouteRef) (line : Line) (trunk : Trunk) (code : ResultCode) :
    (deliverLocal ref line trunk code s).orp = s.orp := rfl
@[simp] theorem deliverLocal_draws (ref : RouteRef) (line : Line) (trunk : Trunk) (code : ResultCode) :
    (deliverLocal ref line trunk code s).draws = s.draws := rfl
@[simp] theorem deliverLocal_pending (ref : RouteRef) (line : Line) (trunk : Trunk) (code : ResultCode) :
    (deliverLocal ref line trunk code s).pending = s.pending := rfl

/-! ### replaceJob -/

@[simp] theorem replaceJob_stc (old new : Job) : (replaceJob old new s).stc = s.stc := rfl
@[simp] theorem replaceJob_liu (old new : Job) : (replaceJob old new s).liu = s.liu := rfl
@[simp] theorem replaceJob_mbu (old new : Job) : (replaceJob old new s).mbu = s.mbu := rfl
@[simp] theorem replaceJob_ttu (old new : Job) : (replaceJob old new s).ttu = s.ttu := rfl
@[simp] theorem replaceJob_rte (old new : Job) : (replaceJob old new s).rte = s.rte := rfl
@[simp] theorem replaceJob_jbu_jobs (old new : Job) :
    (replaceJob old new s).jbu.jobs = s.jbu.jobs.map fun j => if j == old then new else j := rfl
@[simp] theorem replaceJob_jbu_sweep (old new : Job) : (replaceJob old new s).jbu.sweep = s.jbu.sweep := rfl
@[simp] theorem replaceJob_jbu_quiet (old new : Job) : (replaceJob old new s).jbu.quiet = s.jbu.quiet := rfl
@[simp] theorem replaceJob_cme (old new : Job) : (replaceJob old new s).cme = s.cme := rfl
@[simp] theorem replaceJob_orp (old new : Job) : (replaceJob old new s).orp = s.orp := rfl
@[simp] theorem replaceJob_draws (old new : Job) : (replaceJob old new s).draws = s.draws := rfl
@[simp] theorem replaceJob_pending (old new : Job) : (replaceJob old new s).pending = s.pending := rfl

/-! ### removeJob -/

@[simp] theorem removeJob_stc (j : Job) : (removeJob j s).stc = s.stc := rfl
@[simp] theorem removeJob_liu (j : Job) : (removeJob j s).liu = s.liu := rfl
@[simp] theorem removeJob_mbu (j : Job) : (removeJob j s).mbu = s.mbu := rfl
@[simp] theorem removeJob_ttu (j : Job) : (removeJob j s).ttu = s.ttu := rfl
@[simp] theorem removeJob_rte (j : Job) : (removeJob j s).rte = s.rte := rfl
@[simp] theorem removeJob_jbu_jobs (j : Job) : (removeJob j s).jbu.jobs = s.jbu.jobs.erase j := rfl
@[simp] theorem removeJob_jbu_sweep (j : Job) : (removeJob j s).jbu.sweep = s.jbu.sweep := rfl
@[simp] theorem removeJob_jbu_quiet (j : Job) : (removeJob j s).jbu.quiet = s.jbu.quiet := rfl
@[simp] theorem removeJob_cme (j : Job) : (removeJob j s).cme = s.cme := rfl
@[simp] theorem removeJob_orp (j : Job) : (removeJob j s).orp = s.orp := rfl
@[simp] theorem removeJob_draws (j : Job) : (removeJob j s).draws = s.draws := rfl
@[simp] theorem removeJob_pending (j : Job) : (removeJob j s).pending = s.pending := rfl

/-! ### removeOrigin -/

@[simp] theorem removeOrigin_stc (a : Addr) : (removeOrigin a s).stc = s.stc := rfl
@[simp] theorem removeOrigin_liu (a : Addr) : (removeOrigin a s).liu = s.liu := rfl
@[simp] theorem removeOrigin_mbu (a : Addr) : (removeOrigin a s).mbu = s.mbu := rfl
@[simp] theorem removeOrigin_ttu (a : Addr) : (removeOrigin a s).ttu = s.ttu := rfl
@[simp] theorem removeOrigin_rte (a : Addr) : (removeOrigin a s).rte = s.rte := rfl
@[simp] theorem removeOrigin_jbu_jobs (a : Addr) :
    (removeOrigin a s).jbu.jobs = s.jbu.jobs.filter fun j => j.ref.origin != a || j.state == .inBatch := rfl
@[simp] theorem removeOrigin_jbu_sweep (a : Addr) : (removeOrigin a s).jbu.sweep = s.jbu.sweep := rfl
@[simp] theorem removeOrigin_jbu_quiet (a : Addr) : (removeOrigin a s).jbu.quiet = s.jbu.quiet := rfl
@[simp] theorem removeOrigin_cme (a : Addr) : (removeOrigin a s).cme = s.cme := rfl
@[simp] theorem removeOrigin_orp (a : Addr) : (removeOrigin a s).orp = s.orp := rfl
@[simp] theorem removeOrigin_draws (a : Addr) : (removeOrigin a s).draws = s.draws := rfl
@[simp] theorem removeOrigin_pending (a : Addr) : (removeOrigin a s).pending = s.pending := rfl

/-! ### clearJobs -/

@[simp] theorem clearJobs_stc : (clearJobs s).stc = s.stc := rfl
@[simp] theorem clearJobs_liu : (clearJobs s).liu = s.liu := rfl
@[simp] theorem clearJobs_mbu : (clearJobs s).mbu = s.mbu := rfl
@[simp] theorem clearJobs_ttu : (clearJobs s).ttu = s.ttu := rfl
@[simp] theorem clearJobs_rte : (clearJobs s).rte = s.rte := rfl
@[simp] theorem clearJobs_jbu_jobs : (clearJobs s).jbu.jobs = s.jbu.jobs.filter fun j => j.state == .inBatch := rfl
@[simp] theorem clearJobs_jbu_sweep : (clearJobs s).jbu.sweep = s.jbu.sweep := rfl
@[simp] theorem clearJobs_jbu_quiet : (clearJobs s).jbu.quiet = s.jbu.quiet := rfl
@[simp] theorem clearJobs_cme : (clearJobs s).cme = s.cme := rfl
@[simp] theorem clearJobs_orp : (clearJobs s).orp = s.orp := rfl
@[simp] theorem clearJobs_draws : (clearJobs s).draws = s.draws := rfl
@[simp] theorem clearJobs_pending : (clearJobs s).pending = s.pending := rfl

/-! ### takePermit -/

@[simp] theorem takePermit_stc (ref : RouteRef) : (takePermit ref s).stc = s.stc := rfl
@[simp] theorem takePermit_liu (ref : RouteRef) : (takePermit ref s).liu = s.liu := rfl
@[simp] theorem takePermit_mbu (ref : RouteRef) : (takePermit ref s).mbu = s.mbu := rfl
@[simp] theorem takePermit_ttu (ref : RouteRef) : (takePermit ref s).ttu = s.ttu := rfl
@[simp] theorem takePermit_rte (ref : RouteRef) : (takePermit ref s).rte = s.rte := rfl
@[simp] theorem takePermit_jbu_sweep (ref : RouteRef) : (takePermit ref s).jbu.sweep = s.jbu.sweep := rfl
@[simp] theorem takePermit_jbu_quiet (ref : RouteRef) : (takePermit ref s).jbu.quiet = s.jbu.quiet := rfl
@[simp] theorem takePermit_cme (ref : RouteRef) : (takePermit ref s).cme = s.cme := rfl
@[simp] theorem takePermit_orp (ref : RouteRef) : (takePermit ref s).orp = s.orp := rfl
@[simp] theorem takePermit_draws (ref : RouteRef) : (takePermit ref s).draws = s.draws := rfl
@[simp] theorem takePermit_pending (ref : RouteRef) : (takePermit ref s).pending = s.pending := rfl

/-! ### fireJobs -/

@[simp] theorem fireJobs_stc (fires : Job → Bool) : (fireJobs fires s).stc = s.stc := rfl
@[simp] theorem fireJobs_liu (fires : Job → Bool) : (fireJobs fires s).liu = s.liu := rfl
@[simp] theorem fireJobs_mbu (fires : Job → Bool) : (fireJobs fires s).mbu = s.mbu := rfl
@[simp] theorem fireJobs_ttu (fires : Job → Bool) : (fireJobs fires s).ttu = s.ttu := rfl
@[simp] theorem fireJobs_rte (fires : Job → Bool) : (fireJobs fires s).rte = s.rte := rfl
@[simp] theorem fireJobs_jbu_sweep (fires : Job → Bool) : (fireJobs fires s).jbu.sweep = s.jbu.sweep := rfl
@[simp] theorem fireJobs_jbu_quiet (fires : Job → Bool) : (fireJobs fires s).jbu.quiet = s.jbu.quiet := rfl
@[simp] theorem fireJobs_cme (fires : Job → Bool) : (fireJobs fires s).cme = s.cme := rfl
@[simp] theorem fireJobs_orp (fires : Job → Bool) : (fireJobs fires s).orp = s.orp := rfl
@[simp] theorem fireJobs_draws (fires : Job → Bool) : (fireJobs fires s).draws = s.draws := rfl
@[simp] theorem fireJobs_pending (fires : Job → Bool) : (fireJobs fires s).pending = s.pending := rfl

/-! ### cancelCloses -/

@[simp] theorem cancelCloses_stc (j : Job) : (cancelCloses j s).stc = s.stc := rfl
@[simp] theorem cancelCloses_liu (j : Job) : (cancelCloses j s).liu = s.liu := rfl
@[simp] theorem cancelCloses_mbu (j : Job) : (cancelCloses j s).mbu = s.mbu := rfl
@[simp] theorem cancelCloses_ttu (j : Job) : (cancelCloses j s).ttu = s.ttu := rfl
@[simp] theorem cancelCloses_rte (j : Job) : (cancelCloses j s).rte = s.rte := rfl
@[simp] theorem cancelCloses_jbu_sweep (j : Job) : (cancelCloses j s).jbu.sweep = s.jbu.sweep := rfl
@[simp] theorem cancelCloses_jbu_quiet (j : Job) : (cancelCloses j s).jbu.quiet = s.jbu.quiet := rfl
@[simp] theorem cancelCloses_cme (j : Job) : (cancelCloses j s).cme = s.cme := rfl
@[simp] theorem cancelCloses_orp (j : Job) : (cancelCloses j s).orp = s.orp := rfl
@[simp] theorem cancelCloses_draws (j : Job) : (cancelCloses j s).draws = s.draws := rfl
@[simp] theorem cancelCloses_pending (j : Job) : (cancelCloses j s).pending = s.pending := rfl

/-! ### pruneTimers -/

@[simp] theorem pruneTimers_stc : (pruneTimers s).stc = s.stc := rfl
@[simp] theorem pruneTimers_liu : (pruneTimers s).liu = s.liu := rfl
@[simp] theorem pruneTimers_mbu : (pruneTimers s).mbu = s.mbu := rfl
@[simp] theorem pruneTimers_ttu : (pruneTimers s).ttu = s.ttu := rfl
@[simp] theorem pruneTimers_rte_held : (pruneTimers s).rte.held = s.rte.held := rfl
@[simp] theorem pruneTimers_rte_rounds : (pruneTimers s).rte.rounds = s.rte.rounds := rfl
@[simp] theorem pruneTimers_rte_inbox : (pruneTimers s).rte.inbox = s.rte.inbox := rfl
@[simp] theorem pruneTimers_jbu : (pruneTimers s).jbu = s.jbu := rfl
@[simp] theorem pruneTimers_cme : (pruneTimers s).cme = s.cme := rfl
@[simp] theorem pruneTimers_orp : (pruneTimers s).orp = s.orp := rfl
@[simp] theorem pruneTimers_draws : (pruneTimers s).draws = s.draws := rfl
@[simp] theorem pruneTimers_pending : (pruneTimers s).pending = s.pending := rfl

/-! ### openRecord -/

@[simp] theorem openRecord_stc : (openRecord s).stc = s.stc := rfl
@[simp] theorem openRecord_liu : (openRecord s).liu = s.liu := rfl
@[simp] theorem openRecord_mbu : (openRecord s).mbu = s.mbu := rfl
@[simp] theorem openRecord_ttu_table : (openRecord s).ttu.table = s.ttu.table := rfl
@[simp] theorem openRecord_ttu_valid : (openRecord s).ttu.valid = s.ttu.valid := rfl
@[simp] theorem openRecord_ttu_mismatch : (openRecord s).ttu.mismatch = s.ttu.mismatch := rfl
@[simp] theorem openRecord_ttu_stale : (openRecord s).ttu.stale = s.ttu.stale := rfl
@[simp] theorem openRecord_ttu_pending : (openRecord s).ttu.pending = s.ttu.pending := rfl
@[simp] theorem openRecord_ttu_watch : (openRecord s).ttu.watch = s.ttu.stale := rfl
@[simp] theorem openRecord_ttu_nonStaleHeard : (openRecord s).ttu.nonStaleHeard = false := rfl
@[simp] theorem openRecord_ttu_candidate : (openRecord s).ttu.candidate = none := rfl
@[simp] theorem openRecord_ttu_listening : (openRecord s).ttu.listening = s.ttu.listening := rfl
@[simp] theorem openRecord_ttu_drained : (openRecord s).ttu.drained = s.ttu.drained := rfl
@[simp] theorem openRecord_rte : (openRecord s).rte = s.rte := rfl
@[simp] theorem openRecord_jbu : (openRecord s).jbu = s.jbu := rfl
@[simp] theorem openRecord_cme : (openRecord s).cme = s.cme := rfl
@[simp] theorem openRecord_orp : (openRecord s).orp = s.orp := rfl
@[simp] theorem openRecord_draws : (openRecord s).draws = s.draws := rfl
@[simp] theorem openRecord_pending : (openRecord s).pending = s.pending := rfl

/-! ### noteFrame -/

@[simp] theorem noteFrame_stc (f : Frame) : (noteFrame f s).stc = s.stc := rfl
@[simp] theorem noteFrame_liu (f : Frame) : (noteFrame f s).liu = s.liu := rfl
@[simp] theorem noteFrame_mbu (f : Frame) : (noteFrame f s).mbu = s.mbu := rfl
@[simp] theorem noteFrame_ttu_table (f : Frame) : (noteFrame f s).ttu.table = s.ttu.table := rfl
@[simp] theorem noteFrame_ttu_valid (f : Frame) : (noteFrame f s).ttu.valid = s.ttu.valid := rfl
@[simp] theorem noteFrame_ttu_mismatch (f : Frame) : (noteFrame f s).ttu.mismatch = s.ttu.mismatch := rfl
@[simp] theorem noteFrame_ttu_stale (f : Frame) : (noteFrame f s).ttu.stale = s.ttu.stale := rfl
@[simp] theorem noteFrame_ttu_pending (f : Frame) : (noteFrame f s).ttu.pending = s.ttu.pending := rfl
@[simp] theorem noteFrame_ttu_watch (f : Frame) : (noteFrame f s).ttu.watch = s.ttu.watch := rfl
@[simp] theorem noteFrame_ttu_listening (f : Frame) : (noteFrame f s).ttu.listening = s.ttu.listening := rfl
@[simp] theorem noteFrame_ttu_drained (f : Frame) : (noteFrame f s).ttu.drained = s.ttu.drained := rfl
@[simp] theorem noteFrame_rte (f : Frame) : (noteFrame f s).rte = s.rte := rfl
@[simp] theorem noteFrame_jbu (f : Frame) : (noteFrame f s).jbu = s.jbu := rfl
@[simp] theorem noteFrame_cme (f : Frame) : (noteFrame f s).cme = s.cme := rfl
@[simp] theorem noteFrame_orp (f : Frame) : (noteFrame f s).orp = s.orp := rfl
@[simp] theorem noteFrame_draws (f : Frame) : (noteFrame f s).draws = s.draws := rfl
@[simp] theorem noteFrame_pending (f : Frame) : (noteFrame f s).pending = s.pending := rfl

/-! ### fixFrame -/

@[simp] theorem fixFrame_stc : (fixFrame s).stc = s.stc := rfl
@[simp] theorem fixFrame_liu_pos : (fixFrame s).liu.pos = s.liu.pos := rfl
@[simp] theorem fixFrame_liu_ownSlot : (fixFrame s).liu.ownSlot = true := rfl
@[simp] theorem fixFrame_liu_frame : (fixFrame s).liu.frame = encodeFrame s.ownFrame := rfl
@[simp] theorem fixFrame_liu_garbled : (fixFrame s).liu.garbled = false := rfl
@[simp] theorem fixFrame_liu_conflicts : (fixFrame s).liu.conflicts = s.liu.conflicts := rfl
@[simp] theorem fixFrame_liu_queue : (fixFrame s).liu.queue = s.liu.queue := rfl
@[simp] theorem fixFrame_liu_trig : (fixFrame s).liu.trig = s.liu.trig := rfl
@[simp] theorem fixFrame_mbu : (fixFrame s).mbu = s.mbu := rfl
@[simp] theorem fixFrame_ttu : (fixFrame s).ttu = s.ttu := rfl
@[simp] theorem fixFrame_rte : (fixFrame s).rte = s.rte := rfl
@[simp] theorem fixFrame_jbu : (fixFrame s).jbu = s.jbu := rfl
@[simp] theorem fixFrame_cme : (fixFrame s).cme = s.cme := rfl
@[simp] theorem fixFrame_orp : (fixFrame s).orp = s.orp := rfl
@[simp] theorem fixFrame_draws : (fixFrame s).draws = s.draws := rfl
@[simp] theorem fixFrame_pending : (fixFrame s).pending = s.pending := rfl

/-! ### driverClear -/

@[simp] theorem driverClear_stc (r : Nat) : (driverClear r s).stc = s.stc := by unfold driverClear; rfl
@[simp] theorem driverClear_liu (r : Nat) : (driverClear r s).liu = s.liu := by unfold driverClear; rfl
@[simp] theorem driverClear_mbu (r : Nat) : (driverClear r s).mbu = s.mbu := by unfold driverClear; rfl
@[simp] theorem driverClear_ttu (r : Nat) : (driverClear r s).ttu = s.ttu := by unfold driverClear; rfl
@[simp] theorem driverClear_rte (r : Nat) : (driverClear r s).rte = s.rte := by unfold driverClear; rfl
@[simp] theorem driverClear_jbu (r : Nat) : (driverClear r s).jbu = s.jbu := by unfold driverClear; rfl
@[simp] theorem driverClear_cme_drive (r : Nat) : (driverClear r s).cme.drive = 0 := by unfold driverClear; rfl
@[simp] theorem driverClear_cme_sense (r : Nat) :
    (driverClear r s).cme.sense = s.cme.sense := by unfold driverClear; rfl
@[simp] theorem driverClear_cme_coils (r : Nat) : (driverClear r s).cme.coils = 0 := by unfold driverClear; rfl
@[simp] theorem driverClear_cme_dout (r : Nat) : (driverClear r s).cme.dout = none := by unfold driverClear; rfl
@[simp] theorem driverClear_cme_engine (r : Nat) :
    (driverClear r s).cme.engine = .clearSettle := by unfold driverClear; rfl
@[simp] theorem driverClear_cme_settle (r : Nat) :
    (driverClear r s).cme.settle = some (2 ^ r) := by unfold driverClear; rfl
@[simp] theorem driverClear_cme_sweeps (r : Nat) : (driverClear r s).cme.sweeps = [] := by unfold driverClear; rfl
@[simp] theorem driverClear_cme_waiting (r : Nat) : (driverClear r s).cme.waiting = [] := by unfold driverClear; rfl
@[simp] theorem driverClear_cme_check (r : Nat) :
    (driverClear r s).cme.check = s.cme.check := by unfold driverClear; rfl
@[simp] theorem driverClear_orp (r : Nat) : (driverClear r s).orp = s.orp := by unfold driverClear; rfl
@[simp] theorem driverClear_draws (r : Nat) : (driverClear r s).draws = s.draws := by unfold driverClear; rfl
@[simp] theorem driverClear_pending (r : Nat) : (driverClear r s).pending = s.pending := by unfold driverClear; rfl

/-! ### enterEngine -/

@[simp] theorem enterEngine_stc (engine : Engine) : (enterEngine engine s).stc = s.stc := rfl
@[simp] theorem enterEngine_liu (engine : Engine) : (enterEngine engine s).liu = s.liu := rfl
@[simp] theorem enterEngine_mbu (engine : Engine) : (enterEngine engine s).mbu = s.mbu := rfl
@[simp] theorem enterEngine_ttu (engine : Engine) : (enterEngine engine s).ttu = s.ttu := rfl
@[simp] theorem enterEngine_rte (engine : Engine) : (enterEngine engine s).rte = s.rte := rfl
@[simp] theorem enterEngine_jbu (engine : Engine) : (enterEngine engine s).jbu = s.jbu := rfl
@[simp] theorem enterEngine_cme_xps (engine : Engine) : (enterEngine engine s).cme.xps = s.cme.xps := rfl
@[simp] theorem enterEngine_cme_drive (engine : Engine) : (enterEngine engine s).cme.drive = s.cme.drive := rfl
@[simp] theorem enterEngine_cme_sense (engine : Engine) : (enterEngine engine s).cme.sense = s.cme.sense := rfl
@[simp] theorem enterEngine_cme_coils (engine : Engine) : (enterEngine engine s).cme.coils = s.cme.coils := rfl
@[simp] theorem enterEngine_cme_dout (engine : Engine) :
    (enterEngine engine s).cme.dout = passDout engine s.cme.drive := rfl
@[simp] theorem enterEngine_cme_engine (engine : Engine) : (enterEngine engine s).cme.engine = engine := rfl
@[simp] theorem enterEngine_cme_settle (engine : Engine) : (enterEngine engine s).cme.settle = none := rfl
@[simp] theorem enterEngine_cme_sweeps (engine : Engine) : (enterEngine engine s).cme.sweeps = s.cme.sweeps := rfl
@[simp] theorem enterEngine_cme_waiting (engine : Engine) : (enterEngine engine s).cme.waiting = s.cme.waiting := rfl
@[simp] theorem enterEngine_cme_check (engine : Engine) : (enterEngine engine s).cme.check = s.cme.check := rfl
@[simp] theorem enterEngine_orp (engine : Engine) : (enterEngine engine s).orp = s.orp := rfl
@[simp] theorem enterEngine_draws (engine : Engine) : (enterEngine engine s).draws = s.draws := rfl
@[simp] theorem enterEngine_pending (engine : Engine) : (enterEngine engine s).pending = s.pending := rfl

/-! ### enterSettle -/

@[simp] theorem enterSettle_stc (engine : Engine) (r : Nat) : (enterSettle engine r s).stc = s.stc := rfl
@[simp] theorem enterSettle_liu (engine : Engine) (r : Nat) : (enterSettle engine r s).liu = s.liu := rfl
@[simp] theorem enterSettle_mbu (engine : Engine) (r : Nat) : (enterSettle engine r s).mbu = s.mbu := rfl
@[simp] theorem enterSettle_ttu (engine : Engine) (r : Nat) : (enterSettle engine r s).ttu = s.ttu := rfl
@[simp] theorem enterSettle_rte (engine : Engine) (r : Nat) : (enterSettle engine r s).rte = s.rte := rfl
@[simp] theorem enterSettle_jbu (engine : Engine) (r : Nat) : (enterSettle engine r s).jbu = s.jbu := rfl
@[simp] theorem enterSettle_cme_xps (engine : Engine) (r : Nat) : (enterSettle engine r s).cme.xps = s.cme.xps := rfl
@[simp] theorem enterSettle_cme_drive (engine : Engine) (r : Nat) :
    (enterSettle engine r s).cme.drive = s.cme.drive := rfl
@[simp] theorem enterSettle_cme_sense (engine : Engine) (r : Nat) :
    (enterSettle engine r s).cme.sense = s.cme.sense := rfl
@[simp] theorem enterSettle_cme_coils (engine : Engine) (r : Nat) :
    (enterSettle engine r s).cme.coils = s.cme.coils := rfl
@[simp] theorem enterSettle_cme_dout (engine : Engine) (r : Nat) : (enterSettle engine r s).cme.dout = none := rfl
@[simp] theorem enterSettle_cme_engine (engine : Engine) (r : Nat) :
    (enterSettle engine r s).cme.engine = engine := rfl
@[simp] theorem enterSettle_cme_settle (engine : Engine) (r : Nat) :
    (enterSettle engine r s).cme.settle = some (2 ^ r) := rfl
@[simp] theorem enterSettle_cme_sweeps (engine : Engine) (r : Nat) :
    (enterSettle engine r s).cme.sweeps = s.cme.sweeps := rfl
@[simp] theorem enterSettle_cme_waiting (engine : Engine) (r : Nat) :
    (enterSettle engine r s).cme.waiting = s.cme.waiting := rfl
@[simp] theorem enterSettle_cme_check (engine : Engine) (r : Nat) :
    (enterSettle engine r s).cme.check = s.cme.check := rfl
@[simp] theorem enterSettle_orp (engine : Engine) (r : Nat) : (enterSettle engine r s).orp = s.orp := rfl
@[simp] theorem enterSettle_draws (engine : Engine) (r : Nat) : (enterSettle engine r s).draws = s.draws := rfl
@[simp] theorem enterSettle_pending (engine : Engine) (r : Nat) : (enterSettle engine r s).pending = s.pending := rfl

/-! ### startDrive -/

@[simp] theorem startDrive_stc (engine : Engine) : (startDrive engine s).stc = s.stc := rfl
@[simp] theorem startDrive_liu (engine : Engine) : (startDrive engine s).liu = s.liu := rfl
@[simp] theorem startDrive_mbu (engine : Engine) : (startDrive engine s).mbu = s.mbu := rfl
@[simp] theorem startDrive_ttu (engine : Engine) : (startDrive engine s).ttu = s.ttu := rfl
@[simp] theorem startDrive_rte (engine : Engine) : (startDrive engine s).rte = s.rte := rfl
@[simp] theorem startDrive_jbu (engine : Engine) : (startDrive engine s).jbu = s.jbu := rfl
@[simp] theorem startDrive_cme_xps (engine : Engine) : (startDrive engine s).cme.xps = s.cme.xps := rfl
@[simp] theorem startDrive_cme_drive (engine : Engine) : (startDrive engine s).cme.drive = driveImage s.cme.xps := rfl
@[simp] theorem startDrive_cme_sense (engine : Engine) : (startDrive engine s).cme.sense = s.cme.sense := rfl
@[simp] theorem startDrive_cme_coils (engine : Engine) : (startDrive engine s).cme.coils = s.cme.coils := rfl
@[simp] theorem startDrive_cme_dout (engine : Engine) :
    (startDrive engine s).cme.dout = passDout engine (driveImage s.cme.xps) := rfl
@[simp] theorem startDrive_cme_engine (engine : Engine) : (startDrive engine s).cme.engine = engine := rfl
@[simp] theorem startDrive_cme_settle (engine : Engine) : (startDrive engine s).cme.settle = none := rfl
@[simp] theorem startDrive_cme_sweeps (engine : Engine) : (startDrive engine s).cme.sweeps = s.cme.sweeps := rfl
@[simp] theorem startDrive_cme_waiting (engine : Engine) : (startDrive engine s).cme.waiting = s.cme.waiting := rfl
@[simp] theorem startDrive_cme_check (engine : Engine) : (startDrive engine s).cme.check = s.cme.check := rfl
@[simp] theorem startDrive_orp (engine : Engine) : (startDrive engine s).orp = s.orp := rfl
@[simp] theorem startDrive_draws (engine : Engine) : (startDrive engine s).draws = s.draws := rfl
@[simp] theorem startDrive_pending (engine : Engine) : (startDrive engine s).pending = s.pending := rfl

/-! ### endBatch -/

@[simp] theorem endBatch_stc : (endBatch s).stc = s.stc := rfl
@[simp] theorem endBatch_liu : (endBatch s).liu = s.liu := rfl
@[simp] theorem endBatch_mbu : (endBatch s).mbu = s.mbu := rfl
@[simp] theorem endBatch_ttu : (endBatch s).ttu = s.ttu := rfl
@[simp] theorem endBatch_rte : (endBatch s).rte = s.rte := rfl
@[simp] theorem endBatch_jbu : (endBatch s).jbu = s.jbu := rfl
@[simp] theorem endBatch_cme_xps : (endBatch s).cme.xps = s.cme.xps := rfl
@[simp] theorem endBatch_cme_drive : (endBatch s).cme.drive = s.cme.drive := rfl
@[simp] theorem endBatch_cme_sense : (endBatch s).cme.sense = s.cme.sense := rfl
@[simp] theorem endBatch_cme_coils : (endBatch s).cme.coils = s.cme.coils := rfl
@[simp] theorem endBatch_cme_dout : (endBatch s).cme.dout = none := rfl
@[simp] theorem endBatch_cme_engine : (endBatch s).cme.engine = .idle := rfl
@[simp] theorem endBatch_cme_settle : (endBatch s).cme.settle = none := rfl
@[simp] theorem endBatch_cme_sweeps : (endBatch s).cme.sweeps = [] := rfl
@[simp] theorem endBatch_cme_waiting : (endBatch s).cme.waiting = [] := rfl
@[simp] theorem endBatch_cme_check : (endBatch s).cme.check = s.cme.check := rfl
@[simp] theorem endBatch_orp : (endBatch s).orp = s.orp := rfl
@[simp] theorem endBatch_draws : (endBatch s).draws = s.draws := rfl
@[simp] theorem endBatch_pending : (endBatch s).pending = s.pending := rfl

/-! ### loadWear -/

@[simp] theorem loadWear_stc (l : Line) (counts : List Nat) :
    (loadWear l counts s).stc = s.stc := by unfold loadWear; rfl
@[simp] theorem loadWear_liu (l : Line) (counts : List Nat) :
    (loadWear l counts s).liu = s.liu := by unfold loadWear; rfl
@[simp] theorem loadWear_mbu (l : Line) (counts : List Nat) :
    (loadWear l counts s).mbu = s.mbu := by unfold loadWear; rfl
@[simp] theorem loadWear_ttu (l : Line) (counts : List Nat) :
    (loadWear l counts s).ttu = s.ttu := by unfold loadWear; rfl
@[simp] theorem loadWear_rte (l : Line) (counts : List Nat) :
    (loadWear l counts s).rte = s.rte := by unfold loadWear; rfl
@[simp] theorem loadWear_jbu (l : Line) (counts : List Nat) :
    (loadWear l counts s).jbu = s.jbu := by unfold loadWear; rfl
@[simp] theorem loadWear_cme_drive (l : Line) (counts : List Nat) :
    (loadWear l counts s).cme.drive = s.cme.drive := by unfold loadWear; rfl
@[simp] theorem loadWear_cme_sense (l : Line) (counts : List Nat) :
    (loadWear l counts s).cme.sense = s.cme.sense := by unfold loadWear; rfl
@[simp] theorem loadWear_cme_coils (l : Line) (counts : List Nat) :
    (loadWear l counts s).cme.coils = s.cme.coils := by unfold loadWear; rfl
@[simp] theorem loadWear_cme_dout (l : Line) (counts : List Nat) :
    (loadWear l counts s).cme.dout = s.cme.dout := by unfold loadWear; rfl
@[simp] theorem loadWear_cme_engine (l : Line) (counts : List Nat) :
    (loadWear l counts s).cme.engine = s.cme.engine := by unfold loadWear; rfl
@[simp] theorem loadWear_cme_settle (l : Line) (counts : List Nat) :
    (loadWear l counts s).cme.settle = s.cme.settle := by unfold loadWear; rfl
@[simp] theorem loadWear_cme_sweeps (l : Line) (counts : List Nat) :
    (loadWear l counts s).cme.sweeps = s.cme.sweeps := by unfold loadWear; rfl
@[simp] theorem loadWear_cme_waiting (l : Line) (counts : List Nat) :
    (loadWear l counts s).cme.waiting = s.cme.waiting := by unfold loadWear; rfl
@[simp] theorem loadWear_cme_check (l : Line) (counts : List Nat) :
    (loadWear l counts s).cme.check = s.cme.check := by unfold loadWear; rfl
@[simp] theorem loadWear_orp (l : Line) (counts : List Nat) :
    (loadWear l counts s).orp = s.orp := by unfold loadWear; rfl
@[simp] theorem loadWear_draws (l : Line) (counts : List Nat) :
    (loadWear l counts s).draws = s.draws := by unfold loadWear; rfl
@[simp] theorem loadWear_pending (l : Line) (counts : List Nat) :
    (loadWear l counts s).pending = s.pending := by unfold loadWear; rfl

/-! ### removeHead -/

@[simp] theorem removeHead_stc : (removeHead s).stc = s.stc := rfl
@[simp] theorem removeHead_liu : (removeHead s).liu = s.liu := rfl
@[simp] theorem removeHead_mbu : (removeHead s).mbu = s.mbu := rfl
@[simp] theorem removeHead_ttu : (removeHead s).ttu = s.ttu := rfl
@[simp] theorem removeHead_rte : (removeHead s).rte = s.rte := rfl
@[simp] theorem removeHead_jbu : (removeHead s).jbu = s.jbu := rfl
@[simp] theorem removeHead_cme : (removeHead s).cme = s.cme := rfl
@[simp] theorem removeHead_orp_selected : (removeHead s).orp.selected = s.orp.selected := rfl
@[simp] theorem removeHead_orp_rx : (removeHead s).orp.rx = s.orp.rx := rfl
@[simp] theorem removeHead_orp_gap : (removeHead s).orp.gap = s.orp.gap := rfl
@[simp] theorem removeHead_orp_orders : (removeHead s).orp.orders = s.orp.orders := rfl
@[simp] theorem removeHead_orp_reports : (removeHead s).orp.reports = s.orp.reports.tail := rfl
@[simp] theorem removeHead_orp_sent : (removeHead s).orp.sent = 0 := rfl
@[simp] theorem removeHead_orp_sdo : (removeHead s).orp.sdo = s.orp.sdo := rfl
@[simp] theorem removeHead_orp_alerts : (removeHead s).orp.alerts = s.orp.alerts := rfl
@[simp] theorem removeHead_orp_config : (removeHead s).orp.config = s.orp.config := rfl
@[simp] theorem removeHead_orp_ready : (removeHead s).orp.ready = s.orp.ready := rfl
@[simp] theorem removeHead_orp_srq : (removeHead s).orp.srq = s.orp.srq := rfl
@[simp] theorem removeHead_draws : (removeHead s).draws = s.draws := rfl
@[simp] theorem removeHead_pending : (removeHead s).pending = s.pending := rfl

/-! ### What the state reads as after an update -/

@[simp] theorem updatePins_xp (x : Xp) : (updatePins s).xp x = s.xp x := rfl
@[simp] theorem updatePins_route (tag : Tag) : (updatePins s).route tag = s.route tag := rfl
@[simp] theorem updatePins_entry (t : Trunk) : (updatePins s).entry t = s.entry t := rfl

theorem modXp_xp (x y : Xp) (f : Crosspoint → Crosspoint) :
    (modXp x f s).xp y = if x = y then f (s.xp x) else s.xp y := Table.get_modify _ _ _ _

theorem modRoute_route (tag tag' : Tag) (f : Route → Route) :
    (modRoute tag f s).route tag' = if tag = tag' then f (s.route tag) else s.route tag' := Table.get_modify _ _ _ _

theorem setEntry_entry (t u : Trunk) (e : TrunkEntry) :
    (setEntry t e s).entry u = if t = u then e else s.entry u := Table.get_set _ _ _ _

theorem pruneTimers_route (tag : Tag) : (pruneTimers s).route tag =
    if (s.route tag).anyRequested then s.route tag else { s.route tag with timer := none } := Table.get_mapIdx _ _ _

theorem driverClear_xp (r : Nat) (x : Xp) : (driverClear r s).xp x = (s.xp x).enterOpen := Table.get_mapIdx _ _ _

theorem loadWear_xp (l : Line) (counts : List Nat) (x : Xp) : (loadWear l counts s).xp x =
    if xpLine x == l then { s.xp x with wear := (counts[(xpTrunk x).val]?).getD (s.xp x).wear } else s.xp x :=
  Table.get_mapIdx _ _ _

/-- The order FIFO and the report FIFO decide whether a place is free, with the CHECK held. -/
theorem placeFree_congr {s t : State} (hr : t.orp.reports = s.orp.reports) (hc : t.cme.check = s.cme.check) :
    t.placeFree = s.placeFree := by
  unfold State.placeFree
  rw [hr, hc]

end Sys2Proof.Machine
end

