-- ==== Sys2Proof/Laws/Step.lean ====
section
/-! SUPPORT. What one command and one step can do, said once: every command has a next state (`exec_next`), all but the two
resets are `Taken` (`exec_taken`), and a step is idle or the front command (`step_cases`). -/

namespace Sys2Proof.Machine

/-- Every command has a next state. -/
theorem exec_next (c : Instr) (s : State) : ∃ t, exec c s = .next t := by
  cases c <;> exact ⟨_, rfl⟩

/-- What every command does that is neither a power-on reset nor the RESET pin. -/
theorem exec_taken {c : Instr} {s t : State} (hc : clearsWear c = false) (h : exec c s = .next t) : Taken s t := by
  have sel : ∀ b, Taken s { s with orp.selected := b } := fun b => (Inner.port rfl).toSound.taken
  cases c with
  | powerOnReset a b => cases hc
  | resetPinAsserted => cases hc
  | cycleMark l o => cases h; exact taken_event (sound_takeCycleMark _ _ s).taken
  | slotBoundary a b => cases h; exact taken_event (ownWork_takeSlotBoundary _ _ s).toSound.taken
  | ownSlotStart => cases h; exact taken_event (ownWork_takeOwnSlotStart s).toSound.taken
  | frameEnd a b => cases h; exact taken_event (sound_takeFrameEnd _ _ s).taken
  | claim a b c d e => cases h; exact taken_event (linkWork_takeClaim _ _ _ _ _ s).toSound.taken
  | release a b => cases h; exact taken_event (linkWork_takeRelease _ _ s).toSound.taken
  | quarantine a b => cases h; exact taken_event (linkWork_takeQuarantine _ _ s).toSound.taken
  | operate => cases h; exact taken_event (jobWork_takeOperate _ _ _ s).inner.toSound.taken
  | result => cases h; exact taken_event (jobWork_takeResultCommand _ _ s).inner.toSound.taken
  | abandon => cases h; exact taken_event (jobWork_takeAbandonMsg _ s).inner.toSound.taken
  | permit => cases h; exact taken_event (jobWork_takePermitMsg _ s).inner.toSound.taken
  | fire => cases h; exact taken_event (jobWork_takeFireMsg _ s).inner.toSound.taken
  | absence => cases h; exact taken_event (sound_takeAbsence _ s).taken
  | endOfListening => cases h; exact taken_event (linkWork_takeEndOfListening s).toSound.taken
  | clash => cases h; exact taken_event (sound_takeClash s).taken
  | quietChange q a =>
    cases h
    refine taken_event (Sound.taken ?_)
    unfold takeQuiet
    dsimp only
    split
    · exact Sound.of rfl rfl rfl id rfl (by simp) (le_refl _) rfl rfl
    · exact Sound.of rfl rfl rfl id rfl (le_refl _) (le_refl _) rfl rfl
  | replyTimerExpiry tag =>
    cases h
    refine taken_event (Inner.ite (fun _ => ?_) fun _ => Inner.refl s).toSound.taken
    exact ((rteWork_expireReply _ s).job.trans (jobWork_exchange _)).inner
  | hotWaitExpiry => cases h; exact taken_event (jobWork_expireHotWait _ _ _ _ s).inner.toSound.taken
  | sweepTimerExpiry =>
    cases h
    refine taken_event (Sound.taken ?_)
    unfold takeSweepExpiry
    split
    · exact (Inner.sweep rfl).toSound
    · exact Sound.refl s
  | batchFormation => cases h; exact taken_event (Inner.ite (fun _ => inner_formBatch s) fun _ => Inner.refl s).toSound.taken
  | checkPassStart => cases h; exact taken_event (Inner.ite (fun _ => inner_startCheck s) fun _ => Inner.refl s).toSound.taken
  | drivePassEnd => cases h; exact taken_event (inner_drivePassEnd _ s).toSound.taken
  | releaseSettleExpiry => cases h; exact taken_event (inner_settleExpiry _ _ s).toSound.taken
  | operateSettleExpiry => cases h; exact taken_event (inner_settleExpiry _ _ s).toSound.taken
  | clearSettleExpiry => cases h; exact taken_event (inner_settleExpiry _ _ s).toSound.taken
  | openSensePassEnd => cases h; exact taken_event (inner_openSensePassEnd _ s).toSound.taken
  | closeSensePassEnd => cases h; exact taken_event (inner_closeSensePassEnd _ s).toSound.taken
  | checkPassEnd => cases h; exact taken_event (inner_checkPassEnd _ s).toSound.taken
  | heldItemAdmission => cases h; exact taken_event (jobWork_takeAdmission s).inner.toSound.taken
  | reportPlacement => cases h; exact taken_event (rteWork_placeReports s).inner.toSound.taken
  | orderReceived a b c =>
    cases h
    refine taken_event ?_
    unfold takeLastByte
    split
    · exact taken_exchangeByte _ _ _ s
    · exact (Sound.refl s).taken
  | orderCutShort => cases h; exact taken_event (inner_cutOrder s).toSound.taken
  | selectPeriodEnd =>
    cases h
    split
    · exact sel _
    · exact ((inner_endSelect s).trans (inner_afterEvent _)).toSound.taken
  | selectPeriodStart =>
    cases h
    split
    · exact sel _
    · exact ((inner_startSelect s).trans (inner_afterEvent _)).toSound.taken
  | reportShiftedOut => cases h; exact taken_event (sound_shiftedOut s).taken
  | beyondCycle => cases h; exact taken_event (ownWork_takeBeyondCycle s).toSound.taken
  | driveConflictDetected => cases h; exact taken_event (ownWork_takeDriveConflict s).toSound.taken
  | byteSampled => cases h; exact taken_event (taken_exchangeByte _ _ _ s)
  | _ => cases h; exact taken_event (taken_receiveOrder _ _ _ s)

/-- A step idles, or runs the command at the front of the queue. -/
theorem step_cases {s t : State} (h : step s = .next t) :
    s = t ∨ ∃ c rest, s.pending = c :: rest ∧ exec c { s with pending := rest } = .next t := by
  unfold step at h
  split at h
  · exact Or.inr ⟨_, _, ‹_›, h⟩
  · cases h
    exact Or.inl rfl

end Sys2Proof.Machine
end

