-- ==== Sys2Proof/Tests/Slice0.lean ====
section
/-! SUPPORT. Tests on small states: the checks of WellFormed, for every statement with hypotheses a state and operands
that meet them all, and facts about single commands. -/

namespace Sys2Proof.Tests

open Sys2Proof Sys2Proof.Machine

-- One theorem at a time: each would otherwise take a thread of its own, and the threads do not all fit.
set_option Elab.async false

/-! ## WellFormed: an ill-formed command for each check -/

theorem test_wf_mark_period : (Instr.cycleMark 0 [.ttu, .rte, .jbu]).wf = false := by decide
theorem test_wf_mark_taker_missing : (Instr.cycleMark 10752 [.ttu, .rte]).wf = false := by decide
theorem test_wf_mark_taker_twice : (Instr.cycleMark 10752 [.ttu, .rte, .jbu, .jbu]).wf = false := by decide
theorem test_wf_mark_boundary_twice :
    (Instr.cycleMark 10752 [.ttu, .rte, .jbu, .boundary true, .boundary false]).wf = false := by decide
theorem test_wf_mark_own_start_twice :
    (Instr.cycleMark 10752 [.ownStart, .ttu, .rte, .jbu, .ownStart]).wf = false := by decide
theorem test_wf_mark_good : (Instr.cycleMark 10752 [.jbu, .boundary true, .ttu, .ownStart, .rte]).wf = true := by decide
theorem test_wf_armed_open : (Instr.operate 1 2 0 0 .opn 0 0 .none true).wf = false := by decide
theorem test_wf_payload : (Instr.routeMake (List.replicate 61 0)).wf = false := by decide
theorem test_wf_unknown_code : (Instr.unknownOrder 0x23 []).wf = false := by decide
theorem test_wf_filler_code : (Instr.unknownOrder 0x00 []).wf = false := by decide

/-! ## Small states -/

/-- The state that an outcome leaves. -/
def after (o : Out) : State :=
  match o with
  | .next t => t
  | _ => State.reset

/-- A configuration record. -/
def tConfig : ConfigRecord :=
  { operateExp := 2, releaseExp := 3, hotWait := 5, replyLimit := 8, wearLimit := 80, threshold := 1,
    alertEnable := 0x3FF, master := true }

/-- Station 3, ONLINE, its table valid and FREE, its Commit Engine IDLE, after the frame end of slot 2. -/
def tOnline : State :=
  { State.reset with
    stc.station := .online, stc.strap := 3, liu.pos := .at 2 400 true, ttu.valid := true, cme.engine := .idle,
    cme.settle := none, orp.config := some tConfig }

/-- The same with the Commit Engine at work. -/
def tBusy : State := { tOnline with cme.engine := .openSense }

/-- The same without the link. -/
def tOffline : State := { tOnline with stc.station := .offline, ttu.valid := false, liu.pos := .unknown }

/-- A station with its table of entries given from T0 up, FREE beyond. -/
def withTable (es : List TrunkEntry) (s : State) : State :=
  { s with ttu.table := Table.tabulate 16 fun t => (es[t.val]?).getD .free }

/-- A station with one membership entry PRESENT. -/
def withPeer (a : Addr) (s : State) : State :=
  { s with mbu.members := s.mbu.members.set a { Member.unseen with state := .present } }

/-- A station with one route entry. -/
def withRoute (tag : Tag) (r : Route) (s : State) : State := { s with rte.routes := s.rte.routes.set tag r }

/-- A station with one crosspoint record. -/
def withXp (x : Xp) (c : Crosspoint) (s : State) : State := { s with cme.xps := s.cme.xps.set x c }

/-- A station with its job list. -/
def withJobs (js : List Job) (s : State) : State := { s with jbu.jobs := js }

/-- A station with its outbound queue waiting. -/
def withQueue (ms : List LinkMsg) (s : State) : State := { s with liu.queue := ms.map fun m => ⟨m, false⟩ }

/-- A queue with no place left. -/
def tFull : List LinkMsg := List.replicate 24 (.fire 0 0)

/-- A job of station 5, route 1, on L2/T4. -/
def tJob (action : Action) (state : JobState) : Job :=
  { ref := ⟨5, 1, 0⟩, line := 2, trunk := 4, action := some action, quiet := .q1, armed := false, state := state,
    counter := none, heldArmed := false, behind := none }

/-- Its crosspoint. -/
def tXp : Xp := xpNum 2 4

/-- The same request on its way. -/
def tRequest (action : Action) (armed : Bool) : JobRequest := ⟨⟨5, 1, 0⟩, 2, 4, action, .q1, armed⟩

/-- An endpoint of station 7, line `l`. -/
def tEnd (l : Line) (status : EndpointStatus) (request : Option Request) : Endpoint :=
  { station := 7, line := l, quiet := .none, status := status, request := request }

/-- A leg won on a trunk. -/
def tLeg (k : Trunk) (claim : ClaimStatus) (es : List Endpoint) : Leg :=
  { requested := none, assigned := some k, claim := claim, lost := 0, replans := 0, endpoints := es }

/-- A route with one leg on T4. -/
def tRoute (state : RouteState) (es : List Endpoint) (owed : List Owed) : Route :=
  { Route.idle with state := state, legs := [tLeg 4 .won es], owed := owed }

/-- A record that is not OPEN, of station 5, route 1. -/
def tRecord (state : XpState) : Crosspoint :=
  { state := state, owner := some ⟨5, 1, 0⟩, quiet := .none, wear := 3, marked := false }

/-- Bits of a pass with the contacts given and the marker good. -/
def tPass (contacts : Image) : PassBits := contacts ++ Config.marker

/-- Bits of a pass with the marker wrong. -/
def tBadPass : PassBits := 0

/-- A good frame of station 5. -/
def tFrame : Frame :=
  { sender := 5, stale := false, joining := false, fault := true, snapshot := Table.fill 16 .free, contacts := 0x0010,
    msgs := [.claim 2 1 0 0, .permit 1 0] }

/-- The order of a cycle mark's takers. -/
def tOrder : List MarkTaker := [.ttu, .rte, .jbu]

/-! ## Hypotheses met: the queue, reset and the laws -/

/-- A station whose queue holds one command. -/
def tPending : State := { tOnline with pending := [.clash] }

theorem test_hyp_StepRunsFrontCommand : tPending.pending = [Instr.clash] := by decide
theorem test_hyp_CommandsAnswerAndQueueStands : tOnline.pending = [] := by decide
theorem test_hyp_StepKeepsRecordsLawful : tPending.recordsLawful = true ∧ step tPending = .next (after (step tPending)) :=
  ⟨by decide +kernel, rfl⟩
theorem test_hyp_StepKeepsCapacities : tPending.withinCapacity = true ∧ step tPending = .next (after (step tPending)) :=
  ⟨by decide +kernel, rfl⟩
theorem test_hyp_StepKeepsPinsAtLevel : tPending.pinsAtLevel = true ∧ step tPending = .next (after (step tPending)) :=
  ⟨by decide +kernel, rfl⟩
theorem test_hyp_WearNeverDecreases : tOnline.recordsLawful = true ∧ tOnline.stc.station ≠ .offline
    ∧ clearsWear .clash = false ∧ exec .clash tOnline = .next (after (exec .clash tOnline)) :=
  ⟨by decide +kernel, by decide, by decide, rfl⟩
theorem test_hyp_MessageReadsBack : (LinkMsg.operate 5 2 4 .close 1 0 .q1 true).sendable = true := by decide
theorem test_hyp_FrameReadsBack : tFrame.sendable = true := by decide
theorem test_hyp_HeldResetIgnoresCommands :
    ({ tOnline with stc.resetHeld := true } : State).stc.resetHeld = true ∧ actsInReset .clash = false := by decide
theorem test_hyp_RestartKeepsSetUp : tOnline.stc.resetHeld = false := by decide

/-! ## Hypotheses met: station life and link timing -/

/-- A station in LISTENING that has heard nothing, one cycle from the end. -/
def tListening : State :=
  { tOnline with stc.station := .listening, stc.listenCount := some 1, ttu.valid := false, ttu.pending := true }
/-- What station 5 shows: T4 HELD by it. -/
def tShown : TrunkTable := Table.tabulate 16 fun k => if k = 4 then .held 5 else .free
/-- The same after STALE headers in the closing cycle, and in an earlier one. -/
def tHeardStale : State := { tListening with ttu.candidate := some ⟨5, tShown⟩ }
/-- The same after STALE headers in an earlier cycle. -/
def tHeardBefore : State := { tListening with ttu.listening := some ⟨5, tShown⟩ }

theorem test_hyp_EndOfListeningFreesTable : (∀ s ∈ [tListening, tHeardStale, tHeardBefore], s.calm = true
      ∧ s.stc.station = .listening ∧ s.stc.listenCount = some 1 ∧ s.stc.cycleError = false ∧ s.ttu.valid = false
      ∧ s.ttu.stale = false)
    ∧ tListening.ttu.candidate = none ∧ tListening.ttu.listening = none
    ∧ tHeardStale.ttu.candidate = some ⟨5, tShown⟩
    ∧ tHeardBefore.ttu.candidate = none ∧ tHeardBefore.ttu.listening = some ⟨5, tShown⟩ := by decide +kernel
theorem test_hyp_EndOfListeningFreesTable_none : tOnline.calm = true ∧ tOnline.stc.station ≠ .listening
    ∧ ({ tListening with stc.listenCount := some 0 } : State).calm = true
    ∧ ({ tListening with stc.cycleError := true } : State).calm = true := by decide +kernel
theorem test_hyp_ClashSilencesStation : ∀ s ∈ [tOnline, tBusy], s.calm = true ∧ s.orp.orders = [] ∧ s.canClash = true := by
  decide +kernel
theorem test_hyp_CycleMarkDrains : tOnline.stc.resetHeld = false ∧ tOnline.hears = true ∧ tOnline.ttu.valid = true
    ∧ tOnline.ttu.stale = false := by decide
theorem test_hyp_OverrunMakesStale : tOnline.calm = true ∧ tOnline.hears = true ∧ tOnline.ttu.valid = true
    ∧ tOnline.ttu.stale = false ∧ tOnline.ttu.watch = false ∧ tOnline.overrun 10751 = true ∧ tOnline.orp.orders = []
    ∧ MarkTaker.ownStart ∉ tOrder := by decide +kernel
theorem test_hyp_PositionAndConflictEvents_boundary : tOnline.calm = true ∧ tOnline.hears = true
    ∧ tOnline.liu.pos.before 3 1 = true ∧ tOnline.liu.ownSlot = false
    ∧ ¬(true = true ∧ tOnline.liu.trig = some false) := by decide +kernel
theorem test_hyp_PositionAndConflictEvents_beyond : tOnline.calm = true ∧ tOnline.liu.pos = .at 2 400 true
    ∧ tOnline.liu.ownSlot = false ∧ ({ tOnline with liu.pos := .at 23 447 true } : State).calm = true := by
  decide +kernel

/-- The own slot in progress. -/
def tOwnSlot : State := { tOnline with liu.ownSlot := true, liu.pos := .at 3 0 true }

theorem test_hyp_PositionAndConflictEvents_conflict : tOwnSlot.calm = true ∧ tOwnSlot.liu.ownSlot = true := by
  decide +kernel

/-- A STAGED route and a PERMITTED job, with TRIG sampled deasserted. -/
def tStaged : State :=
  withJobs [{ tJob .close .permitted with armed := true }] <|
    withRoute 1 (tRoute .staged [tEnd 2 .armed (some ⟨.close, .idle⟩)] [⟨.make, none⟩]) { tBusy with liu.trig := some false }

theorem test_hyp_TriggerFires : tStaged.calmBusy = true ∧ tStaged.hears = true ∧ tStaged.liu.pos.before 3 1 = true
    ∧ tStaged.liu.ownSlot = false ∧ tStaged.liu.trig = some false ∧ (tStaged.route 1).state = .staged
    ∧ (tStaged.route 2).state ≠ .staged ∧ ∃ e ∈ (tStaged.route 1).endpoints, e.status = .armed := by decide +kernel

/-- A stale station. -/
def tStale : State := { tOnline with ttu.stale := true, ttu.pending := true }
/-- A station with seven waiting messages. -/
def tSeven : State := withQueue (List.replicate 7 (.fire 0 0)) tOnline

theorem test_hyp_OwnSlotStartFixesFrame_silent : tStale.calm = true ∧ tStale.driving = true ∧ tStale.hasSlot = true
    ∧ tStale.liu.pos.before tStale.self 1 = true ∧ tStale.liu.ownSlot = false ∧ tStale.readsQueue = false := by
  decide +kernel
theorem test_hyp_OwnSlotStartFixesFrame_six : tSeven.calm = true ∧ tSeven.driving = true ∧ tSeven.hasSlot = true
    ∧ tSeven.liu.pos.before tSeven.self 1 = true ∧ tSeven.liu.ownSlot = false ∧ tSeven.readsQueue = true
    ∧ tSeven.rte.held = [] ∧ (∀ j ∈ tSeven.jbu.jobs, j.isDone = false ∧ j.heldArmed = false)
    ∧ (∀ i ∈ tSeven.liu.queue, i.inFlight = false ∧ claimTrunk i.msg = none) := by decide +kernel

/-! ## Hypotheses met: frames and membership -/

theorem test_hyp_GoodFrameUpdatesMember : tOnline.stc.resetHeld = false ∧ tOnline.hears = true
    ∧ tOnline.liu.pos.before 5 400 = true ∧ tOnline.heardSlot 5 = true ∧ tOnline.isSelf 5 = false
    ∧ judge 5 (encodeFrame tFrame) false = .good tFrame := by decide +kernel

/-- Station 5 is PRESENT. -/
def tPeer : State := withPeer 5 tOnline

theorem test_hyp_EmptyAndBadSlots_empty : tPeer.stc.resetHeld = false ∧ tPeer.hears = true
    ∧ tPeer.liu.pos.before 5 400 = true ∧ tPeer.heardSlot 5 = true ∧ tPeer.isSelf 5 = false
    ∧ judge 5 (BitVec.allOnes 400) false = .empty ∧ (tPeer.mbu.members.get 5).state = .present
    ∧ (tPeer.mbu.members.get 5).missed < 2 := by decide +kernel
theorem test_hyp_EmptyAndBadSlots_bad : tPeer.stc.resetHeld = false ∧ tPeer.hears = true
    ∧ tPeer.liu.pos.before 5 400 = true ∧ tPeer.heardSlot 5 = true ∧ tPeer.isSelf 5 = false
    ∧ judge 5 0 false = .bad ∧ tPeer.calm = true ∧ tPeer.liu.ownSlot = false ∧ tPeer.ttu.valid = true
    ∧ tPeer.ttu.stale = false := by decide +kernel
/-- A good frame of station 5 with no message; it contacts T4. -/
def tQuietFrame (stale : Bool) (shown : TrunkTable) : Frame :=
  { tFrame with stale := stale, snapshot := shown, msgs := [] }
/-- The mismatch counter is 1. -/
def tMismatch : State := { tOnline with ttu.mismatch := true }

theorem test_hyp_GoodFrameMovesTrunkTable : (∀ s ∈ [tOnline, tMismatch, tStale], s.stc.resetHeld = false
      ∧ s.hears = true ∧ s.liu.pos.before 5 400 = true ∧ s.heardSlot 5 = true ∧ s.isSelf 5 = false)
    ∧ (∀ s ∈ [tOnline, tMismatch], s.ttu.valid = true ∧ s.ttu.stale = false ∧ s.ttu.pending = false
      ∧ (∀ k, (tQuietFrame false (Table.fill 16 .free)).snapshot.get k = s.entry k)
      ∧ (∃ k, (tQuietFrame false tShown).snapshot.get k ≠ s.entry k) ∧ s.orp.orders = [])
    ∧ tOnline.ttu.mismatch = false ∧ tMismatch.ttu.mismatch = true ∧ tStale.ttu.pending = true := by decide +kernel
theorem test_hyp_GoodFrameMovesTrunkTable_frame : ∀ f ∈ [tQuietFrame false (Table.fill 16 .free),
    tQuietFrame false tShown, tQuietFrame true tShown], judge 5 (encodeFrame f) false = .good f ∧ f.msgs = [] := by
  decide +kernel

/-- The own frame of station 3 in its slot, with the messages that it carries in flight, before its end. -/
def tSending (f : Frame) (s : State) : State :=
  { s with
    liu.ownSlot := true, liu.pos := .at 3 0 true, liu.frame := encodeFrame f,
    liu.queue := f.msgs.map (fun m => ⟨m, true⟩) ++ s.liu.queue }
/-- The own frame. -/
def tOwnFrame (joining : Bool) (msgs : List LinkMsg) : Frame :=
  { sender := 3, stale := false, joining := joining, fault := false, snapshot := Table.fill 16 .free, contacts := 0,
    msgs := msgs }
/-- JOINING, its first own frame on the link. -/
def tFirstFrame : State := tSending (tOwnFrame true []) { tOnline with stc.station := .joining }
/-- The OPERATE of a round of route 1 that also closes L2/T4 here. -/
def tOut : LinkMsg := .operate 7 2 4 .close 1 0 .none false
/-- The local job of that round. -/
def tHere : JobRequest := ⟨⟨3, 1, 0⟩, 2, 4, .close, .q1, false⟩
/-- A CLOSING route whose one OPERATE is in the own frame, its local job not yet handed over. -/
def tHanding (quiet : BitVec 4) : State :=
  tSending (tOwnFrame false [tOut]) <|
    withRoute 1 (tRoute .closing [tEnd 2 .requested (some ⟨.close, .idle⟩),
      ⟨3, 2, .q1, .requested, some ⟨.close, .idle⟩⟩] [⟨.make, none⟩])
      { tBusy with jbu.quiet := quiet, rte.rounds := [⟨1, 0, .close, [tOut], [tHere]⟩] }
/-- A garbled own frame with a FIRE and a CLAIM in it, and a RELEASE waiting; the count of drive conflicts given. -/
def tGarbled (n : Nat) : State :=
  tSending (tOwnFrame false [.fire 1 0, .claim 4 1 0 0]) <|
    { withQueue [.release 6] tOnline with liu.garbled := true, liu.conflicts := n }

theorem test_hyp_OwnFrameSettles : ∀ s ∈ [tFirstFrame, tHanding 0, tHanding 2, tGarbled 0, tGarbled 1],
    s.driving = true ∧ s.hasSlot = true ∧ s.self = 3 ∧ s.liu.ownSlot = true ∧ s.inSlot s.self = true
    ∧ s.liu.pos.before s.self 400 = true ∧ s.heardSlot s.self = true ∧ s.stc.resetHeld = false := by decide +kernel
theorem test_hyp_OwnFrameSettles_good :
    (tFirstFrame.liu.garbled = false ∧ judge 3 tFirstFrame.liu.frame false = .good (tOwnFrame true []))
    ∧ ∀ s ∈ [tHanding 0, tHanding 2], s.liu.garbled = false ∧ s.calmBusy = true ∧ s.stc.station = .online
      ∧ s.ttu.stale = false ∧ (s.mbu.members.get s.self).state ≠ .absent ∧ s.isSelf 7 = false
      ∧ tHere.ref.origin = s.self ∧ (s.route 1).gen = tHere.ref.gen ∧ (s.route 1).state = .closing
      ∧ (s.route 1).anyRequested = true ∧ s.jbu.jobs = [] ∧ s.rte.held = []
      ∧ s.liu.queue = [⟨tOut, true⟩] ∧ s.rte.rounds = [⟨1, 0, .close, [tOut], [tHere]⟩]
      ∧ judge 3 s.liu.frame false = .good (tOwnFrame false [tOut]) := by decide +kernel
theorem test_hyp_OwnFrameSettles_bad : judge 3 0 true = .bad ∧ ∀ s ∈ [tGarbled 0, tGarbled 1], s.calm = true
    ∧ s.liu.garbled = true ∧ s.rte.held = [] ∧ s.rte.rounds = [] ∧ s.jbu.jobs = [] ∧ s.orp.orders = []
    ∧ s.ttu.valid = true := by decide +kernel
theorem test_hyp_AbsenceDrainsTrunks : tPeer.stc.resetHeld = false ∧ tPeer.hears = true ∧ tPeer.isSelf 5 = false
    ∧ (tPeer.mbu.members.get 5).state = .present ∧ tPeer.ttu.valid = true := by decide +kernel

/-- Two messages held pending, one place in the queue. -/
def tHeld : State :=
  { withQueue (List.replicate 23 (.fire 0 0)) tOnline with rte.held := [⟨.release 4, none⟩, ⟨.abandon 1 0, some 1⟩] }

theorem test_hyp_AdmissionFillsQueue : tHeld.calm = true ∧ tHeld.driving = true
    ∧ (∀ j ∈ tHeld.jbu.jobs, j.isDone = false ∧ j.heldArmed = false) := by decide +kernel

/-! ## Hypotheses met: link messages -/

theorem test_hyp_ClaimDecides_free : tOnline.calm = true ∧ tOnline.hears = true ∧ tOnline.ttu.valid = true
    ∧ (tOnline.isSelf 3 = true → tOnline.claimLeg .sent 4 1 0 0 = false) ∧ tOnline.entry 4 = .free := by
  decide +kernel

/-- T4 HELD by station 5, T5 QUARANTINED by it. -/
def tTaken : State := withTable [.free, .free, .free, .free, .held 5, .quarantined 5] tOnline

theorem test_hyp_ClaimDecides_taken : tTaken.calm = true ∧ tTaken.hears = true ∧ tTaken.ttu.valid = true
    ∧ (tTaken.isSelf 5 = true → tTaken.claimLeg .sent 4 1 0 0 = false) ∧ tTaken.entry 4 ≠ .free := by decide +kernel

/-- A route in CLAIMING with two legs, both CLAIMs sent. -/
def tClaiming : State :=
  withRoute 1 { Route.idle with
    state := .claiming, owed := [⟨.make, none⟩],
    legs := [tLeg 4 .sent [tEnd 2 .idle none], tLeg 6 .sent [tEnd 3 .idle none]] } tOnline

theorem test_hyp_OwnClaimWinsLeg : tClaiming.calm = true ∧ tClaiming.hasSlot = true ∧ tClaiming.hears = true
    ∧ tClaiming.ttu.valid = true ∧ tClaiming.claimLeg .sent 4 1 0 0 = true ∧ tClaiming.entry 4 = .free
    ∧ (tClaiming.route 1).reason = none := by decide +kernel
theorem test_hyp_OwnClaimWinsLeg_other : ∃ i l, i ≠ (0 : Fin 4).val ∧ (tClaiming.route 1).legs[i]? = some l ∧ l.claim ≠ .won :=
  ⟨1, tLeg 6 .sent [tEnd 3 .idle none], by decide, by decide +kernel, by decide⟩

theorem test_hyp_ReleaseAndQuarantine : tTaken.calm = true ∧ tTaken.hears = true ∧ tTaken.ttu.valid = true
    ∧ tTaken.entry 4 = .held 5 ∧ tTaken.entry 5 = .quarantined 5 ∧ tTaken.entry 6 ≠ .held 5
    ∧ tTaken.entry 6 ≠ .quarantined 5 ∧ tTaken.entry 5 ≠ .held 5 := by decide +kernel

/-- A station in FAULT. -/
def tFault : State := { tOnline with stc.station := .fault }
/-- A station with its job list full. -/
def tCrowded : State := withJobs (List.replicate 32 (tJob .close .quietWait)) tOnline
/-- A station that has the job already. -/
def tAgain : State := withJobs [tJob .close .quietWait] tOnline

theorem test_hyp_OperateAnsweredAtIntake_fault : tFault.calm = true ∧ tFault.driving = true ∧ tFault.isSelf 3 = true
    ∧ tFault.isSelf 5 = false ∧ (tRequest .close true).ref.origin = 5
    ∧ ((tRequest .close true).armed = true → (tRequest .close true).action = .close)
    ∧ tFault.stc.station = .fault := by decide +kernel
theorem test_hyp_OperateAnsweredAtIntake_busy : tCrowded.calm = true ∧ tCrowded.driving = true
    ∧ tCrowded.isSelf 3 = true ∧ tCrowded.isSelf 5 = false ∧ tCrowded.stc.station ≠ .fault
    ∧ tCrowded.jobPlace = false := by decide +kernel
theorem test_hyp_OperateAnsweredAtIntake_again : tAgain.calm = true ∧ tAgain.driving = true ∧ tAgain.isSelf 3 = true
    ∧ tAgain.isSelf 5 = false ∧ tAgain.stc.station ≠ .fault ∧ tAgain.jobPlace = true
    ∧ ∃ j ∈ tAgain.jbu.jobs, j.ref = (tRequest .close false).ref ∧ j.line = 2 ∧ j.trunk = 4 ∧ j.action = some .close := by
  decide +kernel

/-- Q1 asserted, the Commit Engine at work. -/
def tQuiet : State := { tBusy with jbu.quiet := 0b0010 }

theorem test_hyp_OperateClosePlaced : tBusy.calmBusy = true ∧ tBusy.driving = true ∧ tBusy.isSelf 3 = true
    ∧ tBusy.isSelf 5 = false ∧ tBusy.stc.station ≠ .fault ∧ tBusy.jobPlace = true ∧ tBusy.jbu.jobs = []
    ∧ tBusy.ttu.stale = false ∧ quietOk tBusy.jbu.quiet .q1 = false ∧ tBusy.queueHasPlace = true
    ∧ tQuiet.calmBusy = true ∧ quietOk tQuiet.jbu.quiet .q1 = true := by decide +kernel
theorem test_hyp_OperateClosePlaced_stale : ({ tStale with cme.engine := .closeDrive } : State).calmBusy = true
    ∧ ({ tStale with cme.engine := .closeDrive } : State).ttu.stale = true := by decide +kernel

theorem test_hyp_OperateOpenAnswered : tTaken.calm = true ∧ tTaken.driving = true ∧ tTaken.isSelf 3 = true
    ∧ tTaken.isSelf 5 = false ∧ (tRequest .forceOpen false).action ≠ .close ∧ tTaken.stc.station ≠ .fault
    ∧ tTaken.ttu.stale = false ∧ tTaken.jobPlace = true ∧ tTaken.queueHasPlace = true ∧ tTaken.jbu.jobs = []
    ∧ (tTaken.entry 4).ownedBy 5 = true ∧ (tTaken.xp tXp).state = .opn ∧ (tOnline.entry 4).ownedBy 5 = false := by
  decide +kernel

/-- The crosspoint is CLOSED on a trunk that its origin holds, the Commit Engine at work. -/
def tStanding (quiet : BitVec 4) : State :=
  withXp tXp (tRecord .closed) { tTaken with cme.engine := .openSense, jbu.quiet := quiet }

theorem test_hyp_OperateOpenAnswered_placed : ∀ s ∈ [tStanding 0, tStanding 2,
      withJobs [tJob .close .quietWait] (tStanding 2)], s.calm = true ∧ s.driving = true ∧ s.isSelf 3 = true
    ∧ s.isSelf 5 = false ∧ s.stc.station ≠ .fault ∧ s.ttu.stale = false ∧ s.jobPlace = true
    ∧ (s.entry 4).ownedBy 5 = true ∧ (s.xp tXp).state ≠ .opn ∧ s.cme.engine ≠ .idle := by decide +kernel
theorem test_hyp_OperateOpenAnswered_quiet : quietOk (tStanding 0).jbu.quiet .q1 = false
    ∧ quietOk (tStanding 2).jbu.quiet .q1 = true ∧ (tJob .close .quietWait).cancellable = true := by decide +kernel

/-- A result of station 7 for route 1. -/
def tResult (code : ResultCode) : RouteResult := ⟨7, 1, 0, 2, 4, code⟩

/-- A QUARANTINED route whose endpoint is UNKNOWN. -/
def tLate : State := withRoute 1 (tRoute .quarantined [tEnd 2 .unknown (some ⟨.opn, .closed⟩)] []) tOnline

theorem test_hyp_ResultMovesEndpoint : tLate.calm = true ∧ tLate.driving = true ∧ tLate.isSelf 3 = true
    ∧ (tLate.route 1).state = .quarantined ∧ (tLate.route 1).gen = 0 ∧ (tLate.route 1).timer = none
    ∧ (tLate.route 1).findEndpoint (tResult .opened) = some (tEnd 2 .unknown (some ⟨.opn, .closed⟩))
    ∧ statusAfter false (tEnd 2 .unknown (some ⟨.opn, .closed⟩)) .opened = some .opn := by decide +kernel
/-- A late result of a job of this station's own, in CLASH. -/
def tClashed : State :=
  withRoute 1 (tRoute .quarantined [⟨3, 2, .none, .unknown, some ⟨.opn, .closed⟩⟩] [])
    { tOnline with stc.station := .clash }

theorem test_hyp_ResultMovesEndpoint_local : tClashed.calm = true ∧ tClashed.isSelf 3 = true
    ∧ tClashed.driving = false ∧ (tClashed.route 1).state = .quarantined ∧ (tClashed.route 1).gen = 0
    ∧ (tClashed.route 1).timer = none
    ∧ (tClashed.route 1).findEndpoint ⟨3, 1, 0, 2, 4, .opened⟩ = some ⟨3, 2, .none, .unknown, some ⟨.opn, .closed⟩⟩ := by
  decide +kernel
theorem test_hyp_ResultMovesEndpoint_other : (tLate.route 1).gen ≠ (⟨7, 1, 5, 2, 4, .opened⟩ : RouteResult).gen := by
  decide +kernel

/-- A route in CLOSING with one endpoint CLOSED and one REQUESTED. -/
def tClosing : State :=
  withRoute 1 { tRoute .closing [tEnd 2 .requested (some ⟨.close, .idle⟩), tEnd 3 .closed (some ⟨.close, .idle⟩)]
    [⟨.make, none⟩] with timer := some 7 } tOnline

theorem test_hyp_LastClosedMakesRoute : tClosing.calmOrders = true ∧ tClosing.driving = true ∧ tClosing.isSelf 3 = true
    ∧ (tResult .closed).code = .closed ∧ (tClosing.route 1).state = .closing ∧ (tClosing.route 1).gen = 0
    ∧ (tClosing.route 1).worn = false ∧ (tClosing.route 1).owed = [⟨.make, none⟩]
    ∧ (tClosing.route 1).findEndpoint (tResult .closed) = some (tEnd 2 .requested (some ⟨.close, .idle⟩))
    ∧ (∀ l ∈ (tClosing.route 1).legs, ∀ e ∈ l.endpoints, e.status = .closed ∨ concerns (tResult .closed) l e = true) := by
  decide +kernel

/-- A close of station 5 that waits, the Commit Engine at work; and the same with the queue full. -/
def tWaits : State := withJobs [tJob .close .quietWait] tBusy
/-- The same with the queue full. -/
def tWaitsFull : State := withQueue tFull tWaits

theorem test_hyp_AbandonCancelsCloses : (∀ s ∈ [tWaits, tAgain], s.calm = true ∧ s.driving = true
      ∧ s.isSelf 5 = false ∧ s.jbu.jobs = [tJob .close .quietWait] ∧ s.queueHasPlace = true)
    ∧ (tJob .close .quietWait).ref = ⟨5, 1, 0⟩ ∧ (tJob .close .quietWait).cancellable = true
    ∧ tWaitsFull.calm = true ∧ tWaitsFull.queueHasPlace = false := by decide +kernel

/-- A route in ARMING or STAGED, its endpoint ARMED, an ARMED-HELD and a PERMITTED job of station 5 in the list. -/
def tArmed (state : RouteState) (s : State) : State :=
  withJobs [{ tJob .close .armedHeld with armed := true }, { tJob .close .permitted with line := 3, armed := true }] <|
    withRoute 1 (tRoute state [tEnd 2 .armed (some ⟨.close, .idle⟩)] [⟨.make, none⟩]) s

theorem test_hyp_PermitAndFire : (∀ s ∈ [tArmed .arming tOnline, tArmed .arming tBusy, tArmed .staged tBusy],
      s.calm = true ∧ s.driving = true ∧ s.isSelf 5 = false ∧ s.isSelf 3 = true ∧ (s.route 1).gen = 0
      ∧ (s.route 1).timer = none)
    ∧ (∃ j ∈ (tArmed .arming tOnline).jbu.jobs, j.ref = ⟨5, 1, 0⟩ ∧ j.state = .armedHeld)
    ∧ (∃ j ∈ (tArmed .arming tBusy).jbu.jobs, j.ref = ⟨5, 1, 0⟩ ∧ j.state = .permitted)
    ∧ ((tArmed .arming tOnline).route 1).state = .arming
    ∧ (tArmed .staged tBusy).cme.engine ≠ .idle ∧ ((tArmed .staged tBusy).route 1).state = .staged
    ∧ ∃ e ∈ ((tArmed .staged tBusy).route 1).endpoints, e.status = .armed := by decide +kernel

/-! ## Hypotheses met: timers -/

theorem test_hyp_QuietChangeMovesJobs : tAgain.calm = true ∧ tWaits.calm = true ∧ tWaits.cme.engine ≠ .idle
    ∧ ∃ j ∈ tWaits.jbu.jobs, j.state = .quietWait ∧ quietInput j.quiet = some 1 := by decide +kernel

/-- A break whose reply does not come. -/
def tOpening : State :=
  withRoute 1 { tRoute .opening [tEnd 2 .requested (some ⟨.opn, .closed⟩)] [⟨.brk, none⟩] with timer := some 1 } tOnline

theorem test_hyp_ReplyTimerEndsBreak : tOpening.calm = true ∧ (tOpening.route 1).state = .opening
    ∧ (tOpening.route 1).timer.isSome = true ∧ (tOpening.route 1).reason = none := by decide +kernel

theorem test_hyp_WaitAndSweepTimersExpire : tAgain.calm = true ∧ tAgain.jbu.jobs = [tJob .close .quietWait]
    ∧ (tJob .close .quietWait).state = .quietWait ∧ (tJob .close .quietWait).action = some .close
    ∧ tAgain.isSelf (tJob .close .quietWait).ref.origin = false ∧ tAgain.queueHasPlace = true := by decide +kernel

/-- A marked crosspoint, its sweep timer running. -/
def tMarked : State := { withXp tXp { tRecord .closed with marked := true } tBusy with jbu.sweep := .running 1 }

theorem test_hyp_WaitAndSweepTimersExpire_sweep : tMarked.calmBusy = true ∧ tMarked.jbu.sweep = .running 1 := by
  decide +kernel

/-! ## Hypotheses met: the Commit Engine -/

/-- A READY close on a trunk that its station holds, its quiet input asserted. -/
def tReady : State := withJobs [tJob .close .ready] { tTaken with jbu.quiet := 0b0010 }

theorem test_hyp_FormationDrivesClose : ({ tReady with jbu.jobs := [] } : State).calm = true
    ∧ tReady.jbu.jobs = [tJob .close .ready] ∧ tReady.cme.engine = .idle ∧ tReady.cme.check = none
    ∧ tReady.anyMark = false ∧ quietOk tReady.jbu.quiet .q1 = true ∧ tReady.stc.station ≠ .fault
    ∧ (tReady.xp tXp).wear < tReady.cfg.wearLimit ∧ tReady.entry 4 = .held 5
    ∧ (∀ k, (tReady.xp (xpNum 2 k)).state = .opn) := by decide +kernel

/-- A READY open of the crosspoint's owner. -/
def tReadyOpen (action : Action) (state : XpState) : State :=
  withXp tXp (tRecord state) { tReady with jbu.jobs := [tJob action .ready] }

theorem test_hyp_FormationDrivesClose_open : ∀ s ∈ [tReadyOpen .opn .closed, tReadyOpen .opn (.unknown true),
      tReadyOpen .forceOpen .closed], ({ s with jbu.jobs := [] } : State).calm = true ∧ s.cme.engine = .idle
    ∧ s.cme.check = none ∧ s.anyMark = false ∧ quietOk s.jbu.quiet .q1 = true
    ∧ (s.xp tXp).owner = some ⟨5, 1, 0⟩ ∧ (s.xp tXp).state ≠ .opn := by decide +kernel

/-- The same with the trunk FREE, with the crosspoint retired, and with the line taken. -/
def tUnheld : State := withTable [] tReady
/-- The crosspoint is retired. -/
def tRetired : State := withXp tXp { Crosspoint.reset with wear := 80 } tReady
/-- Another crosspoint of the line is CLOSED. -/
def tLineTaken : State := withXp (xpNum 2 9) (tRecord .closed) tReady
/-- The station is in FAULT. -/
def tReadyFault : State := { tReady with stc.station := .fault }

/-- The crosspoint is not OPEN: CLOSED for the job's own route, with the wear given, or UNKNOWN. -/
def tOwnXp (state : XpState) (wear : Nat) : State := withXp tXp { tRecord state with wear := wear } tReady

theorem test_hyp_FormationDecidesClose : (∀ s ∈ [tUnheld, tRetired, tLineTaken, tReadyFault, tOwnXp .closed 3,
      tOwnXp .closed 70, tOwnXp (.unknown false) 3],
      ({ s with jbu.jobs := [] } : State).calm = true ∧ s.jbu.jobs = [tJob .close .ready] ∧ s.cme.engine = .idle
      ∧ s.cme.check = none ∧ s.anyMark = false ∧ quietOk s.jbu.quiet .q1 = true ∧ s.canAnswer ⟨5, 1, 0⟩)
    ∧ tReadyFault.stc.station = .fault
    ∧ (tRetired.stc.station ≠ .fault ∧ tRetired.cfg.wearLimit ≤ (tRetired.xp tXp).wear)
    ∧ ((tUnheld.xp tXp).wear < tUnheld.cfg.wearLimit ∧ tUnheld.entry 4 ≠ .held 5)
    ∧ (∀ s ∈ [tLineTaken, tOwnXp .closed 3, tOwnXp .closed 70, tOwnXp (.unknown false) 3],
      s.passesFirstChecks (tJob .close .ready))
    ∧ ((tLineTaken.xp tXp).state = .opn ∧ ∃ k, (tLineTaken.xp (xpNum 2 k)).state ≠ .opn)
    ∧ (∀ n ∈ [3, 70], ((tOwnXp .closed n).xp tXp).state = .closed
      ∧ ((tOwnXp .closed n).xp tXp).owner = some ⟨5, 1, 0⟩ ∧ (tOwnXp .closed n).warnLevel = 70)
    ∧ ((tOwnXp (.unknown false) 3).xp tXp).state = .unknown false := by decide +kernel

/-- A READY open beside a READY close: of the close's own crosspoint, or of another of its line. -/
def tOpenBeside (k : Trunk) : State :=
  withJobs [{ tJob .opn .ready with trunk := k }, tJob .close .ready] (withXp (xpNum 2 k) (tRecord .closed) tReady)

theorem test_hyp_FormationDecidesClose_waits : ∀ k ∈ [(4 : Trunk), 9],
    ({ tOpenBeside k with jbu.jobs := [] } : State).calm = true ∧ (tOpenBeside k).cme.engine = .idle
    ∧ (tOpenBeside k).anyMark = false ∧ quietOk (tOpenBeside k).jbu.quiet .q1 = true
    ∧ (tOpenBeside k).passesFirstChecks (tJob .close .ready)
    ∧ ((tOpenBeside k).xp (xpNum 2 k)).state = .closed ∧ ((tOpenBeside k).xp (xpNum 2 k)).owner = some ⟨5, 1, 0⟩
    ∧ (k = 4 ∨ ((tOpenBeside k).xp tXp).state = .opn) := by decide +kernel

/-- A second READY close for the line, of another route: for the same crosspoint, or for another. -/
def tSecond (k : Trunk) : Job := { tJob .close .ready with ref := ⟨5, 2, 0⟩, trunk := k }
/-- Both closes in the list, T4 and T6 HELD by their origin. -/
def tTwoCloses (k : Trunk) : State :=
  withJobs [tJob .close .ready, tSecond k]
    (withTable [.free, .free, .free, .free, .held 5, .free, .held 5] tReady)

theorem test_hyp_FormationDecidesClose_second : ∀ k ∈ [(4 : Trunk), 6],
    ({ tTwoCloses k with jbu.jobs := [] } : State).calm = true ∧ (tTwoCloses k).cme.engine = .idle
    ∧ (tTwoCloses k).anyMark = false ∧ quietOk (tTwoCloses k).jbu.quiet .q1 = true
    ∧ (tTwoCloses k).passesFirstChecks (tJob .close .ready) ∧ (tTwoCloses k).passesFirstChecks (tSecond k)
    ∧ tSecond k ≠ tJob .close .ready ∧ (tTwoCloses k).canAnswer (tSecond k).ref
    ∧ ∀ k', ((tTwoCloses k).xp (xpNum 2 k')).state = .opn := by decide +kernel

/-- The Commit Engine in a state of Table 10-2. -/
def tEngine (e : Engine) : State := { tOnline with cme.engine := e, cme.drive := 1, cme.settle := some 8 }

theorem test_hyp_StrokeTimesMoveEngine : passMarkerGood (tPass 0) = true
    ∧ (∀ e ∈ [Engine.openDrive, .closeDrive, .releaseSettle, .operateSettle, .clearSettle],
      (tEngine e).calm = true ∧ (tEngine e).cme.engine = e)
    ∧ (tEngine .clearSettle).cme.check = none ∧ (tEngine .clearSettle).jbu.jobs = []
    ∧ (tEngine .clearSettle).anyMark = false := by decide +kernel

theorem test_hyp_MarkerFailureIsChainFault : passMarkerGood tBadPass = false
    ∧ ∀ e ∈ [Engine.openDrive, .closeDrive, .openSense, .closeSense, .checkPass],
      (tEngine e).stc.resetHeld = false ∧ (tEngine e).orp.orders = [] ∧ (tEngine e).cme.engine = e
      ∧ (tEngine e).driving = true := by decide +kernel

/-- The contact of `tXp` alone. -/
def tContact : Image := BitVec.twoPow 512 tXp.val

/-- The contact bits of `tPass` are those given, and its marker is good. -/
theorem tPass_good (c : Image) : passContacts (tPass c) = c ∧ passMarkerGood (tPass c) = true := by
  constructor
  · exact BitVec.extractLsb'_append_eq_left
  · simp only [passMarkerGood, tPass, BitVec.extractLsb'_append_eq_right, beq_self_eq_true]

/-- A station whose records are OPEN but for one. -/
theorem withXp_get (x y : Xp) (c : Crosspoint) (e : Engine) :
    (withXp x c (tEngine e)).xp y = if x = y then c else Crosspoint.reset := by
  have h : ∀ z, (tEngine e).cme.xps.get z = Crosspoint.reset := fun z => Table.get_fill _ z
  show ((tEngine e).cme.xps.set x c).get y = _
  rw [Table.get_set, h]

/-- No other crosspoint has a contact than that of `tXp`. -/
theorem tContact_other (y : Xp) (h : y ≠ tXp) : tContact.getLsbD y.val = false := by
  have hv : (y.val : Nat) ≠ tXp.val := fun e => h (Fin.ext e)
  rw [tContact, BitVec.getLsbD_twoPow]
  simp only [Bool.and_eq_false_imp, decide_eq_true_eq, decide_eq_false_iff_not]
  exact fun _ e => hv e.symm

/-- With one record that is not OPEN no pass conflicts. -/
theorem tConflict (c : Crosspoint) (e : Engine) (i : Image) (h : ∀ y : Xp, y ≠ tXp → i.getLsbD y.val = false) :
    lineConflict (sensedRecords i (withXp tXp c (tEngine e)).cme.xps) = false := by
  refine lineConflict_sensed_single tXp fun y hy => ⟨?_, h y hy⟩
  have := withXp_get tXp y c e
  rw [if_neg (Ne.symm hy)] at this
  exact (congrArg Crosspoint.state this).trans rfl

/-- With no record CLOSED no owner is sent DROPPED. -/
theorem tDropped (c : Crosspoint) (e : Engine) (i : Image) (h : c.state ≠ .closed) :
    (withXp tXp c (tEngine e)).droppedBy i = [] := by
  refine droppedBy_eq_nil i fun y => ?_
  rw [withXp_get]
  split
  · exact h
  · exact fun e => by cases e

/-- A swept crosspoint at its sense pass. -/
def tSwept : State := withXp tXp (tRecord .opening) (tEngine .openSense)

theorem test_hyp_OpenSenseSettlesRecords : tSwept.calm = true ∧ tSwept.cme.engine = .openSense
    ∧ tSwept.jbu.jobs = [] ∧ tSwept.cme.check = none ∧ tSwept.jbu.sweep = .absent := by decide +kernel
theorem test_hyp_OpenSenseSettlesRecords_pass : passMarkerGood (tPass 0) = true
    ∧ lineConflict (sensedRecords (passContacts (tPass 0)) tSwept.cme.xps) = false
    ∧ tSwept.droppedBy (passContacts (tPass 0)) = []
    ∧ ∀ x, ((tSwept.xp x).sensed ((passContacts (tPass 0)).getLsbD x.val)).marked = false := by
  rw [(tPass_good 0).1]
  refine ⟨(tPass_good 0).2, tConflict _ _ _ fun y _ => BitVec.getLsbD_zero,
    tDropped _ _ _ (fun e => by cases e), fun x => sensed_unmarked ?_ _⟩
  rw [tSwept, withXp_get]
  split <;> rfl

/-- An OPEN at its sense pass. -/
def tOpenSensing : State := withJobs [tJob .opn .inBatch] tSwept

theorem test_hyp_OpenSenseSettlesRecords_job : tOpenSensing.calm = true ∧ tOpenSensing.cme.engine = .openSense
    ∧ tOpenSensing.jbu.jobs = [tJob .opn .inBatch] ∧ (tOpenSensing.xp tXp).state = .opening
    ∧ tOpenSensing.isSelf 5 = false ∧ tOpenSensing.stc.station ≠ .clash ∧ tOpenSensing.queueHasPlace = true
    ∧ (tOpenSensing.mbu.members.get 5).state ≠ .absent := by decide +kernel
theorem test_hyp_OpenSenseSettlesRecords_contact (c : Image) (hc : c = 0 ∨ c = tContact) :
    passMarkerGood (tPass c) = true
    ∧ lineConflict (sensedRecords (passContacts (tPass c)) tOpenSensing.cme.xps) = false
    ∧ tOpenSensing.droppedBy (passContacts (tPass c)) = []
    ∧ ∀ x, ((tOpenSensing.xp x).sensed ((passContacts (tPass c)).getLsbD x.val)).marked = false := by
  rw [(tPass_good c).1]
  refine ⟨(tPass_good c).2, tConflict (tRecord .opening) .openSense c fun y hy => ?_,
    tDropped (tRecord .opening) .openSense c (fun e => by cases e), fun x => sensed_unmarked ?_ _⟩
  · rcases hc with rfl | rfl
    · exact BitVec.getLsbD_zero
    · exact tContact_other y hy
  · have h : tOpenSensing.xp x = if tXp = x then tRecord .opening else Crosspoint.reset :=
      withXp_get tXp x (tRecord .opening) .openSense
    rw [h]
    split <;> rfl

/-- A close at its sense pass. -/
def tSensing : State := withJobs [tJob .close .inBatch] (withXp tXp (tRecord .closing) (tEngine .closeSense))

theorem test_hyp_CloseSenseVerifies : tSensing.calm = true ∧ tSensing.cme.engine = .closeSense
    ∧ tSensing.cme.check = none ∧ tSensing.anyMark = false ∧ tSensing.jbu.jobs = [tJob .close .inBatch]
    ∧ (tSensing.xp tXp).state = .closing ∧ tSensing.isSelf 5 = false ∧ tSensing.stc.station ≠ .clash
    ∧ (tSensing.mbu.members.get 5).state ≠ .absent ∧ tSensing.queueHasPlace = true := by decide +kernel
theorem test_hyp_CloseSenseVerifies_pass (c : Image) (hc : c = 0 ∨ c = tContact) : passMarkerGood (tPass c) = true
    ∧ lineConflict (sensedRecords (passContacts (tPass c)) tSensing.cme.xps) = false
    ∧ tSensing.droppedBy (passContacts (tPass c)) = [] := by
  rw [(tPass_good c).1]
  refine ⟨(tPass_good c).2, tConflict _ _ _ fun y hy => ?_, tDropped _ _ _ (fun e => by cases e)⟩
  rcases hc with rfl | rfl
  · exact BitVec.getLsbD_zero
  · exact tContact_other y hy
theorem test_hyp_CloseSenseVerifies_contact : (passContacts (tPass tContact)).getLsbD tXp.val = true
    ∧ (passContacts (tPass 0)).getLsbD tXp.val = false := by
  rw [(tPass_good _).1, (tPass_good _).1]
  decide +kernel

/-- A CHECK that waits, and one that runs. -/
def tCheckDue : State := { tOnline with cme.check := some ⟨2, false⟩ }
/-- A CHECK pass in progress over an UNKNOWN crosspoint. -/
def tChecking : State :=
  { withXp tXp (tRecord (.unknown true)) (tEngine .checkPass) with cme.check := some ⟨2, true⟩ }

theorem test_hyp_CheckPassRuns : tCheckDue.stc.resetHeld = false ∧ tCheckDue.cme.engine = .idle
    ∧ tCheckDue.cme.check = some ⟨2, false⟩
    ∧ ({ tCheckDue with cme.check := some ⟨2, true⟩, cme.engine := .checkPass, cme.settle := none } : State).calm = true
    ∧ tChecking.calm = true ∧ tChecking.cme.engine = .checkPass ∧ tChecking.cme.check = some ⟨2, true⟩
    ∧ tChecking.jbu.jobs = [] ∧ tChecking.anyMark = false ∧ tChecking.orp.orders = [] := by decide +kernel
theorem test_hyp_CheckPassRuns_pass : passMarkerGood (tPass tContact) = true
    ∧ lineConflict (sensedRecords (passContacts (tPass tContact)) tChecking.cme.xps) = false
    ∧ tChecking.droppedBy (passContacts (tPass tContact)) = [] := by
  rw [(tPass_good tContact).1]
  exact ⟨(tPass_good _).2, tConflict (tRecord (.unknown true)) .checkPass _ tContact_other,
    tDropped (tRecord (.unknown true)) .checkPass _ (fun e => by cases e)⟩

/-! ## Hypotheses met: the order port and the orders -/

/-- A select period with the report FIFO holding one report. -/
def tSelected : State :=
  { tOnline with orp.selected := true, orp.reports := [.answer 0x04 false .none none] }
/-- The same in the middle of an order, no report place free. -/
def tReceiving : State :=
  { tSelected with
    orp.rx := .payload 0x03 1 [] false, orp.gap := some 20,
    orp.reports := List.replicate 8 (.answer 0x04 false .none none) }

theorem test_hyp_SelectPeriods : tOnline.calm = true ∧ tOnline.orp.selected = false ∧ tSelected.calm = true
    ∧ tSelected.orp.selected = true ∧ tSelected.orp.rx.inOrder = false ∧ tReceiving.calm = true
    ∧ tReceiving.orp.rx.inOrder = true := by decide +kernel
theorem test_hyp_SelectPeriods_filler : tSelected.calm = true ∧ tSelected.orp.rx = .code ∧ tSelected.orp.sent + 1 < 5
    ∧ tSelected.orp.reports = [.answer 0x04 false .none none]
    ∧ (Report.answer 0x04 false .none none).bytes.length = 5 ∧ tSelected.orp.orders = []
    ∧ (∀ tag, (tSelected.route tag).headReady = none)
    ∧ ({ tSelected with orp.sent := 4 } : State).calm = true
    ∧ ({ tSelected with orp.reports := [] } : State).calm = true := by decide +kernel
theorem test_hyp_OrderReceivedOrCut : tReceiving.calm = true ∧ tReceiving.orp.selected = true
    ∧ tReceiving.placeFree = false ∧ tReceiving.fifoFull = false ∧ tReceiving.orp.sent + 1 < 5
    ∧ tReceiving.orp.rx = .payload 0x03 1 [] false ∧ tReceiving.orp.gap.isSome = true := by decide +kernel

/-- The last byte of an overrun, and the length byte of an order or overrun, to come. -/
def tReceivingAt (rx : Reception) : State := { tSelected with orp.rx := rx, orp.gap := some 20 }

theorem test_hyp_OrderReceivedOrCut_overrun : ∀ rx ∈ [Reception.payload 0x03 1 [] true, .length 0x03 true,
      .length 0x03 false], (tReceivingAt rx).calm = true ∧ (tReceivingAt rx).orp.selected = true
    ∧ (tReceivingAt rx).orp.reports = [.answer 0x04 false .none none] ∧ (tReceivingAt rx).orp.sent + 1 < 5
    ∧ (tReceivingAt rx).orp.rx = rx ∧ (tReceivingAt rx).orp.rx.inOrder = true
    ∧ (tReceivingAt rx).orp.gap.isSome = true := by decide +kernel

/-- A report as an ended MAKE leaves it. -/
def tReport : RouteReport := routeReport 1 .make .refused .noTrunk (tRoute .ended [] [])
/-- An ENDED route whose report is ready. -/
def tEnded : State := withRoute 1 (tRoute .ended [] [⟨.make, some tReport⟩]) tOnline

theorem test_hyp_ReportsPlacedAndRemoved : tEnded.stc.resetHeld = false ∧ commitWork tEnded = none
    ∧ tEnded.orp.orders = [] ∧ tEnded.placeFree = true ∧ (tEnded.route 1).owed = [⟨.make, some tReport⟩]
    ∧ (∀ tag, tag ≠ 1 → (tEnded.route tag).headReady = none) ∧ commitWork tSelected = none
    ∧ (∀ tag, (tSelected.route tag).headReady = none) := by decide +kernel

/-- The bytes of a CONFIGURE and of a WEAR-LOAD. -/
def tConfigure : List Byte := [2, 3, 5, 8, 0, 0, 80, 1, 3, 255, 1]
/-- The bytes of a WEAR-LOAD of L2. -/
def tWearLoad : List Byte := 2 :: (List.replicate 16 [(0 : Byte), 1, 0]).flatten

theorem test_hyp_SetUpOrders : tOffline.calmOrders = true ∧ tOffline.stc.station = .offline
    ∧ parseConfigure tConfigure = some tConfig ∧ parseWearLoad tWearLoad = some (2, List.replicate 16 256)
    ∧ tOnline.calmOrders = true ∧ tOnline.stc.station ≠ .offline := by decide +kernel
theorem test_hyp_WearReadReports : tOnline.calmOrders = true ∧ ([2] : List Byte).length ≤ 60
    ∧ ([2] : List Byte) = [BitVec.ofNat 8 (2 : Line).val] ∧ ∀ l : Line, ([32] : List Byte) ≠ [BitVec.ofNat 8 l.val] := by
  decide +kernel
theorem test_hyp_JoinChecks : tOffline.calmOrders = true ∧ tOffline.orp.config.isSome = true
    ∧ tOffline.stc.strap.val < 24 ∧ tOnline.calmOrders = true ∧ tOnline.stc.station ≠ .offline
    ∧ ({ tOffline with orp.config := none } : State).calmOrders = true
    ∧ ({ tOffline with stc.strap := 24 } : State).calmOrders = true := by decide +kernel

/-- The bytes of a ROUTE-MAKE of route 1: one AUTO leg from L2 here to L2 of station 7. -/
def tMake : List Byte := [0x01, 0, 0, 1, 0x10, 2, 3, 0x82, 7, 0x82]
/-- Its content. -/
def tMakeOrder : MakeOrder :=
  { tag := 1, stage := false, avoid := 0, legs := [⟨none, [⟨3, 2, .none⟩, ⟨7, 2, .none⟩]⟩] }
/-- A station in JOINING that hears station 7. -/
def tJoining : State := withPeer 7 { tOnline with stc.station := .joining }

theorem test_hyp_RouteMakeAccepted : tJoining.calmOrders = true ∧ tMake.length ≤ 60
    ∧ parseRouteMake tMake = some tMakeOrder ∧ tJoining.stc.station = .joining ∧ (tJoining.route 1).state = .idle
    ∧ (∀ l ∈ tMakeOrder.legs, ∀ e ∈ l.endpoints, tJoining.isSelf e.station = true
      ∨ (tJoining.mbu.members.get e.station).state = .present
        ∧ (tJoining.mbu.members.get e.station).fault = false) := by decide +kernel
/-- A station in ONLINE that hears station 7, with T0 HELD by station 5, and a CLAIM of route 2 for T1 waiting. -/
def tPlanning : State :=
  withQueue [.claim 1 2 0 0] <|
    withRoute 2 { Route.idle with state := .claiming, owed := [⟨.make, none⟩], legs := [tLeg 1 .queued []] } <|
      withTable [.held 5] (withPeer 7 tOnline)
/-- The bytes of the same ROUTE-MAKE for the fixed trunk given. -/
def tMakeFixed (k : Byte) : List Byte := [0x01, 0, 0, 1, k, 2, 3, 0x82, 7, 0x82]
/-- Its content. -/
def tMakeFixedOrder (k : Trunk) : MakeOrder :=
  { tMakeOrder with legs := [⟨some k, [⟨3, 2, .none⟩, ⟨7, 2, .none⟩]⟩] }

theorem test_hyp_RouteMakeAccepted_online : tPlanning.calmOrders = true ∧ tPlanning.stc.station = .online
    ∧ tPlanning.ttu.stale = false ∧ (tPlanning.route 1).state = .idle ∧ tPlanning.queueHasPlace = true
    ∧ parseRouteMake (tMakeFixed 4) = some (tMakeFixedOrder 4)
    ∧ parseRouteMake (tMakeFixed 0) = some (tMakeFixedOrder 0) ∧ tPlanning.entry 4 = .free
    ∧ tPlanning.entry 0 ≠ .free
    ∧ (∀ l ∈ (tMakeFixedOrder 4).legs, ∀ e ∈ l.endpoints, tPlanning.isSelf e.station = true
      ∨ (tPlanning.mbu.members.get e.station).state = .present
        ∧ (tPlanning.mbu.members.get e.station).fault = false) := by decide +kernel
theorem test_hyp_RouteMakeAccepted_auto : tPlanning.entry 2 = .free
    ∧ (∀ tag, tag ≠ tMakeOrder.tag → ∀ g ∈ (tPlanning.route tag).legs, g.assigned = some 2 →
      g.claim ≠ .queued ∧ g.claim ≠ .sent)
    ∧ ∀ k', k' < (2 : Trunk) → tPlanning.entry k' ≠ .free ∨ tMakeOrder.avoid.getLsbD k'.val = true
      ∨ ∃ tag, tag ≠ tMakeOrder.tag ∧ ∃ g ∈ (tPlanning.route tag).legs,
        g.assigned = some k' ∧ (g.claim = .queued ∨ g.claim = .sent) := by decide +kernel
theorem test_hyp_RouteOrdersNeedTheLink : tOffline.calmOrders = true ∧ tOffline.stc.station = .offline
    ∧ parseRouteMake tMake = some tMakeOrder := by decide +kernel

/-- A MADE route, and a QUARANTINED one, with an endpoint at station 7. -/
def tMade : State := withRoute 1 (tRoute .made [tEnd 2 .closed (some ⟨.close, .idle⟩)] []) tOnline
/-- A QUARANTINED route with an UNKNOWN endpoint at station 7, which is PRESENT. -/
def tQuarantined : State := withPeer 7 (withRoute 1 (tRoute .quarantined [tEnd 2 .unknown none] []) tOnline)

theorem test_hyp_BreakAndClearStart : (∀ s ∈ [tMade, tQuarantined], s.calmOrders = true ∧ s.driving = true
      ∧ (s.route 1).owed.length < 2 ∧ (∀ e ∈ (s.route 1).endpoints, s.isSelf e.station = false)
      ∧ ∀ l ∈ (s.route 1).legs, l.assigned.isSome = true)
    ∧ (tMade.route 1).state = .made ∧ (∃ e ∈ (tMade.route 1).endpoints, e.status = .closed)
    ∧ (tQuarantined.route 1).state = .quarantined
    ∧ (∃ e ∈ (tQuarantined.route 1).endpoints, e.status = .unknown
      ∧ (tQuarantined.mbu.members.get e.station).state = .present) := by decide +kernel
theorem test_hyp_FireAndQuery : tStaged.driving = true ∧ (tStaged.route 1).state = .staged
    ∧ tStaged.calmOrders = true ∧ tStaged.fireStands 1 = false ∧ tStaged.queueHasPlace = true
    ∧ tOffline.calmOrders = true ∧ tOffline.ttu.valid = false := by decide +kernel

/-- The bytes of an ALERT-CLEAR of CLASH and of station 5 in PEER-ABSENT. -/
def tAlertClear : List Byte := [0, 8, 0, 0, 32, 0, 0, 0, 0, 0]

theorem test_hyp_AlertClearRemoves : tOnline.calmOrders = true
    ∧ parseAlertClear tAlertClear = some ⟨8, 32, 0, 0⟩ := by decide +kernel
theorem test_hyp_CheckAndUnknownOrders : tBusy.calmOrders = true ∧ tBusy.stc.station ≠ .clash ∧ tBusy.cme.check = none
    ∧ tBusy.cme.engine ≠ .idle ∧ tChecking.calmOrders = true ∧ tChecking.cme.check.isSome = true
    ∧ ({ tOnline with stc.station := .clash } : State).calmOrders = true
    ∧ (Instr.unknownOrder 0x55 [1]).wf = true := by decide +kernel
theorem test_hyp_BadLayoutsRefused : tOnline.calmOrders = true ∧ parseConfigure [0] = none ∧ parseWearLoad [0] = none
    ∧ parseTag [16] = none ∧ parseAlertClear [0] = none ∧ parseLine [32] = none ∧ parseRouteMake [0] = none := by
  decide +kernel

/-! ## Facts about single commands -/

/-- The code of an OPERATE CLOSE from station 5 to this station. -/
def tOperate : Instr := .operate 5 3 2 4 .close 1 0 .q1 false

theorem test_exec_claim : (after (exec (.claim 5 4 0 0 0) tOnline)).entry 4 = .held 5 := by decide +kernel
theorem test_exec_claim_late : (after (exec (.claim 7 4 0 0 0) tTaken)).entry 4 = .held 5 := by decide +kernel
theorem test_exec_release : (after (exec (.release 5 4) tTaken)).entry 4 = .draining 5 := by decide +kernel
theorem test_exec_quarantine : (after (exec (.quarantine 5 4) tTaken)).entry 4 = .quarantined 5 := by decide +kernel
theorem test_exec_mark_drains :
    (after (exec (.cycleMark 10752 tOrder) (withTable [.draining 5] tPeer))).entry 0 = .free := by decide +kernel
theorem test_mark_counts_requested_only : let t := markRte (modRoute 1 (fun r => { r with timer := some 1 }) tStaged)
    (t.route 1).timer = none ∧ (t.route 1).reason = none := by decide +kernel
theorem test_adoption_ends_sweep_timer :
    (adopt tShown { tOnline with jbu.sweep := .expired }).jbu.sweep = .absent := by decide +kernel
theorem test_exec_operate_waits :
    (after (exec tOperate tOnline)).jbu.jobs.map (fun j => (j.state, j.counter)) = [(.quietWait, some 5)] := by
  decide +kernel
theorem test_exec_operate_batch :
    (after (exec tOperate { tTaken with jbu.quiet := 2 })).cme.engine = .closeDrive := by decide +kernel
theorem test_exec_quiet_starts_batch :
    (after (exec (.quietChange 1 true) { tAgain with ttu.table := tTaken.ttu.table })).cme.engine = .closeDrive := by
  decide +kernel
theorem test_exec_abandon : (after (exec (.abandon 5 1 0) tWaits)).liu.queue
    = [⟨.result 5 1 0 2 4 .cancelled, false⟩] := by decide +kernel
theorem test_exec_fire :
    (after (exec (.fire 5 1 0) (withJobs [tJob .close .permitted] tBusy))).jbu.jobs.map Job.state = [.ready] := by
  decide +kernel
theorem test_exec_result : (after (exec (.result 7 3 1 0 2 4 .closed) tClosing)).orp.reports.length = 1
    ∧ ((after (exec (.result 7 3 1 0 2 4 .closed) tClosing)).route 1).state = .made := by decide +kernel
theorem test_exec_result_local : ((after (exec (.result 3 3 1 0 2 4 .opened) tClashed)).route 1).endpoints.map
    Endpoint.status = [.opn] := by decide +kernel
theorem test_exec_overrun_gap : let a := (after (exec (.byteSampled ⟨61, 0⟩ false)
      (tReceivingAt (.length 0x03 true)))).orp.alerts
    a.orderGap = true ∧ a.orderOverrun = true := by decide +kernel
theorem test_exec_absence : ((after (exec (.absence 5) tPeer)).mbu.members.get 5).state = .absent := by decide +kernel
theorem test_exec_reply_timer : ((after (exec (.replyTimerExpiry 1) tOpening)).route 1).state = .quarantined := by
  decide +kernel
theorem test_exec_order_cut : (after (exec .orderCutShort tReceiving)).orp.alerts.orderGap = true := by decide +kernel
theorem test_exec_join : (after (exec (.join []) tOffline)).stc.station = .listening := by decide +kernel
theorem test_exec_byte_restart :
    (after (exec (.byteSampled ⟨0, 9⟩ true)
      { tOnline with orp.selected := true, orp.rx := .length 0x3C false })).stc.strap = 9 := by decide +kernel

/-- Closes on T8, T6 and T7 of L2, an OPEN on L3/T4 that is open, and one on L2/T4 that is CLOSED, all READY. -/
def tFormation : State :=
  withJobs [{ tJob .close .ready with trunk := 8 }, { tJob .close .ready with trunk := 6 },
      { tJob .close .ready with trunk := 7 }, { tJob .opn .ready with line := 3 }, tJob .opn .ready] <|
    withXp tXp (tRecord .closed) <|
      { withTable [.free, .free, .free, .free, .held 5, .free, .held 5, .held 5] tOnline with jbu.quiet := 2 }

theorem test_exec_formation_order : (after (exec .batchFormation tFormation)).liu.queue
    = [⟨.result 5 1 0 2 8 .notHeld, false⟩, ⟨.result 5 1 0 2 7 .lineTaken, false⟩, ⟨.result 5 1 0 3 4 .opened, false⟩]
    ∧ (after (exec .batchFormation tFormation)).jbu.jobs.map (fun j => (j.trunk, j.state))
      = [(6, .inBatch), (4, .inBatch)] := by decide +kernel
theorem test_exec_reset_ready : State.reset.orp.ready = true ∧ State.reset.orp.srq = false := by decide +kernel
theorem test_step_idle : step tOnline = .next tOnline := rfl

end Sys2Proof.Tests
end

/-! PROOFS. The crosspoint records and the relay bank (01): the laws at reset, what every step keeps of them, the wear
counts, and WEAR-READ. -/

namespace Sys2Proof.Machine

/-! ## The laws at reset -/

/-- Settles O4: every record is as a power-on reset leaves it, the queues are empty, and the pins stand at their levels. -/
theorem resetIsLawful : Obligations.ResetIsLawful := by
  unfold Obligations.ResetIsLawful
  have records : State.reset.recordsLawful = true := (recordsLawful_iff _).2 xpsOk_fill
  have within : State.reset.withinCapacity = true := by simp [State.withinCapacity, State.reset]
  have pins : State.reset.pinsAtLevel = true := by decide
  exact ⟨records, within, pins⟩

/-! ## The laws along every step -/

/-- Every command keeps the laws of the records: the two resets open every record, and any other command moves them only
as `Taken` allows. -/
theorem exec_keeps_xpsOk {c : Instr} {s t : State} (h : exec c s = .next t) (hs : XpsOk s.cme.xps) : XpsOk t.cme.xps := by
  cases hc : clearsWear c with
  | false => exact (exec_taken hc h).records hs
  | true =>
    cases c with
    | powerOnReset straps quiet =>
      have ht : afterEvent (powerOn straps quiet s) = t := Host.Outcome.next.inj h
      exact ht ▸ (inner_afterEvent _).records (powerOn_xpsOk straps quiet s)
    | resetPinAsserted =>
      have ht : updatePins (holdReset s) = t := Host.Outcome.next.inj h
      exact ht ▸ (inner_updatePins _).records (holdReset_xpsOk s)
    | _ => cases hc

/-- Settles O5: a step idles or runs the front command of the queue, which has no part in the records. -/
theorem stepKeepsRecordsLawful : Obligations.StepKeepsRecordsLawful := by
  unfold Obligations.StepKeepsRecordsLawful
  intro s t hs h
  rw [recordsLawful_iff] at hs ⊢
  obtain rfl | ⟨c, rest, -, hexec⟩ := step_cases h
  · exact hs
  · exact exec_keeps_xpsOk hexec hs

/-- Settles O8: what `Taken` says of the wear counts, for every command but the two resets. -/
theorem wearNeverDecreases : Obligations.WearNeverDecreases := by
  unfold Obligations.WearNeverDecreases
  intro c s t hs honline hc h
  exact (exec_taken hc h).wear honline ((recordsLawful_iff s).1 hs)

/-! ## Orders that are answered by one report (R176) -/

/-- A report placed by a station at rest, with an empty order FIFO and a free place, leaves it at rest: no order waits for
a place, and no route has a report ready. -/
theorem calm_placeReport {s : State} (h : s.calmOrders = true) (r : Report) : (placeReport r s).calm = true := by
  simp only [State.calmOrders, Bool.and_eq_true, List.isEmpty_iff] at h
  obtain ⟨⟨hcalm, horders⟩, hplace⟩ := h
  obtain ⟨hheld, hcommit, hready, -, hlocal, htimers, hsweep⟩ := (State.calm_spec s).1 hcalm
  have hnone : ∀ tag, (s.route tag).headReady = none := hready.resolve_left (by simp [hplace])
  exact (State.calm_spec _).2 ⟨hheld, hcommit, Or.inr hnone, Or.inl horders, hlocal, htimers, hsweep⟩

/-- An order other than RESTART joins an empty order FIFO when it is received whole. -/
theorem receiveOrder_of_empty {s : State} {code : Byte} {p : List Byte} (straps : Fin 32) (ho : s.orp.orders = [])
    (hp : p.length ≤ Config.maxPayload) (hc : code ≠ restartCode) :
    receiveOrder code p straps s = { s with orp.orders := [⟨code, p⟩] } := by
  have hfull : s.fifoFull = false := by simp [State.fifoFull, ho, Config.orderPlaces]
  simp [receiveOrder, Nat.not_lt.2 hp, hc, hfull, ho]

/-- An order that comes down to one report, received whole by a station at rest, is that report and the pins. -/
theorem event_receiveOrder_report {s : State} {code : Byte} {p : List Byte} {r : Report} (straps : Fin 32)
    (h : s.calmOrders = true) (hp : p.length ≤ Config.maxPayload) (hc : code ≠ restartCode)
    (ht : takeOrder ⟨code, p⟩ s = placeReport r s) :
    event (receiveOrder code p straps) s = updatePins (placeReport r s) := by
  have hrest := h
  simp only [State.calmOrders, Bool.and_eq_true, List.isEmpty_iff] at hrest
  obtain ⟨⟨hcalm, horders⟩, -⟩ := hrest
  have hend := afterEvent_order h (o := ⟨code, p⟩) (by rw [ht]; exact calm_placeReport h r)
  rw [event, resetHeld_of_calm hcalm, if_neg (by decide), receiveOrder_of_empty straps horders hp hc, hend, ht]

/-! ## WEAR-READ (R18) -/

/-- The payloads that name a line are its number alone. -/
theorem parseLine_eq_some {p : List Byte} {l : Line} : parseLine p = some l ↔ p = [BitVec.ofNat 8 l.val] := by
  have hl := l.isLt
  constructor
  · intro h
    unfold parseLine at h
    split at h
    · rename_i b
      split at h
      · cases h
        simp
      · cases h
    · cases h
  · rintro rfl
    have hn : (BitVec.ofNat 8 l.val).toNat = l.val := by
      rw [BitVec.toNat_ofNat]
      omega
    simp [parseLine, hn]

theorem orderWearRead_line {p : List Byte} {l : Line} (h : parseLine p = some l) (s : State) :
    orderWearRead p s = placeReport (.wear l (s.wearOf l)) s := by
  rw [orderWearRead, h]

theorem orderWearRead_bad {p : List Byte} (h : parseLine p = none) (s : State) :
    orderWearRead p s = placeReport (.answer 0x03 true .badOrder none) s := by
  rw [orderWearRead, h]
  rfl

/-- A WEAR-READ received whole by a station at rest is the one report that `orderWearRead` places. -/
theorem exec_wearRead {s : State} {p : List Byte} {r : Report} (h : s.calmOrders = true)
    (hp : p.length ≤ Config.maxPayload) (ht : orderWearRead p s = placeReport r s) :
    exec (.wearRead p) s = .next (updatePins (placeReport r s)) :=
  congrArg Host.Outcome.next (event_receiveOrder_report s.stc.strap h hp (by decide) ht)

/-- Settles O52: the payload names a line, whose counts are reported, or none, and the order is refused. -/
theorem wearReadReports : Obligations.WearReadReports := by
  unfold Obligations.WearReadReports
  intro p s h hp
  refine ⟨fun l hl => ?_, fun hnone => ?_⟩
  · exact exec_wearRead h hp (orderWearRead_line (parseLine_eq_some.2 hl) s)
  · have hbad : parseLine p = none :=
      Option.eq_none_iff_forall_ne_some.2 fun l hl => hnone l (parseLine_eq_some.1 hl)
    exact exec_wearRead h hp (orderWearRead_bad hbad s)

end Sys2Proof.Machine

/-! PROOFS. The capacities that every step keeps, and the layouts of the matrix link (02): every message and every frame
that a station can send is read back as it was. -/

namespace Sys2Proof.Machine

/-! ## Capacities along every step (R38, R132, R175, R176) -/

/-- Every command keeps the capacities: the two resets leave the lists empty, and any other command is `Taken`. -/
theorem exec_keeps_withinCapacity {c : Instr} {s t : State} (h : exec c s = .next t) (hs : s.withinCapacity = true) :
    t.withinCapacity = true := by
  cases hc : clearsWear c with
  | false => exact (exec_taken hc h).within hs
  | true =>
    cases c with
    | powerOnReset straps quiet =>
      have ht : afterEvent (powerOn straps quiet s) = t := Host.Outcome.next.inj h
      exact ht ▸ (inner_afterEvent _).within (powerOn_within straps quiet s)
    | resetPinAsserted =>
      have ht : updatePins (holdReset s) = t := Host.Outcome.next.inj h
      exact ht ▸ (inner_updatePins _).within (holdReset_within s)
    | _ => cases hc

/-- Settles O6: a step idles or runs the front command of the queue, which has no part in the capacities. -/
theorem stepKeepsCapacities : Obligations.StepKeepsCapacities := by
  unfold Obligations.StepKeepsCapacities
  intro s t hs h
  obtain rfl | ⟨c, rest, -, hexec⟩ := step_cases h
  · exact hs
  · exact exec_keeps_withinCapacity hexec hs

/-! ## Fields read one after another -/

/-- The first field, read at its place. -/
theorem field_pack_head {w v k : Nat} {fs : List (Nat × Nat)} (hk : k = fieldBits fs) :
    field (pack ((w, v) :: fs)) k w = v % 2 ^ w := by
  rw [hk]
  exact field_pack [] fs w v

/-- A field that stands below the first one. -/
theorem field_pack_tail {f : Nat × Nat} {fs : List (Nat × Nat)} {k w : Nat} (h : k + w ≤ fieldBits fs) :
    field (pack (f :: fs)) k w = field (pack fs) k w := by
  obtain ⟨d, hd⟩ := Nat.exists_eq_add_of_le h
  have hsplit : f.2 % 2 ^ f.1 * 2 ^ fieldBits fs + pack fs
      = pack fs + 2 ^ k * (2 ^ w * (2 ^ d * (f.2 % 2 ^ f.1))) := by
    rw [hd]
    ring
  unfold field
  rw [pack_cons, hsplit, Nat.add_mul_div_left _ _ (Nat.two_pow_pos k), Nat.add_mul_mod_self_left]

/-- The bit vector of the fields' width spells their number: no bit is lost. -/
theorem toNat_ofNat_pack {fs : List (Nat × Nat)} {w : Nat} (hw : fieldBits fs = w) :
    (BitVec.ofNat w (pack fs)).toNat = pack fs := by
  subst hw
  rw [BitVec.toNat_ofNat, Nat.mod_eq_of_lt (pack_lt fs)]

/-- Lower bits put behind a number, in a bit vector of both widths. -/
theorem toNat_ofNat_append {n c a b w : Nat} (hn : n < 2 ^ a) (hc : c < 2 ^ b) (hw : a + b = w) :
    (BitVec.ofNat w (n * 2 ^ b + c)).toNat = n * 2 ^ b + c := by
  have hlt : n * 2 ^ b + c < 2 ^ w :=
    calc n * 2 ^ b + c < (n + 1) * 2 ^ b := by rw [Nat.add_one_mul]; omega
      _ ≤ 2 ^ a * 2 ^ b := Nat.mul_le_mul_right _ hn
      _ = 2 ^ w := by rw [← hw, Nat.pow_add]
  rw [BitVec.toNat_ofNat, Nat.mod_eq_of_lt hlt]

/-! ## Link messages (R27, R28) -/

/-- The fields of a message, in the order of Table 3-3. -/
def msgFields : LinkMsg → List (Nat × Nat)
  | .claim t tag g leg => [(4, 1), (4, t), (4, tag), (3, g), (2, leg), (23, 0)]
  | .release t => [(4, 2), (4, t), (32, 0)]
  | .quarantine t => [(4, 3), (4, t), (32, 0)]
  | .operate a l t act tag g q arm =>
    [(4, 4), (5, a), (5, l), (4, t), (2, actionCode act), (4, tag), (3, g), (3, quietCode q), (1, bit1 arm), (9, 0)]
  | .result a tag g l t c => [(4, 5), (5, a), (4, tag), (3, g), (5, l), (4, t), (4, resultCode c), (11, 0)]
  | .abandon tag g => [(4, 6), (4, tag), (3, g), (29, 0)]
  | .permit tag g => [(4, 7), (4, tag), (3, g), (29, 0)]
  | .fire tag g => [(4, 8), (4, tag), (3, g), (29, 0)]

theorem encodeMsg_eq (m : LinkMsg) : encodeMsg m = BitVec.ofNat 40 (pack (msgFields m)) := by
  cases m <;> rfl

theorem fieldBits_msgFields (m : LinkMsg) : fieldBits (msgFields m) = 40 := by
  cases m <;> rfl

theorem encodeMsg_toNat (m : LinkMsg) : (encodeMsg m).toNat = pack (msgFields m) := by
  rw [encodeMsg_eq, toNat_ofNat_pack (fieldBits_msgFields m)]

theorem addr_mod (a : Addr) : a.val % 32 = a.val := Nat.mod_eq_of_lt (by omega)

theorem actionCode_mod (a : Action) : actionCode a % 4 = actionCode a := by cases a <;> rfl

theorem quietCode_mod (q : QuietIndex) : quietCode q % 8 = quietCode q := by cases q <;> rfl

theorem resultCode_mod (c : ResultCode) : resultCode c % 16 = resultCode c := by cases c <;> rfl

theorem bit1_mod (b : Bool) : bit1 b % 2 = bit1 b := by cases b <;> rfl

/-- A sendable message is decoded as it was encoded: an armed flag with another action than CLOSE, which R28 discards,
is not sendable. -/
theorem decodeMsg_encodeMsg {m : LinkMsg} (h : m.sendable = true) : decodeMsg (encodeMsg m) = some m := by
  unfold decodeMsg
  rw [encodeMsg_toNat]
  cases m with
  | operate a l t act tag g q arm =>
    have harm : arm = true → act = .close := fun ha => by simpa [LinkMsg.sendable, ha] using h
    simp [msgFields, field_pack_head, field_pack_tail, Nat.mod_eq_of_lt, addr_mod, actionCode_mod, quietCode_mod,
      bit1_mod]
    exact harm
  | result a tag g l t c =>
    simp [msgFields, field_pack_head, field_pack_tail, Nat.mod_eq_of_lt, addr_mod, resultCode_mod]
  | _ => simp [msgFields, field_pack_head, field_pack_tail, Nat.mod_eq_of_lt]

/-- Settles O9: the fields of each kind are read one after another. -/
theorem messageReadsBack : Obligations.MessageReadsBack := by
  unfold Obligations.MessageReadsBack
  exact fun m h => decodeMsg_encodeMsg h

/-! ## Sets of trunks -/

theorem hasTrunk_or_trunkBit (set : TrunkSet) (t u : Trunk) :
    hasTrunk (set ||| trunkBit t) u = (hasTrunk set u || t == u) := by
  have hlt := u.isLt
  simp only [hasTrunk, trunkBit, BitVec.getLsbD_or, BitVec.getLsbD_shiftLeft, BitVec.getLsbD_one]
  congr 1
  rw [Bool.eq_iff_iff]
  simp only [Bool.and_eq_true, decide_eq_true_eq, Bool.not_eq_true', decide_eq_false_iff_not, beq_iff_eq, Fin.ext_iff]
  omega

/-- The fold that makes a set adds the trunks of the list that satisfy the test. -/
theorem hasTrunk_foldl (p : Trunk → Bool) (l : List Trunk) (set : TrunkSet) (u : Trunk) :
    hasTrunk (l.foldl (fun set t => if p t then set ||| trunkBit t else set) set) u
      = (hasTrunk set u || l.any fun t => p t && t == u) := by
  induction l generalizing set with
  | nil => simp
  | cons t l ih =>
    rw [List.foldl_cons, ih, List.any_cons]
    cases p t with
    | true => simp [hasTrunk_or_trunkBit, Bool.or_assoc]
    | false => simp

@[simp] theorem hasTrunk_trunkSetOf (p : Trunk → Bool) (u : Trunk) : hasTrunk (trunkSetOf p) u = p u := by
  rw [trunkSetOf, hasTrunk_foldl, Bool.eq_iff_iff]
  simp [hasTrunk, allTrunks]

/-- A set is the set of its members. -/
theorem trunkSetOf_hasTrunk (set : TrunkSet) : trunkSetOf (hasTrunk set) = set := by
  apply BitVec.eq_of_getLsbD_eq
  intro i hi
  exact hasTrunk_trunkSetOf (hasTrunk set) ⟨i, hi⟩

/-! ## Frames (R23 to R26, R32) -/

theorem fieldBits_map {α : Type} (w : Nat) (g : α → Nat) (l : List α) :
    fieldBits (l.map fun x => (w, g x)) = w * l.length := by
  induction l with
  | nil => rfl
  | cons x l ih =>
    rw [List.map_cons, fieldBits_cons, ih, List.length_cons]
    ring

/-- One of several fields of the same width, which stand with others above and below them. -/
theorem field_pack_map {α : Type} {a b : List (Nat × Nat)} {l : List α} {g : α → Nat} {w i k : Nat} (hi : i < l.length)
    (hk : k = fieldBits b + w * (l.length - 1 - i)) (hv : g l[i] < 2 ^ w) :
    field (pack (a ++ (l.map fun x => (w, g x)) ++ b)) k w = g l[i] := by
  have hl : l.map (fun x => (w, g x))
      = (l.take i).map (fun x => (w, g x)) ++ (w, g l[i]) :: (l.drop (i + 1)).map fun x => (w, g x) := by
    rw [← List.map_cons (f := fun x => (w, g x)), ← List.map_append, List.getElem_cons_drop, List.take_append_drop]
  have hfields : a ++ (l.map fun x => (w, g x)) ++ b
      = (a ++ (l.take i).map fun x => (w, g x)) ++ (w, g l[i]) :: ((l.drop (i + 1)).map (fun x => (w, g x)) ++ b) := by
    rw [hl]
    simp only [List.append_assoc, List.cons_append]
  refine field_pack_of hfields ?_ hv
  rw [hk, fieldBits_append, fieldBits_map, List.length_drop, Nat.add_comm, Nat.sub_sub, Nat.add_comm 1 i]

/-- What stands in one message place: a message, or all ones (R25). -/
def placeValue (msgs : List LinkMsg) (p : Nat) : Nat :=
  match msgs[p]? with
  | some m => (encodeMsg m).toNat
  | none => 2 ^ 40 - 1

theorem placeValue_lt (msgs : List LinkMsg) (p : Nat) : placeValue msgs p < 2 ^ 40 := by
  unfold placeValue
  split
  · exact (encodeMsg _).isLt
  · decide

theorem placeFields_eq (msgs : List LinkMsg) :
    placeFields msgs = (List.range 6).map fun p => (40, placeValue msgs p) := by
  unfold placeFields placeValue
  refine List.map_congr_left fun p _ => ?_
  cases msgs[p]? <;> rfl

/-- The header's fields before the snapshot. -/
def headFields (f : Frame) : List (Nat × Nat) :=
  [(5, f.sender.val), (1, bit1 f.stale), (1, bit1 f.joining), (1, bit1 f.fault), (3, f.msgs.length), (5, 0)]

/-- The fields of bits 0 to 383 (Table 3-1). -/
def bodyFields (f : Frame) : List (Nat × Nat) :=
  headFields f ++ f.snapshot.cells.map (fun e => (7, e.code))
    ++ allTrunks.map (fun t => (1, bit1 (hasTrunk f.contacts t))) ++ placeFields f.msgs

theorem fieldBits_placeFields (msgs : List LinkMsg) : fieldBits (placeFields msgs) = 240 := by
  rw [placeFields_eq, fieldBits_map, List.length_range]

theorem fieldBits_contacts (set : TrunkSet) : fieldBits (allTrunks.map fun t => (1, bit1 (hasTrunk set t))) = 16 := by
  rw [fieldBits_map]
  rfl

theorem fieldBits_snapshot (table : TrunkTable) : fieldBits (table.cells.map fun e => (7, e.code)) = 112 := by
  rw [fieldBits_map, table.size_eq]

theorem fieldBits_bodyFields (f : Frame) : fieldBits (bodyFields f) = 384 := by
  simp only [bodyFields, headFields, fieldBits_append, fieldBits_placeFields, fieldBits_contacts, fieldBits_snapshot,
    fieldBits_cons, fieldBits_nil]

theorem frameBody_toNat (f : Frame) : (frameBody f).toNat = pack (bodyFields f) :=
  toNat_ofNat_pack (fieldBits_bodyFields f)

/-- The number that a frame's 400 bits spell: the body above its CRC. -/
theorem encodeFrame_toNat (f : Frame) :
    (encodeFrame f).toNat = pack (bodyFields f) * 2 ^ 16 + (crc16 (frameBody f)).toNat := by
  rw [encodeFrame, frameBody_toNat]
  exact toNat_ofNat_append (pack_lt (bodyFields f)) (crc16 (frameBody f)).isLt (by rw [fieldBits_bodyFields])

/-- A field of the body, read from the frame. -/
theorem field_encodeFrame (f : Frame) (k w : Nat) :
    field (encodeFrame f).toNat (16 + k) w = field (pack (bodyFields f)) k w := by
  rw [encodeFrame_toNat]
  exact field_above (crc16 (frameBody f)).isLt

/-- A field of the header before the snapshot, read from the frame. -/
theorem field_head (f : Frame) {k w v : Nat} {a b : List (Nat × Nat)} (h : headFields f = a ++ (w, v) :: b)
    (hk : k = 384 + fieldBits b) (hv : v < 2 ^ w) : field (encodeFrame f).toNat k w = v := by
  have hplace : k = 16 + (368 + fieldBits b) := by omega
  rw [hplace, field_encodeFrame]
  refine field_pack_of (a := a) (b := b ++ f.snapshot.cells.map (fun e => (7, e.code))
    ++ allTrunks.map (fun t => (1, bit1 (hasTrunk f.contacts t))) ++ placeFields f.msgs) ?_ ?_ hv
  · simp [bodyFields, h]
  · simp only [fieldBits_append, fieldBits_placeFields, fieldBits_contacts, fieldBits_snapshot]
    omega

theorem field_stale (f : Frame) : field (encodeFrame f).toNat 394 1 = bit1 f.stale :=
  field_head f (a := [(5, f.sender.val)]) rfl rfl (bit1_lt _)

theorem field_joining (f : Frame) : field (encodeFrame f).toNat 393 1 = bit1 f.joining :=
  field_head f (a := [(5, f.sender.val), (1, bit1 f.stale)]) rfl rfl (bit1_lt _)

theorem field_fault (f : Frame) : field (encodeFrame f).toNat 392 1 = bit1 f.fault :=
  field_head f (a := [(5, f.sender.val), (1, bit1 f.stale), (1, bit1 f.joining)]) rfl rfl (bit1_lt _)

theorem field_sender (f : Frame) : field (encodeFrame f).toNat 395 5 = f.sender.val :=
  field_head f (a := []) rfl rfl (by have := f.sender.isLt; omega)

theorem field_count {f : Frame} (h : f.msgs.length ≤ 6) : field (encodeFrame f).toNat 389 3 = f.msgs.length :=
  field_head f (a := [(5, f.sender.val), (1, bit1 f.stale), (1, bit1 f.joining), (1, bit1 f.fault)]) rfl rfl (by omega)

theorem field_reserved (f : Frame) : field (encodeFrame f).toNat 384 5 = 0 :=
  field_head f (a := [(5, f.sender.val), (1, bit1 f.stale), (1, bit1 f.joining), (1, bit1 f.fault), (3, f.msgs.length)])
    rfl rfl (by decide)

theorem field_entry (f : Frame) (t : Trunk) :
    field (encodeFrame f).toNat (377 - 7 * t.val) 7 = (f.snapshot.get t).code := by
  have hlen : t.val < f.snapshot.cells.length := by rw [f.snapshot.size_eq]; exact t.isLt
  have hplace : 377 - 7 * t.val = 16 + (361 - 7 * t.val) := by omega
  rw [hplace, field_encodeFrame, bodyFields, List.append_assoc]
  refine field_pack_map (g := TrunkEntry.code) hlen ?_ (TrunkEntry.code_lt _)
  rw [fieldBits_append, fieldBits_contacts, fieldBits_placeFields, f.snapshot.size_eq]
  omega

theorem field_contact (f : Frame) (t : Trunk) :
    field (encodeFrame f).toNat (271 - t.val) 1 = bit1 (hasTrunk f.contacts t) := by
  have hlen : t.val < allTrunks.length := t.isLt
  have hplace : 271 - t.val = 16 + (255 - t.val) := by omega
  have hget : allTrunks[t.val] = t := List.getElem_finRange ..
  rw [hplace, field_encodeFrame, bodyFields]
  have hfield := field_pack_map (a := headFields f ++ f.snapshot.cells.map fun e => (7, e.code))
    (b := placeFields f.msgs) (g := fun t => bit1 (hasTrunk f.contacts t)) (w := 1) (k := 255 - t.val) hlen
    (by rw [fieldBits_placeFields]; simp only [allTrunks, List.length_finRange]; omega) (bit1_lt _)
  rw [hfield, hget]

theorem field_place {f : Frame} {p : Nat} (hp : p < 6) :
    field (encodeFrame f).toNat (216 - 40 * p) 40 = placeValue f.msgs p := by
  have hlen : p < (List.range 6).length := by simpa using hp
  have hplace : 216 - 40 * p = 16 + (200 - 40 * p) := by omega
  rw [hplace, field_encodeFrame, bodyFields, placeFields_eq]
  have hfield := field_pack_map (a := headFields f ++ f.snapshot.cells.map (fun e => (7, e.code))
    ++ allTrunks.map fun t => (1, bit1 (hasTrunk f.contacts t))) (b := [])
    (g := placeValue f.msgs) (w := 40) (k := 200 - 40 * p) hlen
    (by simp only [fieldBits_nil, List.length_range]; omega) (placeValue_lt _ _)
  rw [List.append_nil, List.getElem_range] at hfield
  exact hfield

/-- A message place of a frame reads back the message that stands in it. -/
theorem decode_place {f : Frame} {p : Nat} {m : LinkMsg} (hp : p < 6) (hm : f.msgs[p]? = some m)
    (hs : m.sendable = true) :
    decodeMsg (BitVec.ofNat 40 (field (encodeFrame f).toNat (216 - 40 * p) 40)) = some m := by
  have hvalue : placeValue f.msgs p = (encodeMsg m).toNat := by rw [placeValue, hm]
  rw [field_place hp, hvalue, BitVec.ofNat_toNat, BitVec.setWidth_eq, decodeMsg_encodeMsg hs]

/-- A list read place by place is the list. -/
theorem filterMap_range_eq {α : Type} {g : Nat → Option α} {l : List α} (h : ∀ p, p < l.length → g p = l[p]?) :
    (List.range l.length).filterMap g = l := by
  induction l using List.reverseRecOn with
  | nil => rfl
  | append_singleton l x ih =>
    have hinit : (List.range l.length).filterMap g = l := ih fun p hp => by
      rw [h p (by simp; omega), List.getElem?_append_left hp]
    have hlast : g l.length = some x := by
      rw [h l.length (by simp), List.getElem?_concat_length]
    rw [List.length_append, List.length_singleton, List.range_succ, List.filterMap_append, hinit, List.filterMap_cons,
      hlast, List.filterMap_nil]

/-- The parts of `Frame.sendable`. -/
theorem Frame.sendable_iff (f : Frame) : f.sendable = true ↔
    f.msgs.length ≤ 6 ∧ (f.msgs = [] ∨ f.stale = false ∧ f.joining = false) ∧ ∀ m ∈ f.msgs, m.sendable = true := by
  simp only [Frame.sendable, Bool.and_eq_true, Bool.or_eq_true, decide_eq_true_eq, List.isEmpty_iff, Bool.not_eq_true',
    List.all_eq_true, and_assoc]
  exact Iff.rfl

/-- A sendable frame is read back as it was, from the slot of its sender. -/
theorem readFrame_encodeFrame {f : Frame} (h : f.sendable = true) : readFrame (encodeFrame f) f.sender = f := by
  obtain ⟨hcount, -, hmsgs⟩ := (Frame.sendable_iff f).1 h
  have hsnapshot : (Table.tabulate 16 fun t : Trunk =>
      (readEntry (field (encodeFrame f).toNat (377 - 7 * t.val) 7)).getD .free) = f.snapshot := by
    refine Table.ext_get fun t => ?_
    rw [Table.get_tabulate, field_entry, readEntry_code, Option.getD_some]
  have hcontacts : (trunkSetOf fun t => field (encodeFrame f).toNat (271 - t.val) 1 == 1) = f.contacts := by
    simp only [field_contact, bit1_beq]
    exact trunkSetOf_hasTrunk f.contacts
  have hplaces : ((List.range f.msgs.length).filterMap fun p =>
      decodeMsg (BitVec.ofNat 40 (field (encodeFrame f).toNat (216 - 40 * p) 40))) = f.msgs := by
    refine filterMap_range_eq fun p hp => ?_
    have hget : f.msgs[p]? = some f.msgs[p] := List.getElem?_eq_getElem hp
    rw [decode_place (by omega) hget (hmsgs _ (List.getElem_mem hp)), hget]
  unfold readFrame
  simp only [field_stale, field_joining, field_fault, field_count hcount, bit1_beq, hsnapshot, hcontacts, hplaces]

/-- A sendable frame is not malformed. -/
theorem malformed_encodeFrame {f : Frame} (h : f.sendable = true) : malformed (encodeFrame f) = false := by
  obtain ⟨hcount, hquiet, -⟩ := (Frame.sendable_iff f).1 h
  have hseven : f.msgs.length ≠ 7 := by omega
  have hheader : f.msgs.length ≠ 0 → f.stale = false ∧ f.joining = false := fun hne =>
    hquiet.resolve_left fun he => hne (by rw [he]; rfl)
  unfold malformed
  simp only [field_count hcount, field_stale, field_joining, field_reserved, field_entry, readEntry_code, bit1_beq]
  simpa [hseven] using hheader

/-- The header that opens a frame is not the all-ones of an empty slot: its reserved bits are 0. -/
theorem encodeFrame_not_empty (f : Frame) : field (encodeFrame f).toNat 384 16 ≠ 0xFFFF := by
  intro h
  have hlow : field (encodeFrame f).toNat 384 16 % 2 ^ 5 = field (encodeFrame f).toNat 384 5 :=
    Nat.mod_mod_of_dvd _ (pow_dvd_pow 2 (by decide))
  rw [h, field_reserved] at hlow
  cases hlow

/-- The CRC at the end of a frame is that of its body. -/
theorem crc_encodeFrame (f : Frame) :
    crc16 (BitVec.ofNat 384 ((encodeFrame f).toNat / 2 ^ 16)) = BitVec.ofNat 16 (encodeFrame f).toNat := by
  have hcrc := (crc16 (frameBody f)).isLt
  have hbody : (encodeFrame f).toNat / 2 ^ 16 = (frameBody f).toNat := by
    rw [encodeFrame_toNat, frameBody_toNat]
    omega
  have htail : BitVec.ofNat 16 (encodeFrame f).toNat = crc16 (frameBody f) := by
    apply BitVec.eq_of_toNat_eq
    rw [BitVec.toNat_ofNat, encodeFrame_toNat]
    omega
  rw [hbody, htail, BitVec.ofNat_toNat, BitVec.setWidth_eq]

/-- Settles O10: a sendable frame passes every check of R32, and its fields are read one by one. -/
theorem frameReadsBack : Obligations.FrameReadsBack := by
  unfold Obligations.FrameReadsBack
  intro f h
  unfold judge
  simp only [crc_encodeFrame, field_sender, malformed_encodeFrame h, readFrame_encodeFrame h, bne_self_eq_false,
    Bool.false_eq_true, if_false, beq_iff_eq, encodeFrame_not_empty]

end Sys2Proof.Machine

/-! PROOFS. The slot position, the own slot start and the admission of held messages (02): with no own slot left behind
and no held result each of them is its own small change and the pins. -/

namespace Sys2Proof.Machine

/-- A change of the link and of the messages held pending leaves a station at rest. -/
theorem State.calm_of_link {s t : State} (h : s.calm = true)
    (ht : t = { s with liu := t.liu, rte.held := t.rte.held }) : t.calm = true := by
  rw [ht]
  exact (State.calm_congr (s := s) (t := { s with liu := t.liu, rte.held := t.rte.held }) rfl rfl rfl rfl rfl rfl rfl
    rfl).trans h

theorem State.queueHasPlace_iff (s : State) : s.queueHasPlace = true ↔ s.liu.queue.length < 24 := decide_eq_true_iff

/-! ## Slot boundaries and drive conflicts (R20, R22, R30, R125) -/

/-- Without a rise of TRIG the sample is kept and nothing else (R125). -/
theorem sampleTrig_of {trig : Bool} {s : State} (h : ¬(trig = true ∧ s.liu.trig = some false)) :
    sampleTrig trig s = { s with liu.trig := some trig } := by
  unfold sampleTrig
  rw [if_neg (by simpa using h)]

theorem takeSlotBoundary_of {slot : Slot} {trig : Bool} {s : State} (hears : s.hears = true)
    (hpos : s.liu.pos.before slot 1 = true) (hown : s.liu.ownSlot = false)
    (htrig : ¬(trig = true ∧ s.liu.trig = some false)) : takeSlotBoundary slot trig s =
      { s with liu.pos := .at slot 0 (s.heardSlot slot), liu.trig := some trig } := by
  have hhears : State.hears { s with liu.pos := .at slot 0 (s.heardSlot slot) } = true := hears
  unfold takeSlotBoundary
  rw [if_pos hpos, moveTo_of hown]
  dsimp only
  rw [if_pos hhears]
  exact sampleTrig_of htrig

theorem takeBeyondCycle_of {s : State} {k : Slot} {bit : Nat} {heard : Bool} (hpos : s.liu.pos = .at k bit heard)
    (hown : s.liu.ownSlot = false) : takeBeyondCycle s = { s with liu.pos := .beyond } := by
  unfold takeBeyondCycle
  rw [hpos, cutOwnSlot_of hown]

/-- Settles O21: each command changes the link's fields only, on which rest does not depend. -/
theorem positionAndConflictEvents : Obligations.PositionAndConflictEvents := by
  unfold Obligations.PositionAndConflictEvents
  intro s hcalm
  have hreset := resetHeld_of_calm hcalm
  refine ⟨fun slot trig hears hpos hown htrig => ?_, fun k bit heard hpos hown => ?_, fun hown => ?_⟩
  · exact congrArg Host.Outcome.next (event_eq hreset (takeSlotBoundary_of hears hpos hown htrig)
      (State.calm_of_link hcalm rfl))
  · exact congrArg Host.Outcome.next (event_eq hreset (takeBeyondCycle_of hpos hown) (State.calm_of_link hcalm rfl))
  · exact congrArg Host.Outcome.next (event_eq hreset (if_pos hown) (State.calm_of_link hcalm rfl))

/-! ## Admission (R41) -/

/-- A fold whose steps all leave the value. -/
theorem foldl_eq_self {α β : Type} {f : β → α → β} {l : List α} {b : β} (h : ∀ a ∈ l, f b a = b) : l.foldl f b = b := by
  induction l with
  | nil => rfl
  | cons a l ih =>
    rw [List.foldl_cons, h a List.mem_cons_self]
    exact ih fun a ha => h a (List.mem_cons_of_mem _ ha)

/-- A job that holds neither a result nor an ARMED answer holds nothing that could be admitted. -/
theorem admitJob_of {j : Job} (hdone : j.isDone = false) (harmed : j.heldArmed = false) (s : State) :
    admitJob j s = s := by
  unfold admitJob
  split
  · split
    · rename_i hstate _
      simp [Job.isDone, hstate] at hdone
    · rfl
    · rw [harmed]
      rfl
  · rfl

theorem admitHeld_full {s : State} (h : s.queueHasPlace = false) (m : HeldMsg) : admitHeld m s = s := by
  unfold admitHeld
  rw [h]
  rfl

/-- The message held longest joins the tail of the queue. -/
theorem admitHeld_head {s : State} {m : HeldMsg} {ms : List HeldMsg} (hplace : s.queueHasPlace = true)
    (hheld : s.rte.held = m :: ms) :
    admitHeld m s = { s with liu.queue := s.liu.queue ++ [⟨m.msg, false⟩], rte.held := ms } := by
  unfold admitHeld enqueue
  rw [if_pos hplace, if_pos hplace, hheld, List.erase_cons_head]

/-- The messages held pending join the queue in their order, as many as there are places. -/
theorem foldl_admitHeld (l : List HeldMsg) (s : State) (h : s.rte.held = l) :
    l.foldl (fun s m => admitHeld m s) s =
      { s with
        liu.queue := s.liu.queue ++ (l.take (24 - s.liu.queue.length)).map (fun m => ⟨m.msg, false⟩)
        rte.held := l.drop (24 - s.liu.queue.length) } := by
  induction l generalizing s with
  | nil =>
    have hstand : s = { s with rte.held := [] } := by rw [← h]
    rw [hstand]
    simp
  | cons m ms ih =>
    by_cases hplace : s.queueHasPlace = true
    · have hlt : s.liu.queue.length < 24 := s.queueHasPlace_iff.1 hplace
      obtain ⟨n, hn⟩ := Nat.exists_eq_add_of_lt hlt
      have h1 : 24 - s.liu.queue.length = n + 1 := by omega
      have h2 : 24 - (s.liu.queue.length + 1) = n := by omega
      rw [List.foldl_cons, admitHeld_head hplace h, ih _ rfl]
      simp [h1, h2]
    · have hfull : s.queueHasPlace = false := by simpa using hplace
      have hge : 24 - s.liu.queue.length = 0 := by
        have hlt := mt s.queueHasPlace_iff.2 hplace
        omega
      rw [foldl_eq_self fun a _ => admitHeld_full hfull a, hge, List.take_zero, List.drop_zero, ← h]
      simp

/-- Admission when no job holds anything: the RTE's messages alone. -/
theorem admitAll_of {s : State} (hjobs : ∀ j ∈ s.jbu.jobs, j.isDone = false ∧ j.heldArmed = false) :
    admitAll s = { s with
      liu.queue := s.liu.queue ++ (s.rte.held.take (24 - s.liu.queue.length)).map (fun m => ⟨m.msg, false⟩)
      rte.held := s.rte.held.drop (24 - s.liu.queue.length) } := by
  have hfold : s.jbu.jobs.foldl (fun s j => admitJob j s) s = s :=
    foldl_eq_self fun j hj => admitJob_of (hjobs j hj).1 (hjobs j hj).2 s
  unfold admitAll
  rw [hfold]
  exact foldl_admitHeld s.rte.held s rfl

/-- Admission when nothing is held. -/
theorem admitAll_of_nothing {s : State} (hjobs : ∀ j ∈ s.jbu.jobs, j.isDone = false ∧ j.heldArmed = false)
    (hheld : s.rte.held = []) : admitAll s = s := by
  rw [admitAll_of hjobs, hheld, List.take_nil, List.drop_nil, List.map_nil, List.append_nil, ← hheld]

/-- Settles O27: the admission changes the queue and the messages held pending, on which rest does not depend. -/
theorem admissionFillsQueue : Obligations.AdmissionFillsQueue := by
  unfold Obligations.AdmissionFillsQueue
  intro s hcalm hdriving hjobs
  have hwork : takeAdmission s = admitAll s := if_pos hdriving
  exact congrArg Host.Outcome.next (event_eq (resetHeld_of_calm hcalm) (hwork.trans (admitAll_of hjobs))
    (State.calm_of_link hcalm rfl))

/-! ## Own slot start (R30, R38, R40) -/

/-- The messages in flight of a queue whose head part is in flight and whose rest waits. -/
theorem inFlight_append {s : State} {taken waiting : List QueueItem} (hq : s.liu.queue = taken ++ waiting)
    (htaken : ∀ i ∈ taken, i.inFlight = true) (hwait : ∀ i ∈ waiting, i.inFlight = false) :
    s.inFlight = taken.map QueueItem.msg := by
  have h1 : taken.filter QueueItem.inFlight = taken := List.filter_eq_self.2 htaken
  have h2 : waiting.filter QueueItem.inFlight = [] := List.filter_eq_nil_iff.2 fun i hi => by simp [hwait i hi]
  rw [State.inFlight, hq, List.filter_append, h1, h2, List.append_nil]

theorem markFirst_append {taken waiting : List QueueItem} {i : QueueItem} (htaken : ∀ i ∈ taken, i.inFlight = true)
    (hi : i.inFlight = false) :
    markFirst (taken ++ i :: waiting) = taken ++ { i with inFlight := true } :: waiting := by
  induction taken with
  | nil => simp [markFirst, hi]
  | cons a l ih =>
    rw [List.cons_append, markFirst, if_pos (htaken a List.mem_cons_self),
      ih fun i h => htaken i (List.mem_cons_of_mem _ h)]
    rfl

/-- A message that is no CLAIM is taken into the frame by its mark alone. -/
theorem takeFirst_of {m : LinkMsg} (h : claimTrunk m = none) (s : State) :
    takeFirst m s = { s with liu.queue := markFirst s.liu.queue } := by
  cases m with
  | claim => cases h
  | _ => rfl

/-- The second pass over a queue without a CLAIM takes the first waiting messages, up to six in flight. -/
theorem takeMessages_of (n : Nat) (taken waiting : List QueueItem) (s : State) (hq : s.liu.queue = taken ++ waiting)
    (htaken : ∀ i ∈ taken, i.inFlight = true) (hwait : ∀ i ∈ waiting, i.inFlight = false ∧ claimTrunk i.msg = none)
    (hn : 6 ≤ n + taken.length) :
    takeMessages n s = { s with
      liu.queue := taken ++ ((waiting.take (6 - taken.length)).map fun i => { i with inFlight := true })
        ++ waiting.drop (6 - taken.length) } := by
  have hstand : ∀ q, q = s.liu.queue → s = { s with liu.queue := q } := fun q hq => by rw [hq]
  induction n generalizing taken waiting s with
  | zero =>
    have hfull : 6 - taken.length = 0 := by omega
    exact hstand _ (by simp [hfull, hq])
  | succ n ih =>
    have hflight : s.inFlight.length = taken.length := by
      rw [inFlight_append hq htaken fun i hi => (hwait i hi).1, List.length_map]
    have hfind : s.liu.queue.find? (fun i => !i.inFlight) = waiting.head? := by
      rw [hq, List.find?_append, List.find?_eq_none.2 fun i hi => by simp [htaken i hi], Option.none_or]
      cases waiting with
      | nil => rfl
      | cons i is => rw [List.find?_cons_of_pos (by simp [(hwait i List.mem_cons_self).1]), List.head?_cons]
    unfold takeMessages
    rw [hflight, hfind, Config.framePlaces]
    by_cases hfull : 6 ≤ taken.length
    · have hzero : 6 - taken.length = 0 := by omega
      rw [if_pos hfull]
      exact hstand _ (by simp [hzero, hq])
    · rw [if_neg hfull]
      cases waiting with
      | nil => exact hstand _ (by simp [hq])
      | cons i is =>
        obtain ⟨hi, hclaim⟩ := hwait i List.mem_cons_self
        obtain ⟨k, hk⟩ := Nat.exists_eq_add_of_lt (Nat.lt_of_not_le hfull)
        have h1 : 6 - taken.length = k + 1 := by omega
        have h2 : 6 - (taken.length + 1) = k := by omega
        simp only [List.head?_cons, hclaim, Option.isSome_none, Bool.false_and, Bool.false_eq_true, if_false]
        rw [takeFirst_of hclaim, hq, markFirst_append htaken hi,
          ih (taken ++ [{ i with inFlight := true }]) is _ (by simp)
            (by simpa [or_imp, forall_and] using htaken) (fun i h => hwait i (List.mem_cons_of_mem _ h))
            (by simp; omega) (fun q hq => by rw [hq])]
        simp [h1, h2]

/-- Without a waiting CLAIM the first pass removes nothing. -/
theorem withdrawClaims_of {s : State} (h : ∀ i ∈ s.liu.queue, claimTrunk i.msg = none) : withdrawClaims s = s := by
  have hnone : s.liu.queue.filter s.withdrawn = [] := by
    refine List.filter_eq_nil_iff.2 fun i hi => ?_
    have hclaim := h i hi
    unfold State.withdrawn
    cases hm : i.msg with
    | claim => rw [hm] at hclaim; cases hclaim
    | _ => simp
  rw [withdrawClaims, hnone, List.foldl_nil]

/-- The frame fixed, with the messages that it carries. -/
theorem fixFrame_of {s : State} {msgs : List LinkMsg} (h : (if s.readsQueue then s.inFlight else []) = msgs) :
    fixFrame s = { s with
      liu.ownSlot := true, liu.garbled := false
      liu.frame := encodeFrame {
        sender := s.self, stale := s.ttu.stale, joining := s.stc.station == .joining,
        fault := s.stc.station == .fault, snapshot := s.ttu.table, contacts := s.contactSet, msgs := msgs } } := by
  rw [fixFrame, State.ownFrame, h]

/-- The own slot start that reads no queue. -/
theorem startOwnSlot_of_not_reads {s : State} (h : s.readsQueue = false) :
    startOwnSlot s = { s with
      liu.ownSlot := true, liu.garbled := false
      liu.frame := encodeFrame {
        sender := s.self, stale := s.ttu.stale, joining := s.stc.station == .joining,
        fault := s.stc.station == .fault, snapshot := s.ttu.table, contacts := s.contactSet, msgs := [] } } := by
  have hnot : ¬s.readsQueue = true := by rw [h]; decide
  rw [startOwnSlot, if_neg hnot, fixFrame_of (if_neg hnot)]

/-- The own slot start with nothing held and no CLAIM waiting. -/
theorem startOwnSlot_of_reads {s : State} (hreads : s.readsQueue = true) (hheld : s.rte.held = [])
    (hjobs : ∀ j ∈ s.jbu.jobs, j.isDone = false ∧ j.heldArmed = false)
    (hqueue : ∀ i ∈ s.liu.queue, i.inFlight = false ∧ claimTrunk i.msg = none) :
    startOwnSlot s = { s with
      liu.ownSlot := true, liu.garbled := false
      liu.queue := (s.liu.queue.take 6).map (fun i => { i with inFlight := true }) ++ s.liu.queue.drop 6
      liu.frame := encodeFrame {
        sender := s.self, stale := s.ttu.stale, joining := s.stc.station == .joining,
        fault := s.stc.station == .fault, snapshot := s.ttu.table, contacts := s.contactSet,
        msgs := (s.liu.queue.take 6).map QueueItem.msg } } := by
  have htaken : ∀ i ∈ (s.liu.queue.take 6).map (fun i => ({ i with inFlight := true } : QueueItem)),
      i.inFlight = true := fun i hi => by
    obtain ⟨_, -, rfl⟩ := List.mem_map.1 hi
    rfl
  have hflight := inFlight_append (s := { s with
      liu.queue := (s.liu.queue.take 6).map (fun i => { i with inFlight := true }) ++ s.liu.queue.drop 6 }) rfl htaken
    fun i hi => (hqueue i (List.mem_of_mem_drop hi)).1
  rw [List.map_map] at hflight
  rw [startOwnSlot, if_pos hreads, withdrawClaims_of fun i hi => (hqueue i hi).2, admitAll_of_nothing hjobs hheld,
    takeMessages_of Config.serviceBound [] s.liu.queue s rfl (by simp) hqueue (by decide)]
  exact fixFrame_of ((if_pos hreads).trans hflight)

/-- An own slot start at its place. -/
theorem takeOwnSlotStart_of {s : State} (hdriving : s.driving = true) (hslot : s.hasSlot = true)
    (hpos : s.liu.pos.before s.self 1 = true) (hown : s.liu.ownSlot = false) :
    takeOwnSlotStart s = startOwnSlot { s with liu.pos := .at s.self 0 (s.heardSlot s.self) } := by
  have hstart : (State.driving { s with liu.pos := .at s.self 0 (s.heardSlot s.self) }
      && !s.liu.ownSlot) = true := by
    rw [hown, Bool.not_false, Bool.and_true]
    exact hdriving
  unfold takeOwnSlotStart
  rw [if_pos (by rw [hslot, hpos]; rfl), moveTo_of hown]
  exact if_pos hstart

/-- Settles O20: the start fixes the frame over the queue that its second pass leaves. -/
theorem ownSlotStartFixesFrame : Obligations.OwnSlotStartFixesFrame := by
  unfold Obligations.OwnSlotStartFixesFrame
  intro s hcalm hdriving hslot hpos hown
  have hreset := resetHeld_of_calm hcalm
  have hstart := takeOwnSlotStart_of hdriving hslot hpos hown
  refine ⟨fun hreads => ?_, fun hreads hheld hjobs hqueue => ?_⟩
  · have hwork := startOwnSlot_of_not_reads (s := { s with liu.pos := .at s.self 0 (s.heardSlot s.self) }) hreads
    exact congrArg Host.Outcome.next (event_eq hreset (hstart.trans hwork) (State.calm_of_link hcalm rfl))
  · have hwork := startOwnSlot_of_reads (s := { s with liu.pos := .at s.self 0 (s.heardSlot s.self) }) hreads hheld
      hjobs hqueue
    exact congrArg Host.Outcome.next (event_eq hreset (hstart.trans hwork) (State.calm_of_link hcalm rfl))

end Sys2Proof.Machine

/-! PROOFS. What the work of the blocks keeps besides what `RteWork`, `JobWork` and `Inner` say: no message becomes in
flight, and while no order is served no alert is taken back (`Steady`). -/

namespace Sys2Proof.Machine

/-- While the order FIFO is empty it stays so, and the alerts STALE-ENTERED and CLASH stay posted. Only an order, the
ALERT-CLEAR of R180, takes an alert back. -/
structure Posts (s t : State) : Prop where
  orders : s.orp.orders = [] → t.orp.orders = []
  stale : s.orp.orders = [] → s.orp.alerts.staleEntered = true → t.orp.alerts.staleEntered = true
  clash : s.orp.orders = [] → s.orp.alerts.clash = true → t.orp.alerts.clash = true

namespace Posts

theorem refl (s : State) : Posts s s := ⟨id, fun _ => id, fun _ => id⟩

theorem trans {s t u : State} (h : Posts s t) (g : Posts t u) : Posts s u :=
  ⟨fun o => g.orders (h.orders o), fun o a => g.stale (h.orders o) (h.stale o a),
    fun o a => g.clash (h.orders o) (h.clash o a)⟩

theorem foldl {α : Type} {f : State → α → State} (h : ∀ s a, Posts s (f s a)) (l : List α) (s : State) :
    Posts s (l.foldl f s) := by
  induction l generalizing s with
  | nil => exact refl s
  | cons a l ih => exact (h s a).trans (ih _)

/-- A change outside the Order Port. -/
theorem of_orp {s t : State} (h : t.orp = s.orp) : Posts s t :=
  ⟨by rw [h]; exact id, by rw [h]; exact fun _ => id, by rw [h]; exact fun _ => id⟩

/-- A change of the link. -/
theorem liu (l : Liu) (s : State) : Posts s { s with liu := l } := of_orp rfl

/-- A head order is served: `Posts` says nothing of that. -/
theorem of_cons {s t : State} {o : Order} {os : List Order} (h : s.orp.orders = o :: os) : Posts s t :=
  ⟨fun e => absurd (h.symm.trans e) (List.cons_ne_nil _ _), fun e => absurd (h.symm.trans e) (List.cons_ne_nil _ _),
    fun e => absurd (h.symm.trans e) (List.cons_ne_nil _ _)⟩

end Posts

/-- What the work of the blocks keeps: Station Control, the membership table, the link but for its queue, in which no
message becomes in flight, and the alerts posted. -/
structure Steady (s t : State) : Prop extends Posts s t where
  stc : t.stc = s.stc
  mbu : t.mbu = s.mbu
  liu : t.liu = { s.liu with queue := t.liu.queue }
  waits : (∀ i ∈ s.liu.queue, i.inFlight = false) → ∀ i ∈ t.liu.queue, i.inFlight = false

namespace Steady

theorem refl (s : State) : Steady s s := ⟨Posts.refl s, rfl, rfl, rfl, id⟩

theorem trans {s t u : State} (h : Steady s t) (g : Steady t u) : Steady s u :=
  ⟨h.toPosts.trans g.toPosts, g.stc.trans h.stc, g.mbu.trans h.mbu, by rw [g.liu, h.liu], fun w => g.waits (h.waits w)⟩

/-- A fold of such work. -/
theorem foldl {α : Type} {f : State → α → State} (h : ∀ s a, Steady s (f s a)) (l : List α) (s : State) :
    Steady s (l.foldl f s) := by
  induction l generalizing s with
  | nil => exact refl s
  | cons a l ih => exact (h s a).trans (ih _)

/-- One of two. -/
theorem ite {p : Prop} [Decidable p] {s t u : State} (h : p → Steady s t) (g : ¬p → Steady s u) :
    Steady s (if p then t else u) := by
  split
  · exact h ‹_›
  · exact g ‹_›

/-- A change inside the trunk table unit, the Route Engine, the Job Unit and the Commit Engine. -/
theorem blocks {s t : State}
    (h : t = { s with ttu := t.ttu, rte := t.rte, jbu := t.jbu, cme := t.cme, draws := t.draws }) : Steady s t := by
  have e : ∀ (a : Ttu) (b : Rte) (c : Jbu) (d : Cme) (n : Nat),
      Steady s { s with ttu := a, rte := b, jbu := c, cme := d, draws := n } := fun _ _ _ _ _ =>
    ⟨Posts.of_orp rfl, rfl, rfl, rfl, id⟩
  rw [h]
  exact e _ _ _ _ _

/-- A change inside the Order Port. -/
theorem orp {s t : State} (h : t = { s with orp := t.orp }) (p : Posts s t) : Steady s t := by
  have e : ∀ o : Orp, Posts s { s with orp := o } → Steady s { s with orp := o } := fun _ p => ⟨p, rfl, rfl, rfl, id⟩
  rw [h] at p ⊢
  exact e _ p

/-- A change of the queue and of the messages held pending that puts no message in flight. -/
theorem queue {s t : State} (h : t = { s with liu.queue := t.liu.queue, rte.held := t.rte.held })
    (w : (∀ i ∈ s.liu.queue, i.inFlight = false) → ∀ i ∈ t.liu.queue, i.inFlight = false) : Steady s t := by
  have e : ∀ (q : List QueueItem) (l : List HeldMsg),
      ((∀ i ∈ s.liu.queue, i.inFlight = false) → ∀ i ∈ q, i.inFlight = false) →
      Steady s { s with liu.queue := q, rte.held := l } := fun _ _ w => ⟨Posts.of_orp rfl, rfl, rfl, rfl, w⟩
  rw [h]
  exact e _ _ w

/-- A waiting message joins the tail of the queue. -/
theorem append (m : LinkMsg) (s : State) : Steady s { s with liu.queue := s.liu.queue ++ [⟨m, false⟩] } :=
  queue rfl fun w i hi => by
    rcases List.mem_append.1 hi with hi | hi
    · exact w i hi
    · rw [List.mem_singleton.1 hi]

end Steady

/-! ## The Route Engine -/

theorem steady_modRoute (tag : Tag) (f : Route → Route) (s : State) : Steady s (modRoute tag f s) := Steady.blocks rfl

theorem steady_enqueue (m : LinkMsg) (s : State) : Steady s (enqueue m s) :=
  Steady.ite (fun _ => Steady.append m s) fun _ => Steady.refl s

theorem steady_rteSend (owner : Option Tag) (m : LinkMsg) (s : State) : Steady s (rteSend owner m s) :=
  Steady.ite (fun _ => Steady.append m s) fun _ => Steady.blocks rfl

theorem steady_dropUnsent (p : LinkMsg → Bool) (s : State) : Steady s (dropUnsent p s) :=
  Steady.queue rfl fun w i hi => w i (List.mem_of_mem_filter hi)

theorem steady_placeReport (r : Report) (s : State) : Steady s (placeReport r s) :=
  Steady.orp rfl ⟨id, fun _ => id, fun _ => id⟩

theorem steady_postRouteDamaged (tag : Tag) (s : State) : Steady s (postRouteDamaged tag s) :=
  Steady.orp rfl ⟨id, fun _ => id, fun _ => id⟩

theorem steady_fixReports (tag : Tag) (cls : OutcomeClass) (reason : Reason) (s : State) :
    Steady s (fixReports tag cls reason s) := steady_modRoute _ _ _

theorem steady_disownHeld (tag : Tag) (s : State) : Steady s (disownHeld tag s) := by
  unfold disownHeld
  exact Steady.ite (fun _ => Steady.blocks rfl) fun _ => Steady.refl s

theorem steady_placeNextReport {s t : State} (h : placeNextReport s = some t) : Steady s t := by
  unfold placeNextReport at h
  split at h
  · rename_i hp
    rw [Option.bind_eq_some_iff] at h
    obtain ⟨tag, _, h⟩ := h
    rw [Option.map_eq_some_iff] at h
    obtain ⟨rep, _, rfl⟩ := h
    exact ((steady_placeReport _ _).trans (steady_modRoute _ _ _)).trans (steady_disownHeld _ _)
  · cases h

theorem steady_placeReportsN (n : Nat) (s : State) : Steady s (placeReportsN n s) := by
  induction n generalizing s with
  | zero => exact Steady.refl s
  | succ n ih =>
    unfold placeReportsN
    split
    · exact (steady_placeNextReport ‹_›).trans (ih _)
    · exact Steady.refl s

theorem steady_placeReports (s : State) : Steady s (placeReports s) := steady_placeReportsN _ s

theorem steady_setReplyTimer (tag : Tag) (gen : Gen) (s : State) : Steady s (setReplyTimer tag gen s) := by
  unfold setReplyTimer
  exact Steady.ite (fun _ => steady_modRoute _ _ _) fun _ => Steady.refl s

theorem steady_pruneTimers (s : State) : Steady s (pruneTimers s) := Steady.blocks rfl

theorem steady_makeRound (tag : Tag) (action : Action) (armed : Bool) (sel : Endpoint → Bool) (s : State) :
    Steady s (makeRound tag action armed sel s) := by
  unfold makeRound
  dsimp only
  split
  · exact (steady_modRoute _ _ _).trans (Steady.foldl (fun s _ => steady_rteSend _ _ s) _ _)
  · split
    · refine Steady.trans ?_ (steady_setReplyTimer _ _ _)
      exact ((steady_modRoute _ _ _).trans (Steady.foldl (fun s _ => steady_rteSend _ _ s) _ _)).trans
        (Steady.blocks rfl)
    · exact ((steady_modRoute _ _ _).trans (Steady.foldl (fun s _ => steady_rteSend _ _ s) _ _)).trans
        (Steady.blocks rfl)

theorem steady_sendForTrunks (msg : Trunk → LinkMsg) (l : List Trunk) (s : State) :
    Steady s (sendForTrunks msg l s) := Steady.foldl (fun s _ => steady_rteSend _ _ s) _ _

theorem steady_endOperation (linked : Bool) (tag : Tag) (state : RouteState) (cls : OutcomeClass) (reason : Reason)
    (s : State) : Steady s (endOperation linked tag state cls reason s) := by
  unfold endOperation
  refine Steady.trans ?_ (((steady_modRoute _ _ _).trans (steady_fixReports _ _ _ _)).trans (steady_placeReports _))
  exact Steady.ite (fun _ => steady_sendForTrunks _ _ _) fun _ => Steady.refl s

theorem steady_endBackout (linked : Bool) (tag : Tag) (s : State) : Steady s (endBackout linked tag s) :=
  steady_endOperation _ _ _ _ _ _

theorem steady_endBreak (linked : Bool) (tag : Tag) (s : State) : Steady s (endBreak linked tag s) :=
  steady_endOperation _ _ _ _ _ _

theorem steady_testEnd (tag : Tag) (s : State) : Steady s (testEnd tag s) := by
  unfold testEnd
  split
  · exact Steady.ite (fun _ => Steady.refl s) fun _ => steady_endBackout _ _ _
  · exact Steady.ite (fun _ => Steady.refl s) fun _ => steady_endBreak _ _ _
  · exact Steady.ite (fun _ => Steady.refl s) fun _ => steady_endBreak _ _ _
  · exact Steady.refl s

theorem steady_becomeMade (tag : Tag) (s : State) : Steady s (becomeMade tag s) :=
  ((steady_modRoute _ _ _).trans (steady_fixReports _ _ _ _)).trans (steady_placeReports _)

theorem steady_becomeDamaged (tag : Tag) (s : State) : Steady s (becomeDamaged tag s) :=
  (steady_modRoute _ _ _).trans (steady_postRouteDamaged _ _)

theorem steady_withdrawCloses (tag : Tag) (s : State) : Steady s (withdrawCloses tag s) := by
  unfold withdrawCloses
  dsimp only
  refine Steady.trans ?_ (steady_dropUnsent _ _)
  exact (steady_modRoute _ _ _).trans (Steady.blocks rfl)

theorem steady_startBackout (tag : Tag) (s : State) : Steady s (startBackout tag s) := by
  unfold startBackout
  dsimp only
  exact ((((((steady_modRoute _ _ _).trans (steady_withdrawCloses _ _)).trans
    (Steady.ite (fun _ => steady_dropUnsent _ _) fun _ => Steady.refl _)).trans
    (steady_rteSend _ _ _)).trans (steady_modRoute _ _ _)).trans (steady_makeRound _ _ _ _ _)).trans
    (steady_testEnd _ _)

theorem steady_failMake (tag : Tag) (reason : Reason) (s : State) : Steady s (failMake tag reason s) :=
  (steady_modRoute _ _ _).trans (steady_startBackout _ _)

theorem steady_noteDecline (tag : Tag) (code : ResultCode) (status : EndpointStatus) (s : State) :
    Steady s (noteDecline tag code status s) := by
  unfold noteDecline
  exact Steady.ite (fun _ => Steady.refl s) fun _ => steady_modRoute _ _ _

theorem steady_afterStatus (q : RouteResult) (status : EndpointStatus) (s : State) :
    Steady s (afterStatus q status s) := by
  unfold afterStatus
  dsimp only
  split
  · exact Steady.ite (fun _ => Steady.ite (fun _ => steady_becomeMade _ _) fun _ => Steady.refl s)
      fun _ => steady_failMake _ _ _
  · exact Steady.ite (fun _ => Steady.ite (fun _ => steady_rteSend _ _ _) fun _ => Steady.refl s)
      fun _ => Steady.ite (fun _ => Steady.refl s) fun _ => steady_failMake _ _ _
  · exact (Steady.ite (fun _ => steady_makeRound _ _ _ _ _) fun _ => Steady.refl s).trans (steady_testEnd _ _)
  · exact Steady.ite (fun _ => Steady.refl s) fun _ => steady_becomeDamaged _ _
  · exact (steady_noteDecline _ _ _ _).trans (steady_testEnd _ _)
  · exact (steady_noteDecline _ _ _ _).trans (steady_testEnd _ _)
  · exact Steady.refl s

theorem steady_takeResult (q : RouteResult) (s : State) : Steady s (takeResult q s) := by
  unfold takeResult
  dsimp only
  refine Steady.ite (fun _ => ?_) fun _ => Steady.refl s
  split
  · exact Steady.refl s
  · split
    · exact Steady.refl s
    · exact (steady_modRoute _ _ _).trans (steady_afterStatus _ _ _)

theorem steady_refuseRoute (tag : Tag) (reason : Reason) (s : State) : Steady s (refuseRoute tag reason s) :=
  ((steady_modRoute _ _ _).trans (steady_fixReports _ _ _ _)).trans (steady_placeReports _)

theorem steady_planStep (tag : Tag) (s : State) : Steady s (planStep tag s) := by
  unfold planStep
  dsimp only
  refine Steady.ite (fun _ => ?_) fun _ => Steady.refl s
  split
  · exact steady_refuseRoute _ _ _
  · refine (steady_modRoute _ _ _).trans (Steady.foldl (fun s p => ?_) _ _)
    split
    · exact steady_rteSend _ _ _
    · exact Steady.refl s

theorem steady_planAll (s : State) : Steady s (planAll s) :=
  Steady.ite (fun _ => Steady.foldl (fun s tag => steady_planStep tag s) _ _) fun _ => Steady.refl s

theorem steady_modLeg (tag : Tag) (i : Nat) (f : Leg → Leg) (s : State) : Steady s (modLeg tag i f s) :=
  steady_modRoute _ _ _

theorem steady_endIfResolved (tag : Tag) (s : State) : Steady s (endIfResolved tag s) :=
  Steady.ite (fun _ => steady_refuseRoute _ _ _) fun _ => Steady.refl s

theorem steady_removeClaims (tag : Tag) (s : State) : Steady s (removeClaims tag s) :=
  (steady_modRoute _ _ _).trans (steady_dropUnsent _ _)

theorem steady_failClaiming (tag : Tag) (reason : Reason) (s : State) : Steady s (failClaiming tag reason s) := by
  unfold failClaiming
  dsimp only
  refine Steady.ite (fun _ => Steady.ite (fun _ => steady_endIfResolved _ _) fun _ => ?_) fun _ => Steady.refl s
  exact (((steady_modRoute _ _ _).trans (steady_removeClaims _ _)).trans (steady_sendForTrunks _ _ _)).trans
    (steady_endIfResolved _ _)

theorem steady_replan (tag : Tag) (i : Nat) (s : State) : Steady s (replan tag i s) := by
  unfold replan
  dsimp only
  split
  · exact Steady.refl s
  · split
    · exact (steady_modLeg _ _ _ _).trans (steady_rteSend _ _ _)
    · exact steady_failClaiming _ _ _

theorem steady_loseClaim (tag : Tag) (i : Nat) (t : Trunk) (charged : Bool) (s : State) :
    Steady s (loseClaim tag i t charged s) := by
  unfold loseClaim
  dsimp only
  split
  · exact Steady.refl s
  · split
    · exact (steady_modLeg _ _ _ _).trans (steady_endIfResolved _ _)
    · split
      · exact (steady_modLeg _ _ _ _).trans (steady_failClaiming _ _ _)
      · exact ((steady_modLeg _ _ _ _).trans (steady_modLeg _ _ _ _)).trans (steady_replan _ _ _)

theorem steady_winClaim (tag : Tag) (i : Nat) (t : Trunk) (s : State) : Steady s (winClaim tag i t s) := by
  unfold winClaim
  dsimp only
  split
  · exact ((steady_modLeg _ _ _ _).trans (steady_rteSend _ _ _)).trans (steady_endIfResolved _ _)
  · split
    · exact ((steady_modLeg _ _ _ _).trans (steady_modRoute _ _ _)).trans (steady_makeRound _ _ _ _ _)
    · exact steady_modLeg _ _ _ _

theorem steady_reportClaim (won : Bool) (t : Trunk) (tag : Tag) (gen : Gen) (leg : Fin 4) (s : State) :
    Steady s (reportClaim won t tag gen leg s) :=
  Steady.ite (fun _ => Steady.ite (fun _ => steady_winClaim _ _ _ _) fun _ => steady_loseClaim _ _ _ _ _)
    fun _ => Steady.refl s

theorem steady_reportLostBeforeSend (t : Trunk) (tag : Tag) (gen : Gen) (leg : Fin 4) (s : State) :
    Steady s (reportLostBeforeSend t tag gen leg s) :=
  Steady.ite (fun _ => steady_loseClaim _ _ _ _ _) fun _ => Steady.refl s

theorem steady_markSent (t : Trunk) (tag : Tag) (gen : Gen) (leg : Fin 4) (s : State) :
    Steady s (markSent t tag gen leg s) :=
  Steady.ite (fun _ => steady_modLeg _ _ _ _) fun _ => Steady.refl s

theorem steady_routeReturn (a : Addr) (rejoining : Bool) (tag : Tag) (s : State) :
    Steady s (routeReturn a rejoining tag s) := (steady_modRoute _ _ _).trans (steady_testEnd _ _)

theorem steady_routeClash (tag : Tag) (s : State) : Steady s (routeClash tag s) := by
  unfold routeClash
  dsimp only
  split
  · exact steady_refuseRoute _ _ _
  · exact ((steady_dropUnsent _ _).trans (steady_modRoute _ _ _)).trans (steady_refuseRoute _ _ _)
  · exact (steady_modRoute _ _ _).trans (steady_endBackout _ _ _)
  · exact (steady_modRoute _ _ _).trans (steady_endBackout _ _ _)
  · exact (steady_modRoute _ _ _).trans (steady_endBackout _ _ _)
  · exact (steady_modRoute _ _ _).trans (steady_endBackout _ _ _)
  · exact (steady_modRoute _ _ _).trans (steady_endBreak _ _ _)
  · exact (steady_modRoute _ _ _).trans (steady_endBreak _ _ _)
  · exact steady_becomeDamaged _ _
  · exact Steady.refl s

theorem steady_routePermitted (tag : Tag) (gen : Gen) (s : State) : Steady s (routePermitted tag gen s) :=
  Steady.ite (fun _ => steady_modRoute _ _ _) fun _ => Steady.refl s

theorem steady_fireRoute (tag : Tag) (s : State) : Steady s (fireRoute tag s) :=
  Steady.ite (fun _ => steady_modRoute _ _ _) fun _ => Steady.refl s

theorem steady_routeFired (tag : Tag) (gen : Gen) (s : State) : Steady s (routeFired tag gen s) :=
  Steady.ite (fun _ => steady_fireRoute _ _) fun _ => Steady.refl s

theorem steady_expireReply (tag : Tag) (s : State) : Steady s (expireReply tag s) := by
  unfold expireReply
  dsimp only
  split
  · exact (steady_modRoute _ _ _).trans (steady_startBackout _ _)
  · exact (steady_modRoute _ _ _).trans (steady_startBackout _ _)
  · exact (steady_modRoute _ _ _).trans (steady_startBackout _ _)
  · exact (steady_modRoute _ _ _).trans (steady_testEnd _ _)

/-! ## The Job Unit -/

theorem steady_replaceJob (old new : Job) (s : State) : Steady s (replaceJob old new s) := Steady.blocks rfl

theorem steady_removeJob (j : Job) (s : State) : Steady s (removeJob j s) := Steady.blocks rfl

theorem steady_deliverLocal (ref : RouteRef) (line : Line) (trunk : Trunk) (code : ResultCode) (s : State) :
    Steady s (deliverLocal ref line trunk code s) := Steady.blocks rfl

theorem steady_returnFollower (c : Job) (s : State) : Steady s (returnFollower c s) :=
  Steady.ite (fun _ => (steady_deliverLocal _ _ _ _ _).trans (steady_removeJob _ _)) fun _ =>
    Steady.ite (fun _ => (steady_enqueue _ _).trans (steady_removeJob _ _)) fun _ => steady_replaceJob _ _ _

theorem steady_returnFollowers (j : Job) (s : State) : Steady s (returnFollowers j s) :=
  Steady.foldl (fun s _ => steady_returnFollower _ s) _ s

theorem steady_returnJob (fromBatch : Bool) (j : Job) (s : State) : Steady s (returnJob fromBatch j s) := by
  unfold returnJob
  split
  · refine Steady.ite (fun _ => ?_) fun _ => Steady.ite (fun _ => ?_) fun _ => Steady.ite (fun _ => ?_)
      fun _ => Steady.refl s
    · exact ((steady_deliverLocal _ _ _ _ _).trans (steady_removeJob _ _)).trans (steady_returnFollowers _ _)
    · exact Steady.blocks rfl
    · exact ((steady_enqueue _ _).trans (steady_removeJob _ _)).trans (steady_returnFollowers _ _)
  · exact Steady.refl s

theorem steady_endJob (code : ResultCode) (j : Job) (s : State) : Steady s (endJob code j s) :=
  (steady_replaceJob _ _ _).trans (steady_returnJob _ _ _)

theorem steady_answerAtIntake (q : JobRequest) (code : ResultCode) (s : State) :
    Steady s (answerAtIntake q code s) :=
  Steady.ite (fun _ => steady_deliverLocal _ _ _ _ _) fun _ => steady_enqueue _ _

theorem steady_armJob (j : Job) (s : State) : Steady s (armJob j s) := by
  unfold armJob
  refine Steady.ite (fun _ => ?_) fun _ => Steady.ite (fun _ => ?_) fun _ => steady_replaceJob _ _ _
  · exact (steady_replaceJob _ _ _).trans (steady_deliverLocal _ _ _ _ _)
  · exact (steady_replaceJob _ _ _).trans (steady_enqueue _ _)

theorem steady_cancelCloses (j : Job) (s : State) : Steady s (cancelCloses j s) :=
  Steady.blocks rfl

theorem steady_placeByQuiet (j : Job) (s : State) : Steady s (placeByQuiet j s) := steady_replaceJob _ _ _

theorem steady_placeOpen (j : Job) (s : State) : Steady s (placeOpen j s) := by
  unfold placeOpen
  dsimp only
  split
  · exact (steady_cancelCloses _ _).trans (steady_endJob _ _ _)
  · exact (steady_cancelCloses _ _).trans (steady_placeByQuiet _ _)

theorem steady_placeJob (j : Job) (s : State) : Steady s (placeJob j s) := by
  unfold placeJob
  refine Steady.ite (fun _ => steady_armJob _ _) fun _ => ?_
  split
  · exact Steady.ite (fun _ => steady_placeOpen _ _) fun _ => steady_endJob _ _ _
  · exact steady_placeOpen _ _
  · exact steady_placeByQuiet _ _

theorem steady_intake (q : JobRequest) (s : State) : Steady s (intake q s) := by
  unfold intake
  refine Steady.ite (fun _ => steady_answerAtIntake _ _ _) fun _ =>
    Steady.ite (fun _ => steady_answerAtIntake _ _ _) fun h => Steady.ite (fun _ => Steady.refl s) fun _ => ?_
  have hp : s.jobPlace = true := by simpa using h
  dsimp only
  split
  · exact Steady.blocks rfl
  · exact (Steady.blocks rfl).trans (steady_placeJob _ _)

theorem steady_exchangeStep {s t : State} (h : exchangeStep s = some t) : Steady s t := by
  unfold exchangeStep at h
  split at h
  · cases h
    exact Steady.trans (Steady.blocks rfl) (steady_takeResult _ _)
  · rw [Option.map_eq_some_iff] at h
    obtain ⟨p, _, rfl⟩ := h
    exact Steady.trans (Steady.blocks rfl) (steady_intake _ _)

theorem steady_exchangeN (n : Nat) (s : State) : Steady s (exchangeN n s) := by
  induction n generalizing s with
  | zero => exact Steady.refl s
  | succ n ih =>
    unfold exchangeN
    split
    · exact (steady_exchangeStep ‹_›).trans (ih _)
    · exact Steady.refl s

theorem steady_exchange (s : State) : Steady s (exchange s) := steady_exchangeN _ s

theorem steady_endJobs (verdict : Job → Option ResultCode) (s : State) : Steady s (endJobs verdict s) := by
  unfold endJobs
  refine Steady.trans ?_ (Steady.foldl (fun s _ => (steady_returnJob _ _ s).trans (steady_exchange _)) _ _)
  exact Steady.blocks rfl

theorem steady_admitJob (j : Job) (s : State) : Steady s (admitJob j s) := by
  unfold admitJob
  refine Steady.ite (fun _ => ?_) fun _ => Steady.refl s
  split
  · exact steady_returnJob _ _ _
  · exact Steady.refl s
  · exact Steady.ite (fun _ => (steady_replaceJob _ _ _).trans (steady_enqueue _ _)) fun _ => Steady.refl s

theorem steady_admitHeld (h : HeldMsg) (s : State) : Steady s (admitHeld h s) :=
  Steady.ite (fun _ => (steady_enqueue h.msg s).trans (Steady.blocks rfl)) fun _ => Steady.refl s

theorem steady_admitAll (s : State) : Steady s (admitAll s) :=
  (Steady.foldl (fun s j => steady_admitJob j s) _ s).trans (Steady.foldl (fun s h => steady_admitHeld h s) _ _)

theorem steady_takeAbandon (ref : RouteRef) (s : State) : Steady s (takeAbandon ref s) := steady_endJobs _ s

theorem steady_countHotWaits (s : State) : Steady s (countHotWaits s) := by
  unfold countHotWaits
  exact Steady.trans (Steady.blocks rfl) (steady_endJobs _ _)

theorem steady_clearJobs (s : State) : Steady s (clearJobs s) := Steady.blocks rfl

theorem steady_takePermit (ref : RouteRef) (s : State) : Steady s (takePermit ref s) :=
  Steady.blocks rfl

theorem steady_fireJobs (fires : Job → Bool) (s : State) : Steady s (fireJobs fires s) :=
  Steady.blocks rfl

theorem steady_takeFire (ref : RouteRef) (s : State) : Steady s (takeFire ref s) := steady_fireJobs _ s

theorem steady_takeTrigger (s : State) : Steady s (takeTrigger s) :=
  (Steady.foldl (fun s tag => steady_fireRoute tag s) _ s).trans (steady_fireJobs _ _)

theorem steady_armedTest (s : State) : Steady s (armedTest s) :=
  Steady.ite (fun _ => steady_endJobs _ s) fun _ => Steady.refl s

/-! ## The Commit Engine -/

theorem steady_modXp (x : Xp) (f : Crosspoint → Crosspoint) (s : State) : Steady s (modXp x f s) := Steady.blocks rfl

theorem steady_chargeWear (n : Nat) (x : Xp) (s : State) : Steady s (chargeWear n x s) := by
  have hpost : ∀ t : State, Steady t (postWearWarn t) := fun t => Steady.orp rfl ⟨id, fun _ => id, fun _ => id⟩
  exact Steady.ite (fun _ => (steady_modXp x _ s).trans (hpost _)) fun _ => steady_modXp x _ s

theorem steady_strayRule (s : State) : Steady s (strayRule s) :=
  Steady.ite (fun _ => Steady.blocks rfl) fun _ => Steady.refl s

theorem steady_takeSweeps (s : State) : Steady s (takeSweeps s) := Steady.blocks rfl

theorem steady_startCheck (s : State) : Steady s (startCheck s) := Steady.blocks rfl

theorem steady_strayPoint (s : State) : Steady s (strayPoint s) :=
  (steady_strayRule s).trans (steady_armedTest _)

theorem steady_settleSweepTimer (s : State) : Steady s (settleSweepTimer s) :=
  Steady.ite (fun _ => Steady.refl s) fun _ => Steady.blocks rfl

theorem steady_offerJobs (s : State) : Steady s (offerJobs s) := Steady.blocks rfl

theorem steady_gatherBatch (s : State) : Steady s (gatherBatch s) := by
  unfold gatherBatch
  dsimp only
  refine Steady.trans ?_ (steady_endJobs _ _)
  have h : ∀ (t : State) (w : List Xp), Steady t { t with cme.waiting := w } := fun t w => Steady.blocks rfl
  refine Steady.trans ?_ (h _ _)
  refine Steady.trans ?_ (steady_takeSweeps _)
  refine Steady.trans ?_ (steady_offerJobs _)
  exact Steady.blocks rfl

theorem steady_startDrive (engine : Engine) (s : State) : Steady s (startDrive engine s) :=
  Steady.blocks rfl

theorem steady_endBatch (s : State) : Steady s (endBatch s) := Steady.blocks rfl

theorem steady_openStroke (s : State) : Steady s (openStroke s) := by
  unfold openStroke
  refine Steady.trans ?_ (steady_startDrive _ _)
  refine Steady.trans (Steady.foldl (fun s j => steady_modXp _ _ s) _ _) (Steady.foldl (fun s w => ?_) _ _)
  dsimp only
  split
  · exact (steady_modXp _ _ _).trans (steady_chargeWear _ _ _)
  · exact steady_modXp _ _ _

theorem steady_closeOne (j : Job) (s : State) : Steady s (closeOne j s) :=
  Steady.ite (fun _ => Steady.ite (fun _ => (steady_modXp _ _ s).trans (steady_chargeWear _ _ _)) fun _ =>
    (steady_endJob _ _ s).trans (steady_exchange _)) fun _ => Steady.refl s

theorem steady_closeStroke (s : State) : Steady s (closeStroke s) := by
  unfold closeStroke
  dsimp only
  have h : ∀ l : List Job, Steady s (l.foldl (fun s j => closeOne j s) s) := fun l =>
    Steady.foldl (fun s j => steady_closeOne j s) l s
  split
  · refine Steady.trans ?_ (steady_startDrive _ _)
    exact (h _).trans (Steady.blocks rfl)
  · refine Steady.trans ?_ (steady_endBatch _)
    exact (h _).trans (Steady.blocks rfl)

theorem steady_formBatch (s : State) : Steady s (formBatch s) := by
  unfold formBatch
  dsimp only
  split
  · exact (steady_gatherBatch s).trans (steady_openStroke _)
  · split
    · exact (steady_gatherBatch s).trans (steady_closeStroke _)
    · exact (steady_gatherBatch s).trans (steady_endBatch _)

/-! ## Link messages and headers -/

theorem steady_applyClaim (sender : Addr) (t : Trunk) (s : State) : Steady s (applyClaim sender t s).1 := by
  unfold applyClaim
  split
  · split
    · exact Steady.blocks rfl
    · exact Steady.refl s
  · exact Steady.refl s

theorem steady_applyRelease (sender : Addr) (t : Trunk) (s : State) : Steady s (applyRelease sender t s) :=
  Steady.ite (fun _ => Steady.blocks rfl) fun _ => Steady.refl s

theorem steady_applyQuarantine (sender : Addr) (t : Trunk) (s : State) : Steady s (applyQuarantine sender t s) :=
  Steady.ite (fun _ => Steady.blocks rfl) fun _ => Steady.refl s

theorem steady_contaminate (sender : Addr) (contacts : TrunkSet) (s : State) :
    Steady s (contaminate sender contacts s) := Steady.ite (fun _ => Steady.blocks rfl) fun _ => Steady.refl s

theorem steady_noteFrame (f : Frame) (s : State) : Steady s (noteFrame f s) := Steady.blocks rfl

theorem steady_becomeStale (s : State) : Steady s (becomeStale s) :=
  ⟨⟨id, fun _ _ => rfl, fun _ => id⟩, rfl, rfl, rfl, id⟩

theorem steady_compareHeader (f : Frame) (s : State) : Steady s (compareHeader f s) :=
  Steady.ite (fun _ => Steady.ite (fun _ => Steady.blocks rfl) fun _ =>
    Steady.ite (fun _ => steady_becomeStale s) fun _ => Steady.blocks rfl) fun _ => Steady.refl s

theorem steady_takeClaim (sender : Addr) (t : Trunk) (tag : Tag) (gen : Gen) (leg : Fin 4) (s : State) :
    Steady s (takeClaim sender t tag gen leg s) := by
  unfold takeClaim
  refine Steady.ite (fun _ => ?_) fun _ => Steady.refl s
  dsimp only
  split
  · split
    · exact ((steady_applyClaim _ _ s).trans (steady_reportClaim _ _ _ _ _ _)).trans (steady_exchange _)
    · exact steady_applyClaim _ _ s
  · exact steady_applyClaim _ _ s

theorem steady_takeRelease (sender : Addr) (t : Trunk) (s : State) : Steady s (takeRelease sender t s) :=
  Steady.ite (fun _ => steady_applyRelease _ _ s) fun _ => Steady.refl s

theorem steady_takeQuarantine (sender : Addr) (t : Trunk) (s : State) : Steady s (takeQuarantine sender t s) :=
  Steady.ite (fun _ => steady_applyQuarantine _ _ s) fun _ => Steady.refl s

theorem steady_takeOperate (sender target : Addr) (q : JobRequest) (s : State) :
    Steady s (takeOperate sender target q s) :=
  Steady.ite (fun _ => (steady_intake _ s).trans (steady_exchange _)) fun _ => Steady.refl s

theorem steady_takeResultMsg (target : Addr) (q : RouteResult) (s : State) : Steady s (takeResultMsg target q s) :=
  Steady.ite (fun _ => (steady_takeResult _ s).trans (steady_exchange _)) fun _ => Steady.refl s

theorem steady_takeAbandonMsg (ref : RouteRef) (s : State) : Steady s (takeAbandonMsg ref s) :=
  Steady.ite (fun _ => steady_takeAbandon _ s) fun _ => Steady.refl s

theorem steady_takePermitMsg (ref : RouteRef) (s : State) : Steady s (takePermitMsg ref s) := by
  unfold takePermitMsg
  refine Steady.ite (fun _ => ?_) fun _ => Steady.refl s
  dsimp only
  split
  · exact (steady_takePermit _ s).trans (steady_routePermitted _ _ _)
  · exact steady_takePermit _ s

theorem steady_takeFireMsg (ref : RouteRef) (s : State) : Steady s (takeFireMsg ref s) := by
  unfold takeFireMsg
  refine Steady.ite (fun _ => ?_) fun _ => Steady.refl s
  dsimp only
  split
  · exact (steady_takeFire _ s).trans (steady_routeFired _ _ _)
  · exact steady_takeFire _ s

theorem steady_dispatchMsg (sender : Addr) (m : LinkMsg) (s : State) : Steady s (dispatchMsg sender m s) := by
  cases m with
  | claim t tag gen leg => exact steady_takeClaim _ _ _ _ _ s
  | release t => exact steady_takeRelease _ _ s
  | quarantine t => exact steady_takeQuarantine _ _ s
  | operate a l t act tag gen q arm => exact steady_takeOperate _ _ _ s
  | result a tag gen l t code => exact steady_takeResultMsg _ _ s
  | abandon tag gen => exact steady_takeAbandonMsg _ s
  | permit tag gen => exact steady_takePermitMsg _ s
  | fire tag gen => exact steady_takeFireMsg _ s

/-! ## Orders -/

theorem steady_refuse (code : Byte) (reason : Reason) (s : State) : Steady s (refuse code reason s) :=
  steady_placeReport _ _

theorem steady_accept {s t : State} (h : Steady s t) (code : Byte) : Steady s (accept code t) :=
  h.trans (steady_placeReport _ _)

theorem steady_orderConfigure {s : State} (hs : s.stc.station ≠ .offline) (p : List Byte) :
    Steady s (orderConfigure p s) := by
  unfold orderConfigure
  split
  · exact steady_refuse _ _ s
  · exact Steady.ite (fun _ => steady_refuse _ _ s) fun h => absurd (by simpa using h) hs

theorem steady_orderWearLoad (p : List Byte) (s : State) : Steady s (orderWearLoad p s) := by
  unfold orderWearLoad
  split
  · exact steady_refuse _ _ s
  · refine Steady.ite (fun _ => steady_refuse _ _ s) fun _ => ?_
    have hload : ∀ l counts, Steady s (loadWear l counts s) := fun l counts => by
      unfold loadWear
      exact Steady.blocks rfl
    exact steady_accept (hload _ _) _

theorem steady_orderJoin {s : State} (hs : s.stc.station ≠ .offline) (p : List Byte) : Steady s (orderJoin p s) := by
  unfold orderJoin
  exact Steady.ite (fun _ => steady_refuse _ _ s) fun _ => Steady.ite (fun _ => steady_refuse _ _ s) fun h =>
    absurd (by simpa using h) hs

theorem steady_orderCheck (p : List Byte) (s : State) : Steady s (orderCheck p s) := by
  unfold orderCheck
  split
  · exact steady_refuse _ _ s
  · exact Steady.ite (fun _ => steady_refuse _ _ s) fun _ => Steady.ite (fun _ => steady_refuse _ _ s) fun _ =>
      Steady.blocks rfl

theorem steady_orderWearRead (p : List Byte) (s : State) : Steady s (orderWearRead p s) := by
  unfold orderWearRead
  split
  · exact steady_placeReport _ _
  · exact steady_placeReport _ _

theorem steady_makeTag (p : List Byte) (s : State) : Steady s (makeTag p s).2 := by
  obtain ⟨n, hn⟩ := makeTag_snd p s
  rw [hn]
  exact Steady.blocks rfl

theorem steady_namedTag (code : Byte) (p : List Byte) (s : State) : Steady s (namedTag code p s).2 := by
  obtain ⟨n, hn⟩ := namedTag_snd code p s
  rw [hn]
  exact Steady.blocks rfl

theorem steady_acceptMake (o : MakeOrder) (s : State) : Steady s (acceptMake o s) := by
  unfold acceptMake
  dsimp only
  split
  · exact (steady_modRoute _ _ s).trans (steady_planStep _ _)
  · exact steady_modRoute _ _ s

theorem steady_orderRouteMake (p : List Byte) (s : State) : Steady s (orderRouteMake p s) := by
  unfold orderRouteMake
  split
  · exact (steady_makeTag p s).trans (steady_placeReport _ _)
  · split
    · exact steady_placeReport _ _
    · exact steady_acceptMake _ s

theorem steady_startRepair (kind : OrderKind) (state : RouteState) (action : Action) (sel : Endpoint → Bool) (tag : Tag)
    (s : State) : Steady s (startRepair kind state action sel tag s) := by
  unfold startRepair
  dsimp only
  refine Steady.trans ?_ (steady_exchange _)
  refine Steady.trans ?_ (steady_testEnd _ _)
  refine Steady.trans ?_ (steady_makeRound _ _ _ _ _)
  exact (steady_modRoute _ _ s).trans (steady_modRoute _ _ _)

theorem steady_acceptBreak (tag : Tag) (s : State) : Steady s (acceptBreak tag s) := by
  unfold acceptBreak
  have h : Steady s (exchange (failMake tag .aborted (owe tag .brk s))) :=
    ((steady_modRoute _ _ s).trans (steady_failMake _ _ _)).trans (steady_exchange _)
  split
  · exact steady_modRoute _ _ s
  · exact h
  · exact h
  · exact h
  · exact steady_startRepair _ _ _ _ _ s

theorem steady_orderRouteBreak (p : List Byte) (s : State) : Steady s (orderRouteBreak p s) := by
  unfold orderRouteBreak
  split
  · exact (steady_namedTag 0x11 p s).trans (steady_placeReport _ _)
  · refine Steady.ite (fun _ => steady_placeReport _ _) fun _ => ?_
    split
    · exact steady_placeReport _ _
    · exact steady_acceptBreak _ s

theorem steady_orderRouteClear (p : List Byte) (s : State) : Steady s (orderRouteClear p s) := by
  unfold orderRouteClear
  split
  · exact (steady_namedTag 0x12 p s).trans (steady_placeReport _ _)
  · refine Steady.ite (fun _ => steady_placeReport _ _) fun _ => ?_
    split
    · exact steady_placeReport _ _
    · exact steady_startRepair _ _ _ _ _ s

theorem steady_orderRouteFire (p : List Byte) (s : State) : Steady s (orderRouteFire p s) := by
  unfold orderRouteFire
  split
  · exact steady_placeReport _ _
  · refine Steady.ite (fun _ => steady_placeReport _ _) fun _ => Steady.ite (fun _ => steady_placeReport _ _) fun _ =>
      Steady.ite (fun _ => steady_placeReport _ _) fun _ => Steady.ite (fun _ => steady_placeReport _ _) fun _ => ?_
    exact steady_accept (steady_rteSend _ _ s) _

theorem steady_orderRouteQuery (p : List Byte) (s : State) : Steady s (orderRouteQuery p s) := by
  unfold orderRouteQuery
  split
  · exact steady_placeReport _ _
  · exact steady_placeReport _ _

/-! ## The end of an event -/

/-- Every order but ALERT-CLEAR, outside OFFLINE. -/
theorem steady_takeOrder {s : State} {o : Order} (hs : s.stc.station ≠ .offline) (ho : o.code ≠ 0x22) :
    Steady s (takeOrder o s) := by
  unfold takeOrder
  refine Steady.ite (fun _ => steady_orderConfigure hs _) fun _ =>
    Steady.ite (fun _ => steady_orderWearLoad _ s) fun _ =>
    Steady.ite (fun _ => steady_orderWearRead _ s) fun _ => Steady.ite (fun _ => steady_orderJoin hs _) fun _ =>
    Steady.ite (fun _ => steady_orderRouteMake _ s) fun _ => Steady.ite (fun _ => steady_orderRouteBreak _ s) fun _ =>
    Steady.ite (fun _ => steady_orderRouteClear _ s) fun _ => Steady.ite (fun _ => steady_orderRouteFire _ s) fun _ =>
    Steady.ite (fun _ => steady_orderRouteQuery _ s) fun _ => Steady.ite (fun _ => ?_) fun _ =>
    Steady.ite (fun _ => ?_) fun _ => Steady.ite (fun h => absurd (by simpa using h) ho) fun _ =>
    Steady.ite (fun _ => steady_orderCheck _ s) fun _ => steady_refuse _ _ s
  · exact Steady.ite (fun _ => steady_placeReport _ s) fun _ => steady_refuse _ _ s
  · exact Steady.ite (fun _ => steady_placeReport _ s) fun _ => steady_refuse _ _ s

/-- An ALERT-CLEAR, from the state whose head order it is. -/
theorem steady_orderAlertClear {s : State} {o : Order} {os : List Order} (h : s.orp.orders = o :: os) (p : List Byte) :
    Steady s (orderAlertClear p { s with orp.orders := os }) := by
  unfold orderAlertClear
  split
  · exact Steady.orp rfl (Posts.of_cons h)
  · exact Steady.orp rfl (Posts.of_cons h)

theorem takeOrder_alertClear {o : Order} (h : o.code = 0x22) (s : State) :
    takeOrder o s = orderAlertClear o.payload s := by
  simp [takeOrder, h]

theorem steady_serveOrder {s t : State} (hs : s.stc.station ≠ .offline) (h : serveOrder s = some t) : Steady s t := by
  unfold serveOrder at h
  split at h
  · rename_i o os ho
    split at h
    · cases h
      by_cases hc : o.code = 0x22
      · rw [takeOrder_alertClear hc]
        exact steady_orderAlertClear ho _
      · have hpop : Steady s { s with orp.orders := os } := Steady.orp rfl (Posts.of_cons ho)
        exact hpop.trans (steady_takeOrder hs hc)
    · cases h
  · cases h

theorem steady_commitWork {s t : State} (h : commitWork s = some t) : Steady s t := by
  unfold commitWork at h
  split at h
  · cases h
    exact steady_startCheck s
  · split at h
    · cases h
      exact steady_formBatch s
    · cases h

theorem steady_serveStep {s t : State} (hs : s.stc.station ≠ .offline) (h : serveStep s = some t) : Steady s t := by
  unfold serveStep at h
  split at h
  · cases h
    exact steady_commitWork ‹_›
  · have hreports := steady_placeReports s
    exact hreports.trans (steady_serveOrder (by rw [hreports.stc]; exact hs) h)

theorem steady_serveN (n : Nat) {s : State} (hs : s.stc.station ≠ .offline) : Steady s (serveN n s) := by
  induction n generalizing s with
  | zero => exact steady_placeReports s
  | succ n ih =>
    unfold serveN
    split
    · have hstep := steady_serveStep hs ‹_›
      exact hstep.trans (ih (by rw [hstep.stc]; exact hs))
    · exact steady_placeReports s

/-- The end of an event, outside OFFLINE. -/
theorem steady_afterEvent {s : State} (hs : s.stc.station ≠ .offline) : Steady s (afterEvent s) := by
  have hpins : ∀ t : State, Steady t (updatePins t) := fun t => Steady.orp rfl ⟨id, fun _ => id, fun _ => id⟩
  exact (((steady_serveN _ hs).trans (steady_pruneTimers _)).trans (steady_settleSweepTimer _)).trans (hpins _)

/-! ## Settlement of the own frame (R37) -/

theorem steady_settleMsg (m : LinkMsg) (s : State) : Steady s (settleMsg m s) := by
  cases m with
  | operate a l t act tag gen q arm =>
    have hcount : Steady s { s with rte.rounds := countSettled (.operate a l t act tag gen q arm) s.rte.rounds } :=
      Steady.blocks rfl
    exact hcount.trans (steady_setReplyTimer _ _ _)
  | abandon tag gen => exact steady_setReplyTimer _ _ s
  | _ => exact Steady.refl s

theorem steady_settleBadMsg (m : LinkMsg) (s : State) : Steady s (settleBadMsg m s) := by
  cases m with
  | permit tag gen => exact steady_routePermitted _ _ s
  | fire tag gen => exact steady_routeFired _ _ s
  | _ =>
    unfold settleBadMsg
    exact steady_settleMsg _ s

/-- A settlement takes every message out of flight, and then does such work. -/
theorem steady_settleGood (s : State) :
    Steady { s with liu.queue := s.liu.queue.filter fun i => !i.inFlight } (settleGood s) :=
  Steady.foldl (fun s m => steady_settleMsg m s) _ _

/-- The queue that a settlement as that of a bad own frame leaves: the messages that R37 keeps, and the waiting ones. -/
def State.keptQueue (s : State) : List QueueItem :=
  ((s.inFlight.filter keptWhenBad).map fun m => (⟨m, false⟩ : QueueItem)) ++ s.liu.queue.filter fun i => !i.inFlight

theorem State.keptQueue_waits (s : State) : ∀ i ∈ s.keptQueue, i.inFlight = false := by
  intro i hi
  rcases List.mem_append.1 hi with hi | hi
  · obtain ⟨m, -, rfl⟩ := List.mem_map.1 hi
    rfl
  · simpa using (List.mem_filter.1 hi).2

theorem steady_settleBad (s : State) : Steady { s with liu.queue := s.keptQueue } (settleBad s) :=
  Steady.foldl (fun s m => steady_settleBadMsg m s) _ _

/-- After a settlement no message is in flight. -/
theorem settleOwn_steady (good : Bool) (s : State) :
    ∃ q : List QueueItem, (∀ i ∈ q, i.inFlight = false) ∧ Steady { s with liu.queue := q } (settleOwn good s) := by
  have hadmit : ∀ t, Steady t (exchange (admitAll t)) := fun t => (steady_admitAll t).trans (steady_exchange _)
  cases good with
  | true => exact ⟨_, fun i hi => by simpa using (List.mem_filter.1 hi).2, (steady_settleGood s).trans (hadmit _)⟩
  | false => exact ⟨_, s.keptQueue_waits, (steady_settleBad s).trans (hadmit _)⟩

theorem posts_settleOwn (good : Bool) (s : State) : Posts s (settleOwn good s) := by
  obtain ⟨q, -, h⟩ := settleOwn_steady good s
  exact ⟨h.orders, h.stale, h.clash⟩

end Sys2Proof.Machine

/-! PROOFS. A slot overrun at a cycle mark (02 R21, 04 R68, R69): the link error makes the station stale, and none of
the takers of the mark, nor the end of the event, takes that back. -/

namespace Sys2Proof.Machine

/-! ## What the own slot and the mark keep of the alerts -/

theorem posts_cutOwnSlot (s : State) : Posts s (cutOwnSlot s) := by
  unfold cutOwnSlot
  split
  · exact (Posts.liu _ s).trans (posts_settleOwn false _)
  · exact Posts.refl s

theorem posts_moveTo (slot : Slot) (bit : Nat) (s : State) : Posts s (moveTo slot bit s) := by
  unfold moveTo
  dsimp only
  split
  · exact Posts.liu _ s
  · exact (posts_cutOwnSlot s).trans (Posts.liu _ _)

theorem posts_withdraw (i : QueueItem) (s : State) : Posts s (withdraw i s) := by
  unfold withdraw
  split
  · dsimp only
    split
    · exact (Posts.liu _ s).trans ((steady_reportLostBeforeSend _ _ _ _ _).trans (steady_exchange _)).toPosts
    · exact Posts.liu _ s
  · exact Posts.refl s

theorem posts_takeFirst (m : LinkMsg) (s : State) : Posts s (takeFirst m s) := by
  unfold takeFirst
  dsimp only
  split
  · exact (Posts.liu _ s).trans (steady_markSent _ _ _ _ _).toPosts
  · exact Posts.liu _ s

theorem posts_takeMessages (n : Nat) (s : State) : Posts s (takeMessages n s) := by
  induction n generalizing s with
  | zero => exact Posts.refl s
  | succ n ih =>
    unfold takeMessages
    split
    · exact Posts.refl s
    · split
      · exact Posts.refl s
      · split
        · exact (posts_withdraw _ s).trans (ih _)
        · exact (posts_takeFirst _ s).trans (ih _)

theorem posts_startOwnSlot (s : State) : Posts s (startOwnSlot s) := by
  have hfix : ∀ t, Posts t (fixFrame t) := fun t => Posts.liu _ t
  unfold startOwnSlot
  refine Posts.trans ?_ (hfix _)
  split
  · have hwithdraw := Posts.foldl (fun s i => posts_withdraw i s) (s.liu.queue.filter s.withdrawn) s
    exact (hwithdraw.trans (steady_admitAll _).toPosts).trans (posts_takeMessages _ _)
  · exact Posts.refl s

theorem posts_takeOwnSlotStart (s : State) : Posts s (takeOwnSlotStart s) := by
  unfold takeOwnSlotStart
  dsimp only
  split
  · split
    · exact (posts_moveTo _ _ s).trans (posts_startOwnSlot _)
    · exact posts_moveTo _ _ s
  · exact Posts.refl s

theorem posts_sampleTrig (trig : Bool) (s : State) : Posts s (sampleTrig trig s) := by
  unfold sampleTrig
  dsimp only
  split
  · exact (Posts.liu _ s).trans (steady_takeTrigger _).toPosts
  · exact Posts.liu _ s

theorem posts_takeSlotBoundary (slot : Slot) (trig : Bool) (s : State) : Posts s (takeSlotBoundary slot trig s) := by
  unfold takeSlotBoundary
  dsimp only
  split
  · split
    · exact (posts_moveTo _ _ s).trans (posts_sampleTrig _ _)
    · exact posts_moveTo _ _ s
  · exact Posts.refl s

/-! ## The takers of the mark (R22) -/

theorem steady_markRte (s : State) : Steady s (markRte s) := by
  unfold markRte
  dsimp only
  refine Steady.trans ((steady_pruneTimers s).trans (Steady.blocks rfl)) (Steady.foldl (fun s tag => ?_) _ _)
  exact Steady.ite (fun _ => (steady_expireReply tag s).trans (steady_exchange _)) fun _ => Steady.refl s

theorem steady_markJbu (s : State) : Steady s (markJbu s) := by
  have hcount : Steady s { s with jbu.sweep := s.jbu.sweep.count } := Steady.blocks rfl
  exact hcount.trans (steady_countHotWaits _)

/-- The agreement state stands, and so do all blocks but the trunk table unit and Station Control. -/
structure SameAgreement (s t : State) : Prop where
  rest : t = { s with ttu := t.ttu, stc := t.stc }
  valid : t.ttu.valid = s.ttu.valid
  stale : t.ttu.stale = s.ttu.stale
  pending : t.ttu.pending = s.ttu.pending
  mismatch : t.ttu.mismatch = s.ttu.mismatch

theorem SameAgreement.refl (s : State) : SameAgreement s s := ⟨rfl, rfl, rfl, rfl, rfl⟩

theorem SameAgreement.trans {s t u : State} (h : SameAgreement s t) (g : SameAgreement t u) : SameAgreement s u :=
  ⟨by rw [g.rest, h.rest], g.valid.trans h.valid, g.stale.trans h.stale, g.pending.trans h.pending,
    g.mismatch.trans h.mismatch⟩

theorem sameAgreement_noteListening (s : State) : SameAgreement s (noteListening s) := by
  unfold noteListening
  split
  · exact ⟨rfl, rfl, rfl, rfl, rfl⟩
  · exact SameAgreement.refl s

theorem sameAgreement_drainRule (s : State) : SameAgreement s (drainRule s) := by
  unfold drainRule
  split
  · exact ⟨rfl, rfl, rfl, rfl, rfl⟩
  · exact ⟨rfl, rfl, rfl, rfl, rfl⟩

/-- A closed watch, or a record without a candidate, recovers nothing (R73). -/
theorem recovers_eq_none {s : State} (h : s.ttu.watch = false ∨ s.ttu.candidate = none) : s.recovers = none := by
  unfold State.recovers
  rcases h with h | h
  · rw [h]
    rfl
  · rw [h, ite_self]

theorem noteListening_recovers (s : State) : (noteListening s).recovers = s.recovers := by
  unfold noteListening
  split <;> rfl

/-- The mark's work of the trunk table unit when its table is valid and no recovery adopts another. -/
theorem sameAgreement_markTtu {s : State} (overrun : Bool) (hvalid : s.ttu.valid = true)
    (hrecovers : s.ttu.watch = false ∨ s.ttu.candidate = none) : SameAgreement s (markTtu overrun s) := by
  have hnote := sameAgreement_noteListening s
  have hadopt : (noteListening s).recovers = none := (noteListening_recovers s).trans (recovers_eq_none hrecovers)
  have hends : endListeningTable (noteListening s) = noteListening s := if_pos (hnote.valid.trans hvalid)
  have hdrain := hnote.trans (sameAgreement_drainRule _)
  unfold markTtu
  simp only [hadopt, hends, ite_self]
  refine hdrain.trans ⟨rfl, rfl, rfl, rfl, rfl⟩

/-- A mark's work leaves a new record without a candidate. -/
theorem markTtu_candidate (overrun : Bool) (s : State) : (markTtu overrun s).ttu.candidate = none := rfl

theorem cutOwnSlot_ownSlot (s : State) : (cutOwnSlot s).liu.ownSlot = false := by
  unfold cutOwnSlot
  split
  · obtain ⟨q, -, h⟩ := settleOwn_steady false { s with liu.ownSlot := false, liu.garbled := false }
    rw [h.liu]
  · simpa using ‹¬s.liu.ownSlot = true›

/-- A slot boundary starts no own slot. -/
theorem takeSlotBoundary_ownSlot (slot : Slot) (trig : Bool) {s : State} (h : s.liu.ownSlot = false) :
    (takeSlotBoundary slot trig s).liu.ownSlot = false := by
  have hmove : (moveTo slot 0 s).liu.ownSlot = false := by
    rw [moveTo_of h]
    exact h
  have hsample : ∀ t : State, (sampleTrig trig t).liu.ownSlot = t.liu.ownSlot := fun t => by
    unfold sampleTrig
    dsimp only
    split
    · rw [(steady_takeTrigger _).liu]
    · rfl
  unfold takeSlotBoundary
  dsimp only
  split
  · split
    · rw [hsample, hmove]
    · exact hmove
  · exact h

/-! ## The mark of an overrun -/

/-- What stands from the link error of an overrun to the end of its mark: the station is stale, with the alert posted,
and no recovery can adopt another table. -/
structure StaleMark (order : List MarkTaker) (s u : State) : Prop where
  online : u.stc.station ≠ .offline
  valid : u.ttu.valid = true
  stale : u.ttu.stale = true
  pending : u.ttu.pending = true
  mismatch : u.ttu.mismatch = false
  unwatched : u.ttu.watch = false ∨ u.ttu.candidate = none
  orders : u.orp.orders = []
  posted : u.orp.alerts.staleEntered = true
  ownSlot : MarkTaker.ownStart ∉ order → u.liu.ownSlot = false
  mbu : u.mbu = s.mbu

/-- Work that leaves both tables and the alerts keeps it. -/
theorem StaleMark.of_ownWork {order : List MarkTaker} {s u v : State} (h : StaleMark order s u) (g : OwnWork u v)
    (p : Posts u v) (hown : MarkTaker.ownStart ∉ order → v.liu.ownSlot = false) : StaleMark order s v := by
  have httu := g.ttu h.online
  exact ⟨g.online h.online, httu ▸ h.valid, httu ▸ h.stale, httu ▸ h.pending, httu ▸ h.mismatch, httu ▸ h.unwatched,
    p.orders h.orders, p.stale h.orders h.posted, hown, g.mbu.trans h.mbu⟩

/-- The link error of the overrun. -/
theorem staleMark_linkError {order : List MarkTaker} {s : State} (honline : s.stc.station ≠ .offline)
    (hvalid : s.ttu.valid = true) (hstale : s.ttu.stale = false) (hwatch : s.ttu.watch = false)
    (horders : s.orp.orders = []) (hown : s.liu.ownSlot = false) : StaleMark order s (linkError s) := by
  unfold linkError
  rw [if_pos (by rw [hvalid, hstale]; rfl)]
  exact ⟨honline, hvalid, rfl, rfl, rfl, .inl hwatch, horders, rfl, fun _ => hown, rfl⟩

theorem StaleMark.after_markTtu {order : List MarkTaker} {s u : State} (h : StaleMark order s u) (overrun : Bool) :
    StaleMark order s (markTtu overrun u) := by
  have hwork := linkWork_markTtu overrun u
  have hsame := sameAgreement_markTtu overrun h.valid h.unwatched
  have horp : (markTtu overrun u).orp = u.orp := by rw [hsame.rest]
  have hliu : (markTtu overrun u).liu = u.liu := by rw [hsame.rest]
  exact ⟨hwork.online h.online, hsame.valid.trans h.valid, hsame.stale.trans h.stale, hsame.pending.trans h.pending,
    hsame.mismatch.trans h.mismatch, .inr (markTtu_candidate overrun u), horp ▸ h.orders, horp ▸ h.posted,
    hliu ▸ h.ownSlot, hwork.mbu.trans h.mbu⟩

/-- Every taker of the mark keeps it. -/
theorem StaleMark.after_takeMark {order : List MarkTaker} {s u : State} (h : StaleMark order s u) (overrun : Bool)
    {taker : MarkTaker} (htaker : taker = .ownStart → MarkTaker.ownStart ∈ order) :
    StaleMark order s (takeMark overrun taker u) := by
  cases taker with
  | ttu => exact h.after_markTtu overrun
  | rte =>
    have g := steady_markRte u
    exact h.of_ownWork (ownWork_markRte u) g.toPosts fun hn => by rw [takeMark, g.liu]; exact h.ownSlot hn
  | jbu =>
    have g := steady_markJbu u
    exact h.of_ownWork (ownWork_markJbu u) g.toPosts fun hn => by rw [takeMark, g.liu]; exact h.ownSlot hn
  | boundary trig =>
    exact h.of_ownWork (ownWork_takeSlotBoundary 0 trig u) (posts_takeSlotBoundary 0 trig u) fun hn =>
      takeSlotBoundary_ownSlot 0 trig (h.ownSlot hn)
  | ownStart =>
    unfold takeMark
    dsimp only
    split
    · exact h.of_ownWork (ownWork_takeOwnSlotStart u) (posts_takeOwnSlotStart u) fun hn => absurd (htaker rfl) hn
    · exact h

theorem StaleMark.foldl {order : List MarkTaker} {s : State} (overrun : Bool) (l : List MarkTaker)
    (hl : MarkTaker.ownStart ∈ l → MarkTaker.ownStart ∈ order) {u : State} (h : StaleMark order s u) :
    StaleMark order s (l.foldl (fun s taker => takeMark overrun taker s) u) := by
  induction l generalizing u with
  | nil => exact h
  | cons taker l ih =>
    exact ih (fun hm => hl (List.mem_cons_of_mem _ hm)) (h.after_takeMark overrun fun e => hl (e ▸ List.mem_cons_self))

/-- Only an own slot start that the command names is taken at the mark. -/
theorem ownStart_mem_markOrder {order : List MarkTaker} (h : MarkTaker.ownStart ∈ markOrder order) :
    MarkTaker.ownStart ∈ order := by
  simpa [markOrder] using h

/-- The station at the mark, its own slot cut off. -/
def cutForMark (s : State) : State := { cutOwnSlot s with liu.pos := .at 0 0 (cutOwnSlot s).hears }

theorem ownWork_cutForMark (s : State) : OwnWork s (cutForMark s) :=
  (ownWork_cutOwnSlot s).trans (OwnWork.liu rfl (le_refl _))

/-- The mark of an overrun: the link error, and then the takers. -/
theorem takeCycleMark_of_overrun {lclk : Nat} {order : List MarkTaker} {s : State} (hears : s.hears = true)
    (hoverrun : s.overrun lclk = true) : takeCycleMark lclk order s
      = (markOrder order).foldl (fun s taker => takeMark true taker s) (linkError (cutForMark s)) := by
  have honline : s.stc.station ≠ .offline := by simpa [State.hears] using hears
  have hcut : (cutForMark s).hears = true := by simpa [State.hears] using (ownWork_cutForMark s).online honline
  unfold takeCycleMark
  rw [hoverrun]
  exact if_pos hcut

/-- Settles O18: the link error makes the station stale; the takers of the mark and the end of the event keep it so. -/
theorem overrunMakesStale : Obligations.OverrunMakesStale := by
  unfold Obligations.OverrunMakesStale
  intro lclk order s hcalm hears hvalid hstale hwatch hoverrun horders
  have honline : s.stc.station ≠ .offline := by simpa [State.hears] using hears
  have hcut := ownWork_cutForMark s
  have httu : (cutForMark s).ttu = s.ttu := hcut.ttu honline
  have hstart : StaleMark order (cutForMark s) (linkError (cutForMark s)) := staleMark_linkError (hcut.online honline)
    (httu ▸ hvalid) (httu ▸ hstale) (httu ▸ hwatch) ((posts_cutOwnSlot s).orders horders) (cutOwnSlot_ownSlot s)
  have hmark := hstart.foldl true (markOrder order) ownStart_mem_markOrder
  rw [← takeCycleMark_of_overrun (lclk := lclk) hears hoverrun] at hmark
  have hend := steady_afterEvent hmark.online
  have hdone := hmark.of_ownWork (inner_afterEvent _).own hend.toPosts fun hn => by
    rw [hend.liu]
    exact hmark.ownSlot hn
  have hevent : event (takeCycleMark lclk order) s = afterEvent (takeCycleMark lclk order s) := by
    rw [event, resetHeld_of_calm hcalm]
    rfl
  exact ⟨_, congrArg Host.Outcome.next hevent, hdone.stale, hdone.pending, hdone.mismatch, hdone.posted, hdone.ownSlot,
    hdone.mbu.trans hcut.mbu⟩

end Sys2Proof.Machine

/-! PROOFS. The end of the own frame (02 R31, R37, 06 R97, R98, 10 R168, R170): what a good one settles, and what a
drive conflict does. -/

namespace Sys2Proof.Machine

/-! ## The frame end of the own slot -/

/-- The station states in which the station drives its own slot. -/
theorem State.driving_iff (s : State) : s.driving = true ↔
    s.stc.station = .joining ∨ s.stc.station = .online ∨ s.stc.station = .fault := by
  unfold State.driving
  cases s.stc.station <;> simp

theorem State.online_of_driving {s : State} (h : s.driving = true) : s.stc.station ≠ .offline := by
  rcases s.driving_iff.1 h with h | h | h <;> rw [h] <;> decide

theorem State.driving_congr {s t : State} (h : t.stc = s.stc) : t.driving = s.driving := by
  unfold State.driving
  rw [h]

theorem State.isSelf_congr {s t : State} (h : t.stc = s.stc) (a : Addr) : t.isSelf a = s.isSelf a := by
  unfold State.isSelf
  rw [h]

/-- The address that names the station's slot is its own. -/
theorem State.isSelf_self {s : State} (h : s.hasSlot = true) : s.isSelf s.self = true := by
  have hlt : s.stc.strap.val < 24 := of_decide_eq_true h
  exact beq_iff_eq.2 (Nat.mod_eq_of_lt hlt)

/-- A frame judged good is of its slot's station. -/
theorem judge_good_sender {slot : Slot} {bits : FrameBits} {garbled : Bool} {f : Frame}
    (h : judge slot bits garbled = .good f) : f.sender = slot := by
  unfold judge at h
  dsimp only at h
  split_ifs at h
  exact Judged.good.inj h ▸ rfl

/-- The station with its position at the end of its own frame. -/
def atOwnEnd (s : State) : State := { s with liu.pos := .at s.self 400 true }

/-- A frame end in the own slot, bit 0 of which was heard. -/
theorem takeFrameEnd_own {s : State} (hdriving : s.driving = true) (hslot : s.hasSlot = true)
    (hin : s.inSlot s.self = true) (hpos : s.liu.pos.before s.self 400 = true) (hheard : s.heardSlot s.self = true)
    (bits : FrameBits) : takeFrameEnd s.self bits s = ownFrameEnd s.self bits (atOwnEnd s) := by
  have hmove : moveTo s.self 400 s = atOwnEnd s := by
    unfold moveTo
    rw [hheard, if_pos hin]
    rfl
  have hears : (atOwnEnd s).hears = true := by
    simpa [State.hears] using State.online_of_driving (s := atOwnEnd s) hdriving
  have hown : (atOwnEnd s).ownSlotIs s.self = true := State.isSelf_self (s := s) hslot
  have hlistening : ¬((atOwnEnd s).stc.station == .listening) = true := by
    rcases (atOwnEnd s).driving_iff.1 hdriving with h | h | h <;> rw [h] <;> decide
  unfold takeFrameEnd
  dsimp only
  rw [if_pos hpos, hmove, hheard, hears, Bool.and_self, if_pos rfl, if_pos hown, if_neg hlistening]

/-! ## The own frame received good -/

theorem steady_takeHeader (f : Frame) (s : State) :
    Steady (setMember f.sender ((s.mbu.members.get f.sender).heard f) s) (takeHeader f s) := by
  have hpost : ∀ t : State, Steady t (postPeerJoined f.sender t) := fun t =>
    Steady.orp rfl ⟨id, fun _ => id, fun _ => id⟩
  have hreturn : ∀ t : State,
      Steady t (exchange (allTags.foldl (fun s tag => routeReturn f.sender f.joining tag s) t)) := fun t =>
    (Steady.foldl (fun s tag => steady_routeReturn _ _ tag s) _ t).trans (steady_exchange _)
  unfold takeHeader
  dsimp only
  split
  · exact (Steady.ite (fun _ => hpost _) fun _ => Steady.refl _).trans (hreturn _)
  · exact Steady.ite (fun _ => hpost _) fun _ => Steady.refl _

/-- The own frame is taken like any other, but that nothing is compared and nothing adopted. -/
theorem dispatchGood_self {f : Frame} {s : State} (hself : s.isSelf f.sender = true) :
    Steady (setMember f.sender ((s.mbu.members.get f.sender).heard f) s) (dispatchGood f s) := by
  have hhead := ((steady_takeHeader f s).trans (steady_compareHeader f _)).trans (steady_noteFrame f _)
  have hstill : (noteFrame f (compareHeader f (takeHeader f s))).isSelf f.sender = true :=
    (State.isSelf_congr (s := s) hhead.stc _).trans hself
  unfold dispatchGood
  dsimp only
  rw [hstill, Bool.not_true, Bool.and_false, if_neg (by decide)]
  exact (hhead.trans (steady_contaminate _ _ _)).trans (Steady.foldl (fun s m => steady_dispatchMsg _ m s) _ _)

/-- A JOINING station goes ONLINE, and then plans. -/
theorem steady_goOnline (s : State) :
    Steady { s with stc.station := if s.stc.station = .joining then .online else s.stc.station } (goOnline s) := by
  unfold goOnline
  by_cases h : s.stc.station = .joining
  · rw [if_pos h, if_pos (beq_iff_eq.2 h)]
    exact (steady_planAll _).trans (steady_exchange _)
  · rw [if_neg h, if_neg (by simpa using h)]
    exact Steady.refl s

/-- The own frame end without a drive conflict, the frame good. -/
theorem ownFrameEnd_of_good {s : State} {slot : Slot} {f : Frame} (hdriving : s.driving = true)
    (hself : s.isSelf slot = true) (hgarbled : s.liu.garbled = false)
    (hjudge : judge slot s.liu.frame false = .good f) : ownFrameEnd slot s.liu.frame s
      = goOnline (strayPoint (settleOwn true (dispatchGood f (closeOwnSlot false s)))) := by
  have hclean : (s.liu.ownSlot && (s.liu.garbled || s.liu.frame != s.liu.frame)) = false := by
    rw [hgarbled, bne_self_eq_false, Bool.or_self, Bool.and_false]
  have hstc := (dispatchGood_self (f := f) (s := closeOwnSlot false s) (judge_good_sender hjudge ▸ hself)).stc
  have hdrives : (dispatchGood f (closeOwnSlot false s)).driving = true :=
    (State.driving_congr (s := s) hstc).trans hdriving
  unfold ownFrameEnd
  rw [hclean]
  simp only [hjudge, takeJudged, Judged.isGood, hdrives, if_true, Bool.false_and, Bool.false_eq_true, if_false]
  rfl

/-- What the end of the own frame leaves when the frame was good. -/
structure OwnFrameGood (f : Frame) (s t : State) : Prop where
  waits : ∀ i ∈ t.liu.queue, i.inFlight = false
  conflicts : t.liu.conflicts = 0
  ownSlot : t.liu.ownSlot = false
  pos : t.liu.pos = s.liu.pos
  station : t.stc.station = if s.stc.station = .joining then .online else s.stc.station
  members : t.mbu.members = s.mbu.members.set f.sender ((s.mbu.members.get f.sender).heard f)

theorem OwnFrameGood.of_steady {f : Frame} {s t u : State} (h : OwnFrameGood f s t) (g : Steady t u) :
    OwnFrameGood f s u :=
  ⟨g.waits h.waits, by rw [g.liu]; exact h.conflicts, by rw [g.liu]; exact h.ownSlot, by rw [g.liu]; exact h.pos,
    by rw [g.stc]; exact h.station, by rw [g.mbu]; exact h.members⟩

theorem ownFrameEnd_good {s : State} {slot : Slot} {f : Frame} (hdriving : s.driving = true)
    (hself : s.isSelf slot = true) (hown : s.liu.ownSlot = true) (hgarbled : s.liu.garbled = false)
    (hjudge : judge slot s.liu.frame false = .good f) : OwnFrameGood f s (ownFrameEnd slot s.liu.frame s) := by
  have htake := dispatchGood_self (f := f) (s := closeOwnSlot false s) (judge_good_sender hjudge ▸ hself)
  obtain ⟨q, hq, hsettle⟩ := settleOwn_steady true (dispatchGood f (closeOwnSlot false s))
  have hstray := hsettle.trans (steady_strayPoint _)
  have honline := steady_goOnline (strayPoint (settleOwn true (dispatchGood f (closeOwnSlot false s))))
  have hconflicts : (closeOwnSlot false s).liu.conflicts = 0 := if_pos hown
  rw [ownFrameEnd_of_good hdriving hself hgarbled hjudge]
  refine OwnFrameGood.of_steady ?_ honline
  refine ⟨hstray.waits hq, ?_, ?_, ?_, ?_, ?_⟩
  · rw [hstray.liu, htake.liu]
    exact hconflicts
  · rw [hstray.liu, htake.liu]
    rfl
  · rw [hstray.liu, htake.liu]
    rfl
  · dsimp only
    rw [hstray.stc, htake.stc]
    rfl
  · rw [hstray.mbu, htake.mbu]
    rfl

/-! ## The end of an event that brings about no work -/

/-- The end of an event when neither the Commit Engine, nor a report, nor an order has anything to take. -/
theorem afterEvent_of_none {s : State} (hwork : commitWork s = none) (hreport : placeNextReport s = none)
    (horder : serveOrder s = none) : afterEvent s = updatePins (settleSweepTimer (pruneTimers s)) := by
  have hserve : serveN Config.serviceBound s = s := by
    unfold Config.serviceBound
    simp only [serveN, serveStep, hwork, placeReports_of_none hreport, horder]
  rw [afterEvent, hserve]

theorem commitWork_none_congr {s t : State} (hs : commitWork s = none) (hcme : t.cme = s.cme) (hjbu : t.jbu = s.jbu) :
    commitWork t = none := by
  obtain ⟨hcheck, hform⟩ := (commitWork_eq_none s).1 hs
  have heligible : t.eligible = s.eligible := by
    funext c
    unfold State.eligible
    rw [hjbu]
  refine (commitWork_eq_none t).2 ⟨?_, ?_⟩
  · unfold State.checkDue at hcheck ⊢
    rw [hcme, hcheck]
  · unfold State.formationDue at hform ⊢
    rw [hcme, hjbu, heligible, hform]

/-- Whether a report is ready for a place depends on the FIFO and the answers owed. -/
theorem placeNextReport_none_congr {s t : State} (hs : placeNextReport s = none)
    (hreports : t.orp.reports = s.orp.reports) (hcheck : t.cme.check = s.cme.check)
    (howed : ∀ tag, (t.route tag).owed = (s.route tag).owed) : placeNextReport t = none := by
  rw [placeNextReport_eq_none, placeFree_congr hreports hcheck]
  refine ((placeNextReport_eq_none s).1 hs).imp_right fun h tag => ?_
  have htag := h tag
  unfold Route.headReady at htag ⊢
  rw [howed]
  exact htag

theorem serveOrder_none_congr {s t : State} (hs : serveOrder s = none) (horders : t.orp.orders = s.orp.orders)
    (hreports : t.orp.reports = s.orp.reports) (hcheck : t.cme.check = s.cme.check) : serveOrder t = none := by
  rw [serveOrder_eq_none, horders, placeFree_congr hreports hcheck]
  exact (serveOrder_eq_none s).1 hs

theorem settleSweepTimer_eq (s : State) :
    settleSweepTimer s = { s with jbu.sweep := (settleSweepTimer s).jbu.sweep } := by
  unfold settleSweepTimer
  split <;> rfl

/-! ## Settlement that changes the route table alone -/

/-- The route table alone changes, and no answer owed. -/
structure RoutesOnly (s t : State) : Prop where
  rest : t = { s with rte.routes := t.rte.routes }
  owed : ∀ tag, (t.route tag).owed = (s.route tag).owed

theorem RoutesOnly.refl (s : State) : RoutesOnly s s := ⟨rfl, fun _ => rfl⟩

theorem RoutesOnly.trans {s t u : State} (h : RoutesOnly s t) (g : RoutesOnly t u) : RoutesOnly s u :=
  ⟨by rw [g.rest, h.rest], fun tag => (g.owed tag).trans (h.owed tag)⟩

theorem routesOnly_modRoute {f : Route → Route} (hf : ∀ r, (f r).owed = r.owed) (tag : Tag) (s : State) :
    RoutesOnly s (modRoute tag f s) := by
  refine ⟨rfl, fun tag' => ?_⟩
  rw [modRoute_route]
  split
  · rename_i h
    rw [hf, h]
  · rfl

theorem routesOnly_setReplyTimer (tag : Tag) (gen : Gen) (s : State) : RoutesOnly s (setReplyTimer tag gen s) := by
  unfold setReplyTimer
  split
  · refine routesOnly_modRoute ?_ tag s
    exact fun _ => rfl
  · exact RoutesOnly.refl s

theorem routesOnly_routePermitted (tag : Tag) (gen : Gen) (s : State) : RoutesOnly s (routePermitted tag gen s) := by
  unfold routePermitted
  split
  · refine routesOnly_modRoute ?_ tag s
    exact fun _ => rfl
  · exact RoutesOnly.refl s

theorem routesOnly_routeFired (tag : Tag) (gen : Gen) (s : State) : RoutesOnly s (routeFired tag gen s) := by
  unfold routeFired fireRoute
  split
  · split
    · refine routesOnly_modRoute ?_ tag s
      exact fun _ => rfl
    · exact RoutesOnly.refl s
  · exact RoutesOnly.refl s

/-- The settlement of a message in a bad own frame while no round stands. -/
theorem routesOnly_settleBadMsg (m : LinkMsg) {s : State} (h : s.rte.rounds = []) :
    RoutesOnly s (settleBadMsg m s) := by
  cases m with
  | permit tag gen => exact routesOnly_routePermitted tag gen s
  | fire tag gen => exact routesOnly_routeFired tag gen s
  | abandon tag gen => exact routesOnly_setReplyTimer tag gen s
  | operate a l t act tag gen q arm =>
    have hrounds : { s with rte.rounds := countSettled (.operate a l t act tag gen q arm) s.rte.rounds } = s := by
      rw [h, countSettled, ← h]
    unfold settleBadMsg settleMsg
    dsimp only
    rw [hrounds]
    exact routesOnly_setReplyTimer tag gen s
  | _ => exact RoutesOnly.refl s

theorem routesOnly_settleBad {s : State} (h : s.rte.rounds = []) :
    RoutesOnly { s with liu.queue := s.keptQueue } (settleBad s) := by
  have hfold : ∀ (l : List LinkMsg) (t : State), t.rte.rounds = [] →
      RoutesOnly t (l.foldl (fun s m => settleBadMsg m s) t) := fun l => by
    induction l with
    | nil => exact fun t _ => RoutesOnly.refl t
    | cons m l ih =>
      intro t ht
      have hstep := routesOnly_settleBadMsg m ht
      exact hstep.trans (ih _ (by rw [hstep.rest]; exact ht))
  exact hfold _ _ h

/-- With nothing held and no round the settlement is all that a bad own frame brings about. -/
theorem settleOwn_bad_of_nothing {s : State} (hrounds : s.rte.rounds = []) (hinbox : s.rte.inbox = [])
    (hheld : s.rte.held = []) (hjobs : ∀ j ∈ s.jbu.jobs, j.isDone = false ∧ j.heldArmed = false) :
    settleOwn false s = settleBad s := by
  have hrest := (routesOnly_settleBad hrounds).rest
  have hadmit : admitAll (settleBad s) = settleBad s :=
    admitAll_of_nothing (by rw [hrest]; exact hjobs) (by rw [hrest]; exact hheld)
  have hstep : exchangeStep (settleBad s) = none := by
    rw [exchangeStep_eq_none, hrest]
    exact ⟨hinbox, by rw [hrounds, nextHandover]⟩
  unfold settleOwn
  rw [if_neg (by decide), hadmit, exchange_of_none hstep]

/-! ## The own frame with a drive conflict -/

theorem frameError_eq (s : State) : frameError s =
    { s with stc.cycleError := true, ttu := (frameError s).ttu, orp.alerts := (frameError s).orp.alerts } := by
  unfold frameError linkError
  split <;> rfl

/-- A station with a valid table is stale after a bad frame (R68). -/
theorem frameError_stale {s : State} (h : s.ttu.valid = true) : (frameError s).ttu.stale = true := by
  unfold frameError linkError
  split
  · rfl
  · rename_i hnot
    simpa [h] using hnot

/-- The station at the end of its own frame that met a drive conflict, before the settlement. -/
def garbledEnd (s : State) : State := frameError (closeOwnSlot true s)

/-- What `garbledEnd` changes. -/
theorem garbledEnd_eq {s : State} (hown : s.liu.ownSlot = true) : garbledEnd s = { s with
    liu.conflicts := min 2 (s.liu.conflicts + 1), liu.ownSlot := false, liu.garbled := false, stc.cycleError := true
    ttu := (garbledEnd s).ttu, orp.alerts := (garbledEnd s).orp.alerts } := by
  have hclose : closeOwnSlot true s =
      { s with liu.conflicts := min 2 (s.liu.conflicts + 1), liu.ownSlot := false, liu.garbled := false } := by
    unfold closeOwnSlot
    rw [if_pos hown, if_pos rfl]
  unfold garbledEnd
  rw [frameError_eq, hclose]

theorem ownFrameEnd_of_garbled {s : State} {slot : Slot} {bits : FrameBits} (hdriving : s.driving = true)
    (hown : s.liu.ownSlot = true) (hgarbled : s.liu.garbled = true ∨ bits ≠ s.liu.frame)
    (hjudge : judge slot bits true = .bad) : ownFrameEnd slot bits s =
      if (settleOwn false (garbledEnd s)).liu.conflicts = 2 ∧ (settleOwn false (garbledEnd s)).canClash = true
      then enterClash (settleOwn false (garbledEnd s)) else settleOwn false (garbledEnd s) := by
  have hconflict : (s.liu.ownSlot && (s.liu.garbled || bits != s.liu.frame)) = true := by
    rw [hown, Bool.true_and, Bool.or_eq_true, bne_iff_ne]
    exact hgarbled
  have hdrives : (frameError (closeOwnSlot true s)).driving = true := by
    rw [frameError_eq]
    exact hdriving
  unfold ownFrameEnd
  rw [hconflict]
  simp only [hjudge, takeJudged, Judged.isGood, Bool.true_and, Bool.and_eq_true, beq_iff_eq, Bool.false_eq_true,
    if_false, beq_self_eq_true, if_true, hdrives]
  rfl

/-- What a drive conflict leaves at the end of the own frame, whether it is the first or not. -/
structure OwnFrameGarbled (s t : State) : Prop where
  conflicts : t.liu.conflicts = min 2 (s.liu.conflicts + 1)
  ownSlot : t.liu.ownSlot = false
  mbu : t.mbu = s.mbu
  stale : s.ttu.valid = true → t.ttu.stale = true
  orders : s.orp.orders = [] → t.orp.orders = []

theorem OwnFrameGarbled.of_steady {s t u : State} (h : OwnFrameGarbled s t) (g : Steady t u) (httu : u.ttu = t.ttu) :
    OwnFrameGarbled s u :=
  ⟨by rw [g.liu]; exact h.conflicts, by rw [g.liu]; exact h.ownSlot, g.mbu.trans h.mbu, httu ▸ h.stale,
    fun o => g.orders (h.orders o)⟩

theorem settleOwn_garbledEnd {s : State} (hdriving : s.driving = true) (hown : s.liu.ownSlot = true) :
    OwnFrameGarbled s (settleOwn false (garbledEnd s))
      ∧ (settleOwn false (garbledEnd s)).stc.station = s.stc.station := by
  have heq := garbledEnd_eq hown
  have hstation : (garbledEnd s).stc.station = s.stc.station := by rw [heq]
  have hgarbled : OwnFrameGarbled s (garbledEnd s) := by
    refine ⟨by rw [heq], by rw [heq], by rw [heq], fun hvalid => ?_, fun horders => by rw [heq]; exact horders⟩
    exact frameError_stale (s := closeOwnSlot true s) hvalid
  obtain ⟨q, -, hsettle⟩ := settleOwn_steady false (garbledEnd s)
  have honline : (garbledEnd s).stc.station ≠ .offline := by
    rw [hstation]
    exact State.online_of_driving hdriving
  have hqueue : OwnFrameGarbled s { garbledEnd s with liu.queue := q } :=
    ⟨hgarbled.conflicts, hgarbled.ownSlot, hgarbled.mbu, hgarbled.stale, hgarbled.orders⟩
  exact ⟨hqueue.of_steady hsettle ((ownWork_settleOwn false _).ttu honline),
    (congrArg Stc.station hsettle.stc).trans hstation⟩

/-! ## Entry to CLASH (R170) -/

/-- Station Control, the link and the alert set at the entry to CLASH, before the routes and the jobs take it. -/
def clashEntry (s : State) : State :=
  postClash { s with
    stc.station := .clash
    stc.listenCount := none
    liu.ownSlot := false
    liu.garbled := false
    liu.queue := s.liu.queue.map fun i => { i with inFlight := false } }

theorem enterClash_eq (s : State) :
    enterClash s = clearJobs (allTags.foldl (fun s tag => routeClash tag s) (clashEntry s)) := by
  unfold enterClash clashEntry
  rfl

theorem steady_enterClash (s : State) : Steady (clashEntry s) (enterClash s) := by
  rw [enterClash_eq]
  exact (Steady.foldl (fun s tag => steady_routeClash tag s) allTags _).trans (steady_clearJobs _)

theorem enterClash_ttu (s : State) : (enterClash s).ttu = s.ttu := by
  rw [enterClash_eq]
  have hroutes := RteWork.foldl (fun s tag => rteWork_routeClash tag s) allTags (clashEntry s)
  exact (hroutes.job.trans (jobWork_clearJobs _)).ttu

theorem enterClash_station (s : State) : (enterClash s).stc.station = .clash :=
  congrArg Stc.station (steady_enterClash s).stc

theorem enterClash_posts {s : State} (h : s.orp.orders = []) : (enterClash s).orp.alerts.clash = true :=
  (steady_enterClash s).clash h rfl

theorem OwnFrameGarbled.enterClash {s t : State} (h : OwnFrameGarbled s t) : OwnFrameGarbled s (enterClash t) := by
  have hentry : OwnFrameGarbled s (clashEntry t) := ⟨h.conflicts, rfl, h.mbu, h.stale, h.orders⟩
  exact hentry.of_steady (steady_enterClash t) (enterClash_ttu t)

/-- What the end of the event leaves of that, outside OFFLINE. -/
theorem OwnFrameGarbled.afterEvent {s t : State} (h : OwnFrameGarbled s t) (honline : t.stc.station ≠ .offline) :
    OwnFrameGarbled s (afterEvent t) :=
  h.of_steady (steady_afterEvent honline) ((inner_afterEvent t).ttu honline)

/-- The first drive conflict in a row: the settlement, and no clash. -/
theorem ownFrameEnd_first_conflict {s : State} {slot : Slot} {bits : FrameBits} (hdriving : s.driving = true)
    (hown : s.liu.ownSlot = true) (hgarbled : s.liu.garbled = true ∨ bits ≠ s.liu.frame)
    (hjudge : judge slot bits true = .bad) (hcount : s.liu.conflicts = 0) :
    ownFrameEnd slot bits s = settleOwn false (garbledEnd s) := by
  have hone : (settleOwn false (garbledEnd s)).liu.conflicts = 1 := by
    rw [(settleOwn_garbledEnd hdriving hown).1.conflicts, hcount]
    rfl
  rw [ownFrameEnd_of_garbled hdriving hown hgarbled hjudge, if_neg (by rw [hone]; simp)]

/-- The second drive conflict in a row is a clash. -/
theorem ownFrameEnd_second_conflict {s : State} {slot : Slot} {bits : FrameBits} (hdriving : s.driving = true)
    (hown : s.liu.ownSlot = true) (hgarbled : s.liu.garbled = true ∨ bits ≠ s.liu.frame)
    (hjudge : judge slot bits true = .bad) (hcount : 1 ≤ s.liu.conflicts) :
    ownFrameEnd slot bits s = enterClash (settleOwn false (garbledEnd s)) := by
  obtain ⟨hsettled, hstation⟩ := settleOwn_garbledEnd hdriving hown
  have htwo : (settleOwn false (garbledEnd s)).liu.conflicts = 2 := by
    rw [hsettled.conflicts]
    omega
  have hclash : (settleOwn false (garbledEnd s)).canClash = true := by
    rcases s.driving_iff.1 hdriving with h | h | h <;> simp [State.canClash, State.hears, hstation, h]
  rw [ownFrameEnd_of_garbled hdriving hown hgarbled hjudge, if_pos ⟨htwo, hclash⟩]

/-- After the first drive conflict the messages that R37 keeps stand at the head of the queue, and no work follows. -/
theorem ownFrameGarbled_queue {s : State} (hcalm : s.calm = true) (hown : s.liu.ownSlot = true)
    (hheld : s.rte.held = []) (hrounds : s.rte.rounds = [])
    (hjobs : ∀ j ∈ s.jbu.jobs, j.isDone = false ∧ j.heldArmed = false) :
    (afterEvent (settleOwn false (garbledEnd s))).liu.queue = s.keptQueue := by
  obtain ⟨-, hwork, hreport, horder, hstep, -, -⟩ := s.calm_iff.1 hcalm
  have hinbox : s.rte.inbox = [] := ((exchangeStep_eq_none s).1 hstep).1
  have heq := garbledEnd_eq hown
  have hqueue : (garbledEnd s).liu.queue = s.liu.queue := by rw [heq]
  have hkept : (garbledEnd s).keptQueue = s.keptQueue := by
    unfold State.keptQueue State.inFlight
    rw [hqueue]
  have hroutes : RoutesOnly { garbledEnd s with liu.queue := (garbledEnd s).keptQueue } (settleBad (garbledEnd s)) :=
    routesOnly_settleBad (by rw [heq]; exact hrounds)
  have hsettle : settleOwn false (garbledEnd s) = settleBad (garbledEnd s) :=
    settleOwn_bad_of_nothing (by rw [heq]; exact hrounds) (by rw [heq]; exact hinbox) (by rw [heq]; exact hheld)
      (by rw [heq]; exact hjobs)
  have howed : ∀ tag, ((settleBad (garbledEnd s)).route tag).owed = (s.route tag).owed := fun tag => by
    rw [hroutes.owed, heq]
    rfl
  have hcme : (settleBad (garbledEnd s)).cme = s.cme := by rw [hroutes.rest, heq]
  have hjbu : (settleBad (garbledEnd s)).jbu = s.jbu := by rw [hroutes.rest, heq]
  have hreports : (settleBad (garbledEnd s)).orp.reports = s.orp.reports := by rw [hroutes.rest, heq]
  have horders : (settleBad (garbledEnd s)).orp.orders = s.orp.orders := by rw [hroutes.rest, heq]
  rw [hsettle, afterEvent_of_none (commitWork_none_congr hwork hcme hjbu)
    (placeNextReport_none_congr hreport hreports (by rw [hcme]) howed)
    (serveOrder_none_congr horder horders hreports (by rw [hcme])), settleSweepTimer_eq]
  exact (congrArg (fun t : State => t.liu.queue) hroutes.rest).trans hkept

/-- The own frame end that met a drive conflict, with the end of its event. -/
theorem ownFrame_garbled {s : State} {slot : Slot} {bits : FrameBits} (hdriving : s.driving = true)
    (hown : s.liu.ownSlot = true) (hcalm : s.calm = true) (hgarbled : s.liu.garbled = true ∨ bits ≠ s.liu.frame)
    (hjudge : judge slot bits true = .bad) (hheld : s.rte.held = []) (hrounds : s.rte.rounds = [])
    (hjobs : ∀ j ∈ s.jbu.jobs, j.isDone = false ∧ j.heldArmed = false) (horders : s.orp.orders = []) :
    OwnFrameGarbled s (afterEvent (ownFrameEnd slot bits s))
      ∧ (s.liu.conflicts = 0 → (afterEvent (ownFrameEnd slot bits s)).stc.station = s.stc.station
        ∧ (afterEvent (ownFrameEnd slot bits s)).liu.queue = s.keptQueue)
      ∧ (1 ≤ s.liu.conflicts → (afterEvent (ownFrameEnd slot bits s)).stc.station = .clash
        ∧ (afterEvent (ownFrameEnd slot bits s)).orp.alerts.clash = true) := by
  obtain ⟨hsettled, hstation⟩ := settleOwn_garbledEnd hdriving hown
  have honline : (settleOwn false (garbledEnd s)).stc.station ≠ .offline := by
    rw [hstation]
    exact State.online_of_driving hdriving
  rcases Nat.eq_zero_or_pos s.liu.conflicts with hcount | hcount
  · rw [ownFrameEnd_first_conflict hdriving hown hgarbled hjudge hcount]
    have hqueue := ownFrameGarbled_queue hcalm hown hheld hrounds hjobs
    refine ⟨hsettled.afterEvent honline, fun _ => ⟨?_, hqueue⟩, fun h => ?_⟩
    · rw [(steady_afterEvent honline).stc, hstation]
    · omega
  · have hclash := enterClash_station (settleOwn false (garbledEnd s))
    have hend := steady_afterEvent (s := enterClash (settleOwn false (garbledEnd s))) (by rw [hclash]; decide)
    have hentered := hsettled.enterClash
    rw [ownFrameEnd_second_conflict hdriving hown hgarbled hjudge hcount]
    refine ⟨hentered.afterEvent (by rw [hclash]; decide), fun h => by omega, fun _ => ⟨?_, ?_⟩⟩
    · rw [hend.stc, hclash]
    · exact hend.clash (hentered.orders horders) (enterClash_posts (hsettled.orders horders))

/-! ## The handover at the own frame end (R97, R98) -/

/-- Only the two tables change, and the station is stale as before. -/
structure TablesOnly (s t : State) : Prop where
  rest : t = { s with mbu := t.mbu, ttu := t.ttu }
  stale : t.ttu.stale = s.ttu.stale

theorem TablesOnly.refl (s : State) : TablesOnly s s := ⟨rfl, rfl⟩

theorem TablesOnly.trans {s t u : State} (h : TablesOnly s t) (g : TablesOnly t u) : TablesOnly s u :=
  ⟨by rw [g.rest, h.rest], g.stale.trans h.stale⟩

theorem tablesOnly_contaminate (sender : Addr) (contacts : TrunkSet) (s : State) :
    TablesOnly s (contaminate sender contacts s) := by
  unfold contaminate
  split
  · exact ⟨rfl, rfl⟩
  · exact TablesOnly.refl s

/-- The header of the own frame, when the station is not ABSENT in its own membership table. -/
theorem takeHeader_self {f : Frame} {s : State} (hself : s.isSelf f.sender = true)
    (hmember : (s.mbu.members.get f.sender).state ≠ .absent) :
    takeHeader f s = setMember f.sender ((s.mbu.members.get f.sender).heard f) s := by
  have hself' : (setMember f.sender ((s.mbu.members.get f.sender).heard f) s).isSelf f.sender = true := hself
  unfold takeHeader
  dsimp only
  rw [hself', Bool.not_true, Bool.and_false, if_neg (mt beq_iff_eq.1 hmember)]
  rfl

/-- An OPERATE for another station is not this one's to take. -/
theorem takeOperate_other {target : Addr} {s : State} (h : s.isSelf target = false) (sender : Addr) (q : JobRequest) :
    takeOperate sender target q s = s := by
  unfold takeOperate
  rw [h, Bool.and_false, Bool.false_and]
  rfl

/-- The own frame with one OPERATE for another station changes the two tables alone. -/
theorem dispatchGood_own_operate {f : Frame} {s : State} {a : Addr} {l : Line} {t : Trunk} {act : Action} {tag : Tag}
    {gen : Gen} {q : QuietIndex} {arm : Bool} (hself : s.isSelf f.sender = true)
    (hmember : (s.mbu.members.get f.sender).state ≠ .absent) (hother : s.isSelf a = false)
    (hmsgs : f.msgs = [.operate a l t act tag gen q arm]) : TablesOnly s (dispatchGood f s) := by
  have hheader : TablesOnly s (takeHeader f s) := by
    rw [takeHeader_self hself hmember]
    exact ⟨rfl, rfl⟩
  have hcompare : compareHeader f (takeHeader f s) = takeHeader f s := by
    have hself' : (takeHeader f s).isSelf f.sender = true := by
      rw [hheader.rest]
      exact hself
    unfold compareHeader
    rw [hself', Bool.not_true, Bool.and_false]
    rfl
  have hnote : TablesOnly s (noteFrame f (takeHeader f s)) := hheader.trans ⟨rfl, rfl⟩
  have hself' : (noteFrame f (takeHeader f s)).isSelf f.sender = true := by
    rw [hnote.rest]
    exact hself
  have hcontaminate := hnote.trans (tablesOnly_contaminate f.sender f.contacts _)
  have hother' : (contaminate f.sender f.contacts (noteFrame f (takeHeader f s))).isSelf a = false := by
    rw [hcontaminate.rest]
    exact hother
  unfold dispatchGood
  dsimp only
  rw [hcompare, hself', Bool.not_true, Bool.and_false, if_neg (by decide), hmsgs, List.foldl_cons, List.foldl_nil,
    dispatchMsg, takeOperate_other hother']
  exact hcontaminate

/-- One step of the exchange, after which nothing waits. -/
theorem exchange_of_step {s t : State} (h : exchangeStep s = some t) (ht : exchangeStep t = none) : exchange s = t := by
  unfold exchange Config.exchangeBound
  rw [exchangeN, h]
  simp only [exchangeN, ht]

/-- The next local job of a round is handed over when no local result waits. -/
theorem exchangeStep_of_handover {s : State} {j : JobRequest} {rest : List Round} (hinbox : s.rte.inbox = [])
    (hnext : nextHandover s.rte.rounds = some (j, rest)) :
    exchangeStep s = some (intake j { s with rte.rounds := rest }) := by
  unfold exchangeStep
  rw [hinbox]
  dsimp only
  rw [hnext]
  rfl

/-- A close of this station in the state that R134 gives it. -/
def placedClose (s : State) (j : JobRequest) : Job :=
  if quietOk s.jbu.quiet j.quiet = true then { Job.ofRequest j with state := .ready }
  else { Job.ofRequest j with state := .quietWait, counter := some s.cfg.hotWait }

theorem placeJob_close {j : Job} {s : State} (harmed : j.armed = false) (haction : j.action = some .close) :
    placeJob j s = placeByQuiet j s := by
  unfold placeJob
  rw [harmed, haction]
  rfl

theorem placeByQuiet_alone {j : Job} {s : State} (h : s.jbu.jobs = [j]) : placeByQuiet j s =
    { s with jbu.jobs := [if quietOk s.jbu.quiet j.quiet then { j with state := .ready } else s.quietWaiting j] } := by
  unfold placeByQuiet replaceJob
  rw [h, List.map_singleton, if_pos (beq_self_eq_true j)]

/-- An unarmed close at intake, with an empty job list. -/
theorem intake_close {s : State} {j : JobRequest} (hfault : s.stc.station ≠ .fault) (hjobs : s.jbu.jobs = [])
    (hstale : s.ttu.stale = false) (haction : j.action = .close) (harmed : j.armed = false) :
    intake j s = { s with jbu.jobs := [placedClose s j] } := by
  have hplace : s.jobPlace = true := by
    unfold State.jobPlace
    rw [hjobs]
    rfl
  unfold intake
  rw [if_neg (mt beq_iff_eq.1 hfault), hplace, hjobs]
  simp only [Bool.not_true, Bool.false_eq_true, if_false, List.any_nil, hstale, List.nil_append]
  exact (placeJob_close harmed (congrArg some haction)).trans (placeByQuiet_alone rfl)

/-- With no verdict on any job nothing ends. -/
theorem endJobs_of_none {verdict : Job → Option ResultCode} {s : State} (h : ∀ j ∈ s.jbu.jobs, verdict j = none) :
    endJobs verdict s = s := by
  have hended : (s.jbu.jobs.filterMap fun j => (verdict j).map fun c => (j.state == .inBatch, j.finish c)) = [] :=
    List.filterMap_eq_nil_iff.2 fun j hj => by rw [h j hj]; rfl
  have hjobs : (s.jbu.jobs.map fun j => ((verdict j).map fun c => j.finish c).getD j) = s.jbu.jobs :=
    (List.map_congr_left fun j hj => by rw [h j hj]; rfl).trans (List.map_id _)
  unfold endJobs
  rw [hended, hjobs]
  rfl

theorem strayRule_eq (s : State) :
    strayRule s = { s with cme.xps := (strayRule s).cme.xps, jbu.sweep := (strayRule s).jbu.sweep } := by
  unfold strayRule
  split <;> rfl

/-- The stray-contact rule with the armed trunk test when no job is armed: marks and the sweep timer alone. -/
theorem strayPoint_of_unarmed {s : State} (h : ∀ j ∈ s.jbu.jobs, j.isArmed = false) :
    strayPoint s = { s with cme.xps := (strayRule s).cme.xps, jbu.sweep := (strayRule s).jbu.sweep } := by
  have hjobs : (strayRule s).jbu.jobs = s.jbu.jobs := by rw [strayRule_eq]
  unfold strayPoint armedTest
  rw [endJobs_of_none fun j hj => by rw [h j (hjobs ▸ hj)]; rfl, ite_self]
  exact strayRule_eq s

/-- The one message of the queue is in flight, and is the OPERATE of the one round, whose local job is `j`. -/
structure HandsOver (m : LinkMsg) (j : JobRequest) (s : State) : Prop where
  operate : ∃ a l k q, m = .operate a l k .close j.ref.tag j.ref.gen q false
  action : j.action = .close
  armed : j.armed = false
  queue : s.liu.queue = [⟨m, true⟩]
  rounds : s.rte.rounds = [⟨j.ref.tag, j.ref.gen, .close, [m], [j]⟩]
  held : s.rte.held = []
  inbox : s.rte.inbox = []
  jobs : s.jbu.jobs = []
  gen : (s.route j.ref.tag).gen = j.ref.gen
  active : (s.route j.ref.tag).state ≠ .idle
  station : s.stc.station ≠ .fault
  stale : s.ttu.stale = false

theorem HandsOver.congr {m : LinkMsg} {j : JobRequest} {s t : State} (h : HandsOver m j s)
    (hqueue : t.liu.queue = s.liu.queue) (hrte : t.rte = s.rte) (hjbu : t.jbu = s.jbu) (hstc : t.stc = s.stc)
    (hstale : t.ttu.stale = s.ttu.stale) : HandsOver m j t := by
  have hroute : t.route j.ref.tag = s.route j.ref.tag := by unfold State.route; rw [hrte]
  exact ⟨h.operate, h.action, h.armed, hqueue.trans h.queue, hrte ▸ h.rounds, hrte ▸ h.held, hrte ▸ h.inbox,
    hjbu ▸ h.jobs, hroute ▸ h.gen, hroute ▸ h.active, hstc ▸ h.station, hstale.trans h.stale⟩

/-- The reply timer of the route of `j` set. -/
def withReplyTimer (j : JobRequest) (s : State) : State :=
  modRoute j.ref.tag (fun r => { r with timer := some s.cfg.replyLimit }) s

/-- The settlement of the OPERATE: it leaves the queue and its round, and sets the reply timer. -/
theorem HandsOver.settleGood {m : LinkMsg} {j : JobRequest} {s : State} (h : HandsOver m j s) :
    settleGood s = withReplyTimer j
      { s with liu.queue := [], rte.rounds := [⟨j.ref.tag, j.ref.gen, .close, [], [j]⟩] } := by
  obtain ⟨a, l, k, q, hm⟩ := h.operate
  have hflight : s.inFlight = [m] := by
    unfold State.inFlight
    rw [h.queue]
    rfl
  have hqueue : (s.liu.queue.filter fun i => !i.inFlight) = [] := by
    rw [h.queue]
    rfl
  have hcount : countSettled m s.rte.rounds = [⟨j.ref.tag, j.ref.gen, .close, [], [j]⟩] := by
    rw [h.rounds]
    simp [countSettled]
  have htimer : ((s.route j.ref.tag).gen == j.ref.gen && (s.route j.ref.tag).state != .idle) = true := by
    simp [h.gen, h.active]
  unfold Machine.settleGood
  rw [hflight, hqueue, List.foldl_cons, List.foldl_nil, hm]
  unfold settleMsg
  dsimp only
  rw [← hm, hcount]
  exact if_pos htimer

/-- The whole settlement: the local job of the round is handed over and placed. -/
theorem HandsOver.settleOwn {m : LinkMsg} {j : JobRequest} {s : State} (h : HandsOver m j s) :
    settleOwn true s =
      { withReplyTimer j s with liu.queue := [], rte.rounds := [], jbu.jobs := [placedClose s j] } := by
  have hjobs : ∀ i ∈ s.jbu.jobs, i.isDone = false ∧ i.heldArmed = false := by
    rw [h.jobs]
    exact List.forall_mem_nil _
  have hadmit : admitAll (Machine.settleGood s) = Machine.settleGood s := by
    rw [h.settleGood]
    exact admitAll_of_nothing hjobs h.held
  have hstep : exchangeStep (Machine.settleGood s) = some (intake j { withReplyTimer j s with
      liu.queue := [], rte.rounds := [] }) := by
    rw [h.settleGood]
    exact exchangeStep_of_handover h.inbox rfl
  have hintake : intake j { withReplyTimer j s with liu.queue := [], rte.rounds := [] }
      = { withReplyTimer j s with liu.queue := [], rte.rounds := [], jbu.jobs := [placedClose s j] } :=
    intake_close h.station h.jobs h.stale h.action h.armed
  have hdone : exchangeStep { withReplyTimer j s with
      liu.queue := [], rte.rounds := [], jbu.jobs := [placedClose s j] } = none :=
    (exchangeStep_eq_none _).2 ⟨h.inbox, rfl⟩
  unfold Machine.settleOwn
  rw [if_pos rfl, hadmit]
  exact exchange_of_step (hstep.trans (congrArg some hintake)) hdone

theorem placedClose_unarmed (s : State) (j : JobRequest) : (placedClose s j).isArmed = false := by
  unfold placedClose
  split <;> rfl

/-- The round of `j` has been handed over: queue and round are gone, the job is placed and the reply timer runs, while
the Commit Engine and the Order Port stand but for the marks. -/
structure HandedOver (j : JobRequest) (s t : State) : Prop where
  queue : t.liu.queue = []
  rounds : t.rte.rounds = []
  jobs : t.jbu.jobs = [placedClose s j]
  routes : t.rte.routes = (withReplyTimer j s).rte.routes
  engine : t.cme.engine = s.cme.engine
  check : t.cme.check = s.cme.check
  orp : t.orp = s.orp
  stc : t.stc = s.stc

theorem HandsOver.settled {m : LinkMsg} {j : JobRequest} {s : State} (h : HandsOver m j s) :
    HandedOver j s (Machine.settleOwn true s) := by
  rw [h.settleOwn]
  exact ⟨rfl, rfl, rfl, rfl, rfl, rfl, rfl, rfl⟩

/-- The stray-contact rule finds no armed job in it. -/
theorem HandedOver.strayPoint {j : JobRequest} {s t : State} (h : HandedOver j s t) :
    HandedOver j s (strayPoint t) := by
  have hunarmed : ∀ i ∈ t.jbu.jobs, i.isArmed = false := by
    rw [h.jobs]
    intro i hi
    rw [List.mem_singleton.1 hi]
    exact placedClose_unarmed s j
  rw [strayPoint_of_unarmed hunarmed]
  exact ⟨h.queue, h.rounds, h.jobs, h.routes, h.engine, h.check, h.orp, h.stc⟩

/-- It is the same when seen from before the frame was taken. -/
theorem HandedOver.of_tablesOnly {j : JobRequest} {s t u : State} (g : TablesOnly s t) (h : HandedOver j t u) :
    HandedOver j s u := by
  rw [g.rest] at h
  exact ⟨h.queue, h.rounds, h.jobs, h.routes, h.engine, h.check, h.orp, h.stc⟩

theorem HandedOver.of_closeOwnSlot {j : JobRequest} {s t : State} (h : HandedOver j (closeOwnSlot false s) t) :
    HandedOver j s t := ⟨h.queue, h.rounds, h.jobs, h.routes, h.engine, h.check, h.orp, h.stc⟩

/-- The own frame end that hands the round over, before the end of its event. -/
theorem ownFrameEnd_handover {s : State} {slot : Slot} {f : Frame} {m : LinkMsg} {j : JobRequest} (h : HandsOver m j s)
    (hself : s.isSelf slot = true) (honline : s.stc.station = .online) (hgarbled : s.liu.garbled = false)
    (hjudge : judge slot s.liu.frame false = .good f)
    (hdispatch : TablesOnly (closeOwnSlot false s) (dispatchGood f (closeOwnSlot false s))) :
    HandedOver j s (ownFrameEnd slot s.liu.frame s) := by
  have hdriving : s.driving = true := s.driving_iff.2 (.inr (.inl honline))
  have hclose : HandsOver m j (closeOwnSlot false s) := h.congr rfl rfl rfl rfl rfl
  have hover : HandsOver m j (dispatchGood f (closeOwnSlot false s)) := hclose.congr (by rw [hdispatch.rest])
    (by rw [hdispatch.rest]) (by rw [hdispatch.rest]) (by rw [hdispatch.rest]) hdispatch.stale
  have hdone : HandedOver j s (strayPoint (settleOwn true (dispatchGood f (closeOwnSlot false s)))) :=
    (HandedOver.of_tablesOnly hdispatch hover.settled.strayPoint).of_closeOwnSlot
  have hstill : goOnline (strayPoint (settleOwn true (dispatchGood f (closeOwnSlot false s))))
      = strayPoint (settleOwn true (dispatchGood f (closeOwnSlot false s))) := by
    unfold goOnline
    rw [hdone.stc, honline]
    rfl
  rw [ownFrameEnd_of_good hdriving hself hgarbled hjudge, hstill]
  exact hdone

/-- The handover with the end of its event, while the Commit Engine is busy. -/
theorem HandedOver.afterEvent {s t : State} {j : JobRequest} (h : HandedOver j s t) (hcalm : s.calm = true)
    (hbusy : s.cme.engine ≠ .idle) (hrequested : (s.route j.ref.tag).anyRequested = true) :
    (afterEvent t).liu.queue = [] ∧ (afterEvent t).rte.rounds = []
      ∧ ((afterEvent t).route j.ref.tag).timer = some s.cfg.replyLimit
      ∧ (afterEvent t).jbu.jobs = [placedClose s j] := by
  obtain ⟨-, -, hreport, horder, -, -, -⟩ := s.calm_iff.1 hcalm
  have hroute : ∀ tag, t.route tag = (withReplyTimer j s).route tag := fun tag => by
    unfold State.route
    rw [h.routes]
  have htimer : RoutesOnly s (withReplyTimer j s) := by
    refine routesOnly_modRoute ?_ j.ref.tag s
    exact fun _ => rfl
  have hreports : t.orp.reports = s.orp.reports := by rw [h.orp]
  have hwork : commitWork t = none := (commitWork_eq_none t).2 (formationDue_busy (by rw [h.engine]; exact hbusy))
  have hset : t.route j.ref.tag = { s.route j.ref.tag with timer := some s.cfg.replyLimit } := by
    rw [hroute, withReplyTimer, modRoute_route, if_pos rfl]
  have hkept : (pruneTimers t).route j.ref.tag = t.route j.ref.tag := by
    rw [pruneTimers_route, if_pos (by rw [hset]; exact hrequested)]
  rw [afterEvent_of_none hwork
    (placeNextReport_none_congr hreport hreports h.check fun tag => by rw [hroute, htimer.owed])
    (serveOrder_none_congr horder (by rw [h.orp]) hreports h.check), settleSweepTimer_eq]
  exact ⟨h.queue, h.rounds, (congrArg Route.timer hkept).trans (congrArg Route.timer hset), h.jobs⟩

/-! ## The command -/

/-- The command of a frame end in the own slot. -/
theorem exec_own_frameEnd {s : State} (hreset : s.stc.resetHeld = false) (hdriving : s.driving = true)
    (hslot : s.hasSlot = true) (hin : s.inSlot s.self = true) (hpos : s.liu.pos.before s.self 400 = true)
    (hheard : s.heardSlot s.self = true) (bits : FrameBits) :
    exec (.frameEnd s.self bits) s = .next (afterEvent (ownFrameEnd s.self bits (atOwnEnd s))) := by
  have hevent : event (takeFrameEnd s.self bits) s = afterEvent (ownFrameEnd s.self bits (atOwnEnd s)) := by
    rw [event, hreset, takeFrameEnd_own hdriving hslot hin hpos hheard]
    rfl
  exact congrArg Host.Outcome.next hevent

/-- The own frame received good, with the end of its event. -/
theorem ownFrame_good {s : State} {slot : Slot} {f : Frame} (hdriving : s.driving = true) (hself : s.isSelf slot = true)
    (hown : s.liu.ownSlot = true) (hgarbled : s.liu.garbled = false) (hjudge : judge slot s.liu.frame false = .good f) :
    OwnFrameGood f s (afterEvent (ownFrameEnd slot s.liu.frame s)) := by
  have hgood := ownFrameEnd_good hdriving hself hown hgarbled hjudge
  have honline : (ownFrameEnd slot s.liu.frame s).stc.station ≠ .offline := by
    rw [hgood.station]
    split
    · decide
    · exact State.online_of_driving hdriving
  exact hgood.of_steady (steady_afterEvent honline)

/-- Settles O25: the good own frame by `OwnFrameGood` and `HandedOver`, the drive conflict by `OwnFrameGarbled`. -/
theorem ownFrameSettles : Obligations.OwnFrameSettles := by
  unfold Obligations.OwnFrameSettles
  intro s hdriving hslot hown hin hpos hheard
  have hself : (atOwnEnd s).isSelf s.self = true := State.isSelf_self (s := s) hslot
  refine ⟨fun f hreset hgarbled hjudge => ⟨?_, ?_⟩, ?_⟩
  · have hend := ownFrame_good (s := atOwnEnd s) hdriving hself hown hgarbled hjudge
    exact ⟨_, exec_own_frameEnd hreset hdriving hslot hin hpos hheard _, hend.waits, hend.conflicts, hend.ownSlot,
      hend.pos, hend.station, judge_good_sender hjudge ▸ hend.members⟩
  · intro a l k q j hbusy honline hstale hmember hother haction harmed _ hgen hstate hrequested hjobs hheld hmsgs hqueue
      hrounds
    simp only [State.calmBusy, Bool.and_eq_true, bne_iff_ne] at hbusy
    obtain ⟨hcalm, hengine⟩ := hbusy
    obtain ⟨-, -, -, -, hstep, -, -⟩ := s.calm_iff.1 hcalm
    have hover : HandsOver (.operate a l k .close j.ref.tag j.ref.gen q false) j s :=
      ⟨⟨a, l, k, q, rfl⟩, haction, harmed, hqueue, hrounds, hheld, ((exchangeStep_eq_none s).1 hstep).1, hjobs, hgen,
        by rw [hstate]; decide, by rw [honline]; decide, hstale⟩
    have hsender := judge_good_sender hjudge
    have hdispatch : TablesOnly (closeOwnSlot false (atOwnEnd s)) (dispatchGood f (closeOwnSlot false (atOwnEnd s))) :=
      dispatchGood_own_operate (hsender ▸ hself) (hsender ▸ hmember) hother hmsgs
    have hatEnd : HandsOver _ j (atOwnEnd s) := hover.congr rfl rfl rfl rfl rfl
    have hdone := ownFrameEnd_handover hatEnd hself honline hgarbled hjudge hdispatch
    exact ⟨_, exec_own_frameEnd hreset hdriving hslot hin hpos hheard _,
      hdone.afterEvent (State.calm_of_link hcalm rfl) hengine hrequested⟩
  · intro bits hcalm hgarbled hjudge hheld hrounds hjobs horders
    obtain ⟨hend, hfirst, hsecond⟩ := ownFrame_garbled (s := atOwnEnd s) hdriving hown (State.calm_of_link hcalm rfl)
      hgarbled hjudge hheld hrounds hjobs horders
    exact ⟨_, exec_own_frameEnd (resetHeld_of_calm hcalm) hdriving hslot hin hpos hheard _, hend.conflicts,
      hend.ownSlot, hend.mbu, hend.stale, hfirst, hsecond⟩

end Sys2Proof.Machine

/-! PROOFS. The link messages on the trunk table (03 R46 to R49): a CLAIM, a RELEASE and a QUARANTINE change the entry
that they name, and the report of a CLAIM won changes its leg; none of that brings about further work. -/

namespace Sys2Proof.Machine

/-! ## Rest after a change of the trunk table or of a leg -/

/-- A change of the trunk table unit, and of routes in nothing that the end of an event looks at, leaves a station at
rest. -/
theorem State.calm_of_ttu_routes {s t : State} (h : s.calm = true)
    (ht : t = { s with ttu := t.ttu, rte.routes := t.rte.routes })
    (hroutes : ∀ tag, (t.route tag).headReady = (s.route tag).headReady ∧ (t.route tag).timer = (s.route tag).timer
      ∧ (t.route tag).anyRequested = (s.route tag).anyRequested) : t.calm = true := by
  obtain ⟨hreset, hwork, hreport, horder, hexchange, htimers, hsweep⟩ := s.calm_spec.1 h
  refine t.calm_spec.2 ⟨by rw [ht]; exact hreset, by rw [ht]; exact hwork, ?_, by rw [ht]; exact horder,
    by rw [ht]; exact hexchange, fun tag => ?_, by rw [ht]; exact hsweep⟩
  · refine Or.imp (fun hfull => ?_) (fun hnone tag => (hroutes tag).1.trans (hnone tag)) hreport
    rw [ht]
    exact hfull
  · obtain ⟨-, htimer, hrequested⟩ := hroutes tag
    rw [htimer, hrequested]
    exact htimers tag

/-- A change of the trunk table unit leaves a station at rest. -/
theorem State.calm_of_ttu {s t : State} (h : s.calm = true) (ht : t = { s with ttu := t.ttu }) : t.calm = true := by
  have hroute : ∀ tag, t.route tag = s.route tag := fun tag => by rw [ht]; rfl
  have hrest : t = { s with ttu := t.ttu, rte.routes := t.rte.routes } := by rw [ht]
  exact State.calm_of_ttu_routes h hrest fun tag => by rw [hroute]; exact ⟨rfl, rfl, rfl⟩

/-- An entry written as it stands changes nothing. -/
theorem setEntry_entry_self (k : Trunk) (s : State) : setEntry k (s.entry k) s = s := by
  have htable : s.ttu.table.set k (s.ttu.table.get k) = s.ttu.table :=
    Table.ext_get fun i => by
      rw [Table.get_set]
      split
      · rename_i h
        rw [h]
      · rfl
  unfold setEntry State.entry
  rw [htable]

/-! ## RELEASE and QUARANTINE (R48, R49) -/

theorem TrunkEntry.ownedBy_iff (e : TrunkEntry) (a : Addr) :
    e.ownedBy a = true ↔ e = .held a ∨ e = .quarantined a := by
  cases e <;> simp [TrunkEntry.ownedBy]

theorem takeRelease_of_owned {sender : Addr} {k : Trunk} {s : State} (hears : s.hears = true)
    (hvalid : s.ttu.valid = true) (howned : (s.entry k).ownedBy sender = true) :
    takeRelease sender k s = setEntry k (.draining sender) s := by
  unfold takeRelease applyRelease TrunkEntry.released
  rw [if_pos hears, if_pos hvalid, if_pos howned]

theorem takeRelease_of_not_owned {sender : Addr} {k : Trunk} {s : State}
    (howned : ¬(s.entry k).ownedBy sender = true) : takeRelease sender k s = s := by
  unfold takeRelease applyRelease TrunkEntry.released
  rw [if_neg howned, setEntry_entry_self, ite_self, ite_self]

theorem takeQuarantine_of_held {sender : Addr} {k : Trunk} {s : State} (hears : s.hears = true)
    (hvalid : s.ttu.valid = true) (hheld : s.entry k = .held sender) :
    takeQuarantine sender k s = setEntry k (.quarantined sender) s := by
  have hmoves : (s.ttu.valid && s.entry k == .held sender) = true := by
    rw [hvalid, hheld, beq_self_eq_true]
    rfl
  unfold takeQuarantine applyQuarantine
  rw [if_pos hears, if_pos hmoves]

theorem takeQuarantine_of_not_held {sender : Addr} {k : Trunk} {s : State} (hheld : s.entry k ≠ .held sender) :
    takeQuarantine sender k s = s := by
  have hstands : ¬(s.ttu.valid && s.entry k == .held sender) = true := by simp [hheld]
  unfold takeQuarantine applyQuarantine
  rw [if_neg hstands, ite_self]

/-- Settles O30: each message writes the entry that it names or nothing, on which rest does not depend. -/
theorem releaseAndQuarantine : Obligations.ReleaseAndQuarantine := by
  unfold Obligations.ReleaseAndQuarantine
  intro sender k s hcalm hears hvalid
  have hreset := resetHeld_of_calm hcalm
  have hentry : ∀ e, (setEntry k e s).calm = true := fun e => State.calm_of_ttu hcalm rfl
  refine ⟨fun howned => ?_, fun hheld hquarantined => ?_, fun hheld => ?_, fun hheld => ?_⟩
  · have hmove := takeRelease_of_owned hears hvalid (((s.entry k).ownedBy_iff sender).2 howned)
    exact congrArg Host.Outcome.next (event_eq hreset hmove (hentry _))
  · have hnot : ¬(s.entry k).ownedBy sender = true := fun h =>
      (((s.entry k).ownedBy_iff sender).1 h).elim hheld hquarantined
    exact congrArg Host.Outcome.next (event_eq hreset (takeRelease_of_not_owned hnot) hcalm)
  · exact congrArg Host.Outcome.next (event_eq hreset (takeQuarantine_of_held hears hvalid hheld) (hentry _))
  · exact congrArg Host.Outcome.next (event_eq hreset (takeQuarantine_of_not_held hheld) hcalm)

/-! ## CLAIM (R46, R47) -/

theorem applyClaim_of_free {sender : Addr} {k : Trunk} {s : State} (hvalid : s.ttu.valid = true)
    (hfree : s.entry k = .free) : applyClaim sender k s = (setEntry k (.held sender) s, some true) := by
  unfold applyClaim
  rw [if_pos hvalid, hfree]

theorem applyClaim_of_taken {sender : Addr} {k : Trunk} {s : State} (hvalid : s.ttu.valid = true)
    (htaken : s.entry k ≠ .free) : applyClaim sender k s = (s, some false) := by
  unfold applyClaim
  rw [if_pos hvalid]
  split
  · exact absurd ‹_› htaken
  · rfl

/-- A CLAIM with an outcome: the table's change, and the report to the RTE when the sender is this station. -/
theorem takeClaim_of_outcome {sender : Addr} {k : Trunk} {tag : Tag} {gen : Gen} {leg : Fin 4} {s t : State}
    {won : Bool} (hears : s.hears = true) (happly : applyClaim sender k s = (t, some won)) :
    takeClaim sender k tag gen leg s =
      if s.isSelf sender then exchange (reportClaim won k tag gen leg t) else t := by
  unfold takeClaim
  rw [if_pos hears, happly]

/-- A CLAIM that no leg waits for is not taken by the RTE. -/
theorem reportClaim_of_not_awaited {won : Bool} {k : Trunk} {tag : Tag} {gen : Gen} {leg : Fin 4} {s : State}
    (h : s.claimLeg .sent k tag gen leg = false) : reportClaim won k tag gen leg s = s := by
  unfold reportClaim
  rw [h]
  rfl

/-- A CLAIM that no route of this station waits for is its outcome on the table and nothing else. -/
theorem takeClaim_of_not_awaited {sender : Addr} {k : Trunk} {tag : Tag} {gen : Gen} {leg : Fin 4} {s t : State}
    {won : Bool} (hears : s.hears = true) (happly : applyClaim sender k s = (t, some won)) (hrest : t.calm = true)
    (hwaits : s.isSelf sender = true → t.claimLeg .sent k tag gen leg = false) :
    takeClaim sender k tag gen leg s = t := by
  rw [takeClaim_of_outcome hears happly]
  split
  · rw [reportClaim_of_not_awaited (hwaits ‹_›), exchange_calm hrest]
  · rfl

/-- Settles O28: the CLAIM writes the entry of a FREE trunk or nothing, and the RTE does not take it. -/
theorem claimDecides : Obligations.ClaimDecides := by
  unfold Obligations.ClaimDecides
  intro sender k tag gen leg s hcalm hears hvalid hwaits
  have hreset := resetHeld_of_calm hcalm
  refine ⟨fun hfree => ?_, fun htaken => ?_⟩
  · have hrest : (setEntry k (.held sender) s).calm = true := State.calm_of_ttu hcalm rfl
    have hclaim := takeClaim_of_not_awaited hears (applyClaim_of_free hvalid hfree) hrest hwaits
    exact congrArg Host.Outcome.next (event_eq hreset hclaim hrest)
  · have hclaim := takeClaim_of_not_awaited hears (applyClaim_of_taken hvalid htaken) hcalm hwaits
    exact congrArg Host.Outcome.next (event_eq hreset hclaim hcalm)

/-! ## The leg of a CLAIM won (R89) -/

theorem Route.mapLegs_legs (f : Nat → Leg → Leg) (r : Route) : (r.mapLegs f).legs = r.legs.mapIdx f := by
  apply List.ext_getElem <;> simp [Route.mapLegs]

/-- A change of the legs that leaves the endpoints. -/
theorem Route.mapLegs_endpoints {f : Nat → Leg → Leg} (h : ∀ i l, (f i l).endpoints = l.endpoints) (r : Route) :
    (r.mapLegs f).endpoints = r.endpoints := by
  have hlegs : (r.mapLegs f).legs.map Leg.endpoints = r.legs.map Leg.endpoints := by
    rw [Route.mapLegs_legs]
    apply List.ext_getElem <;> simp [h]
  unfold Route.endpoints
  rw [List.flatMap_def, hlegs, List.flatMap_def]

/-- The leg `i` of a route becomes WON. -/
def winLeg (tag : Tag) (i : Nat) (s : State) : State := modLeg tag i (fun l => { l with claim := .won }) s

theorem winLeg_route (tag : Tag) (i : Nat) (tag' : Tag) (s : State) : (winLeg tag i s).route tag' =
    if tag = tag' then (s.route tag).mapLegs fun j l => if j == i then { l with claim := .won } else l
    else s.route tag' := modRoute_route _ _ _ _

/-- A leg won changes nothing that the end of an event looks at. -/
theorem calm_winLeg {s : State} (h : s.calm = true) (tag : Tag) (i : Nat) : (winLeg tag i s).calm = true := by
  have hends : ((s.route tag).mapLegs fun j l => if j == i then { l with claim := .won } else l).endpoints
      = (s.route tag).endpoints := by
    refine Route.mapLegs_endpoints (fun j l => ?_) _
    split <;> rfl
  refine State.calm_of_ttu_routes h rfl fun tag' => ?_
  rw [winLeg_route]
  split
  · rename_i htag
    refine htag ▸ ⟨rfl, rfl, ?_⟩
    unfold Route.anyRequested
    rw [hends]
  · exact ⟨rfl, rfl, rfl⟩

/-- A leg other than `i` that is not WON is not WON after `i` has been won. -/
theorem not_all_won_winLeg {tag : Tag} {i : Nat} {s : State}
    (h : ∃ j l, j ≠ i ∧ (s.route tag).legs[j]? = some l ∧ l.claim ≠ .won) :
    (((winLeg tag i s).route tag).legs.all fun l => l.claim == .won) = false := by
  obtain ⟨j, l, hj, hleg, hclaim⟩ := h
  have hstill : ((winLeg tag i s).route tag).legs[j]? = some l := by
    rw [winLeg_route, if_pos rfl, Route.mapLegs_legs, List.getElem?_mapIdx, hleg]
    simp [hj]
  exact List.all_eq_false.2 ⟨l, List.mem_of_getElem? hstill, by simpa using hclaim⟩

/-- A leg won in a route that is not failing, with legs still to win: the leg is WON and the route waits on. -/
theorem winClaim_of_more_legs {tag : Tag} {i : Nat} {k : Trunk} {s : State} (hreason : (s.route tag).reason = none)
    (hmore : ∃ j l, j ≠ i ∧ (s.route tag).legs[j]? = some l ∧ l.claim ≠ .won) :
    winClaim tag i k s = winLeg tag i s := by
  have hfailing : (s.route tag).failing = false := by
    unfold Route.failing
    rw [hreason, Option.isSome_none, Bool.and_false]
  have hall := not_all_won_winLeg hmore
  unfold winClaim
  unfold winLeg at hall ⊢
  simp only [hfailing, hall, Bool.false_eq_true, if_false]

/-- Settles O29: the outcome reaches the leg, and neither the table nor the leg bears on rest. -/
theorem ownClaimWinsLeg : Obligations.OwnClaimWinsLeg := by
  unfold Obligations.OwnClaimWinsLeg
  intro k tag gen leg s hcalm hslot hears hvalid hwaits hfree hreason hmore
  have hheld : (setEntry k (.held s.self) s).calm = true := State.calm_of_ttu hcalm rfl
  have hwon : (winLeg tag leg.val (setEntry k (.held s.self) s)).calm = true := calm_winLeg hheld tag leg.val
  have hreport : reportClaim true k tag gen leg (setEntry k (.held s.self) s)
      = winLeg tag leg.val (setEntry k (.held s.self) s) := by
    have hstill : (setEntry k (.held s.self) s).claimLeg .sent k tag gen leg = true := hwaits
    unfold reportClaim
    rw [if_pos hstill, if_pos rfl]
    exact winClaim_of_more_legs hreason hmore
  have hclaim : takeClaim s.self k tag gen leg s = winLeg tag leg.val (setEntry k (.held s.self) s) := by
    rw [takeClaim_of_outcome hears (applyClaim_of_free hvalid hfree), if_pos (State.isSelf_self hslot), hreport,
      exchange_calm hwon]
  exact congrArg Host.Outcome.next (event_eq (resetHeld_of_calm hcalm) hclaim hwon)

end Sys2Proof.Machine

/-! PROOFS. The drain rule at a cycle mark on time (03 R55, 02 R22): of the takers of the mark only the trunk table unit
touches its table, once, and all of them leave the slot position at bit 0 of slot 0. -/

namespace Sys2Proof.Machine

/-! ## What the mark's takers leave of the slot position -/

theorem Steady.pos {s t : State} (h : Steady s t) : t.liu.pos = s.liu.pos := by rw [h.liu]

/-- A fold whose steps leave the position. -/
theorem foldl_pos {α : Type} {f : State → α → State} (h : ∀ s a, (f s a).liu.pos = s.liu.pos) (l : List α)
    (s : State) : (l.foldl f s).liu.pos = s.liu.pos := by
  induction l generalizing s with
  | nil => rfl
  | cons a l ih => exact (ih (f s a)).trans (h s a)

theorem withdraw_pos (i : QueueItem) (s : State) : (withdraw i s).liu.pos = s.liu.pos := by
  unfold withdraw
  split
  · dsimp only
    split
    · exact ((steady_reportLostBeforeSend _ _ _ _ _).trans (steady_exchange _)).pos
    · rfl
  · rfl

theorem withdrawClaims_pos (s : State) : (withdrawClaims s).liu.pos = s.liu.pos :=
  foldl_pos (fun s i => withdraw_pos i s) _ s

theorem takeFirst_pos (m : LinkMsg) (s : State) : (takeFirst m s).liu.pos = s.liu.pos := by
  unfold takeFirst
  dsimp only
  split
  · exact (steady_markSent _ _ _ _ _).pos
  · rfl

theorem takeMessages_pos (n : Nat) (s : State) : (takeMessages n s).liu.pos = s.liu.pos := by
  induction n generalizing s with
  | zero => rfl
  | succ n ih =>
    unfold takeMessages
    split
    · rfl
    · split
      · rfl
      · split
        · exact (ih _).trans (withdraw_pos _ s)
        · exact (ih _).trans (takeFirst_pos _ s)

theorem startOwnSlot_pos (s : State) : (startOwnSlot s).liu.pos = s.liu.pos := by
  unfold startOwnSlot
  rw [fixFrame_liu_pos]
  split
  · rw [takeMessages_pos, (steady_admitAll _).pos, withdrawClaims_pos]
  · rfl

theorem sampleTrig_pos (trig : Bool) (s : State) : (sampleTrig trig s).liu.pos = s.liu.pos := by
  unfold sampleTrig
  dsimp only
  split
  · exact (steady_takeTrigger _).pos
  · rfl

/-- A move to the bit at which the position stands. -/
theorem moveTo_pos_of_at {slot : Slot} {bit : Nat} {heard : Bool} {s : State} (h : s.liu.pos = .at slot bit heard) :
    (moveTo slot bit s).liu.pos = .at slot bit heard := by
  have hheard : s.heardSlot slot = heard := by
    unfold State.heardSlot
    rw [h]
    exact if_pos (beq_self_eq_true slot)
  rw [moveTo_pos, hheard]

theorem takeSlotBoundary_pos {slot : Slot} {heard : Bool} {s : State} (trig : Bool)
    (h : s.liu.pos = .at slot 0 heard) : (takeSlotBoundary slot trig s).liu.pos = .at slot 0 heard := by
  unfold takeSlotBoundary
  dsimp only
  split
  · split
    · exact (sampleTrig_pos _ _).trans (moveTo_pos_of_at h)
    · exact moveTo_pos_of_at h
  · exact h

theorem takeOwnSlotStart_pos {heard : Bool} {s : State} (h : s.liu.pos = .at s.self 0 heard) :
    (takeOwnSlotStart s).liu.pos = .at s.self 0 heard := by
  unfold takeOwnSlotStart
  dsimp only
  split
  · split
    · exact (startOwnSlot_pos _).trans (moveTo_pos_of_at h)
    · exact moveTo_pos_of_at h
  · exact h

theorem State.self_of_isSelf {s : State} {a : Addr} (h : s.isSelf a = true) : s.self = a := by
  have hval : a.val = s.stc.strap.val := beq_iff_eq.1 h
  apply Fin.ext
  rw [← Nat.mod_eq_of_lt a.isLt, hval]
  rfl

/-! ## The table at the mark (R55) -/

theorem drainRule_entry {s : State} (hvalid : s.ttu.valid = true) (k : Trunk) :
    (drainRule s).entry k = if s.drains k then .free else s.entry k := by
  unfold drainRule
  rw [if_pos hvalid]
  exact Table.get_mapIdx _ _ _

/-- What the drain rule frees depends on the two tables. -/
theorem State.drains_congr {s t : State} (htable : t.ttu.table = s.ttu.table) (hmbu : t.mbu = s.mbu) (k : Trunk) :
    t.drains k = s.drains k := by
  have hstored : t.anyStored k = s.anyStored k := by unfold State.anyStored; rw [hmbu]
  unfold State.drains State.entry
  rw [htable, hmbu, hstored]

/-- A station that is not stale recovers nothing (R73). -/
theorem recovers_of_not_stale {s : State} (h : s.ttu.stale = false) : s.recovers = none := by
  unfold State.recovers
  rw [h, Bool.and_false, Bool.false_and]
  rfl

theorem noteListening_table (s : State) : (noteListening s).ttu.table = s.ttu.table := by
  unfold noteListening
  split <;> rfl

/-- The mark's work on a valid table of a station that is not stale is the drain rule. -/
theorem markTtu_entry {s : State} (overrun : Bool) (hvalid : s.ttu.valid = true) (hstale : s.ttu.stale = false)
    (k : Trunk) : (markTtu overrun s).entry k = if s.drains k then .free else s.entry k := by
  have hnote := sameAgreement_noteListening s
  have hadopt : (noteListening s).recovers = none := (noteListening_recovers s).trans (recovers_of_not_stale hstale)
  have hends : endListeningTable (noteListening s) = noteListening s := if_pos (hnote.valid.trans hvalid)
  have hwork : (markTtu overrun s).entry k = (drainRule (noteListening s)).entry k := by
    unfold markTtu
    simp only [hadopt, hends, ite_self]
    rfl
  have hentry : (noteListening s).entry k = s.entry k := congrArg (Table.get · k) (noteListening_table s)
  rw [hwork, drainRule_entry (hnote.valid.trans hvalid), hentry,
    State.drains_congr (noteListening_table s) (linkWork_noteListening s).mbu]

/-! ## The takers of the mark, each once (R22) -/

/-- A station at the mark, on the link: the trunk table unit and the membership table as given, the position at bit 0 of
slot 0, heard. -/
structure AtMark (ttu : Ttu) (mbu : Mbu) (s : State) : Prop where
  online : s.stc.station ≠ .offline
  ttu : s.ttu = ttu
  mbu : s.mbu = mbu
  pos : s.liu.pos = .at 0 0 true

theorem AtMark.of_ownWork {w : Ttu} {m : Mbu} {s t : State} (h : AtMark w m s) (g : OwnWork s t)
    (hpos : t.liu.pos = .at 0 0 true) : AtMark w m t :=
  ⟨g.online h.online, (g.ttu h.online).trans h.ttu, g.mbu.trans h.mbu, hpos⟩

/-- Every taker but the trunk table unit leaves both tables and the position. -/
theorem AtMark.after_takeMark {w : Ttu} {m : Mbu} {s : State} (h : AtMark w m s) (overrun : Bool) {taker : MarkTaker}
    (htaker : taker ≠ .ttu) : AtMark w m (takeMark overrun taker s) := by
  cases taker with
  | ttu => exact absurd rfl htaker
  | rte =>
    change AtMark w m (markRte s)
    exact h.of_ownWork (ownWork_markRte s) ((steady_markRte s).pos.trans h.pos)
  | jbu =>
    change AtMark w m (markJbu s)
    exact h.of_ownWork (ownWork_markJbu s) ((steady_markJbu s).pos.trans h.pos)
  | boundary trig => exact h.of_ownWork (ownWork_takeSlotBoundary 0 trig s) (takeSlotBoundary_pos trig h.pos)
  | ownStart =>
    unfold takeMark
    dsimp only
    split
    · have hself : s.self = 0 := State.self_of_isSelf ‹_›
      have hpos := takeOwnSlotStart_pos (hself.symm ▸ h.pos)
      exact h.of_ownWork (ownWork_takeOwnSlotStart s) (hself ▸ hpos)
    · exact h

theorem AtMark.foldl {w : Ttu} {m : Mbu} {s : State} (h : AtMark w m s) (overrun : Bool) {l : List MarkTaker}
    (hl : MarkTaker.ttu ∉ l) : AtMark w m (l.foldl (fun s taker => takeMark overrun taker s) s) := by
  induction l generalizing s with
  | nil => exact h
  | cons taker l ih =>
    rw [List.mem_cons, not_or] at hl
    obtain ⟨hhead, htail⟩ := hl
    exact ih (h.after_takeMark overrun (Ne.symm hhead)) htail

/-- The trunk table unit takes the mark. -/
theorem AtMark.after_markTtu {w : Ttu} {m : Mbu} {s : State} (h : AtMark w m s) (overrun : Bool) :
    AtMark (markTtu overrun s).ttu m (markTtu overrun s) := by
  have hwork := linkWork_markTtu overrun s
  exact ⟨hwork.online h.online, rfl, hwork.mbu.trans h.mbu, hwork.pos.trans h.pos⟩

theorem nodup_eraseDups {α : Type} [BEq α] [LawfulBEq α] (l : List α) : l.eraseDups.Nodup := by
  match l with
  | [] => exact List.nodup_nil
  | a :: as =>
    rw [List.eraseDups_cons, List.nodup_cons, List.mem_eraseDups]
    exact ⟨by simp, nodup_eraseDups _⟩
termination_by l.length
decreasing_by exact Nat.lt_succ_of_le (List.length_filter_le _ as)

/-- The trunk table unit takes every mark once. -/
theorem markOrder_split (order : List MarkTaker) : ∃ before after, markOrder order = before ++ .ttu :: after
    ∧ MarkTaker.ttu ∉ before ∧ MarkTaker.ttu ∉ after := by
  have hmem : MarkTaker.ttu ∈ markOrder order := by simp [markOrder]
  obtain ⟨before, after, hsplit⟩ := List.append_of_mem hmem
  have hnodup : (before ++ .ttu :: after).Nodup := hsplit ▸ nodup_eraseDups _
  rw [List.nodup_middle, List.nodup_cons, List.mem_append, not_or] at hnodup
  obtain ⟨⟨hbefore, hafter⟩, -⟩ := hnodup
  exact ⟨before, after, hsplit, hbefore, hafter⟩

/-- The takers of a mark: the drain rule frees what it frees in the table at the mark, in whatever order they come. -/
theorem AtMark.after_markOrder {s : State} (h : AtMark s.ttu s.mbu s) (overrun : Bool) (hvalid : s.ttu.valid = true)
    (hstale : s.ttu.stale = false) (order : List MarkTaker) :
    ∃ w : Ttu, AtMark w s.mbu ((markOrder order).foldl (fun s taker => takeMark overrun taker s) s)
      ∧ ∀ k, w.table.get k = if s.drains k then .free else s.entry k := by
  obtain ⟨before, after, hsplit, hbefore, hafter⟩ := markOrder_split order
  have hreached := h.foldl overrun hbefore
  rw [hsplit, List.foldl_append, List.foldl_cons]
  generalize before.foldl (fun s taker => takeMark overrun taker s) s = u at hreached
  refine ⟨_, (hreached.after_markTtu overrun).foldl overrun hafter, fun k => ?_⟩
  have hentry : u.entry k = s.entry k := by unfold State.entry; rw [hreached.ttu]
  have hdrains : u.drains k = s.drains k := State.drains_congr (by rw [hreached.ttu]) hreached.mbu k
  have hmark := markTtu_entry overrun (hreached.ttu ▸ hvalid) (hreached.ttu ▸ hstale) k
  rw [hentry, hdrains] at hmark
  exact hmark

/-! ## The command -/

theorem State.hears_iff (s : State) : s.hears = true ↔ s.stc.station ≠ .offline := bne_iff_ne

/-- A station on the link stays on it. -/
theorem Sound.hears {s t : State} (h : Sound s t) (hears : s.hears = true) : t.hears = true :=
  t.hears_iff.2 (h.online (s.hears_iff.1 hears))

/-- The mark on time: no link error, the takers alone. -/
theorem takeCycleMark_on_time {order : List MarkTaker} {s : State} (hears : s.hears = true) :
    takeCycleMark 10752 order s = (markOrder order).foldl (fun s taker => takeMark false taker s) (cutForMark s) := by
  have hcut : (cutForMark s).hears = true := (ownWork_cutForMark s).hears hears
  have hontime : s.overrun 10752 = false := Bool.and_false _
  unfold takeCycleMark
  rw [hontime]
  exact if_pos hcut

/-- An own slot cut off by the mark leaves both tables. -/
theorem atMark_cutForMark {s : State} (hears : s.hears = true) : AtMark s.ttu s.mbu (cutForMark s) := by
  have honline := s.hears_iff.1 hears
  have hcut := ownWork_cutForMark s
  have hheard : (cutForMark s).hears = true := hcut.hears hears
  exact ⟨hcut.online honline, hcut.ttu honline, hcut.mbu, congrArg (Position.at 0 0) hheard⟩

/-- Settles O17: the trunk table unit takes the mark once, and neither the other takers nor the end of the event touch the
two tables or the position. -/
theorem cycleMarkDrains : Obligations.CycleMarkDrains := by
  unfold Obligations.CycleMarkDrains
  intro order s hreset hears hvalid hstale
  have hcut := atMark_cutForMark hears
  have hstart : AtMark (cutForMark s).ttu (cutForMark s).mbu (cutForMark s) := ⟨hcut.online, rfl, rfl, hcut.pos⟩
  obtain ⟨w, hmark, htable⟩ := hstart.after_markOrder false (hcut.ttu ▸ hvalid) (hcut.ttu ▸ hstale) order
  rw [← takeCycleMark_on_time hears] at hmark
  have hdone := hmark.of_ownWork (inner_afterEvent _).own ((steady_afterEvent hmark.online).pos.trans hmark.pos)
  have hevent : event (takeCycleMark 10752 order) s = afterEvent (takeCycleMark 10752 order s) := by
    rw [event, hreset]
    rfl
  refine ⟨_, congrArg Host.Outcome.next hevent, fun k => ?_, hdone.pos, hdone.mbu.trans hcut.mbu⟩
  have hentry : (cutForMark s).entry k = s.entry k := by unfold State.entry; rw [hcut.ttu]
  have hdrains : (cutForMark s).drains k = s.drains k := State.drains_congr (by rw [hcut.ttu]) hcut.mbu k
  rw [← hentry, ← hdrains, ← htable k, ← hdone.ttu]
  rfl

end Sys2Proof.Machine

/-! PROOFS. The trunk table at a good frame of another station (03 R51, R52, 04 R66 to R70): the comparison or the
adoption of its header's snapshot, and then contamination; what follows the header leaves the table as it is. -/

namespace Sys2Proof.Machine

/-! ## Contamination and comparison (R51, R66, R67) -/

theorem contaminate_entry {f : Frame} {s : State} (hvalid : s.ttu.valid = true) (k : Trunk) :
    (contaminate f.sender f.contacts s).entry k = contaminatedEntry f s k := by
  have hentry : (contaminate f.sender f.contacts s).entry k
      = if s.entry k == .free && hasTrunk f.contacts k then .draining f.sender else s.entry k := by
    unfold contaminate
    rw [if_pos hvalid]
    exact Table.get_mapIdx _ _ _
  rw [hentry]
  simp only [contaminatedEntry, hasTrunk, Bool.and_eq_true, beq_iff_eq]

/-- Contamination changes the table alone. -/
theorem contaminate_ttu (a : Addr) (contacts : TrunkSet) (s : State) :
    (contaminate a contacts s).ttu = { s.ttu with table := (contaminate a contacts s).ttu.table } := by
  unfold contaminate
  split <;> rfl

/-- The comparison moves no entry. -/
theorem compareHeader_table_valid (f : Frame) (s : State) : (compareHeader f s).ttu.table = s.ttu.table
    ∧ (compareHeader f s).ttu.valid = s.ttu.valid := by
  unfold compareHeader
  split
  · split
    · exact ⟨rfl, rfl⟩
    · split <;> exact ⟨rfl, rfl⟩
  · exact ⟨rfl, rfl⟩

theorem compareHeader_of_stale {f : Frame} (h : f.stale = true) (s : State) : compareHeader f s = s := by
  unfold compareHeader
  rw [h, Bool.not_true, Bool.and_false, Bool.false_and]
  rfl

/-- A header is compared: the table is valid, neither station is stale, and the header is another station's (R66). -/
structure Compares (f : Frame) (s : State) : Prop where
  valid : s.ttu.valid = true
  stale : s.ttu.stale = false
  header : f.stale = false
  other : s.isSelf f.sender = false

theorem compareHeader_of_compares {f : Frame} {s : State} (h : Compares f s) : compareHeader f s =
    if allTrunks.all (s.entryAgrees f.sender f.snapshot) then { s with ttu.mismatch := false }
    else if s.ttu.mismatch then becomeStale s else { s with ttu.mismatch := true } := by
  have htest : (s.ttu.valid && !s.ttu.stale && !f.stale && !s.isSelf f.sender) = true := by
    rw [h.valid, h.stale, h.header, h.other]
    rfl
  unfold compareHeader
  exact if_pos htest

/-- A snapshot that agrees clears the mismatch counter. -/
theorem compareHeader_of_agree {f : Frame} {s : State} (h : Compares f s) (hagree : ∀ k, f.snapshot.get k = s.entry k) :
    compareHeader f s = { s with ttu.mismatch := false } := by
  have hall : allTrunks.all (s.entryAgrees f.sender f.snapshot) = true := List.all_eq_true.2 fun k _ => by
    unfold State.entryAgrees
    rw [hagree, beq_self_eq_true, Bool.true_or]
  rw [compareHeader_of_compares h, if_pos hall]

/-- Outside slot 0 a snapshot that differs is a mismatch, which counts or, the second in a row, makes the station
stale. -/
theorem compareHeader_of_differ {f : Frame} {s : State} (h : Compares f s) (hslot : f.sender ≠ 0)
    (hdiffer : ∃ k, f.snapshot.get k ≠ s.entry k) : compareHeader f s =
      if s.ttu.mismatch then becomeStale s else { s with ttu.mismatch := true } := by
  obtain ⟨k, hk⟩ := hdiffer
  have hdisagree : s.entryAgrees f.sender f.snapshot k = false := by
    unfold State.entryAgrees
    rw [beq_eq_false_iff_ne.2 hk, beq_eq_false_iff_ne.2 hslot]
    rfl
  have hall : ¬allTrunks.all (s.entryAgrees f.sender f.snapshot) = true := fun hall =>
    absurd (List.all_eq_true.1 hall k (List.mem_finRange k)) (by rw [hdisagree]; decide)
  rw [compareHeader_of_compares h, if_neg hall]

/-! ## The table of an adoption (R70, R52) -/

theorem Member.hasTrunk_stored (m : Member) (k : Trunk) :
    hasTrunk m.stored k = (m.state != .unseen && m.contacts.getLsbD k.val) := by
  unfold hasTrunk Member.stored
  cases m.state <;> simp

theorem adoptTable_entry (snapshot : TrunkTable) (s : State) (k : Trunk) :
    (adoptTable snapshot s).entry k = adoptedEntry snapshot s.mbu.members k := by
  have hentry : (adoptTable snapshot s).entry k
      = if snapshot.get k == .free then
          match s.lowestStored k with
          | some a => .draining a
          | none => snapshot.get k
        else snapshot.get k := (Table.get_mapIdx _ _ _).trans rfl
  have hlowest : s.lowestStored k = (List.finRange 24).find? fun a =>
      (s.mbu.members.get a).state != .unseen && (s.mbu.members.get a).contacts.getLsbD k.val :=
    List.find?_congr fun a _ => (s.mbu.members.get a).hasTrunk_stored k
  rw [hentry]
  unfold adoptedEntry
  rw [← hlowest]
  cases s.lowestStored k <;> by_cases hfree : snapshot.get k = .free <;> simp [hfree]

/-- A trunk that an adoption leaves FREE is in no stored contact set. -/
theorem not_stored_of_adoptedEntry {snapshot : TrunkTable} {members : Table 24 Member} {k : Trunk}
    (hfree : adoptedEntry snapshot members k = .free) (a : Addr) (hseen : (members.get a).state ≠ .unseen) :
    (members.get a).contacts.getLsbD k.val = false := by
  unfold adoptedEntry at hfree
  split at hfree
  · split at hfree
    · cases hfree
    · rename_i hnone
      have hnot := List.find?_eq_none.1 hnone a (List.mem_finRange a)
      simpa [hseen] using hnot
  · exact absurd hfree ‹_›

/-- What a good header leaves of its sender's membership entry is seen, with the header's contact set. -/
theorem heard_contacts (f : Frame) (m : Member) :
    (m.heard f).state ≠ .unseen ∧ (m.heard f).contacts = f.contacts := ⟨by simp [Member.heard], rfl⟩

/-- The contamination rule of the adopted header finds nothing to do: R52 has looked at its contact set already. -/
theorem contaminatedEntry_adopted {f : Frame} {s : State}
    (hsender : ∃ m : Member, s.mbu.members.get f.sender = m.heard f) (k : Trunk) :
    contaminatedEntry f (adoptTable f.snapshot s) k = adoptedEntry f.snapshot s.mbu.members k := by
  obtain ⟨m, hm⟩ := hsender
  obtain ⟨hseen, hcontacts⟩ := heard_contacts f m
  rw [← hm] at hseen hcontacts
  unfold contaminatedEntry
  rw [adoptTable_entry]
  refine if_neg fun ⟨hfree, hcontact⟩ => ?_
  have hnot := not_stored_of_adoptedEntry hfree f.sender hseen
  rw [hcontacts, hcontact] at hnot
  cases hnot

theorem adopt_ttu (snapshot : TrunkTable) {s : State} (honline : s.stc.station ≠ .offline) :
    (adopt snapshot s).ttu = (adoptTable snapshot s).ttu := (inner_adoptionEvent _).ttu honline

/-! ## The frame end of another station's slot -/

/-- The straps are read at a reset only. -/
theorem Sound.isSelf {s t : State} (h : Sound s t) (a : Addr) : t.isSelf a = s.isSelf a := by
  unfold State.isSelf
  rw [h.strap]

theorem takeHeader_ttu (f : Frame) (s : State) : (takeHeader f s).ttu = s.ttu := by
  have hreturn : ∀ t : State,
      (exchange (allTags.foldl (fun s tag => routeReturn f.sender f.joining tag s) t)).ttu = t.ttu := fun t =>
    ((RteWork.foldl (fun s tag => rteWork_routeReturn _ _ tag s) _ t).job.trans (jobWork_exchange _)).ttu
  have hpost : ∀ (p : Prop) [Decidable p] (t : State), (if p then postPeerJoined f.sender t else t).ttu = t.ttu :=
    fun p _ t => by split <;> rfl
  unfold takeHeader
  dsimp only
  split
  · rw [hreturn, hpost]
    rfl
  · rw [hpost]
    rfl

/-- The header of `f` has reached the membership table: the position has moved on, and the trunk table unit has not yet
taken the header. -/
structure HeaderTaken (f : Frame) (s u : State) : Prop where
  online : u.stc.station ≠ .offline
  other : u.isSelf f.sender = false
  ttu : u.ttu = s.ttu
  members : u.mbu.members = s.mbu.members.set f.sender ((s.mbu.members.get f.sender).heard f)
  posts : Posts s u

theorem headerTaken {f : Frame} {s : State} (honline : s.stc.station ≠ .offline) (hself : s.isSelf f.sender = false) :
    HeaderTaken f s (takeHeader f (moveTo f.sender 400 s)) := by
  have hmove := ownWork_moveTo f.sender 400 s
  have hheader := steady_takeHeader f (moveTo f.sender 400 s)
  have hsound := hmove.toSound.trans (sound_takeHeader f _)
  refine ⟨hsound.online honline, ?_, (takeHeader_ttu f _).trans (hmove.ttu honline), ?_, ?_⟩
  · rw [hsound.isSelf, hself]
  · rw [hheader.mbu, ← hmove.mbu]
    rfl
  · have hset : ∀ (m : Member) (t : State), Posts t (setMember f.sender m t) := fun _ _ => Posts.of_orp rfl
    exact (posts_moveTo _ _ s).trans ((hset _ _).trans hheader.toPosts)

/-- A good frame without messages: the header, and contamination. -/
theorem dispatchGood_of_quiet {f : Frame} {s : State} (hself : s.isSelf f.sender = false) (hmsgs : f.msgs = []) :
    dispatchGood f s = contaminate f.sender f.contacts
      (if s.ttu.pending && !f.stale then adopt f.snapshot (noteFrame f (compareHeader f (takeHeader f s)))
        else noteFrame f (compareHeader f (takeHeader f s))) := by
  have hsound := (sound_takeHeader f s).trans
    ((linkWork_compareHeader f _).toSound.trans (linkWork_noteFrame f _).toSound)
  have hother : (noteFrame f (compareHeader f (takeHeader f s))).isSelf f.sender = false :=
    (hsound.isSelf _).trans hself
  unfold dispatchGood
  rw [hmsgs, List.foldl_nil, hother, Bool.not_false, Bool.and_true]

/-- The end of a slot whose good frame is another station's. -/
theorem takeFrameEnd_other_good {slot : Slot} {bits : FrameBits} {f : Frame} {s : State} (hears : s.hears = true)
    (hpos : s.liu.pos.before slot 400 = true) (hheard : s.heardSlot slot = true) (hself : s.isSelf slot = false)
    (hjudge : judge slot bits false = .good f) :
    takeFrameEnd slot bits s = strayPoint (dispatchGood f (moveTo slot 400 s)) := by
  have hmove := (ownWork_moveTo slot 400 s).toSound
  have hmoved : (moveTo slot 400 s).hears = true := hmove.hears hears
  have hother : ¬(moveTo slot 400 s).ownSlotIs slot = true := by
    rw [State.ownSlotIs, hmove.isSelf, hself]
    decide
  unfold takeFrameEnd
  dsimp only
  rw [if_pos hpos, hmoved, hheard, Bool.and_self, if_pos rfl, if_neg hother]
  unfold otherFrameEnd
  rw [hjudge]
  exact if_neg (by simp)

/-- What follows the frame, the stray-contact rule and the end of the event, leaves the trunk table unit, and takes no
alert back. -/
theorem exec_other_good {slot : Slot} {bits : FrameBits} {f : Frame} {s : State} (hreset : s.stc.resetHeld = false)
    (hears : s.hears = true) (hpos : s.liu.pos.before slot 400 = true) (hheard : s.heardSlot slot = true)
    (hself : s.isSelf slot = false) (hjudge : judge slot bits false = .good f) :
    ∃ t, exec (.frameEnd slot bits) s = .next t ∧ t.ttu = (dispatchGood f (moveTo slot 400 s)).ttu
      ∧ Posts (dispatchGood f (moveTo slot 400 s)) t := by
  have honline := s.hears_iff.1 hears
  have hdispatch := ((ownWork_moveTo slot 400 s).toSound.trans (sound_dispatchGood f _)).online honline
  have hstray := inner_strayPoint (dispatchGood f (moveTo slot 400 s))
  have hend := hstray.trans (inner_afterEvent _)
  have hposts := (steady_strayPoint _).toPosts.trans (steady_afterEvent (hstray.online hdispatch)).toPosts
  have hevent : event (takeFrameEnd slot bits) s
      = afterEvent (strayPoint (dispatchGood f (moveTo slot 400 s))) := by
    rw [event, hreset, takeFrameEnd_other_good hears hpos hheard hself hjudge]
    rfl
  exact ⟨_, congrArg Host.Outcome.next hevent, hend.ttu hdispatch, hposts⟩

/-! ## A header compared, and a header adopted -/

/-- The station `t` at the end of a frame whose header was compared in `u` and not adopted: the table with contamination,
and the agreement state as the comparison leaves it. -/
structure HeaderCompared (f : Frame) (s u t : State) : Prop where
  header : HeaderTaken f s u
  entries : s.ttu.valid = true → ∀ k, t.entry k = contaminatedEntry f s k
  mismatch : t.ttu.mismatch = (compareHeader f u).ttu.mismatch
  stale : t.ttu.stale = (compareHeader f u).ttu.stale
  pending : t.ttu.pending = (compareHeader f u).ttu.pending
  posts : Posts (compareHeader f u) t

/-- A frame without messages that is not adopted. -/
theorem dispatchGood_compared {f : Frame} {s t : State} (honline : s.stc.station ≠ .offline)
    (hself : s.isSelf f.sender = false) (hmsgs : f.msgs = []) (hkeeps : s.ttu.pending = false ∨ f.stale = true)
    (httu : t.ttu = (dispatchGood f (moveTo f.sender 400 s)).ttu)
    (hposts : Posts (dispatchGood f (moveTo f.sender 400 s)) t) :
    HeaderCompared f s (takeHeader f (moveTo f.sender 400 s)) t := by
  have hheader := headerTaken honline hself
  have hmove := ownWork_moveTo f.sender 400 s
  have hother := (hmove.isSelf f.sender).trans hself
  have hadopts : ((moveTo f.sender 400 s).ttu.pending && !f.stale) = false := by
    rw [hmove.ttu honline]
    rcases hkeeps with h | h <;> simp [h]
  rw [dispatchGood_of_quiet hother hmsgs, hadopts] at httu hposts
  generalize takeHeader f (moveTo f.sender 400 s) = u at hheader httu hposts
  simp only [Bool.false_eq_true, if_false] at httu hposts
  obtain ⟨htable, hvalid⟩ := compareHeader_table_valid f u
  rw [hheader.ttu] at htable hvalid
  have hnoted : ∀ k, (noteFrame f (compareHeader f u)).entry k = s.entry k := fun k =>
    congrArg (Table.get · k) htable
  refine ⟨hheader, fun hs k => ?_, ?_, ?_, ?_, ?_⟩
  · have hentry := contaminate_entry (f := f) (s := noteFrame f (compareHeader f u)) (hvalid.trans hs) k
    unfold contaminatedEntry at hentry ⊢
    rw [hnoted] at hentry
    rw [← hentry]
    unfold State.entry
    rw [httu]
  · rw [httu, contaminate_ttu, noteFrame_ttu_mismatch]
  · rw [httu, contaminate_ttu, noteFrame_ttu_stale]
  · rw [httu, contaminate_ttu, noteFrame_ttu_pending]
  · exact ((steady_noteFrame f _).toPosts.trans (steady_contaminate _ _ _).toPosts).trans hposts

/-- The station at the end of a frame whose header was adopted. -/
structure HeaderAdopted (f : Frame) (s t : State) : Prop where
  entries : ∀ k, t.entry k = adoptedEntry f.snapshot
    (s.mbu.members.set f.sender ((s.mbu.members.get f.sender).heard f)) k
  valid : t.ttu.valid = true
  mismatch : t.ttu.mismatch = false
  stale : t.ttu.stale = false
  pending : t.ttu.pending = false

/-- A frame without messages that is adopted. -/
theorem dispatchGood_adopted {f : Frame} {s t : State} (honline : s.stc.station ≠ .offline)
    (hself : s.isSelf f.sender = false) (hmsgs : f.msgs = []) (hpending : s.ttu.pending = true)
    (hstale : f.stale = false) (httu : t.ttu = (dispatchGood f (moveTo f.sender 400 s)).ttu) :
    HeaderAdopted f s t := by
  have hheader := headerTaken honline hself
  have hmove := ownWork_moveTo f.sender 400 s
  have hother := (hmove.isSelf f.sender).trans hself
  have hadopts : ((moveTo f.sender 400 s).ttu.pending && !f.stale) = true := by
    rw [hmove.ttu honline, hpending, hstale]
    rfl
  rw [dispatchGood_of_quiet hother hmsgs, hadopts] at httu
  generalize takeHeader f (moveTo f.sender 400 s) = u at hheader httu
  simp only [if_true] at httu
  have hnote := (linkWork_compareHeader f u).trans (linkWork_noteFrame f _)
  generalize noteFrame f (compareHeader f u) = v at httu hnote
  have hmembers : v.mbu.members = s.mbu.members.set f.sender ((s.mbu.members.get f.sender).heard f) := by
    rw [hnote.mbu, hheader.members]
  have hadopted := adopt_ttu f.snapshot (hnote.online hheader.online)
  have hrest : t.ttu = { (adoptTable f.snapshot v).ttu with table := t.ttu.table } := by
    rw [httu, contaminate_ttu, hadopted]
  refine ⟨fun k => ?_, congrArg Ttu.valid hrest, congrArg Ttu.mismatch hrest, congrArg Ttu.stale hrest,
    congrArg Ttu.pending hrest⟩
  have hsender : v.mbu.members.get f.sender = (s.mbu.members.get f.sender).heard f := by
    rw [hmembers, Table.get_set_self]
  have hentry := contaminate_entry (f := f) (s := adopt f.snapshot v) (by rw [hadopted]; rfl) k
  have hsame : contaminatedEntry f (adopt f.snapshot v) k = contaminatedEntry f (adoptTable f.snapshot v) k := by
    unfold contaminatedEntry State.entry
    rw [hadopted]
  rw [hsame, contaminatedEntry_adopted ⟨_, hsender⟩, hmembers] at hentry
  rw [← hentry]
  unfold State.entry
  rw [httu]

theorem HeaderCompared.entry {f : Frame} {s u t : State} (h : HeaderCompared f s u t) : u.entry = s.entry := by
  funext k
  unfold State.entry
  rw [h.header.ttu]

theorem HeaderCompared.compares {f : Frame} {s u t : State} (h : HeaderCompared f s u t) (hvalid : s.ttu.valid = true)
    (hstale : s.ttu.stale = false) (hheader : f.stale = false) : Compares f u :=
  ⟨h.header.ttu ▸ hvalid, h.header.ttu ▸ hstale, hheader, h.header.other⟩

/-- The agreement state of `t` is that of the station that the comparison leaves. -/
theorem HeaderCompared.agreement {f : Frame} {s u t v : State} (h : HeaderCompared f s u t)
    (hv : compareHeader f u = v) : t.ttu.mismatch = v.ttu.mismatch ∧ t.ttu.stale = v.ttu.stale
      ∧ t.ttu.pending = v.ttu.pending := hv ▸ ⟨h.mismatch, h.stale, h.pending⟩

/-- A second mismatch in a row makes the station stale, and posts it. -/
theorem HeaderCompared.becomes_stale {f : Frame} {s u t : State} (h : HeaderCompared f s u t)
    (hv : compareHeader f u = becomeStale u) (horders : s.orp.orders = []) : t.ttu.mismatch = false
      ∧ t.ttu.stale = true ∧ t.ttu.pending = true ∧ t.orp.alerts.staleEntered = true := by
  obtain ⟨hmismatch, hstale, hpending⟩ := h.agreement hv
  have hposts : Posts (becomeStale u) t := hv ▸ h.posts
  exact ⟨hmismatch, hstale, hpending, hposts.stale (h.header.posts.orders horders) rfl⟩

/-- Settles O24: a header is compared or adopted; nothing but contamination follows it on the table. -/
theorem goodFrameMovesTrunkTable : Obligations.GoodFrameMovesTrunkTable := by
  unfold Obligations.GoodFrameMovesTrunkTable
  intro slot bits f s hreset hears hpos hheard hself hjudge hmsgs
  obtain ⟨t, hexec, httu, hposts⟩ := exec_other_good hreset hears hpos hheard hself hjudge
  have honline := s.hears_iff.1 hears
  obtain rfl := judge_good_sender hjudge
  have hcompared := fun hkeeps => dispatchGood_compared honline hself hmsgs hkeeps httu hposts
  refine ⟨fun hvalid hstale hpending hheader => ?_, fun hvalid hheader => ?_, fun hpending hheader => ?_⟩
  · have hend := hcompared (.inl hpending)
    generalize takeHeader f (moveTo f.sender 400 s) = u at hend
    have hcompares := hend.compares hvalid hstale hheader
    have hu := hend.header.ttu
    have hentries := hend.entries hvalid
    refine ⟨fun hagree => ?_, fun hslot hdiffer hmismatch => ?_, fun hslot hdiffer hmismatch horders => ?_⟩
    · obtain ⟨hm, hs, hp⟩ := hend.agreement (compareHeader_of_agree hcompares (hend.entry ▸ hagree))
      exact ⟨t, hexec, hentries, hm, hs.trans hcompares.stale, hp.trans (hu ▸ hpending)⟩
    · have hcounts : compareHeader f u = { u with ttu.mismatch := true } :=
        (compareHeader_of_differ hcompares hslot (hend.entry ▸ hdiffer)).trans (if_neg (by rw [hu, hmismatch]; decide))
      obtain ⟨hm, hs, hp⟩ := hend.agreement hcounts
      exact ⟨t, hexec, hentries, hm, hs.trans hcompares.stale, hp.trans (hu ▸ hpending)⟩
    · have hbecomes : compareHeader f u = becomeStale u :=
        (compareHeader_of_differ hcompares hslot (hend.entry ▸ hdiffer)).trans (if_pos (hu ▸ hmismatch))
      exact ⟨t, hexec, hentries, hend.becomes_stale hbecomes horders⟩
  · have hend := hcompared (.inr hheader)
    obtain ⟨hm, hs, hp⟩ := hend.agreement (compareHeader_of_stale hheader _)
    rw [hend.header.ttu] at hm hs hp
    exact ⟨t, hexec, hend.entries hvalid, hm, hs, hp⟩
  · have hend := dispatchGood_adopted honline hself hmsgs hpending hheader httu
    exact ⟨t, hexec, hend.entries, hend.valid, hend.mismatch, hend.stale, hend.pending⟩

end Sys2Proof.Machine

/-! PROOFS. The membership table at the frame ends of other stations' slots and at a declared absence (04 R61 to R63,
R68, R69): the header, the empty slot or the absence writes one entry, and nothing that follows it in the event writes
another. -/

namespace Sys2Proof.Machine

/-! ## The frame end of another station's slot (R31 to R33) -/

/-- The frame end of another station's slot can be taken: RESET is not held, the station is on the link, and the
position stands in the slot or before it, bit 0 of which was heard. -/
structure AtOtherEnd (slot : Slot) (s : State) : Prop where
  reset : s.stc.resetHeld = false
  hears : s.hears = true
  pos : s.liu.pos.before slot 400 = true
  heard : s.heardSlot slot = true
  other : s.isSelf slot = false

/-- The command moves the position, and is then the frame end of a slot that is not the station's own. -/
theorem AtOtherEnd.exec_frameEnd {slot : Slot} {s : State} (h : AtOtherEnd slot s) (bits : FrameBits) :
    exec (.frameEnd slot bits) s = .next (afterEvent (otherFrameEnd slot bits (moveTo slot 400 s))) := by
  have hmove := (ownWork_moveTo slot 400 s).toSound
  have hmoved : (moveTo slot 400 s).hears = true := hmove.hears h.hears
  have hother : ¬(moveTo slot 400 s).ownSlotIs slot = true := by
    rw [State.ownSlotIs, hmove.isSelf, h.other]
    decide
  have htake : takeFrameEnd slot bits s = otherFrameEnd slot bits (moveTo slot 400 s) := by
    unfold takeFrameEnd
    dsimp only
    rw [if_pos h.pos, hmoved, h.heard, Bool.and_self, if_pos rfl, if_neg hother]
  have hevent : event (takeFrameEnd slot bits) s = afterEvent (otherFrameEnd slot bits (moveTo slot 400 s)) := by
    rw [event, h.reset, htake]
    rfl
  exact congrArg Host.Outcome.next hevent

theorem otherFrameEnd_of_bad {slot : Slot} {bits : FrameBits} (h : judge slot bits false = .bad) (s : State) :
    otherFrameEnd slot bits s = frameError s := by
  unfold otherFrameEnd
  rw [h]
  exact if_pos rfl

theorem otherFrameEnd_of_empty {slot : Slot} {bits : FrameBits} (h : judge slot bits false = .empty) (s : State) :
    otherFrameEnd slot bits s = strayPoint (emptySlot slot s) := by
  unfold otherFrameEnd
  rw [h]
  exact if_neg (by decide)

theorem otherFrameEnd_of_good {slot : Slot} {bits : FrameBits} {f : Frame} (h : judge slot bits false = .good f)
    (s : State) : otherFrameEnd slot bits s = strayPoint (dispatchGood f s) := by
  unfold otherFrameEnd
  rw [h]
  exact if_neg (by simp)

/-- What follows the work of a frame end or of an absence: the stray-contact rule and the end of the event. -/
theorem inner_strayPoint_afterEvent (s : State) : Inner s (afterEvent (strayPoint s)) :=
  (inner_strayPoint s).trans (inner_afterEvent _)

/-! ## A good frame (R61, R35) -/

/-- A good header writes its sender's entry; PEER-JOINED and the return of its routes' endpoints write none. -/
theorem takeHeader_members (f : Frame) (s : State) :
    (takeHeader f s).mbu.members = s.mbu.members.set f.sender ((s.mbu.members.get f.sender).heard f) :=
  congrArg Mbu.members (steady_takeHeader f s).mbu

theorem takeHeader_pos (f : Frame) (s : State) : (takeHeader f s).liu.pos = s.liu.pos := (steady_takeHeader f s).pos

/-- After the header nothing of a good frame reaches the membership table or the position: not the adoption, and not the
messages. -/
theorem linkWork_dispatchGood (f : Frame) (s : State) : LinkWork (takeHeader f s) (dispatchGood f s) :=
  linkWork_afterHeader s.ttu.pending f _

/-- Settles O22: the header writes its sender's entry, and the rest of the frame end leaves the table and the
position. -/
theorem goodFrameUpdatesMember : Obligations.GoodFrameUpdatesMember := by
  unfold Obligations.GoodFrameUpdatesMember
  intro slot bits f s hreset hears hpos hheard hself hjudge
  have hend : AtOtherEnd slot s := ⟨hreset, hears, hpos, hheard, hself⟩
  have hexec := hend.exec_frameEnd bits
  rw [otherFrameEnd_of_good hjudge] at hexec
  have hmove := ownWork_moveTo slot 400 s
  have hrest := (linkWork_dispatchGood f (moveTo slot 400 s)).trans (inner_strayPoint_afterEvent _).link
  refine ⟨_, hexec, ?_, ?_⟩
  · rw [hrest.mbu, takeHeader_members, hmove.mbu]
  · rw [hrest.pos, takeHeader_pos, moveTo_pos, hheard]

/-! ## Empty slots and bad frames (R62, R68, R69) -/

/-- The first and the second miss of a PRESENT station are counted, and that is all. -/
theorem emptySlot_of_counted {a : Addr} {s : State} (hpresent : (s.mbu.members.get a).state = .present)
    (hmissed : (s.mbu.members.get a).missed < 2) : emptySlot a s =
      setMember a { s.mbu.members.get a with missed := (s.mbu.members.get a).missed + 1 } s := by
  unfold emptySlot
  dsimp only
  rw [hpresent]
  exact if_neg (Nat.not_le.2 hmissed)

/-- A bad frame at a station with a valid table that is not stale: the listening cycle is spoilt, and the stale
condition entered. -/
theorem frameError_of_agreed {s : State} (hvalid : s.ttu.valid = true) (hstale : s.ttu.stale = false) :
    frameError s = postStaleEntered { s with
      stc.cycleError := true, ttu.stale := true, ttu.pending := true, ttu.mismatch := false } := by
  unfold frameError linkError
  exact if_pos (by rw [hvalid, hstale]; rfl)

/-- A link error at a frame end leaves a station at rest, or not, as it was. -/
theorem calm_frameError (s : State) : (frameError s).calm = s.calm := by
  rw [frameError_eq]
  exact State.calm_congr (s := s) rfl rfl rfl rfl rfl rfl rfl rfl

/-- Settles O23: an empty slot is one write of its station's entry; a bad frame is the entry to the stale condition, on
which rest does not depend. -/
theorem emptyAndBadSlots : Obligations.EmptyAndBadSlots := by
  unfold Obligations.EmptyAndBadSlots
  intro slot bits s hreset hears hpos hheard hself
  have hend : AtOtherEnd slot s := ⟨hreset, hears, hpos, hheard, hself⟩
  have hexec := hend.exec_frameEnd bits
  refine ⟨fun hjudge hpresent hmissed => ?_, fun hjudge hcalm hown hvalid hstale => ?_⟩
  · have honline := s.hears_iff.1 hears
    have hmove := ownWork_moveTo slot 400 s
    rw [otherFrameEnd_of_empty hjudge, emptySlot_of_counted (hmove.mbu ▸ hpresent) (hmove.mbu ▸ hmissed),
      hmove.mbu] at hexec
    have hrest := inner_strayPoint_afterEvent (setMember slot
      { s.mbu.members.get slot with missed := (s.mbu.members.get slot).missed + 1 } (moveTo slot 400 s))
    refine ⟨_, hexec, ?_, (hrest.ttu (hmove.online honline)).trans (hmove.ttu honline)⟩
    rw [hrest.mbu, ← hmove.mbu]
    rfl
  · have hmoved : State.calm { s with liu.pos := .at slot 400 true } = true := State.calm_of_link hcalm rfl
    have hentered := frameError_of_agreed (s := { s with liu.pos := .at slot 400 true }) hvalid hstale
    rw [otherFrameEnd_of_bad hjudge, moveTo_of hown, hheard, afterEvent_calm ((calm_frameError _).trans hmoved),
      hentered] at hexec
    exact hexec

/-! ## A declared absence (R63, R53) -/

/-- The station `a` with its entry ABSENT, the absence posted, and its trunks draining: what the absence does before the
jobs and the routes take it. -/
def absenceNoted (a : Addr) (s : State) : State :=
  drainOwner a (postPeerAbsent a (setMember a { s.mbu.members.get a with state := .absent, missed := 3 } s))

/-- The jobs and the routes take an absence of another station within their own blocks. -/
theorem jobWork_declareAbsent {a : Addr} {s : State} (hself : s.isSelf a = false) :
    JobWork (absenceNoted a s) (declareAbsent a s) := by
  have hnoted : (removeOrigin a (absenceNoted a s)).isSelf a = false :=
    (((jobWork_removeOrigin a _).inner.toSound.isSelf a).trans ((linkWork_drainOwner a _).toSound.isSelf a)).trans hself
  have hdeclare : declareAbsent a s
      = exchange (allTags.foldl (fun s tag => routeAbsence a tag s) (removeOrigin a (absenceNoted a s))) := by
    have hset : ¬(setMember a { s.mbu.members.get a with state := .absent, missed := 3 } s).isSelf a = true :=
      ne_true_of_eq_false hself
    unfold declareAbsent
    dsimp only
    rw [if_neg hset]
    exact if_neg (ne_true_of_eq_false hnoted)
  rw [hdeclare]
  exact ((jobWork_removeOrigin a _).trans (RteWork.foldl (fun s tag => rteWork_routeAbsence a tag s) _ _).job).trans
    (jobWork_exchange _)

theorem absenceNoted_members (a : Addr) (s : State) : (absenceNoted a s).mbu.members
    = s.mbu.members.set a { s.mbu.members.get a with state := .absent, missed := 3 } :=
  congrArg Mbu.members (linkWork_drainOwner a _).mbu

/-- Every trunk of the station is DRAINING, and no other entry changes (R53). -/
theorem drainOwner_entry (a : Addr) {s : State} (hvalid : s.ttu.valid = true) (k : Trunk) :
    (drainOwner a s).entry k = if (s.entry k).ownedBy a then .draining a else s.entry k := by
  unfold drainOwner
  rw [if_pos hvalid]
  exact Table.get_mapIdx _ _ _

theorem absenceNoted_entry (a : Addr) {s : State} (hvalid : s.ttu.valid = true) (k : Trunk) :
    (absenceNoted a s).entry k = if (s.entry k).ownedBy a then .draining a else s.entry k :=
  drainOwner_entry a (s := postPeerAbsent a (setMember a _ s)) hvalid k

/-- The command of an absence of a PRESENT station. -/
theorem exec_absence {a : Addr} {s : State} (hreset : s.stc.resetHeld = false) (hears : s.hears = true)
    (hpresent : (s.mbu.members.get a).state = .present) :
    exec (.absence a) s = .next (afterEvent (strayPoint (declareAbsent a s))) := by
  have hevent : event (takeAbsence a) s = afterEvent (strayPoint (declareAbsent a s)) := by
    rw [event, hreset, takeAbsence, hears, hpresent]
    rfl
  exact congrArg Host.Outcome.next hevent

/-- Settles O26: the absence is noted in both tables; the jobs, the routes and the rest of the event leave them so. -/
theorem absenceDrainsTrunks : Obligations.AbsenceDrainsTrunks := by
  unfold Obligations.AbsenceDrainsTrunks
  intro a s hreset hears hself hpresent hvalid
  have honline := (sound_declareAbsent a s).online (s.hears_iff.1 hears)
  have hdeclare := jobWork_declareAbsent hself
  have hrest := inner_strayPoint_afterEvent (declareAbsent a s)
  refine ⟨_, exec_absence hreset hears hpresent, ?_, fun k => ?_⟩
  · rw [hrest.mbu, hdeclare.mbu, absenceNoted_members]
  · rw [← absenceNoted_entry a hvalid, State.entry, hrest.ttu honline, hdeclare.ttu]
    rfl

end Sys2Proof.Machine

/-! PROOFS. The acceptance of a ROUTE-MAKE and the planning step (05 R81, R83 to R87): an order that passes every check
enters its entry; in ONLINE a route of one leg takes its trunk and makes its CLAIM, or ends REFUSED. -/

namespace Sys2Proof.Table

theorem modify_modify {n : Nat} {α : Type} (t : Table n α) (i : Fin n) (f g : α → α) :
    (t.modify i f).modify i g = t.modify i fun x => g (f x) := by
  refine ext_get fun j => ?_
  rw [get_modify, get_modify, if_pos rfl, get_modify, get_modify]
  split <;> rfl

end Sys2Proof.Table

namespace Sys2Proof.Machine

/-! ## Two changes of one route entry -/

theorem modRoute_modRoute (tag : Tag) (f g : Route → Route) (s : State) :
    modRoute tag g (modRoute tag f s) = modRoute tag (fun r => g (f r)) s :=
  congrArg (fun routes => { s with rte.routes := routes }) (Table.modify_modify s.rte.routes tag f g)

theorem modRoute_route_self (tag : Tag) (f : Route → Route) (s : State) :
    (modRoute tag f s).route tag = f (s.route tag) := by
  rw [modRoute_route, if_pos rfl]

theorem modRoute_route_ne {tag tag' : Tag} (h : tag' ≠ tag) (f : Route → Route) (s : State) :
    (modRoute tag f s).route tag' = s.route tag' := by
  rw [modRoute_route, if_neg (Ne.symm h)]

/-- A change of one route entry counts by what it makes of the entry as it stands. -/
theorem modRoute_eq_of_entry {tag : Tag} {f g : Route → Route} {s : State} (h : f (s.route tag) = g (s.route tag)) :
    modRoute tag f s = modRoute tag g s :=
  congrArg (fun r => { s with rte.routes := s.rte.routes.set tag r }) h

/-! ## An order that leaves the station at rest (R176) -/

theorem calmOrders_iff (s : State) :
    s.calmOrders = true ↔ s.calm = true ∧ s.orp.orders = [] ∧ s.placeFree = true := by
  simp only [State.calmOrders, Bool.and_eq_true, List.isEmpty_iff, and_assoc]

/-- With a report place free no route of a station at rest has a report ready. -/
theorem headReady_of_calmOrders {s : State} (h : s.calmOrders = true) (tag : Tag) : (s.route tag).headReady = none := by
  obtain ⟨hcalm, -, hplace⟩ := (calmOrders_iff s).1 h
  obtain ⟨-, -, hready, -⟩ := s.calm_spec.1 hcalm
  exact hready.resolve_left (ne_false_of_eq_true hplace) tag

/-- An order other than RESTART, received whole, is its effect and the pins when that leaves the station at rest. -/
theorem event_receiveOrder {s t : State} {code : Byte} {p : List Byte} (straps : Fin 32) (h : s.calmOrders = true)
    (hp : p.length ≤ Config.maxPayload) (hc : code ≠ restartCode) (ht : takeOrder ⟨code, p⟩ s = t)
    (hrest : t.calm = true) : event (receiveOrder code p straps) s = updatePins t := by
  obtain ⟨hcalm, horders, -⟩ := (calmOrders_iff s).1 h
  have hend := afterEvent_order h (o := ⟨code, p⟩) (ht ▸ hrest)
  rw [event, resetHeld_of_calm hcalm, if_neg (by decide), receiveOrder_of_empty straps horders hp hc, hend, ht]

/-- One route entry, the queue, the messages held pending and the reports change, and the entry is left without a report
ready and without a timer: the station stays at rest. -/
theorem State.calm_of_entry {s t : State} {tag : Tag} (h : s.calmOrders = true)
    (ht : t = { s with liu := t.liu, rte.routes := t.rte.routes, rte.held := t.rte.held, orp.reports := t.orp.reports })
    (hother : ∀ tag', tag' ≠ tag → t.route tag' = s.route tag') (hready : (t.route tag).headReady = none)
    (htimer : (t.route tag).timer = none) : t.calm = true := by
  obtain ⟨hcalm, horders, -⟩ := (calmOrders_iff s).1 h
  obtain ⟨hreset, hwork, -, -, hexchange, htimers, hsweep⟩ := s.calm_spec.1 hcalm
  refine t.calm_spec.2 ⟨by rw [ht]; exact hreset, by rw [ht]; exact hwork, Or.inr fun tag' => ?_,
    Or.inl (by rw [ht]; exact horders), by rw [ht]; exact hexchange, fun tag' => ?_, by rw [ht]; exact hsweep⟩
  · by_cases htag : tag' = tag
    · exact htag ▸ hready
    · exact hother tag' htag ▸ headReady_of_calmOrders h tag'
  · by_cases htag : tag' = tag
    · exact Or.inl (htag ▸ htimer)
    · exact hother tag' htag ▸ htimers tag'

/-! ## Acceptance (R83, R85) -/

/-- The station with the entry of an accepted ROUTE-MAKE, its legs unplanned (R85). -/
def enterMake (o : MakeOrder) (s : State) : State := modRoute o.tag (Route.accepted o) s

theorem enterMake_route_self (o : MakeOrder) (s : State) :
    (enterMake o s).route o.tag = Route.accepted o (s.route o.tag) := modRoute_route_self _ _ _

theorem enterMake_route_ne (o : MakeOrder) {tag : Tag} (h : tag ≠ o.tag) (s : State) :
    (enterMake o s).route tag = s.route tag := modRoute_route_ne h _ _

/-- Every endpoint lies on this station, or on a PRESENT one that is not in FAULT (R83). -/
def State.reaches (s : State) (o : MakeOrder) : Prop :=
  ∀ l ∈ o.legs, ∀ e ∈ l.endpoints, s.isSelf e.station = true
    ∨ (s.mbu.members.get e.station).state = .present ∧ (s.mbu.members.get e.station).fault = false

/-- The peers of an order that reaches its endpoints are PRESENT and not in FAULT. -/
theorem State.reaches.peer {s : State} {o : MakeOrder} (h : s.reaches o) {m : Member}
    (hm : m ∈ (o.legs.flatMap MakeLeg.endpoints).filterMap s.peerOf) : m.state = .present ∧ m.fault = false := by
  obtain ⟨e, he, hpeer⟩ := List.mem_filterMap.1 hm
  obtain ⟨l, hl, hle⟩ := List.mem_flatMap.1 he
  unfold State.peerOf at hpeer
  split at hpeer
  · cases hpeer
  · cases hpeer
    exact (h l hl e hle).resolve_left ‹_›

/-- Checks 2 to 6 of R83 pass. -/
theorem makeRefusal_eq_none {s : State} {o : MakeOrder}
    (hstation : s.stc.station = .joining ∨ s.stc.station = .online) (hidle : (s.route o.tag).state = .idle)
    (hreach : s.reaches o) : s.makeRefusal o = none := by
  have hlink : s.offLink = false ∧ (s.stc.station == .fault) = false := by
    unfold State.offLink State.driving
    rcases hstation with h | h <;> rw [h] <;> exact ⟨rfl, rfl⟩
  obtain ⟨hdriving, hfault⟩ := hlink
  have htag : ((s.route o.tag).state != .idle) = false := by rw [hidle]; rfl
  have hpresent : ((o.legs.flatMap MakeLeg.endpoints).filterMap s.peerOf).any (fun m => m.state != .present) = false :=
    List.any_eq_false.2 fun m hm => by simp [(hreach.peer hm).1]
  have hsound : ((o.legs.flatMap MakeLeg.endpoints).filterMap s.peerOf).any (fun m => m.fault) = false :=
    List.any_eq_false.2 fun m hm => by simp [(hreach.peer hm).2]
  simp only [State.makeRefusal, hdriving, hfault, htag, hpresent, hsound, Bool.false_eq_true, if_false]

theorem orderRouteMake_of_accepted {p : List Byte} {o : MakeOrder} {s : State} (hparse : parseRouteMake p = some o)
    (hchecks : s.makeRefusal o = none) : orderRouteMake p s = acceptMake o s := by
  unfold orderRouteMake
  rw [hparse]
  dsimp only
  rw [hchecks]

theorem acceptMake_of_joining {s : State} (o : MakeOrder) (h : s.stc.station = .joining) :
    acceptMake o s = enterMake o s := by
  have hwaits : ¬((enterMake o s).stc.station == .online && !(enterMake o s).ttu.stale) = true := by
    rw [show (enterMake o s).stc.station = .joining from h]
    exact Bool.false_ne_true
  exact if_neg hwaits

theorem acceptMake_of_online {s : State} (o : MakeOrder) (h : s.stc.station = .online) (hstale : s.ttu.stale = false) :
    acceptMake o s = planStep o.tag (enterMake o s) := by
  have hplans : ((enterMake o s).stc.station == .online && !(enterMake o s).ttu.stale) = true := by
    rw [show (enterMake o s).stc.station = .online from h, show (enterMake o s).ttu.stale = false from hstale]
    rfl
  exact if_pos hplans

/-- A ROUTE-MAKE that passes every check, received whole by a station at rest, is its acceptance and the pins when that
leaves the station at rest. -/
theorem exec_routeMake {p : List Byte} {o : MakeOrder} {s t : State} (h : s.calmOrders = true)
    (hp : p.length ≤ Config.maxPayload) (hparse : parseRouteMake p = some o) (hchecks : s.makeRefusal o = none)
    (ht : acceptMake o s = t) (hrest : t.calm = true) : exec (.routeMake p) s = .next (updatePins t) := by
  have htake : takeOrder ⟨0x10, p⟩ s = t := (orderRouteMake_of_accepted hparse hchecks).trans ht
  exact congrArg Host.Outcome.next (event_receiveOrder s.stc.strap h hp (by decide) htake hrest)

/-! ## Trunks for a leg (R87) -/

/-- The leg with its trunk, its CLAIM to be made. -/
def Leg.planned (k : Trunk) (l : Leg) : Leg := { l with assigned := some k, claim := .queued }

theorem claimStands_iff (s : State) (k : Trunk) : s.claimStands k = true ↔
    ∃ tag, ∃ g ∈ (s.route tag).legs, g.assigned = some k ∧ (g.claim = .queued ∨ g.claim = .sent) := by
  simp only [State.claimStands, List.any_eq_true, Bool.and_eq_true, Bool.or_eq_true, beq_iff_eq]
  constructor
  · rintro ⟨r, hr, hleg⟩
    obtain ⟨tag, rfl⟩ := Table.exists_get hr
    exact ⟨tag, hleg⟩
  · rintro ⟨tag, hleg⟩
    exact ⟨_, Table.get_mem _ tag, hleg⟩

/-- The legs of the entry just made name no trunk, so only the other entries count. -/
theorem claimStands_enterMake (o : MakeOrder) (s : State) (k : Trunk) : (enterMake o s).claimStands k = true ↔
    ∃ tag, tag ≠ o.tag ∧ ∃ g ∈ (s.route tag).legs, g.assigned = some k ∧ (g.claim = .queued ∨ g.claim = .sent) := by
  rw [claimStands_iff]
  refine exists_congr fun tag => ?_
  by_cases htag : tag = o.tag
  · subst htag
    rw [enterMake_route_self]
    simp [Route.accepted, MakeLeg.accepted]
  · simp only [enterMake_route_ne o htag, ne_eq, htag, not_false_eq_true, true_and]

/-- The lowest trunk with the AUTO conditions, all lower ones being without them. -/
theorem autoTrunk_eq_some {s : State} {avoid lost : TrunkSet} {taken : List Trunk} {k : Trunk}
    (hk : (s.entry k == .free && !hasTrunk avoid k && !hasTrunk lost k && !taken.contains k && !s.claimStands k) = true)
    (hbelow : ∀ k', k' < k → s.entry k' ≠ .free ∨ hasTrunk avoid k' = true ∨ s.claimStands k' = true) :
    s.autoTrunk avoid lost taken = some k := by
  unfold State.autoTrunk allTrunks
  refine List.find?_eq_some_iff_getElem.2 ⟨hk, k.val, by simp, by simp, fun j hj => ?_⟩
  rw [List.getElem_finRange]
  rcases hbelow ⟨j, by omega⟩ hj with h | h | h <;> simp [h]

theorem assignLegs_fixed {s : State} {avoid : TrunkSet} {l : Leg} {k : Trunk} (taken : List Trunk)
    (hreq : l.requested = some k) (hfree : s.entry k = .free) (havoid : hasTrunk avoid k = false) :
    assignLegs s avoid taken [l] = some [l.planned k] := by
  simp [assignLegs, hreq, hfree, havoid, Leg.planned]

theorem assignLegs_fixed_none {s : State} {avoid : TrunkSet} {l : Leg} {k : Trunk} (taken : List Trunk)
    (hreq : l.requested = some k) (htaken : s.entry k ≠ .free ∨ hasTrunk avoid k = true) :
    assignLegs s avoid taken [l] = none := by
  rcases htaken with h | h <;> simp [assignLegs, hreq, h]

theorem assignLegs_auto {s : State} {avoid : TrunkSet} {l : Leg} {k : Trunk} {taken : List Trunk}
    (hreq : l.requested = none) (hauto : s.autoTrunk avoid l.lost taken = some k) :
    assignLegs s avoid taken [l] = some [l.planned k] := by
  simp [assignLegs, hreq, hauto, Leg.planned]

/-! ## The planning step of a route of one leg (R87) -/

theorem rteSend_of_place {s : State} (h : s.queueHasPlace = true) (owner : Option Tag) (m : LinkMsg) :
    rteSend owner m s = { s with liu.queue := s.liu.queue ++ [⟨m, false⟩] } := if_pos h

/-- The leg finds its trunk: the route is CLAIMING, and the CLAIM of leg 0 is made. -/
theorem planStep_of_assigned {tag : Tag} {s : State} {l : Leg} {k : Trunk}
    (hstate : (s.route tag).state = .planning) (hlegs : (s.route tag).legs = [l])
    (hassign : assignLegs s (s.route tag).avoid ([l].filterMap Leg.requested) [l] = some [l.planned k]) :
    planStep tag s = rteSend (some tag) (.claim k tag (s.route tag).gen 0)
      (modRoute tag (fun r => { r with legs := [l.planned k], state := .claiming }) s) := by
  unfold planStep
  dsimp only
  rw [hstate, if_pos (beq_self_eq_true _), hlegs, hassign]
  rfl

theorem planStep_of_no_trunk {tag : Tag} {s : State} {l : Leg} (hstate : (s.route tag).state = .planning)
    (hlegs : (s.route tag).legs = [l])
    (hassign : assignLegs s (s.route tag).avoid ([l].filterMap Leg.requested) [l] = none) :
    planStep tag s = refuseRoute tag .noTrunk s := by
  unfold planStep
  dsimp only
  rw [hstate, if_pos (beq_self_eq_true _), hlegs, hassign]

/-! ## A route of one order that ends REFUSED (R81, R119) -/

/-- The entry that a route leaves when its last answer is placed (R80, R81). -/
def Route.vacated (r : Route) : Route := { Route.idle with gen := r.gen }

/-- The report of a ROUTE-MAKE whose route ends REFUSED: over the entry ENDED, with its reason (R117, R118). -/
def refusalReport (tag : Tag) (reason : Reason) (r : Route) : RouteReport :=
  routeReport tag .make .refused reason { r with state := .ended, timer := none, reason := some reason }

/-- The entry ENDED, with its report ready. -/
def Route.refusedMake (tag : Tag) (reason : Reason) (r : Route) : Route :=
  { r with state := .ended, timer := none, reason := some reason, owed := [⟨.make, some (refusalReport tag reason r)⟩] }

/-- The ready report of the only route that has one is placed. -/
theorem placeNextReport_of_only {tag : Tag} {rep : RouteReport} {s : State} (hplace : s.placeFree = true)
    (hready : (s.route tag).headReady = some rep) (honly : ∀ tag', tag' ≠ tag → (s.route tag').headReady = none) :
    placeNextReport s = some (disownHeld tag (modRoute tag Route.popOwed (placeReport (.route rep) s))) := by
  have hfind : allTags.find? (fun tag => (s.route tag).headReady.isSome) = some tag := by
    have hsome : (allTags.find? fun tag => (s.route tag).headReady.isSome).isSome = true :=
      List.find?_isSome.2 ⟨tag, List.mem_finRange tag, by rw [hready]; rfl⟩
    obtain ⟨tag', htag'⟩ := Option.isSome_iff_exists.1 hsome
    have hfound := List.find?_some htag'
    by_cases htag : tag' = tag
    · rw [htag', htag]
    · rw [honly tag' htag] at hfound
      cases hfound
  unfold placeNextReport
  rw [if_pos hplace, hfind, Option.bind_some, hready, Option.map_some]

theorem placeReports_of_one {s t : State} (hnext : placeNextReport s = some t) (hlast : placeNextReport t = none) :
    placeReports s = t := by
  unfold placeReports Config.reportPlaces
  rw [placeReportsN, hnext]
  dsimp only
  rw [placeReportsN, hlast]

theorem disownHeld_eq (tag : Tag) (s : State) :
    disownHeld tag s = { s with rte.held := (disownHeld tag s).rte.held } := by
  unfold disownHeld
  split <;> rfl

theorem disownHeld_route (tag tag' : Tag) (s : State) : (disownHeld tag s).route tag' = s.route tag' := by
  rw [disownHeld_eq]
  rfl

/-- The route that ends REFUSED, before its report is placed. -/
theorem refuseRoute_of_make {tag : Tag} {reason : Reason} {s : State}
    (howed : (s.route tag).owed = [⟨.make, none⟩]) (hreason : (s.route tag).reason = none) :
    refuseRoute tag reason s = placeReports (modRoute tag (Route.refusedMake tag reason) s) := by
  unfold refuseRoute fixReports
  dsimp only
  rw [modRoute_modRoute, modRoute_route_self]
  refine congrArg placeReports (modRoute_eq_of_entry ?_)
  simp only [Route.withReason, hreason, howed, Option.getD_none, Option.getD_some, List.map_cons, List.map_nil]
  rfl

/-- With a place free, and no other report ready, the report is placed at once and the entry becomes IDLE. -/
theorem refuseRoute_placed {tag : Tag} {reason : Reason} {s : State} (hplace : s.placeFree = true)
    (howed : (s.route tag).owed = [⟨.make, none⟩]) (hreason : (s.route tag).reason = none)
    (honly : ∀ tag', tag' ≠ tag → (s.route tag').headReady = none) :
    refuseRoute tag reason s = disownHeld tag (modRoute tag Route.vacated
      (placeReport (.route (refusalReport tag reason (s.route tag))) s)) := by
  have hready : ((modRoute tag (Route.refusedMake tag reason) s).route tag).headReady
      = some (refusalReport tag reason (s.route tag)) := by
    rw [modRoute_route_self]
    rfl
  have hothers : ∀ tag', tag' ≠ tag →
      ((modRoute tag (Route.refusedMake tag reason) s).route tag').headReady = none := fun tag' h => by
    rw [modRoute_route_ne h]
    exact honly tag' h
  have hnext := placeNextReport_of_only (s := modRoute tag (Route.refusedMake tag reason) s) hplace hready hothers
  have hpop : modRoute tag Route.popOwed (placeReport (.route (refusalReport tag reason (s.route tag)))
      (modRoute tag (Route.refusedMake tag reason) s))
      = modRoute tag Route.vacated (placeReport (.route (refusalReport tag reason (s.route tag))) s) :=
    modRoute_modRoute tag (Route.refusedMake tag reason) Route.popOwed
      (placeReport (.route (refusalReport tag reason (s.route tag))) s)
  rw [hpop] at hnext
  rw [refuseRoute_of_make howed hreason]
  refine placeReports_of_one hnext ((placeNextReport_eq_none _).2 (Or.inr fun tag' => ?_))
  rw [disownHeld_route]
  by_cases htag : tag' = tag
  · rw [htag, modRoute_route_self]
    rfl
  · rw [modRoute_route_ne htag]
    exact honly tag' htag

/-! ## The accepted ROUTE-MAKE -/

/-- The entry waits in PLANNING: nothing follows at the end of the event. -/
theorem calm_enterMake {s : State} (h : s.calmOrders = true) (o : MakeOrder) : (enterMake o s).calm = true := by
  refine State.calm_of_entry (tag := o.tag) h rfl (fun tag htag => enterMake_route_ne o htag s) ?_ ?_ <;>
    rw [enterMake_route_self] <;> rfl

theorem enterMake_legs {o : MakeOrder} {l : MakeLeg} (hlegs : o.legs = [l]) (s : State) :
    ((enterMake o s).route o.tag).legs = [l.accepted] := by
  rw [enterMake_route_self]
  exact congrArg (List.map MakeLeg.accepted) hlegs

theorem enterMake_state (o : MakeOrder) (s : State) : ((enterMake o s).route o.tag).state = .planning := by
  rw [enterMake_route_self]
  rfl

theorem enterMake_avoid (o : MakeOrder) (s : State) : ((enterMake o s).route o.tag).avoid = o.avoid := by
  rw [enterMake_route_self]
  rfl

/-- A single AUTO leg takes the lowest FREE trunk that the avoid set leaves it and no CLAIM of another entry names. -/
theorem assignLegs_enterMake_auto {o : MakeOrder} {l : MakeLeg} {k : Trunk} {s : State} (hreq : l.requested = none)
    (hfree : s.entry k = .free) (havoid : hasTrunk o.avoid k = false)
    (hunnamed : (enterMake o s).claimStands k = false)
    (hbelow : ∀ k', k' < k → s.entry k' ≠ .free ∨ hasTrunk o.avoid k' = true ∨ (enterMake o s).claimStands k' = true) :
    assignLegs (enterMake o s) o.avoid ([l.accepted].filterMap Leg.requested) [l.accepted]
      = some [l.accepted.planned k] := by
  have hnone : l.accepted.requested = none := hreq
  have htaken : [l.accepted].filterMap Leg.requested = [] := by rw [List.filterMap_cons, hnone]; rfl
  have hlost : hasTrunk l.accepted.lost k = false := BitVec.getLsbD_zero
  have hstill : (enterMake o s).entry k = .free := hfree
  rw [htaken]
  refine assignLegs_auto hnone (autoTrunk_eq_some ?_ hbelow)
  rw [hstill, havoid, hlost, hunnamed]
  rfl

/-- In ONLINE the route of one leg that finds its trunk is CLAIMING, and its CLAIM joins the queue. -/
theorem acceptMake_of_assigned {o : MakeOrder} {l : MakeLeg} {k : Trunk} {s : State} (honline : s.stc.station = .online)
    (hstale : s.ttu.stale = false) (hlegs : o.legs = [l]) (hplace : s.queueHasPlace = true)
    (hassign : assignLegs (enterMake o s) o.avoid ([l.accepted].filterMap Leg.requested) [l.accepted]
      = some [l.accepted.planned k]) :
    acceptMake o s = { s with
      rte.routes := s.rte.routes.set o.tag (acceptedEntry o s .claiming fun l => l.accepted.planned k),
      liu.queue := s.liu.queue ++ [⟨.claim k o.tag ((s.route o.tag).gen + 1) 0, false⟩] } := by
  have hplan := planStep_of_assigned (enterMake_state o s) (enterMake_legs hlegs s)
    ((enterMake_avoid o s).symm ▸ hassign)
  have hentry : modRoute o.tag (fun r => { r with legs := [l.accepted.planned k], state := .claiming }) (enterMake o s)
      = modRoute o.tag (fun _ => acceptedEntry o s .claiming fun l => l.accepted.planned k) s := by
    rw [enterMake, modRoute_modRoute]
    refine modRoute_eq_of_entry ?_
    unfold acceptedEntry
    rw [hlegs]
    rfl
  rw [hentry, enterMake_route_self] at hplan
  exact ((acceptMake_of_online o honline hstale).trans hplan).trans (rteSend_of_place (s := modRoute _ _ s) hplace _ _)

/-- In ONLINE the route whose fixed trunk is not to be had ends REFUSED: its report is placed and its entry is IDLE. -/
theorem acceptMake_of_no_trunk {o : MakeOrder} {l : MakeLeg} {k : Trunk} {s : State} (h : s.calmOrders = true)
    (honline : s.stc.station = .online) (hstale : s.ttu.stale = false) (hlegs : o.legs = [l])
    (hreq : l.requested = some k) (htaken : s.entry k ≠ .free ∨ hasTrunk o.avoid k = true) :
    acceptMake o s = disownHeld o.tag (modRoute o.tag Route.vacated (placeReport
      (.route (refusalReport o.tag .noTrunk (Route.accepted o (s.route o.tag)))) (enterMake o s))) := by
  obtain ⟨-, -, hplace⟩ := (calmOrders_iff s).1 h
  have hself := enterMake_route_self o s
  have hassign : assignLegs (enterMake o s) o.avoid ([l.accepted].filterMap Leg.requested) [l.accepted] = none :=
    assignLegs_fixed_none _ hreq htaken
  have hplan := planStep_of_no_trunk (enterMake_state o s) (enterMake_legs hlegs s)
    ((enterMake_avoid o s).symm ▸ hassign)
  have hrefused : refuseRoute o.tag .noTrunk (enterMake o s) = _ :=
    refuseRoute_placed hplace (by rw [hself]; rfl) (by rw [hself]; rfl) fun tag htag => by
      rw [enterMake_route_ne o htag]
      exact headReady_of_calmOrders h tag
  rw [hself] at hrefused
  exact ((acceptMake_of_online o honline hstale).trans hplan).trans hrefused

/-- The refused route has left its entry, and the station is at rest. -/
theorem calm_refusedMake {s : State} (h : s.calmOrders = true) (o : MakeOrder) (r : Report) :
    (disownHeld o.tag (modRoute o.tag Route.vacated (placeReport r (enterMake o s)))).calm = true := by
  refine State.calm_of_entry (tag := o.tag) h (by rw [disownHeld_eq]; rfl) (fun tag htag => ?_) ?_ ?_ <;>
    rw [disownHeld_route]
  · rw [modRoute_route_ne htag]
    exact enterMake_route_ne o htag s
  · rw [modRoute_route_self]
    rfl
  · rw [modRoute_route_self]
    rfl

/-- Settles O54: the order is accepted in every case; JOINING leaves the entry as it is, and in ONLINE the planning step
finds the leg its trunk, fixed or AUTO, or ends the route. -/
theorem routeMakeAccepted : Obligations.RouteMakeAccepted := by
  unfold Obligations.RouteMakeAccepted
  intro p o s h hp hparse hidle hreach
  refine ⟨fun hjoining => ?_, fun l k honline hstale hlegs hplace hfree havoid htrunk => ?_,
    fun l k honline hstale hlegs hreq htaken => ?_⟩
  · have hchecks := makeRefusal_eq_none (Or.inl hjoining) hidle hreach
    exact exec_routeMake h hp hparse hchecks (acceptMake_of_joining o hjoining) (calm_enterMake h o)
  · have hchecks := makeRefusal_eq_none (Or.inr honline) hidle hreach
    have hassign : assignLegs (enterMake o s) o.avoid ([l.accepted].filterMap Leg.requested) [l.accepted]
        = some [l.accepted.planned k] := by
      rcases htrunk with hfixed | ⟨hauto, hunnamed, hbelow⟩
      · exact assignLegs_fixed _ hfixed hfree havoid
      · refine assignLegs_enterMake_auto hauto hfree havoid (Bool.eq_false_iff.2 fun hstands => ?_) fun k' hk' => ?_
        · obtain ⟨tag, htag, g, hg, hnames, hclaim⟩ := (claimStands_enterMake o s k).1 hstands
          obtain ⟨hqueued, hsent⟩ := hunnamed tag htag g hg hnames
          exact hclaim.elim hqueued hsent
        · exact (hbelow k' hk').imp_right (Or.imp_right (claimStands_enterMake o s k').2)
    refine exec_routeMake h hp hparse hchecks (acceptMake_of_assigned honline hstale hlegs hplace hassign) ?_
    refine State.calm_of_entry (tag := o.tag) h rfl (fun tag htag => Table.get_set_ne _ (Ne.symm htag) _) ?_ ?_
    · exact congrArg Route.headReady (Table.get_set_self _ _ _)
    · exact congrArg Route.timer (Table.get_set_self _ _ _)
  · have hchecks := makeRefusal_eq_none (Or.inr honline) hidle hreach
    have hentry : (modRoute o.tag Route.vacated (enterMake o s)).route o.tag
        = { Route.idle with gen := (s.route o.tag).gen + 1 } := by
      rw [modRoute_route_self, enterMake_route_self]
      rfl
    have hexec := exec_routeMake h hp hparse hchecks (acceptMake_of_no_trunk h honline hstale hlegs hreq htaken)
      (calm_refusedMake h o _)
    rw [disownHeld_eq] at hexec
    exact ⟨_, _, hexec, rfl, rfl, rfl, rfl, rfl, congrArg Route.state hentry, congrArg Route.gen hentry, rfl⟩

end Sys2Proof.Machine

/-! PROOFS. Making, breaking and backing out at the originator (06 R97 to R119): what the placing of reports leaves of the
route entries, and what a result, a reply timer's expiry and the order of a break or a clear do to a route. -/

namespace Sys2Proof.Machine

/-! ## Reports placed and removed (R119, R177) -/

/-- The report of a tag placed: it joins the FIFO and leaves the answers that the entry owes. -/
def placedReport (tag : Tag) (rep : RouteReport) (s : State) : State :=
  disownHeld tag (modRoute tag Route.popOwed (placeReport (.route rep) s))

theorem placedReport_eq (tag : Tag) (rep : RouteReport) (s : State) : placedReport tag rep s =
    { s with rte.routes := s.rte.routes.modify tag Route.popOwed, rte.held := (placedReport tag rep s).rte.held,
             orp.reports := s.orp.reports ++ [.route rep] } :=
  disownHeld_eq _ _

@[simp] theorem placedReport_liu (tag : Tag) (rep : RouteReport) (s : State) :
    (placedReport tag rep s).liu = s.liu := by rw [placedReport_eq]
@[simp] theorem placedReport_mbu (tag : Tag) (rep : RouteReport) (s : State) :
    (placedReport tag rep s).mbu = s.mbu := by rw [placedReport_eq]
@[simp] theorem placedReport_ttu (tag : Tag) (rep : RouteReport) (s : State) :
    (placedReport tag rep s).ttu = s.ttu := by rw [placedReport_eq]
@[simp] theorem placedReport_jbu (tag : Tag) (rep : RouteReport) (s : State) :
    (placedReport tag rep s).jbu = s.jbu := by rw [placedReport_eq]
@[simp] theorem placedReport_cme (tag : Tag) (rep : RouteReport) (s : State) :
    (placedReport tag rep s).cme = s.cme := by rw [placedReport_eq]
@[simp] theorem placedReport_orp_orders (tag : Tag) (rep : RouteReport) (s : State) :
    (placedReport tag rep s).orp.orders = s.orp.orders := by rw [placedReport_eq]
@[simp] theorem placedReport_orp_reports (tag : Tag) (rep : RouteReport) (s : State) :
    (placedReport tag rep s).orp.reports = s.orp.reports ++ [.route rep] := by rw [placedReport_eq]

theorem placedReport_route (tag tag' : Tag) (rep : RouteReport) (s : State) :
    (placedReport tag rep s).route tag' = if tag = tag' then (s.route tag).popOwed else s.route tag' :=
  (disownHeld_route _ _ _).trans (modRoute_route _ _ _ _)

/-- A report that is placed is that of a tag with one ready, into a free place. -/
theorem placeNextReport_eq_some {s t : State} (h : placeNextReport s = some t) : ∃ tag rep, s.placeFree = true
    ∧ (s.route tag).headReady = some rep ∧ t = placedReport tag rep s := by
  unfold placeNextReport at h
  split at h
  · rename_i hplace
    obtain ⟨tag, -, hrep⟩ := Option.bind_eq_some_iff.1 h
    obtain ⟨rep, hready, ht⟩ := Option.map_eq_some_iff.1 hrep
    exact ⟨tag, rep, hplace, hready, ht.symm⟩
  · cases h

theorem Route.popOwed_owed {r : Route} {o : Owed} (h : r.owed = [o]) : r.popOwed.owed = [] := by
  unfold Route.popOwed
  split
  · rfl
  · exact congrArg List.tail h

theorem Route.popOwed_of_not_ended {r : Route} (h : r.state ≠ .ended) : r.popOwed = { r with owed := r.owed.tail } := by
  unfold Route.popOwed
  rw [if_neg]
  simp [h]

/-- The report of the only tag with one ready was the last. -/
theorem placedReport_last {tag : Tag} {kind : OrderKind} {rep : RouteReport} {s : State}
    (howed : (s.route tag).owed = [⟨kind, some rep⟩]) (honly : ∀ tag', tag' ≠ tag → (s.route tag').headReady = none) :
    placeNextReport (placedReport tag rep s) = none := by
  refine (placeNextReport_eq_none _).2 (Or.inr fun tag' => ?_)
  rw [placedReport_route]
  split
  · unfold Route.headReady
    rw [Route.popOwed_owed howed]
  · exact honly tag' (Ne.symm ‹_›)

/-- With a place free, the one answer owed by the only tag with a report ready is all that is placed. -/
theorem placeReports_of_only {tag : Tag} {kind : OrderKind} {rep : RouteReport} {s : State} (hplace : s.placeFree = true)
    (howed : (s.route tag).owed = [⟨kind, some rep⟩]) (honly : ∀ tag', tag' ≠ tag → (s.route tag').headReady = none) :
    placeReports s = placedReport tag rep s := by
  have hready : (s.route tag).headReady = some rep := by
    unfold Route.headReady
    rw [howed]
  exact placeReports_of_one (placeNextReport_of_only hplace hready honly) (placedReport_last howed honly)

theorem pruneTimers_owed (s : State) (tag : Tag) : ((pruneTimers s).route tag).owed = (s.route tag).owed := by
  rw [pruneTimers_route]
  split <;> rfl

/-- An event after which nothing waits for the Commit Engine, for a report place or for an order: its change, less the
timers without cause, and the pins. -/
theorem event_of_none {f : State → State} {s t : State} (hreset : s.stc.resetHeld = false) (hf : f s = t)
    (hwork : commitWork t = none) (hreport : placeNextReport t = none) (horders : t.orp.orders = []) :
    event f s = updatePins (settleSweepTimer (pruneTimers t)) := by
  have horder : serveOrder t = none := (serveOrder_eq_none t).2 (Or.inl horders)
  rw [event, hreset, if_neg Bool.false_ne_true, hf, afterEvent_of_none hwork hreport horder]

/-- Settles O50: the report of the only ready tag is placed and leaves the answers owed, the head report leaves the FIFO;
neither brings anything else about. -/
theorem reportsPlacedAndRemoved : Obligations.ReportsPlacedAndRemoved := by
  unfold Obligations.ReportsPlacedAndRemoved
  intro tag rep s hreset hwork horders
  refine ⟨fun hplace howed honly => ?_, fun r rs hreports hnone => ?_⟩
  · have howed' : ((placedReport tag rep s).route tag).owed = [] := by
      rw [placedReport_route, if_pos rfl, Route.popOwed_owed howed]
    have hevent := event_of_none hreset (placeReports_of_only hplace howed honly)
      (commitWork_none_congr hwork (placedReport_cme tag rep s) (placedReport_jbu tag rep s))
      (placedReport_last howed honly) ((placedReport_orp_orders tag rep s).trans horders)
    rw [settleSweepTimer_eq] at hevent
    exact ⟨_, congrArg Host.Outcome.next hevent, placedReport_orp_reports tag rep s,
      (pruneTimers_owed _ tag).trans howed', placedReport_liu tag rep s, placedReport_cme tag rep s,
      placedReport_ttu tag rep s, placedReport_mbu tag rep s⟩
  · have hremoved : shiftedOut s = removeHead s := by
      unfold shiftedOut
      rw [hreports]
      rfl
    have hlast : placeNextReport (removeHead s) = none := (placeNextReport_eq_none _).2 (Or.inr hnone)
    have hevent := event_of_none hreset hremoved (commitWork_none_congr hwork rfl rfl) hlast horders
    rw [settleSweepTimer_eq] at hevent
    exact ⟨_, congrArg Host.Outcome.next hevent, congrArg List.tail hreports, rfl, rfl, rfl, rfl, rfl⟩

/-! ## Rest after the work of one route -/

/-- One route entry changes, with messages, rounds and reports: the station stays at rest when no report can be placed,
nothing waits to be handed over, and a timer of the entry has its cause. -/
theorem State.calm_of_route_work {s t : State} {tag : Tag} (h : s.calm = true)
    (ht : t = { s with liu := t.liu, rte.routes := t.rte.routes, rte.held := t.rte.held, rte.rounds := t.rte.rounds,
                       orp.reports := t.orp.reports })
    (hreports : s.orp.reports.length ≤ t.orp.reports.length) (hready : placeNextReport t = none)
    (hrounds : nextHandover t.rte.rounds = none) (hother : ∀ tag', tag' ≠ tag → t.route tag' = s.route tag')
    (htimer : (t.route tag).timer = none ∨ (t.route tag).anyRequested = true) : t.calm = true := by
  obtain ⟨hreset, hwork, -, horder, ⟨hinbox, -⟩, htimers, hsweep⟩ := s.calm_spec.1 h
  have hcheck : t.cme.check = s.cme.check := by rw [ht]
  refine t.calm_spec.2 ⟨by rw [ht]; exact hreset, by rw [ht]; exact hwork, (placeNextReport_eq_none t).1 hready, ?_,
    ⟨by rw [ht]; exact hinbox, hrounds⟩, fun tag' => ?_, by rw [ht]; exact hsweep⟩
  · refine Or.imp (fun hempty => by rw [ht]; exact hempty) (fun hfull => ?_) horder
    unfold State.placeFree at hfull ⊢
    rw [decide_eq_false_iff_not] at hfull ⊢
    rw [hcheck]
    omega
  · by_cases htag : tag' = tag
    · exact htag ▸ htimer
    · exact hother tag' htag ▸ htimers tag'

/-! ## The endpoints of a route -/

/-- Endpoints changed without regard to their legs. -/
theorem Route.mapEndpoints_endpoints {f : Leg → Endpoint → Endpoint} {g : Endpoint → Endpoint} {r : Route}
    (h : ∀ l ∈ r.legs, ∀ e ∈ l.endpoints, f l e = g e) : (r.mapEndpoints f).endpoints = r.endpoints.map g := by
  unfold Route.endpoints Route.mapEndpoints
  dsimp only
  rw [List.flatMap_map, List.map_flatMap, List.flatMap_def, List.flatMap_def]
  exact congrArg List.flatten (List.map_congr_left fun l hl => List.map_congr_left fun e he => h l hl e he)

theorem Route.mem_endpoints {r : Route} {e : Endpoint} : e ∈ r.endpoints ↔ ∃ l ∈ r.legs, e ∈ l.endpoints :=
  List.mem_flatMap

theorem Route.anyRequested_iff (r : Route) : r.anyRequested = true ↔ ∃ e ∈ r.endpoints, e.status = .requested := by
  simp only [Route.anyRequested, List.any_eq_true, beq_iff_eq]

/-! ## A result taken (R100, R101) -/

/-- A local result, and a RESULT message to this station, is taken by the RTE; then local work passes. -/
theorem takeResultCommand_of_self {target : Addr} {q : RouteResult} {s : State}
    (htaken : s.driving = true ∨ s.isSelf q.participant = true) (htarget : s.isSelf target = true) :
    takeResultCommand target q s = exchange (takeResult q s) := by
  unfold takeResultCommand takeResultMsg
  rw [htarget, Bool.and_true, Bool.and_true]
  split
  · rfl
  · exact if_pos (htaken.resolve_right ‹_›)

theorem takeResult_of_other_gen {q : RouteResult} {s : State} (h : (s.route q.tag).gen ≠ q.gen) :
    takeResult q s = s := by
  unfold takeResult
  dsimp only
  rw [if_neg]
  simp [h]

/-- The entry with the status that a result gives the endpoint it concerns, and with the warning of a worn close. -/
def Route.tookResult (q : RouteResult) (status : EndpointStatus) (r : Route) : Route :=
  { (r.mapEndpoints fun l e => if concerns q l e then { e with status := status } else e) with
    worn := r.worn || q.code == .closedWorn }

/-- A result that moves an endpoint: the new status, and what the route does on it. -/
theorem takeResult_of_status {q : RouteResult} {s : State} {e : Endpoint} {status : EndpointStatus}
    (htakes : (s.route q.tag).state.takesResults = true) (hgen : (s.route q.tag).gen = q.gen)
    (hfind : (s.route q.tag).findEndpoint q = some e)
    (hstatus : statusAfter ((s.route q.tag).state == .arming) e q.code = some status) :
    takeResult q s = afterStatus q status (modRoute q.tag (Route.tookResult q status) s) := by
  have hgate : ((s.route q.tag).state.takesResults && (s.route q.tag).gen == q.gen) = true := by
    rw [htakes, hgen, beq_self_eq_true, Bool.and_self]
  unfold takeResult
  dsimp only
  rw [if_pos hgate, hfind]
  dsimp only
  rw [hstatus]
  rfl

/-- A DAMAGED or QUARANTINED route does nothing on a new status. -/
theorem afterStatus_of_settled {q : RouteResult} {status : EndpointStatus} {s : State}
    (h : (s.route q.tag).state = .damaged ∨ (s.route q.tag).state = .quarantined) : afterStatus q status s = s := by
  unfold afterStatus
  dsimp only
  rcases h with h | h <;> rw [h]

/-- A late result moves the endpoint and does nothing else. -/
theorem takeResult_of_settled {q : RouteResult} {s : State} {e : Endpoint} {status : EndpointStatus}
    (hstate : (s.route q.tag).state = .damaged ∨ (s.route q.tag).state = .quarantined)
    (hgen : (s.route q.tag).gen = q.gen) (hfind : (s.route q.tag).findEndpoint q = some e)
    (hstatus : statusAfter false e q.code = some status) :
    takeResult q s = modRoute q.tag (Route.tookResult q status) s := by
  obtain ⟨htakes, hnotArming⟩ :
      (s.route q.tag).state.takesResults = true ∧ ((s.route q.tag).state == .arming) = false := by
    rcases hstate with h | h <;> rw [h] <;> exact ⟨rfl, rfl⟩
  have hsettled : ((modRoute q.tag (Route.tookResult q status) s).route q.tag).state = (s.route q.tag).state := by
    rw [modRoute_route_self]
    rfl
  rw [takeResult_of_status htakes hgen hfind (hnotArming ▸ hstatus), afterStatus_of_settled (hsettled ▸ hstate)]

/-- A result changes nothing that the end of an event looks at while the route has no timer. -/
theorem calm_tookResult {q : RouteResult} {s : State} (h : s.calm = true) (status : EndpointStatus)
    (htimer : (s.route q.tag).timer = none) : (modRoute q.tag (Route.tookResult q status) s).calm = true := by
  obtain ⟨-, -, hready, -⟩ := s.calm_iff.1 h
  obtain ⟨-, -, -, -, ⟨-, hrounds⟩, -, -⟩ := s.calm_spec.1 h
  refine State.calm_of_route_work (tag := q.tag) h rfl (le_refl _) ?_ hrounds
    (fun tag' htag => modRoute_route_ne htag _ _) (Or.inl ?_)
  · exact placeNextReport_none_congr hready rfl rfl
      (routesOnly_modRoute (f := Route.tookResult q status) (fun _ => rfl) q.tag s).owed
  · rw [modRoute_route_self]
    exact htimer

/-- Settles O34: the result reaches the route whether it is local or a message, and a route that is DAMAGED or QUARANTINED
takes the status and goes on as it was; one of another generation is not taken. -/
theorem resultMovesEndpoint : Obligations.ResultMovesEndpoint := by
  unfold Obligations.ResultMovesEndpoint
  intro target q s hcalm htaken htarget
  have hreset := resetHeld_of_calm hcalm
  have hcommand := takeResultCommand_of_self htaken htarget
  refine ⟨fun e status hstate hgen htimer hfind hstatus => ?_, fun hgen => ?_⟩
  · have hrest := calm_tookResult hcalm status htimer
    rw [takeResult_of_settled hstate hgen hfind hstatus, exchange_calm hrest] at hcommand
    exact congrArg Host.Outcome.next (event_eq hreset hcommand hrest)
  · rw [takeResult_of_other_gen hgen, exchange_calm hcalm] at hcommand
    exact congrArg Host.Outcome.next (event_eq hreset hcommand hcalm)

/-! ## The last CLOSED of a make (R103, R118) -/

/-- A CLOSED that answers a close request. -/
theorem statusAfter_closed {e : Endpoint} {prior : EndpointStatus} (arming : Bool) (hstatus : e.status = .requested)
    (hrequest : e.request = some ⟨.close, prior⟩) : statusAfter arming e .closed = some .closed := by
  simp [statusAfter, hstatus, hrequest]

/-- With every other endpoint CLOSED, a CLOSED leaves every endpoint CLOSED. -/
theorem Route.tookResult_all_closed {q : RouteResult} {r : Route}
    (h : ∀ l ∈ r.legs, ∀ e ∈ l.endpoints, e.status = .closed ∨ concerns q l e = true) :
    ∀ e ∈ (r.tookResult q .closed).endpoints, e.status = .closed := by
  have hends : (r.tookResult q .closed).endpoints = r.endpoints.map fun e => { e with status := .closed } := by
    refine Route.mapEndpoints_endpoints fun l hl e he => ?_
    rcases h l hl e he with hclosed | hconcerns
    · rw [← hclosed, ite_self]
    · rw [if_pos hconcerns]
  intro e he
  obtain ⟨e', -, rfl⟩ := List.mem_map.1 (hends ▸ he)
  rfl

/-- No endpoint is left over for the residual count of a make when all are CLOSED. -/
theorem residualCount_make_of_closed {r : Route} (h : ∀ e ∈ r.endpoints, e.status = .closed) :
    residualCount .make r = 0 := by
  unfold residualCount
  rw [List.length_eq_zero_iff, List.filter_eq_nil_iff]
  intro e he
  rw [h e he]
  exact Bool.false_ne_true

/-- The entry MADE, with its timer gone. -/
def Route.made (r : Route) : Route := { r with state := .made, timer := none }

/-- The report that answers the MAKE of a route made without a worn close (R118). -/
def madeReport (tag : Tag) (r : Route) : RouteReport := routeReport tag .make .complete .none r.made

/-- The entry MADE, with the answer of its MAKE ready. -/
def Route.madeReady (tag : Tag) (r : Route) : Route := { r.made with owed := [⟨.make, some (madeReport tag r)⟩] }

theorem becomeMade_of_make {tag : Tag} {s : State} (howed : (s.route tag).owed = [⟨.make, none⟩])
    (hworn : (s.route tag).worn = false) : becomeMade tag s = placeReports (modRoute tag (Route.madeReady tag) s) := by
  unfold becomeMade fixReports
  dsimp only
  rw [modRoute_modRoute, modRoute_route_self, hworn]
  refine congrArg placeReports (modRoute_eq_of_entry ?_)
  dsimp only
  rw [howed]
  rfl

/-- With the MAKE alone to answer, a place free and no other report ready, the answer of the route made is placed. -/
theorem becomeMade_placed {tag : Tag} {s : State} (hplace : s.placeFree = true)
    (howed : (s.route tag).owed = [⟨.make, none⟩]) (hworn : (s.route tag).worn = false)
    (honly : ∀ tag', tag' ≠ tag → (s.route tag').headReady = none) :
    becomeMade tag s
      = placedReport tag (madeReport tag (s.route tag)) (modRoute tag (Route.madeReady tag) s) := by
  have howed' : ((modRoute tag (Route.madeReady tag) s).route tag).owed
      = [⟨.make, some (madeReport tag (s.route tag))⟩] := by
    rw [modRoute_route_self]
    rfl
  rw [becomeMade_of_make howed hworn]
  refine placeReports_of_only hplace howed' fun tag' htag => ?_
  rw [modRoute_route_ne htag]
  exact honly tag' htag

/-- The station after the last CLOSED of a make: the route MADE, its MAKE answered. -/
def routeMade (q : RouteResult) (s : State) : State :=
  placedReport q.tag (madeReport q.tag ((s.route q.tag).tookResult q .closed))
    (modRoute q.tag (fun r => (r.tookResult q .closed).madeReady q.tag) s)

theorem routeMade_route_self (q : RouteResult) (s : State) : (routeMade q s).route q.tag
    = { ((s.route q.tag).tookResult q .closed).made with owed := [] } := by
  unfold routeMade
  rw [placedReport_route, if_pos rfl, modRoute_route_self]
  rfl

theorem routeMade_route_ne (q : RouteResult) {tag : Tag} (h : tag ≠ q.tag) (s : State) :
    (routeMade q s).route tag = s.route tag := by
  unfold routeMade
  rw [placedReport_route, if_neg (Ne.symm h), modRoute_route_ne h]

/-- In CLOSING a CLOSED after which every endpoint is CLOSED makes the route. -/
theorem afterStatus_of_made {q : RouteResult} {s : State} (hstate : (s.route q.tag).state = .closing)
    (hall : ∀ e ∈ (s.route q.tag).endpoints, e.status = .closed) : afterStatus q .closed s = becomeMade q.tag s := by
  have hclosed : ((s.route q.tag).endpoints.all fun e => e.status == .closed) = true :=
    List.all_eq_true.2 fun e he => beq_iff_eq.2 (hall e he)
  unfold afterStatus
  dsimp only
  rw [hstate]
  dsimp only
  rw [hclosed]
  rfl

/-- The last CLOSED of a route in CLOSING, with its MAKE alone to answer. -/
theorem takeResult_of_last_closed {q : RouteResult} {e : Endpoint} {s : State} (h : s.calmOrders = true)
    (hcode : q.code = .closed) (hstate : (s.route q.tag).state = .closing) (hgen : (s.route q.tag).gen = q.gen)
    (hworn : (s.route q.tag).worn = false) (howed : (s.route q.tag).owed = [⟨.make, none⟩])
    (hfind : (s.route q.tag).findEndpoint q = some e) (hstatus : e.status = .requested)
    (hrequest : e.request = some ⟨.close, .idle⟩)
    (hall : ∀ l ∈ (s.route q.tag).legs, ∀ e' ∈ l.endpoints, e'.status = .closed ∨ concerns q l e' = true) :
    takeResult q s = routeMade q s := by
  obtain ⟨-, -, hplace⟩ := (calmOrders_iff s).1 h
  have hself := modRoute_route_self q.tag (Route.tookResult q .closed) s
  have htakes : (s.route q.tag).state.takesResults = true := by rw [hstate]; rfl
  have hclosed : statusAfter ((s.route q.tag).state == .arming) e q.code = some .closed := by
    rw [hcode]
    exact statusAfter_closed _ hstatus hrequest
  have hstill : ((s.route q.tag).tookResult q .closed).worn = false := by
    unfold Route.tookResult
    dsimp only
    rw [hworn, hcode]
    rfl
  have hmade := becomeMade_placed (tag := q.tag) (s := modRoute q.tag (Route.tookResult q .closed) s) hplace
    (by rw [hself]; exact howed) (by rw [hself]; exact hstill) fun tag' htag => by
      rw [modRoute_route_ne htag]
      exact headReady_of_calmOrders h tag'
  rw [takeResult_of_status htakes hgen hfind hclosed,
    afterStatus_of_made (by rw [hself]; exact hstate) (by rw [hself]; exact Route.tookResult_all_closed hall), hmade,
    hself, modRoute_modRoute]
  rfl

/-- The route made, and the station at rest. -/
theorem calm_routeMade {q : RouteResult} {s : State} (h : s.calmOrders = true) : (routeMade q s).calm = true := by
  refine State.calm_of_entry (tag := q.tag) h ?_ (fun tag htag => routeMade_route_ne q htag s) ?_ ?_
  · unfold routeMade
    rw [placedReport_eq]
    rfl
  · rw [routeMade_route_self]
    rfl
  · rw [routeMade_route_self]
    rfl

/-- Settles O35: the CLOSED leaves every endpoint CLOSED, so the route is made, and its one answer finds a place. -/
theorem lastClosedMakesRoute : Obligations.LastClosedMakesRoute := by
  unfold Obligations.LastClosedMakesRoute
  intro target q e s h hdriving htarget hcode hstate hgen hworn howed hfind hstatus hrequest hall
  obtain ⟨hcalm, -, -⟩ := (calmOrders_iff s).1 h
  have hrest := calm_routeMade (q := q) h
  have hcommand := takeResultCommand_of_self (q := q) (Or.inl hdriving) htarget
  rw [takeResult_of_last_closed h hcode hstate hgen hworn howed hfind hstatus hrequest hall, exchange_calm hrest]
    at hcommand
  have hentry := routeMade_route_self q s
  have hclosed := Route.tookResult_all_closed hall
  refine ⟨_, madeReport q.tag ((s.route q.tag).tookResult q .closed),
    congrArg Host.Outcome.next (event_eq (resetHeld_of_calm hcalm) hcommand hrest), congrArg Route.state hentry,
    congrArg Route.timer hentry, congrArg Route.owed hentry, ?_, placedReport_orp_reports _ _ _, rfl, hgen, rfl, rfl, rfl,
    residualCount_make_of_closed hclosed, rfl, placedReport_ttu _ _ _, placedReport_cme _ _ _, placedReport_jbu _ _ _,
    placedReport_liu _ _ _⟩
  rw [updatePins_route, hentry]
  exact hclosed

/-! ## The end of an operation (R106, R114, R119) -/

/-- Reports are placed until the FIFO is full or none is ready. -/
theorem placeReportsN_stops (n : Nat) (s : State) : placeNextReport (placeReportsN n s) = none
    ∨ s.orp.reports.length + n = (placeReportsN n s).orp.reports.length := by
  induction n generalizing s with
  | zero => exact Or.inr rfl
  | succ n ih =>
    unfold placeReportsN
    split
    · rename_i t hnext
      obtain ⟨tag, rep, -, -, rfl⟩ := placeNextReport_eq_some hnext
      refine (ih _).imp_right fun h => ?_
      rw [placedReport_orp_reports, List.length_append, List.length_singleton] at h
      omega
    · exact Or.inl ‹_›

theorem placeReports_done (s : State) : placeNextReport (placeReports s) = none := by
  rcases placeReportsN_stops Config.reportPlaces s with h | h
  · exact h
  · refine (placeNextReport_eq_none _).2 (Or.inl (decide_eq_false_iff_not.2 ?_))
    have hfull : Config.reportPlaces ≤ (placeReportsN Config.reportPlaces s).orp.reports.length := by omega
    unfold placeReports
    omega

/-- Only answers owed by the entry of one tag change, and the reports, by what is placed of them. -/
structure AnswersOnly (tag : Tag) (s t : State) : Prop where
  rest : t = { s with rte.routes := t.rte.routes, rte.held := t.rte.held, orp.reports := t.orp.reports }
  reports : s.orp.reports.length ≤ t.orp.reports.length
  other : ∀ tag', tag' ≠ tag → t.route tag' = s.route tag'
  entry : t.route tag = { s.route tag with owed := (t.route tag).owed }

theorem AnswersOnly.refl (tag : Tag) (s : State) : AnswersOnly tag s s := ⟨rfl, le_refl _, fun _ _ => rfl, rfl⟩

theorem AnswersOnly.trans {tag : Tag} {s t u : State} (h : AnswersOnly tag s t) (g : AnswersOnly tag t u) :
    AnswersOnly tag s u :=
  ⟨by rw [g.rest, h.rest], h.reports.trans g.reports, fun tag' htag => (g.other tag' htag).trans (h.other tag' htag),
    by rw [g.entry, h.entry]⟩

theorem answersOnly_fixReports (tag : Tag) (cls : OutcomeClass) (reason : Reason) (s : State) :
    AnswersOnly tag s (fixReports tag cls reason s) := by
  unfold fixReports
  refine ⟨rfl, le_refl _, fun tag' htag => modRoute_route_ne htag _ _, ?_⟩
  rw [modRoute_route_self]

/-- Whoever else has a report ready, none can be placed but of this tag. -/
def State.placesOnly (tag : Tag) (s : State) : Prop :=
  s.placeFree = false ∨ ∀ tag', tag' ≠ tag → (s.route tag').headReady = none

/-- What a report placed does while no other tag has one ready. -/
theorem answersOnly_placeNextReport {tag : Tag} {s t : State} (hstate : (s.route tag).state ≠ .ended)
    (honly : s.placesOnly tag) (h : placeNextReport s = some t) : AnswersOnly tag s t ∧ t.placesOnly tag := by
  obtain ⟨tag', rep, hplace, hready, rfl⟩ := placeNextReport_eq_some h
  have hothers := honly.resolve_left (ne_false_of_eq_true hplace)
  have htag : tag' = tag := by
    by_contra hne
    rw [hothers tag' hne] at hready
    cases hready
  subst htag
  have hother : ∀ tag, tag ≠ tag' → (placedReport tag' rep s).route tag = s.route tag := fun tag hne => by
    rw [placedReport_route, if_neg (Ne.symm hne)]
  refine ⟨⟨?_, ?_, hother, ?_⟩, Or.inr fun tag hne => hother tag hne ▸ hothers tag hne⟩
  · rw [placedReport_eq]
  · rw [placedReport_orp_reports, List.length_append]
    exact Nat.le_add_right _ _
  · rw [placedReport_route, if_pos rfl, Route.popOwed_of_not_ended hstate]

theorem answersOnly_placeReportsN (n : Nat) {tag : Tag} {s : State} (hstate : (s.route tag).state ≠ .ended)
    (honly : s.placesOnly tag) : AnswersOnly tag s (placeReportsN n s) := by
  induction n generalizing s with
  | zero => exact AnswersOnly.refl tag s
  | succ n ih =>
    unfold placeReportsN
    split
    · obtain ⟨hplaced, honly'⟩ := answersOnly_placeNextReport hstate honly ‹_›
      exact hplaced.trans (ih (by rw [hplaced.entry]; exact hstate) honly')
    · exact AnswersOnly.refl tag s

/-- Only the outbound queue and the messages held pending change. -/
def MessagesOnly (s t : State) : Prop := t = { s with liu.queue := t.liu.queue, rte.held := t.rte.held }

theorem messagesOnly_rteSend (owner : Option Tag) (m : LinkMsg) (s : State) : MessagesOnly s (rteSend owner m s) := by
  unfold MessagesOnly rteSend
  split <;> rfl

theorem messagesOnly_foldl {α : Type} {f : State → α → State} (h : ∀ s a, MessagesOnly s (f s a)) (l : List α)
    (s : State) : MessagesOnly s (l.foldl f s) := by
  induction l generalizing s with
  | nil => rfl
  | cons a l ih =>
    have hstep := h s a
    have hrest := ih (f s a)
    unfold MessagesOnly at hstep hrest ⊢
    rw [List.foldl_cons, hrest, hstep]

/-- The entry in the state that its operation ends in, its timer gone. -/
def Route.settledIn (state : RouteState) (r : Route) : Route := { r with state := state, timer := none }

/-- What the end of an operation in a state other than ENDED leaves of the station. -/
structure OperationEnded (tag : Tag) (state : RouteState) (s t : State) : Prop where
  rest : t = { s with liu := t.liu, rte.routes := t.rte.routes, rte.held := t.rte.held, orp.reports := t.orp.reports }
  reports : s.orp.reports.length ≤ t.orp.reports.length
  done : placeNextReport t = none
  other : ∀ tag', tag' ≠ tag → t.route tag' = s.route tag'
  entry : t.route tag = { (s.route tag).settledIn state with owed := (t.route tag).owed }

/-- The messages that give up the trunks, when the end of the operation makes any. -/
theorem messagesOnly_ite_sendForTrunks (linked : Bool) (msg : Trunk → LinkMsg) (l : List Trunk) (s : State) :
    MessagesOnly s (if linked then sendForTrunks msg l s else s) := by
  split
  · exact messagesOnly_foldl (fun s _ => messagesOnly_rteSend _ _ s) l s
  · rfl

/-- The answers owed by an entry that is not ENDED fixed, and placed as far as places are free. -/
theorem answersOnly_fixed_placed {tag : Tag} (cls : OutcomeClass) (reason : Reason) {s : State}
    (hstate : (s.route tag).state ≠ .ended) (honly : s.placesOnly tag) :
    AnswersOnly tag s (placeReports (fixReports tag cls reason s)) := by
  have hfixed := answersOnly_fixReports tag cls reason s
  have hstate' : ((fixReports tag cls reason s).route tag).state ≠ .ended := by
    rw [hfixed.entry]
    exact hstate
  have honly' : (fixReports tag cls reason s).placesOnly tag :=
    Or.imp_right (fun h tag' htag => hfixed.other tag' htag ▸ h tag' htag) honly
  exact hfixed.trans (answersOnly_placeReportsN _ hstate' honly')

/-- An operation that ends in a state other than ENDED leaves its entry, in that state, with the answers that found no
place; the messages on its trunks change nothing else. -/
theorem endOperation_ended (linked : Bool) {tag : Tag} {state : RouteState} (cls : OutcomeClass) (reason : Reason)
    {s : State} (hstate : state ≠ .ended) (honly : s.placesOnly tag) :
    OperationEnded tag state s (endOperation linked tag state cls reason s) := by
  unfold endOperation
  dsimp only
  have hsent := messagesOnly_ite_sendForTrunks linked (if state == .ended then LinkMsg.release else .quarantine)
    (s.route tag).trunks s
  generalize (if linked = true then _ else s) = u at hsent ⊢
  change OperationEnded tag state s (placeReports (fixReports tag cls reason (modRoute tag (Route.settledIn state) u)))
  have hroute : ∀ tag, u.route tag = s.route tag := fun tag => by rw [hsent]; rfl
  have hself := modRoute_route_self tag (Route.settledIn state) u
  have hother := fun tag' (htag : tag' ≠ tag) =>
    (modRoute_route_ne htag (Route.settledIn state) u).trans (hroute tag')
  have hplaces : (modRoute tag (Route.settledIn state) u).placesOnly tag := by
    refine Or.imp (fun hfull => ?_) (fun hnone tag' htag => hother tag' htag ▸ hnone tag' htag) honly
    rw [hsent]
    exact hfull
  have hanswers := answersOnly_fixed_placed cls reason (by rw [hself]; exact hstate) hplaces
  have hdone := placeReports_done (fixReports tag cls reason (modRoute tag (Route.settledIn state) u))
  generalize placeReports _ = t at hanswers hdone ⊢
  refine ⟨?_, ?_, hdone, fun tag' htag => (hanswers.other tag' htag).trans (hother tag' htag), ?_⟩
  · rw [hanswers.rest, hsent]
    rfl
  · have hreports : u.orp.reports = s.orp.reports := by rw [hsent]
    exact hreports ▸ hanswers.reports
  · rw [hanswers.entry, hself, hroute]

/-! ## The reply timer of a break (R99, R114) -/

/-- The entry whose reply timer has expired: its REQUESTED endpoints UNKNOWN, for NO-REPLY when no reason stands. -/
def Route.unanswered (r : Route) : Route :=
  { (r.mapEndpoints fun _ e => if e.status == .requested then { e with status := .unknown } else e).withReason
      .noReply with timer := none }

theorem Route.unanswered_reason {r : Route} (h : r.reason = none) : r.unanswered.reason = some .noReply := by
  unfold Route.unanswered Route.withReason Route.mapEndpoints
  dsimp only
  rw [h, Option.getD_none]

theorem Route.unanswered_endpoints (r : Route) : r.unanswered.endpoints
    = r.endpoints.map fun e => if e.status = .requested then { e with status := .unknown } else e := by
  refine Route.mapEndpoints_endpoints fun l _ e _ => ?_
  simp only [beq_iff_eq]

theorem Route.unanswered_anyRequested (r : Route) : r.unanswered.anyRequested = false := by
  refine Bool.eq_false_iff.2 fun h => ?_
  obtain ⟨e, he, hstatus⟩ := r.unanswered.anyRequested_iff.1 h
  rw [Route.unanswered_endpoints] at he
  obtain ⟨e', -, rfl⟩ := List.mem_map.1 he
  split at hstatus
  · cases hstatus
  · exact absurd hstatus ‹_›

/-- A break whose request went without reply ends QUARANTINED, for NO-REPLY when no reason stood before (R114). -/
theorem breakVerdict_unanswered {r : Route} (hrequested : r.anyRequested = true) (hreason : r.reason = none) :
    breakVerdict r.unanswered = (.quarantined, .indeterminate, .noReply) := by
  have hunknown : r.unanswered.anyStatus (· == .unknown) = true := by
    obtain ⟨e, he, hstatus⟩ := r.anyRequested_iff.1 hrequested
    refine List.any_eq_true.2 ⟨{ e with status := .unknown }, ?_, rfl⟩
    rw [Route.unanswered_endpoints]
    exact List.mem_map.2 ⟨e, he, if_pos hstatus⟩
  unfold breakVerdict
  dsimp only
  rw [Route.unanswered_reason hreason, hunknown]
  rfl

/-- In OPENING the expiry of the reply timer ends the break. -/
theorem expireReply_of_opening {tag : Tag} {s : State} (hstate : (s.route tag).state = .opening)
    (hrequested : (s.route tag).anyRequested = true) (hreason : (s.route tag).reason = none) :
    expireReply tag s
      = endOperation true tag .quarantined .indeterminate .noReply (modRoute tag Route.unanswered s) := by
  have hself := modRoute_route_self tag Route.unanswered s
  have hopening : ((modRoute tag Route.unanswered s).route tag).state = .opening := by
    rw [hself]
    exact hstate
  have hend : testEnd tag (modRoute tag Route.unanswered s) = endBreak true tag (modRoute tag Route.unanswered s) := by
    unfold testEnd
    rw [hopening, hself, Route.unanswered_anyRequested]
    rfl
  have hexpire : expireReply tag s = testEnd tag (modRoute tag Route.unanswered s) := by
    unfold expireReply
    dsimp only
    split
    case h_4 => rfl
    all_goals
      rename_i hstate'
      exact absurd (hopening.symm.trans hstate') (by decide)
  rw [hexpire, hend]
  unfold endBreak
  rw [hself, breakVerdict_unanswered hrequested hreason]

/-- Settles O39: a break that stands with a timer has a REQUESTED endpoint, so its end finds an UNKNOWN one; what is placed
of the answers, and the QUARANTINEs, leave the station at rest. -/
theorem replyTimerEndsBreak : Obligations.ReplyTimerEndsBreak := by
  unfold Obligations.ReplyTimerEndsBreak
  intro tag s hcalm hstate htimer hreason
  obtain ⟨hreset, -, hready, -, ⟨-, hrounds⟩, htimers, -⟩ := s.calm_spec.1 hcalm
  have hrequested : (s.route tag).anyRequested = true :=
    (htimers tag).resolve_left (Option.isSome_iff_ne_none.1 htimer)
  have hexpire := expireReply_of_opening hstate hrequested hreason
  have hplaces : (modRoute tag Route.unanswered s).placesOnly tag :=
    Or.imp_right (fun h tag' htag => modRoute_route_ne htag Route.unanswered s ▸ h tag') hready
  have hended := endOperation_ended true .indeterminate .noReply (state := .quarantined) (by decide) hplaces
  generalize endOperation true tag .quarantined .indeterminate .noReply (modRoute tag Route.unanswered s) = t
    at hexpire hended
  have hother : ∀ tag', tag' ≠ tag → t.route tag' = s.route tag' := fun tag' htag =>
    (hended.other tag' htag).trans (modRoute_route_ne htag _ _)
  have hentry := hended.entry
  rw [modRoute_route_self] at hentry
  have hrest : t.calm = true := by
    refine State.calm_of_route_work hcalm ?_ hended.reports hended.done ?_ hother
      (Or.inl (congrArg Route.timer hentry))
    · rw [hended.rest]
      rfl
    · rw [hended.rest]
      exact hrounds
  have hframe : RteWork s t := hexpire ▸ rteWork_expireReply tag s
  have htake : takeReplyExpiry tag s = t := by
    unfold takeReplyExpiry
    rw [if_pos htimer, hexpire, exchange_calm hrest]
  exact ⟨_, congrArg Host.Outcome.next (event_eq hreset htake hrest), congrArg Route.state hentry,
    congrArg Route.timer hentry, (congrArg Route.reason hentry).trans (Route.unanswered_reason hreason),
    (congrArg Route.endpoints hentry).trans (s.route tag).unanswered_endpoints, hother, hframe.stc, hframe.ttu,
    hframe.mbu, hframe.cme, hframe.jbu⟩

/-! ## A round to other stations (R97, R98) -/

/-- An endpoint is addressed on its leg's trunk when that is assigned. -/
theorem Route.mem_addressed {sel : Endpoint → Bool} {r : Route} {t : Trunk} {e : Endpoint} :
    (t, e) ∈ r.addressed sel ↔ ∃ l ∈ r.legs, l.assigned = some t ∧ e ∈ l.endpoints ∧ sel e = true := by
  unfold Route.addressed
  rw [List.mem_flatMap]
  refine exists_congr fun l => and_congr_right fun _ => ?_
  split
  · rename_i t' hassigned
    rw [hassigned]
    simp only [List.mem_map, List.mem_filter, Prod.mk.injEq, Option.some.injEq]
    constructor
    · rintro ⟨e', he', rfl, rfl⟩
      exact ⟨rfl, he'⟩
    · rintro ⟨rfl, he⟩
      exact ⟨e, he, rfl, rfl⟩
  · rename_i hassigned
    simp [hassigned]

/-- With every leg's trunk assigned, a round changes the endpoints selected, whatever their leg. -/
theorem Route.request_endpoints {action : Action} {sel : Endpoint → Bool} {p : Endpoint → Prop} [DecidablePred p]
    {r : Route} (hlegs : ∀ l ∈ r.legs, l.assigned.isSome = true) (hsel : ∀ e ∈ r.endpoints, sel e = true ↔ p e) :
    (r.request action sel).endpoints = r.endpoints.map fun e =>
      if p e then { e with status := .requested, request := some ⟨action, e.status⟩ } else e := by
  refine Route.mapEndpoints_endpoints fun l hl e he => ?_
  rw [hlegs l hl, Bool.true_and]
  exact if_congr (hsel e (Route.mem_endpoints.2 ⟨l, hl, he⟩)) rfl rfl

/-- No local job can be handed over while every round with jobs has OPERATEs to settle (R97). -/
theorem nextHandover_eq_none (rounds : List Round) :
    nextHandover rounds = none ↔ ∀ q ∈ rounds, q.operates = [] → q.jobs = [] := by
  induction rounds with
  | nil => simp [nextHandover]
  | cons q qs ih =>
    rw [List.forall_mem_cons, ← ih]
    cases hoperates : q.operates with
    | nil => cases hjobs : q.jobs <;> simp [nextHandover, hoperates, hjobs]
    | cons m ms => simp [nextHandover, hoperates]

/-- The OPERATEs of a round. -/
def roundOperates (tag : Tag) (action : Action) (armed : Bool) (sel : Endpoint → Bool) (r : Route) : List LinkMsg :=
  (r.addressed sel).map fun q => .operate q.2.station q.2.line q.1 action tag r.gen q.2.quiet armed

/-- A round that addresses other stations alone: its OPERATEs are sent or held, and it waits for their settlement. -/
theorem makeRound_of_remote {tag : Tag} {action : Action} (armed : Bool) {sel : Endpoint → Bool} {s : State}
    (hremote : ∀ e ∈ (s.route tag).endpoints, s.isSelf e.station = false)
    (hsome : (s.route tag).addressed sel ≠ []) :
    ∃ u, MessagesOnly (modRoute tag (Route.request action sel) s) u ∧ makeRound tag action armed sel s
      = { u with rte.rounds := u.rte.rounds
            ++ [⟨tag, (s.route tag).gen, action, roundOperates tag action armed sel (s.route tag), []⟩] } := by
  have hother : ∀ q ∈ (s.route tag).addressed sel, s.isSelf q.2.station = false := fun q hq => by
    obtain ⟨l, hl, -, he, -⟩ := Route.mem_addressed.1 hq
    exact hremote q.2 (Route.mem_endpoints.2 ⟨l, hl, he⟩)
  have hall : ((s.route tag).addressed sel).filter (fun q => !s.isSelf q.2.station) = (s.route tag).addressed sel :=
    List.filter_eq_self.2 fun q hq => by rw [hother q hq]; rfl
  have hnone : ((s.route tag).addressed sel).filter (fun q => s.isSelf q.2.station) = [] :=
    List.filter_eq_nil_iff.2 fun q hq => by rw [hother q hq]; exact Bool.false_ne_true
  have hempty : ((s.route tag).addressed sel).isEmpty = false := by simpa using hsome
  refine ⟨_, messagesOnly_foldl (f := fun s m => rteSend (some tag) m s) (fun s m => messagesOnly_rteSend _ m s)
    (roundOperates tag action armed sel (s.route tag)) _, ?_⟩
  unfold makeRound
  dsimp only
  rw [hall, hnone, hempty]
  rfl

/-! ## A BREAK or CLEAR that starts (R112, R115) -/

/-- The entry as the start of a BREAK or CLEAR makes it, before its round. -/
def Route.repairing (kind : OrderKind) (state : RouteState) (r : Route) : Route :=
  { r with owed := r.owed ++ [⟨kind, none⟩], reason := none, state := state }

theorem Route.repairing_headReady {r : Route} (kind : OrderKind) (state : RouteState) (h : r.headReady = none) :
    (r.repairing kind state).headReady = none := by
  unfold Route.headReady Route.repairing at *
  cases howed : r.owed with
  | nil => rfl
  | cons o os =>
    rw [howed] at h
    exact h

/-- An endpoint selected is REQUESTED by the round. -/
theorem Route.request_anyRequested {action : Action} {sel : Endpoint → Bool} {r : Route}
    (hlegs : ∀ l ∈ r.legs, l.assigned.isSome = true) (hsome : ∃ e ∈ r.endpoints, sel e = true) :
    (r.request action sel).anyRequested = true := by
  obtain ⟨e, he, hsel⟩ := hsome
  rw [Route.anyRequested_iff, Route.request_endpoints hlegs fun _ _ => Iff.rfl]
  exact ⟨_, List.mem_map.2 ⟨e, he, if_pos hsel⟩, rfl⟩

theorem Route.addressed_ne_nil {sel : Endpoint → Bool} {r : Route} (hlegs : ∀ l ∈ r.legs, l.assigned.isSome = true)
    (hsome : ∃ e ∈ r.endpoints, sel e = true) : r.addressed sel ≠ [] := by
  obtain ⟨e, he, hsel⟩ := hsome
  obtain ⟨l, hl, hle⟩ := Route.mem_endpoints.1 he
  obtain ⟨t, ht⟩ := Option.isSome_iff_exists.1 (hlegs l hl)
  exact List.ne_nil_of_mem (Route.mem_addressed.2 ⟨l, hl, ht, hle, hsel⟩)

/-- A break or clear goes on while an endpoint is REQUESTED (R114). -/
theorem testEnd_of_requested {tag : Tag} {s : State}
    (hstate : (s.route tag).state = .opening ∨ (s.route tag).state = .clearing)
    (hrequested : (s.route tag).anyRequested = true) : testEnd tag s = s := by
  unfold testEnd
  rcases hstate with h | h <;> rw [h] <;> exact if_pos hrequested

/-- A BREAK or CLEAR that addresses other stations alone: its round, which waits for its OPERATEs. -/
theorem makeRound_repairing {kind : OrderKind} {state : RouteState} {action : Action} {sel : Endpoint → Bool}
    {tag : Tag} {s : State} (h : s.calmOrders = true)
    (hremote : ∀ e ∈ (s.route tag).endpoints, s.isSelf e.station = false)
    (hlegs : ∀ l ∈ (s.route tag).legs, l.assigned.isSome = true)
    (hsome : ∃ e ∈ (s.route tag).endpoints, sel e = true) :
    (makeRound tag action false sel (modRoute tag (Route.repairing kind state) s)).calm = true
    ∧ (makeRound tag action false sel (modRoute tag (Route.repairing kind state) s)).route tag
      = ((s.route tag).repairing kind state).request action sel := by
  obtain ⟨hcalm, -, -⟩ := (calmOrders_iff s).1 h
  obtain ⟨-, -, -, -, ⟨-, hrounds⟩, -, -⟩ := s.calm_spec.1 hcalm
  have hself := modRoute_route_self tag (Route.repairing kind state) s
  obtain ⟨u, hmessages, hround⟩ := makeRound_of_remote (tag := tag) (action := action) false (sel := sel)
    (s := modRoute tag (Route.repairing kind state) s) (by rw [hself]; exact hremote)
    (by rw [hself]; exact Route.addressed_ne_nil hlegs hsome)
  rw [hround]
  have hroute : ∀ tag', u.route tag' = (modRoute tag (Route.request action sel)
      (modRoute tag (Route.repairing kind state) s)).route tag' := fun tag' => by rw [hmessages]; rfl
  have hentry : u.route tag = ((s.route tag).repairing kind state).request action sel := by
    rw [hroute, modRoute_route_self, hself]
  have hother : ∀ tag', tag' ≠ tag → u.route tag' = s.route tag' := fun tag' htag => by
    rw [hroute, modRoute_route_ne htag, modRoute_route_ne htag]
  refine ⟨State.calm_of_route_work (tag := tag) hcalm ?_ ?_ ?_ ?_ hother (Or.inr ?_), hentry⟩
  · rw [hmessages]
    rfl
  · rw [hmessages]
    exact le_refl _
  · refine (placeNextReport_eq_none _).2 (Or.inr fun tag' => ?_)
    change (u.route tag').headReady = none
    by_cases htag : tag' = tag
    · rw [htag, hentry]
      exact Route.repairing_headReady kind state (headReady_of_calmOrders h tag)
    · rw [hother tag' htag]
      exact headReady_of_calmOrders h tag'
  · have hrounds' : u.rte.rounds = s.rte.rounds := by rw [hmessages]; rfl
    refine (nextHandover_eq_none _).2 fun q hq => ?_
    rcases List.mem_append.1 hq with hq | hq
    · exact (nextHandover_eq_none _).1 hrounds q (hrounds' ▸ hq)
    · exact fun _ => by rw [List.mem_singleton.1 hq]
  · exact hentry ▸ Route.request_anyRequested hlegs hsome

/-- The start of a BREAK or CLEAR that addresses other stations alone is its round, and the station is at rest. -/
theorem startRepair_of_remote {kind : OrderKind} {state : RouteState} {action : Action} {sel : Endpoint → Bool}
    {tag : Tag} {s : State} (h : s.calmOrders = true) (hstate : state = .opening ∨ state = .clearing)
    (hremote : ∀ e ∈ (s.route tag).endpoints, s.isSelf e.station = false)
    (hlegs : ∀ l ∈ (s.route tag).legs, l.assigned.isSome = true)
    (hsome : ∃ e ∈ (s.route tag).endpoints, sel e = true) :
    (startRepair kind state action sel tag s).calm = true ∧ (startRepair kind state action sel tag s).route tag
      = ((s.route tag).repairing kind state).request action sel := by
  obtain ⟨hcalm, hentry⟩ := makeRound_repairing (kind := kind) (state := state) (action := action) h hremote hlegs hsome
  have hstart : startRepair kind state action sel tag s
      = exchange (testEnd tag (makeRound tag action false sel (modRoute tag (Route.repairing kind state) s))) := by
    unfold startRepair owe
    rw [modRoute_modRoute]
    rfl
  have hgoes : testEnd tag (makeRound tag action false sel (modRoute tag (Route.repairing kind state) s))
      = makeRound tag action false sel (modRoute tag (Route.repairing kind state) s) := by
    refine testEnd_of_requested ?_ ?_ <;> rw [hentry]
    · exact hstate
    · exact Route.request_anyRequested hlegs hsome
  rw [hstart, hgoes, exchange_calm hcalm]
  exact ⟨hcalm, hentry⟩

/-! ## ROUTE-BREAK and ROUTE-CLEAR (R111, R115) -/

/-- The payload that is a tag's number alone names it. -/
theorem parseTag_ofNat (tag : Tag) : parseTag [BitVec.ofNat 8 tag.val] = some tag := by
  have hval : (BitVec.ofNat 8 tag.val).toNat = tag.val := by
    rw [BitVec.toNat_ofNat]
    omega
  simp [parseTag, hval]

theorem offLink_of_driving {s : State} (h : s.driving = true) : s.offLink = false := by
  unfold State.offLink
  rw [h]
  rfl

/-- A ROUTE-BREAK of a MADE route with room for its answer starts the break. -/
theorem orderRouteBreak_of_made {tag : Tag} {s : State} (hdriving : s.driving = true)
    (howed : (s.route tag).owed.length < 2) (hstate : (s.route tag).state = .made) :
    orderRouteBreak [BitVec.ofNat 8 tag.val] s = startRepair .brk .opening .opn Endpoint.standing tag s := by
  have hchecks : (s.route tag).breakRefusal = none := by
    unfold Route.breakRefusal
    rw [hstate]
    exact if_pos howed
  unfold orderRouteBreak acceptBreak
  rw [parseTag_ofNat]
  dsimp only
  rw [offLink_of_driving hdriving, if_neg Bool.false_ne_true, hchecks, hstate]

/-- A ROUTE-CLEAR of a QUARANTINED route with room for its answer starts the clear. -/
theorem orderRouteClear_of_quarantined {tag : Tag} {s : State} (hdriving : s.driving = true)
    (howed : (s.route tag).owed.length < 2) (hstate : (s.route tag).state = .quarantined) :
    orderRouteClear [BitVec.ofNat 8 tag.val] s = startRepair .clear .clearing .forceOpen s.clearable tag s := by
  have hchecks : (s.route tag).clearRefusal = none := by
    unfold Route.clearRefusal
    rw [hstate]
    exact if_pos howed
  unfold orderRouteClear
  rw [parseTag_ofNat]
  dsimp only
  rw [offLink_of_driving hdriving, if_neg Bool.false_ne_true, hchecks]

theorem Endpoint.standing_iff (e : Endpoint) : e.standing = true ↔ e.status = .closed ∨ e.status = .unknown := by
  simp only [Endpoint.standing, Bool.or_eq_true, beq_iff_eq]

/-- On another station a CLEAR addresses what stands, while the station is PRESENT. -/
theorem clearable_iff {s : State} {e : Endpoint} (h : s.isSelf e.station = false) : s.clearable e = true ↔
    (e.status = .closed ∨ e.status = .unknown) ∧ (s.mbu.members.get e.station).state = .present := by
  simp only [State.clearable, h, Bool.false_or, Bool.and_eq_true, Endpoint.standing_iff, beq_iff_eq]

/-- An order that starts the repair of a route, received whole by a station at rest, is that start and the pins. -/
theorem event_repair {code : Byte} {kind : OrderKind} {state : RouteState} {action : Action} {sel : Endpoint → Bool}
    {tag : Tag} {s : State} (h : s.calmOrders = true) (hcode : code ≠ restartCode)
    (hstate : state = .opening ∨ state = .clearing)
    (hremote : ∀ e ∈ (s.route tag).endpoints, s.isSelf e.station = false)
    (hlegs : ∀ l ∈ (s.route tag).legs, l.assigned.isSome = true)
    (hsome : ∃ e ∈ (s.route tag).endpoints, sel e = true)
    (htake : takeOrder ⟨code, [BitVec.ofNat 8 tag.val]⟩ s = startRepair kind state action sel tag s) :
    ∃ t, event (receiveOrder code [BitVec.ofNat 8 tag.val] s.stc.strap) s = updatePins t
      ∧ t.route tag = ((s.route tag).repairing kind state).request action sel := by
  obtain ⟨hrest, hentry⟩ := startRepair_of_remote (kind := kind) (action := action) h hstate hremote hlegs hsome
  have hlength : [BitVec.ofNat 8 tag.val].length ≤ Config.maxPayload := (by decide : 1 ≤ Config.maxPayload)
  exact ⟨_, event_receiveOrder s.stc.strap h hlength hcode htake hrest, hentry⟩

/-- Settles O56: each order passes its checks, and its round addresses the endpoints that stand, for a CLEAR at PRESENT
stations; with an OPERATE to settle it neither ends nor hands anything over. -/
theorem breakAndClearStart : Obligations.BreakAndClearStart := by
  unfold Obligations.BreakAndClearStart
  intro tag s h hdriving howed hremote hlegs
  refine ⟨fun hstate hsome => ?_, fun hstate hsome => ?_⟩
  · have hsel : ∃ e ∈ (s.route tag).endpoints, e.standing = true :=
      hsome.imp fun e => And.imp_right fun hclosed => e.standing_iff.2 (Or.inl hclosed)
    obtain ⟨t, hevent, hentry⟩ := event_repair (code := 0x11) h (by decide) (Or.inl rfl) hremote hlegs hsel
      (orderRouteBreak_of_made hdriving howed hstate)
    exact ⟨_, congrArg Host.Outcome.next hevent, congrArg Route.state hentry, congrArg Route.reason hentry,
      congrArg Route.owed hentry,
      (congrArg Route.endpoints hentry).trans (Route.request_endpoints hlegs fun e _ => e.standing_iff)⟩
  · have hsel : ∃ e ∈ (s.route tag).endpoints, s.clearable e = true := by
      obtain ⟨e, he, hunknown, hpresent⟩ := hsome
      exact ⟨e, he, (clearable_iff (hremote e he)).2 ⟨Or.inr hunknown, hpresent⟩⟩
    obtain ⟨t, hevent, hentry⟩ := event_repair (code := 0x12) h (by decide) (Or.inr rfl) hremote hlegs hsel
      (orderRouteClear_of_quarantined hdriving howed hstate)
    exact ⟨_, congrArg Host.Outcome.next hevent, congrArg Route.state hentry, congrArg Route.reason hentry,
      congrArg Route.owed hentry,
      (congrArg Route.endpoints hentry).trans (Route.request_endpoints hlegs fun e he => clearable_iff (hremote e he))⟩

end Sys2Proof.Machine

/-! PROOFS. Staged routes and the trigger (07 R123 to R128), and the orders that report the state (11 R178): a PERMIT, a
FIRE and a trigger change the armed jobs and the routes that await them; ROUTE-FIRE queues a FIRE; each query is one
report. -/

namespace Sys2Proof.Machine

/-! ## Armed jobs permitted and fired (R123, R126, R128) -/

theorem takePermit_eq (ref : RouteRef) (s : State) : takePermit ref s = { s with
    jbu.jobs := s.jbu.jobs.map fun j =>
      if j.ref = ref ∧ j.state = .armedHeld then { j with state := .permitted } else j } := by
  simp only [takePermit, Bool.and_eq_true, beq_iff_eq]

theorem takeFire_eq (ref : RouteRef) (s : State) : takeFire ref s = { s with
    jbu.jobs := s.jbu.jobs.map fun j =>
      if j.ref = ref ∧ j.state = .permitted then { j with state := .ready, heldArmed := false } else j } := by
  simp only [takeFire, fireJobs, Bool.and_eq_true, beq_iff_eq]

/-- A job as a trigger leaves it: READY where it was PERMITTED, a held ARMED answer going with it (R126, log 34). -/
def Job.fired (j : Job) : Job :=
  if j.state = .permitted then { j with state := .ready, heldArmed := false } else j

theorem fireJobs_all (s : State) : (fireJobs (fun _ => true) s).jbu.jobs = s.jbu.jobs.map Job.fired := by
  unfold Job.fired
  simp only [fireJobs, Bool.true_and, beq_iff_eq]

/-- A PERMIT neither makes a job READY nor takes a READY one away. -/
theorem formationDue_takePermit (ref : RouteRef) (s : State) : (takePermit ref s).formationDue = s.formationDue := by
  have hready : ((takePermit ref s).jbu.jobs.any fun j => j.state == .ready)
      = s.jbu.jobs.any fun j => j.state == .ready := by
    rw [takePermit_eq, List.any_map]
    congr 1
    funext j
    dsimp only [Function.comp]
    split
    · rename_i hheld
      rw [hheld.2]
      rfl
    · rfl
  have heligible : (takePermit ref s).eligible = s.eligible := rfl
  unfold State.formationDue
  rw [hready, heligible, takePermit_cme]

theorem calm_takePermit {s : State} (h : s.calm = true) (ref : RouteRef) : (takePermit ref s).calm = true := by
  obtain ⟨hreset, ⟨hcheck, hform⟩, hrest⟩ := s.calm_spec.1 h
  exact (takePermit ref s).calm_spec.2 ⟨hreset, ⟨hcheck, (formationDue_takePermit ref s).trans hform⟩, hrest⟩

/-- With the CME busy the jobs fired wait for the next formation. -/
theorem calm_takeFire {s : State} (h : s.calm = true) (hbusy : s.cme.engine ≠ .idle) (ref : RouteRef) :
    (takeFire ref s).calm = true :=
  State.calm_of_busy h rfl hbusy rfl rfl rfl rfl rfl rfl rfl rfl

/-! ## Routes permitted and fired (R123, R127, R128) -/

/-- An endpoint of a route fired: REQUESTED where it was ARMED (R127). -/
def Endpoint.fired (e : Endpoint) : Endpoint :=
  if e.status = .armed then { e with status := .requested, request := some ⟨.close, .armed⟩ } else e

/-- A STAGED entry fired: CLOSING, its ARMED endpoints REQUESTED, its reply timer set to `limit`. -/
def Route.fired (limit : Nat) (r : Route) : Route :=
  { r.mapEndpoints (fun _ => Endpoint.fired) with state := .closing, timer := some limit }

theorem Route.fired_endpoints (limit : Nat) (r : Route) :
    (r.fired limit).endpoints = r.endpoints.map Endpoint.fired :=
  Route.mapEndpoints_endpoints (r := r) fun _ _ _ _ => rfl

/-- An endpoint that was ARMED is REQUESTED once its route is fired. -/
theorem Route.fired_anyRequested (limit : Nat) {r : Route} (h : ∃ e ∈ r.endpoints, e.status = .armed) :
    (r.fired limit).anyRequested = true := by
  obtain ⟨e, he, harmed⟩ := h
  rw [Route.anyRequested_iff, Route.fired_endpoints]
  refine ⟨e.fired, List.mem_map_of_mem he, ?_⟩
  rw [Endpoint.fired, if_pos harmed]

theorem fireRoute_of_staged {tag : Tag} {s : State} (h : (s.route tag).state = .staged) :
    fireRoute tag s = modRoute tag (Route.fired s.cfg.replyLimit) s := by
  unfold fireRoute Route.fired Endpoint.fired
  simp only [h, beq_self_eq_true, if_true, beq_iff_eq]

theorem fireRoute_of_not_staged {tag : Tag} {s : State} (h : (s.route tag).state ≠ .staged) : fireRoute tag s = s := by
  unfold fireRoute
  rw [if_neg]
  simpa using h

theorem fireRoute_route (tag tag' : Tag) (s : State) : (fireRoute tag s).route tag' =
    if tag' = tag ∧ (s.route tag').state = .staged then (s.route tag').fired s.cfg.replyLimit else s.route tag' := by
  by_cases hstaged : (s.route tag).state = .staged
  · rw [fireRoute_of_staged hstaged, modRoute_route]
    by_cases htag : tag = tag'
    · subst htag
      rw [if_pos rfl, if_pos ⟨rfl, hstaged⟩]
    · rw [if_neg htag, if_neg fun h => htag h.1.symm]
  · rw [fireRoute_of_not_staged hstaged, if_neg]
    rintro ⟨rfl, h⟩
    exact hstaged h

theorem routesOnly_fireRoute (tag : Tag) (s : State) : RoutesOnly s (fireRoute tag s) := by
  by_cases hstaged : (s.route tag).state = .staged
  · rw [fireRoute_of_staged hstaged]
    exact routesOnly_modRoute (f := Route.fired s.cfg.replyLimit) (fun _ => rfl) tag s
  · rw [fireRoute_of_not_staged hstaged]
    exact RoutesOnly.refl s

theorem routePermitted_of_arming {tag : Tag} {gen : Gen} {s : State} (hgen : (s.route tag).gen = gen)
    (hstate : (s.route tag).state = .arming) :
    routePermitted tag gen s = modRoute tag (fun r => { r with state := .staged }) s := by
  unfold routePermitted
  rw [hgen, hstate, beq_self_eq_true, beq_self_eq_true, Bool.and_self, if_pos rfl]

theorem routeFired_of_staged {tag : Tag} {gen : Gen} {s : State} (hgen : (s.route tag).gen = gen)
    (hstate : (s.route tag).state = .staged) :
    routeFired tag gen s = modRoute tag (Route.fired s.cfg.replyLimit) s := by
  unfold routeFired
  rw [hgen, beq_self_eq_true, if_pos rfl, fireRoute_of_staged hstate]

/-- One route changes, but not the answers it owes, and its timer, if it has one, keeps its cause: the station stays at
rest. -/
theorem calm_modRoute {tag : Tag} {f : Route → Route} {s : State} (h : s.calm = true)
    (howed : ∀ r, (f r).owed = r.owed)
    (htimer : (f (s.route tag)).timer = none ∨ (f (s.route tag)).anyRequested = true) :
    (modRoute tag f s).calm = true := by
  obtain ⟨-, -, hready, -⟩ := s.calm_iff.1 h
  obtain ⟨-, -, -, -, ⟨-, hrounds⟩, -, -⟩ := s.calm_spec.1 h
  refine State.calm_of_route_work (tag := tag) h rfl (le_refl _) ?_ hrounds
    (fun tag' htag => modRoute_route_ne htag _ _) ?_
  · exact placeNextReport_none_congr hready rfl rfl (routesOnly_modRoute howed tag s).owed
  · rw [modRoute_route_self]
    exact htimer

/-! ## PERMIT and FIRE (R123, R128) -/

theorem takePermitMsg_of_driving {ref : RouteRef} {s : State} (hdriving : s.driving = true) :
    takePermitMsg ref s =
      if s.isSelf ref.origin then routePermitted ref.tag ref.gen (takePermit ref s) else takePermit ref s :=
  if_pos hdriving

theorem takeFireMsg_of_driving {ref : RouteRef} {s : State} (hdriving : s.driving = true) :
    takeFireMsg ref s =
      if s.isSelf ref.origin then routeFired ref.tag ref.gen (takeFire ref s) else takeFire ref s :=
  if_pos hdriving

/-- Settles O37: the JBU's change and then, at the sender, its route's; neither leaves work behind, since a PERMIT makes no
job READY, and a FIRE meets a busy CME and gives the timer it sets its cause. -/
theorem permitAndFire : Obligations.PermitAndFire := by
  unfold Obligations.PermitAndFire
  intro sender tag gen s hcalm hdriving
  have hreset := resetHeld_of_calm hcalm
  have hpermit := takePermitMsg_of_driving (ref := ⟨sender, tag, gen⟩) hdriving
  have hfire := takeFireMsg_of_driving (ref := ⟨sender, tag, gen⟩) hdriving
  have hpermitted := calm_takePermit hcalm ⟨sender, tag, gen⟩
  refine ⟨fun hother => ?_, fun hself hgen hstate htimer => ?_, fun hbusy hother => ?_,
    fun hbusy hself hgen hstate harmed => ?_⟩
  · rw [hother, if_neg Bool.false_ne_true] at hpermit
    rw [← takePermit_eq]
    exact congrArg Host.Outcome.next (event_eq hreset hpermit hpermitted)
  · rw [hself, if_pos rfl, routePermitted_of_arming (s := takePermit ⟨sender, tag, gen⟩ s) hgen hstate] at hpermit
    have hrest := calm_modRoute (tag := tag) (f := fun r => { r with state := .staged }) hpermitted (fun _ => rfl)
      (Or.inl htimer)
    have hevent := event_eq hreset hpermit hrest
    rw [takePermit_eq] at hevent
    exact congrArg Host.Outcome.next hevent
  · rw [hother, if_neg Bool.false_ne_true] at hfire
    rw [← takeFire_eq]
    exact congrArg Host.Outcome.next (event_eq hreset hfire (calm_takeFire hcalm hbusy _))
  · rw [hself, if_pos rfl, routeFired_of_staged (s := takeFire ⟨sender, tag, gen⟩ s) hgen hstate] at hfire
    have hrest := calm_modRoute (tag := tag) (f := Route.fired s.cfg.replyLimit)
      (calm_takeFire hcalm hbusy ⟨sender, tag, gen⟩) (fun _ => rfl) (Or.inr (Route.fired_anyRequested _ harmed))
    have hevent := event_eq hreset hfire hrest
    rw [takeFire_eq] at hevent
    exact congrArg Host.Outcome.next hevent

/-! ## The trigger (R125 to R127) -/

theorem RoutesOnly.cfg {s t : State} (h : RoutesOnly s t) : t.cfg = s.cfg := by
  rw [h.rest]
  rfl

/-- The routes that a trigger fires. -/
def fireRoutes (tags : List Tag) (s : State) : State := tags.foldl (fun s tag => fireRoute tag s) s

theorem routesOnly_fireRoutes (tags : List Tag) (s : State) : RoutesOnly s (fireRoutes tags s) := by
  induction tags generalizing s with
  | nil => exact RoutesOnly.refl s
  | cons tag tags ih => exact (routesOnly_fireRoute tag s).trans (ih _)

/-- Every STAGED route named is fired, and no other route changes: a route fired is STAGED no more. -/
theorem fireRoutes_route (tags : List Tag) (tag' : Tag) (s : State) : (fireRoutes tags s).route tag' =
    if tag' ∈ tags ∧ (s.route tag').state = .staged then (s.route tag').fired s.cfg.replyLimit else s.route tag' := by
  induction tags generalizing s with
  | nil => simp [fireRoutes]
  | cons tag tags ih =>
    have hcons : fireRoutes (tag :: tags) s = fireRoutes tags (fireRoute tag s) := rfl
    rw [hcons, ih, fireRoute_route, (routesOnly_fireRoute tag s).cfg]
    by_cases htag : tag' = tag ∧ (s.route tag').state = .staged
    · have hclosing : ((s.route tag').fired s.cfg.replyLimit).state ≠ .staged := RouteState.noConfusion
      rw [if_pos htag, if_neg fun h => hclosing h.2, if_pos ⟨List.mem_cons.2 (Or.inl htag.1), htag.2⟩]
    · have hmem : (tag' ∈ tag :: tags ∧ (s.route tag').state = .staged)
          ↔ (tag' ∈ tags ∧ (s.route tag').state = .staged) := by
        rw [List.mem_cons]
        tauto
      rw [if_neg htag]
      simp only [hmem]

/-- What a trigger does: every PERMITTED job and every STAGED route is fired, and nothing else changes. -/
structure Triggered (s t : State) : Prop where
  rest : t = { s with rte.routes := t.rte.routes, jbu.jobs := t.jbu.jobs }
  jobs : t.jbu.jobs = s.jbu.jobs.map Job.fired
  route : ∀ tag, t.route tag =
    if (s.route tag).state = .staged then (s.route tag).fired s.cfg.replyLimit else s.route tag

theorem triggered_takeTrigger (s : State) : Triggered s (takeTrigger s) := by
  have hfired : takeTrigger s = fireJobs (fun _ => true) (fireRoutes allTags s) := rfl
  have hrest := (routesOnly_fireRoutes allTags s).rest
  have hroute : ∀ tag, (fireRoutes allTags s).route tag =
      if (s.route tag).state = .staged then (s.route tag).fired s.cfg.replyLimit else s.route tag := fun tag => by
    rw [fireRoutes_route]
    simp only [allTags, List.mem_finRange, true_and]
  rw [hfired]
  generalize fireRoutes allTags s = u at hrest hroute
  refine ⟨?_, ?_, hroute⟩
  · rw [hrest]
    rfl
  · rw [fireJobs_all, hrest]

namespace Triggered

variable {s t : State}

theorem owed (h : Triggered s t) (tag : Tag) : (t.route tag).owed = (s.route tag).owed := by
  rw [h.route]
  split <;> rfl

/-- With the CME busy a trigger brings about no work: its event ends with the timers without cause removed. -/
theorem afterEvent (h : Triggered s t) (hcalm : s.calm = true) (hbusy : s.cme.engine ≠ .idle) :
    afterEvent t = updatePins (settleSweepTimer (pruneTimers t)) := by
  obtain ⟨-, -, hreport, horder, -⟩ := s.calm_iff.1 hcalm
  have hcme : t.cme = s.cme := by rw [h.rest]
  have horp : t.orp = s.orp := by rw [h.rest]
  have hwork : commitWork t = none := (commitWork_eq_none t).2 (formationDue_busy (hcme ▸ hbusy))
  exact afterEvent_of_none hwork (placeNextReport_none_congr hreport (by rw [horp]) (by rw [hcme]) h.owed)
    (serveOrder_none_congr horder (by rw [horp]) (by rw [horp]) (by rw [hcme]))

/-- A route fired with an ARMED endpoint keeps the timer that the firing sets. -/
theorem staged_pruned (h : Triggered s t) {tag : Tag} (hstaged : (s.route tag).state = .staged) :
    ((pruneTimers t).route tag).state = .closing
      ∧ ((pruneTimers t).route tag).endpoints = ((s.route tag).fired s.cfg.replyLimit).endpoints
      ∧ ((∃ e ∈ (s.route tag).endpoints, e.status = .armed) →
        ((pruneTimers t).route tag).timer = some s.cfg.replyLimit) := by
  rw [pruneTimers_route, h.route, if_pos hstaged]
  refine ⟨?_, ?_, fun harmed => ?_⟩
  · split <;> rfl
  · split <;> rfl
  · rw [if_pos (Route.fired_anyRequested _ harmed)]
    rfl

/-- A route that was not STAGED is as it was, its timer having its cause. -/
theorem other_pruned (h : Triggered s t) (hcalm : s.calm = true) {tag : Tag} (hother : (s.route tag).state ≠ .staged) :
    (pruneTimers t).route tag = s.route tag := by
  obtain ⟨-, -, -, -, -, htimers, -⟩ := s.calm_spec.1 hcalm
  have hsame : t.route tag = s.route tag := (h.route tag).trans (if_neg hother)
  calc (pruneTimers t).route tag = (pruneTimers s).route tag := by rw [pruneTimers_route, pruneTimers_route, hsame]
    _ = s.route tag := by rw [pruneTimers_of htimers]

end Triggered

/-- The station at the boundary of `slot`, TRIG sampled asserted. -/
def atBoundary (slot : Slot) (s : State) : State :=
  { s with liu.pos := .at slot 0 (s.heardSlot slot), liu.trig := some true }

theorem takeSlotBoundary_of_rise {slot : Slot} {s : State} (hears : s.hears = true)
    (hpos : s.liu.pos.before slot 1 = true) (hown : s.liu.ownSlot = false) (htrig : s.liu.trig = some false) :
    takeSlotBoundary slot true s = takeTrigger (atBoundary slot s) := by
  have hhears : State.hears { s with liu.pos := .at slot 0 (s.heardSlot slot) } = true := hears
  have hrise : (true && s.liu.trig == some false) = true := by rw [htrig]; rfl
  unfold takeSlotBoundary
  rw [if_pos hpos, moveTo_of hown]
  dsimp only
  rw [if_pos hhears]
  exact if_pos hrise

/-- Settles O19: the trigger fires every STAGED route and every PERMITTED job, and the end of the event takes the timer
only of a route fired without an ARMED endpoint. -/
theorem triggerFires : Obligations.TriggerFires := by
  unfold Obligations.TriggerFires
  intro slot s hcalmBusy hears hpos hown htrig
  obtain ⟨hcalm, hbusy⟩ : s.calm = true ∧ s.cme.engine ≠ .idle := by
    simpa only [State.calmBusy, Bool.and_eq_true, bne_iff_ne] using hcalmBusy
  have hrest : (atBoundary slot s).calm = true := State.calm_of_link hcalm rfl
  have htake := takeSlotBoundary_of_rise hears hpos hown htrig
  have htriggered := triggered_takeTrigger (atBoundary slot s)
  generalize takeTrigger (atBoundary slot s) = t at htake htriggered
  have hevent : event (takeSlotBoundary slot true) s = updatePins (settleSweepTimer (pruneTimers t)) := by
    rw [event, resetHeld_of_calm hcalm, if_neg Bool.false_ne_true, htake, htriggered.afterEvent hrest hbusy]
  rw [settleSweepTimer_eq] at hevent
  refine ⟨_, congrArg Host.Outcome.next hevent, htriggered.jobs, fun tag hstaged => ?_,
    fun tag hother => htriggered.other_pruned hrest hother, ?_⟩
  · obtain ⟨hstate, hendpoints, htimer⟩ := htriggered.staged_pruned hstaged
    exact ⟨hstate, hendpoints.trans (Route.fired_endpoints _ _), htimer⟩
  · rw [htriggered.rest]
    exact ⟨rfl, rfl, rfl, rfl, rfl, rfl, rfl⟩

/-! ## ROUTE-FIRE (R128) -/

theorem orderRouteFire_of_staged {tag : Tag} {s : State} (hdriving : s.driving = true)
    (hstate : (s.route tag).state = .staged) (hstands : s.fireStands tag = false) :
    orderRouteFire [BitVec.ofNat 8 tag.val] s
      = accept 0x13 (rteSend (some tag) (.fire tag (s.route tag).gen) s) := by
  unfold orderRouteFire
  rw [parseTag_ofNat]
  dsimp only
  rw [offLink_of_driving hdriving, if_neg Bool.false_ne_true, hstate, if_neg (by decide), if_neg (by decide), hstands,
    if_neg Bool.false_ne_true]

/-- A message that joins the queue, with one report placed, leaves a station at rest that has a place for orders. -/
theorem calm_queued_report {s : State} (h : s.calmOrders = true) (i : QueueItem) (r : Report) :
    (placeReport r { s with liu.queue := s.liu.queue ++ [i] }).calm = true :=
  State.calm_of_link (calm_placeReport h r) rfl

theorem exec_routeFire {tag : Tag} {s : State} (h : s.calmOrders = true) (hdriving : s.driving = true)
    (hstate : (s.route tag).state = .staged) (hstands : s.fireStands tag = false) (hplace : s.queueHasPlace = true) :
    exec (.routeFire [BitVec.ofNat 8 tag.val]) s = .next (updatePins { s with
      liu.queue := s.liu.queue ++ [⟨.fire tag (s.route tag).gen, false⟩],
      orp.reports := s.orp.reports ++ [.answer 0x13 false .none none] }) := by
  have htake := orderRouteFire_of_staged hdriving hstate hstands
  rw [rteSend_of_place hplace] at htake
  exact congrArg Host.Outcome.next (event_receiveOrder s.stc.strap h (by decide : 1 ≤ Config.maxPayload) (by decide)
    htake (calm_queued_report h _ _))

/-! ## The queries (R119, R178) -/

theorem orderRouteQuery_of_tag (tag : Tag) (s : State) : orderRouteQuery [BitVec.ofNat 8 tag.val] s
    = placeReport (.route (queryReport tag (s.route tag))) s := by
  unfold orderRouteQuery
  rw [parseTag_ofNat]

/-- The number of orders waiting in a STATUS-REPORT is 0: the query has left an order FIFO that it alone was in. -/
theorem orderStatusQuery_of_empty {s : State} (h : s.orp.orders = []) : orderStatusQuery [] s
    = placeReport (.status s.stc.station s.stc.strap s.ttu.stale s.ttu.valid s.orp.config.isSome 0
        s.orp.reports.length s.orp.alerts) s := by
  unfold orderStatusQuery
  rw [h]
  rfl

/-- Settles O57: the ROUTE-FIRE passes its checks and its FIRE joins the queue; each query is the one report that it
places. -/
theorem fireAndQuery : Obligations.FireAndQuery := by
  unfold Obligations.FireAndQuery
  intro tag s h
  obtain ⟨-, horders, -⟩ := (calmOrders_iff s).1 h
  refine ⟨exec_routeFire h, ⟨queryReport tag (s.route tag), ?_, rfl, rfl, rfl, rfl, rfl, rfl, rfl⟩, ?_, ?_⟩
  · exact congrArg Host.Outcome.next (event_receiveOrder_report s.stc.strap h (by decide : 1 ≤ Config.maxPayload)
      (by decide) (orderRouteQuery_of_tag tag s))
  · exact congrArg Host.Outcome.next (event_receiveOrder_report (code := 0x20) s.stc.strap h (Nat.zero_le _) (by decide)
      rfl)
  · exact congrArg Host.Outcome.next (event_receiveOrder_report (code := 0x21) s.stc.strap h (Nat.zero_le _) (by decide)
      (orderStatusQuery_of_empty horders))

end Sys2Proof.Machine

/-! PROOFS. The job list (08 R133 to R145): what intake answers and where it places a job, the results that end a job,
an ABANDON, the quiet inputs and the two timers; none of it makes a job READY for an IDLE Commit Engine. -/

namespace Sys2Proof.Machine

/-! ## Rest after a change of the job list -/

/-- A change of the job list that makes no job READY, and of the quiet levels that asserts no input, leaves no formation
due. -/
theorem formationDue_of_jbu {s t : State} (h : s.formationDue = false) (hcme : t.cme = s.cme)
    (hsweep : t.jbu.sweep = s.jbu.sweep)
    (hready : ∀ j ∈ t.jbu.jobs, j.state = .ready → ∃ i ∈ s.jbu.jobs, i.state = .ready)
    (hquiet : ∀ q, quietOk t.jbu.quiet q = true → quietOk s.jbu.quiet q = true) : t.formationDue = false := by
  have heligible : ∀ c, t.eligible c = true → s.eligible c = true := by
    intro c
    unfold State.eligible
    rw [hsweep, Bool.and_eq_true, Bool.or_eq_true, Bool.and_eq_true, Bool.or_eq_true]
    exact And.imp_right (Or.imp_left (hquiet c.quiet))
  rw [Bool.eq_false_iff] at h ⊢
  refine mt (fun hdue => ?_) h
  simp only [State.formationDue, hcme, Bool.and_eq_true, Bool.or_eq_true, List.any_eq_true, beq_iff_eq] at hdue ⊢
  obtain ⟨hengine, hcause⟩ := hdue
  exact ⟨hengine,
    hcause.imp (fun ⟨j, hj, hstate⟩ => hready j hj hstate) fun ⟨c, hc, hmark⟩ => ⟨c, hc, heligible c hmark⟩⟩

/-- The same change, and one of the link, leaves a station at rest. -/
theorem State.calm_of_jbu {s t : State} (h : s.calm = true)
    (ht : t = { s with liu := t.liu, jbu.jobs := t.jbu.jobs, jbu.quiet := t.jbu.quiet })
    (hready : ∀ j ∈ t.jbu.jobs, j.state = .ready → ∃ i ∈ s.jbu.jobs, i.state = .ready)
    (hquiet : ∀ q, quietOk t.jbu.quiet q = true → quietOk s.jbu.quiet q = true) : t.calm = true := by
  obtain ⟨hreset, ⟨hcheck, hform⟩, hrest⟩ := s.calm_spec.1 h
  have hdue : t.formationDue = false :=
    formationDue_of_jbu hform (by rw [ht]) (by rw [ht]) hready hquiet
  rw [ht] at hdue ⊢
  exact State.calm_spec _ |>.2 ⟨hreset, ⟨hcheck, hdue⟩, hrest⟩

theorem State.calmBusy_iff (s : State) : s.calmBusy = true ↔ s.calm = true ∧ s.cme.engine ≠ .idle := by
  rw [State.calmBusy, Bool.and_eq_true, bne_iff_ne]

/-! ## Messages of the Job Unit (R38, R145) -/

theorem enqueue_of_place {s : State} (h : s.queueHasPlace = true) (m : LinkMsg) :
    enqueue m s = { s with liu.queue := s.liu.queue ++ [⟨m, false⟩] } := if_pos h

@[simp] theorem enqueue_jbu (m : LinkMsg) (s : State) : (enqueue m s).jbu = s.jbu := by
  unfold enqueue
  split <;> rfl

theorem calm_enqueue {s : State} (h : s.calm = true) (m : LinkMsg) : (enqueue m s).calm = true := by
  unfold enqueue
  split
  · exact State.calm_of_link h rfl
  · exact h

/-- An answer at intake to another station. -/
theorem answerAtIntake_of_other {q : JobRequest} {s : State} (h : s.isSelf q.ref.origin = false) (code : ResultCode) :
    answerAtIntake q code s = enqueue (resultMsg q.ref q.line q.trunk code) s := by
  rw [answerAtIntake, h, if_neg Bool.false_ne_true]

theorem returnFollowers_of_none {j : Job} {s : State} (h : ∀ c ∈ s.jbu.jobs, j.follower c = false) :
    returnFollowers j s = s := by
  have hnone : s.jbu.jobs.filter j.follower = [] :=
    List.filter_eq_nil_iff.2 fun c hc => by rw [h c hc]; exact Bool.false_ne_true
  rw [returnFollowers, hnone, List.foldl_nil]

/-- The result of a job of another station with no close behind it joins the queue, and the job leaves. -/
theorem returnJob_of_place {j : Job} {code : ResultCode} {s : State} (hdone : j.state = .done code)
    (hother : s.isSelf j.ref.origin = false) (hplace : s.queueHasPlace = true)
    (hfollow : ∀ c ∈ s.jbu.jobs.erase j, j.follower c = false) :
    returnJob false j s = removeJob j (enqueue (resultMsg j.ref j.line j.trunk code) s) := by
  unfold returnJob
  rw [hdone]
  dsimp only
  rw [hother, if_neg Bool.false_ne_true, Bool.false_and, if_neg Bool.false_ne_true, hplace, if_pos rfl]
  refine returnFollowers_of_none ?_
  rw [removeJob_jbu_jobs, enqueue_jbu]
  exact hfollow

/-- With the queue full the job keeps its result. -/
theorem returnJob_of_full {j : Job} {s : State} (hother : s.isSelf j.ref.origin = false)
    (hfull : s.queueHasPlace = false) : returnJob false j s = s := by
  unfold returnJob
  rw [hother, hfull]
  split <;> rfl

/-! ## A job at the end of the list -/

/-- A job joins the list (R133). -/
def appendJob (j : Job) (s : State) : State := { s with jbu.jobs := s.jbu.jobs ++ [j] }

@[simp] theorem appendJob_jbu_jobs (j : Job) (s : State) : (appendJob j s).jbu.jobs = s.jbu.jobs ++ [j] := rfl
@[simp] theorem appendJob_queueHasPlace (j : Job) (s : State) : (appendJob j s).queueHasPlace = s.queueHasPlace := rfl
@[simp] theorem appendJob_isSelf (j : Job) (s : State) (a : Addr) : (appendJob j s).isSelf a = s.isSelf a := rfl

/-- A job that is not READY, or that finds the Commit Engine busy, leaves a station at rest. -/
theorem calm_appendJob {s : State} (h : s.calm = true) {j : Job} (hstate : j.state = .ready → s.cme.engine ≠ .idle) :
    (appendJob j s).calm = true := by
  by_cases hready : j.state = .ready
  · exact State.calm_of_busy h rfl (hstate hready) rfl rfl rfl rfl rfl rfl rfl rfl
  · refine State.calm_of_jbu h rfl (fun i hi histate => ?_) fun _ => id
    rcases List.mem_append.1 hi with hi | hi
    · exact ⟨i, hi, histate⟩
    · rw [List.mem_singleton.1 hi] at histate
      exact absurd histate hready

theorem replaceJob_appendJob {j : Job} {s : State} (hfresh : j ∉ s.jbu.jobs) (new : Job) :
    replaceJob j new (appendJob j s) = appendJob new s := by
  have hkept : s.jbu.jobs.map (fun i => if i == j then new else i) = s.jbu.jobs :=
    (List.map_congr_left fun i hi => if_neg (mt beq_iff_eq.1 (ne_of_mem_of_not_mem hi hfresh))).trans (List.map_id' _)
  unfold replaceJob appendJob
  rw [List.map_append, hkept, List.map_singleton, if_pos (beq_self_eq_true j)]

theorem removeJob_appendJob {j : Job} {s : State} (hfresh : j ∉ s.jbu.jobs) : removeJob j (appendJob j s) = s := by
  have hrest : (s.jbu.jobs ++ [j]).erase j = s.jbu.jobs := by
    rw [List.erase_append_right _ hfresh, List.erase_cons_head, List.append_nil]
  unfold removeJob appendJob
  rw [hrest]

theorem enqueue_appendJob (m : LinkMsg) (j : Job) (s : State) :
    enqueue m (appendJob j s) = appendJob j (enqueue m s) := by
  unfold enqueue
  rw [appendJob_queueHasPlace]
  split <;> rfl

/-- No job of the list is on the crosspoint. -/
def State.noJobOn (s : State) (line : Line) (trunk : Trunk) : Prop :=
  ∀ i ∈ s.jbu.jobs, i.line ≠ line ∨ i.trunk ≠ trunk

theorem State.noJobOn.not_mem {s : State} {i : Job} (h : s.noJobOn i.line i.trunk) : i ∉ s.jbu.jobs := fun hi =>
  (h i hi).elim (· rfl) (· rfl)

/-- A job of another station that ends as soon as it has joined the list, with no job of its crosspoint in the list:
its result joins the queue and it leaves. -/
theorem endJob_appendJob {j : Job} {s : State} (code : ResultCode) (hother : s.isSelf j.ref.origin = false)
    (hplace : s.queueHasPlace = true) (hstate : j.state ≠ .inBatch) (hfree : s.noJobOn j.line j.trunk) :
    endJob code j (appendJob j s) = enqueue (resultMsg j.ref j.line j.trunk code) s := by
  have hdone : j.finish code ∉ s.jbu.jobs := State.noJobOn.not_mem (i := j.finish code) hfree
  have hfollow : ∀ c ∈ (appendJob (j.finish code) s).jbu.jobs.erase (j.finish code),
      (j.finish code).follower c = false := by
    rw [← removeJob_jbu_jobs, removeJob_appendJob hdone]
    refine fun c hc => Bool.eq_false_iff.2 fun hbehind => ?_
    simp only [Job.follower, Bool.and_eq_true, beq_iff_eq] at hbehind
    obtain ⟨⟨⟨⟨-, hline⟩, htrunk⟩, -⟩, -⟩ := hbehind
    exact (hfree c hc).elim (· hline) (· htrunk)
  unfold endJob
  rw [replaceJob_appendJob hfree.not_mem, beq_eq_false_iff_ne.2 hstate,
    returnJob_of_place (j := j.finish code) (s := appendJob (j.finish code) s) rfl hother hplace hfollow,
    enqueue_appendJob, removeJob_appendJob]
  · rfl
  · rw [enqueue_jbu]
    exact hdone

/-! ## Intake (R133 to R136, R121) -/

theorem Job.hasKey_iff (ref : RouteRef) (line : Line) (trunk : Trunk) (action : Action) (j : Job) :
    j.hasKey ref line trunk action = true
      ↔ j.ref = ref ∧ j.line = line ∧ j.trunk = trunk ∧ j.action = some action := by
  simp only [Job.hasKey, Bool.and_eq_true, beq_iff_eq, and_assoc]

/-- The list holds a job of the request's key (R133). -/
def State.hasRequest (s : State) (q : JobRequest) : Prop :=
  ∃ j ∈ s.jbu.jobs, j.ref = q.ref ∧ j.line = q.line ∧ j.trunk = q.trunk ∧ j.action = some q.action

theorem State.hasRequest_iff (s : State) (q : JobRequest) :
    s.hasRequest q ↔ s.jbu.jobs.any (Job.hasKey q.ref q.line q.trunk q.action) = true := by
  simp only [State.hasRequest, List.any_eq_true, Job.hasKey_iff]

theorem intake_of_fault {q : JobRequest} {s : State} (h : s.stc.station = .fault) :
    intake q s = answerAtIntake q .fault s := by
  rw [intake, if_pos (beq_iff_eq.2 h)]

theorem intake_of_full {q : JobRequest} {s : State} (hfault : s.stc.station ≠ .fault) (hplace : s.jobPlace = false) :
    intake q s = answerAtIntake q .busy s := by
  rw [intake, if_neg (mt beq_iff_eq.1 hfault), hplace, Bool.not_false, if_pos rfl]

theorem intake_of_duplicate {q : JobRequest} {s : State} (hfault : s.stc.station ≠ .fault) (hplace : s.jobPlace = true)
    (hdup : s.hasRequest q) : intake q s = s := by
  rw [intake, if_neg (mt beq_iff_eq.1 hfault), hplace, Bool.not_true, if_neg Bool.false_ne_true,
    (s.hasRequest_iff q).1 hdup, if_pos rfl]

/-- A request that no check of R133 answers joins the list; it is placed unless the station is stale. -/
theorem intake_of_fresh {q : JobRequest} {s : State} (hfault : s.stc.station ≠ .fault) (hplace : s.jobPlace = true)
    (hnew : ¬ s.hasRequest q) : intake q s =
      if s.ttu.stale then appendJob (Job.ofRequest q) s
      else placeJob (Job.ofRequest q) (appendJob (Job.ofRequest q) s) := by
  rw [State.hasRequest_iff, Bool.not_eq_true] at hnew
  rw [intake, if_neg (mt beq_iff_eq.1 hfault), hplace, Bool.not_true, if_neg Bool.false_ne_true, hnew,
    if_neg Bool.false_ne_true]
  rfl

theorem ofRequest_not_inBatch (q : JobRequest) : (Job.ofRequest q).state ≠ .inBatch := by
  unfold Job.ofRequest
  simp

/-- The job that a new request becomes is not yet in the list. -/
theorem ofRequest_not_mem {q : JobRequest} {s : State} (hnew : ¬ s.hasRequest q) : Job.ofRequest q ∉ s.jbu.jobs :=
  fun h => hnew ⟨_, h, rfl, rfl, rfl, rfl⟩

theorem armJob_appendJob {j : Job} {s : State} (hfresh : j ∉ s.jbu.jobs) (hother : s.isSelf j.ref.origin = false)
    (hplace : s.queueHasPlace = true) : armJob j (appendJob j s)
      = enqueue (resultMsg j.ref j.line j.trunk .armed) (appendJob { j with state := .armedHeld } s) := by
  unfold armJob
  rw [appendJob_isSelf, hother, if_neg Bool.false_ne_true, appendJob_queueHasPlace, hplace, if_pos rfl,
    replaceJob_appendJob hfresh]

theorem placeByQuiet_of_asserted {j : Job} {s : State} (hfresh : j ∉ s.jbu.jobs)
    (hquiet : quietOk s.jbu.quiet j.quiet = true) :
    placeByQuiet j (appendJob j s) = appendJob { j with state := .ready } s := by
  have hlevel : quietOk (appendJob j s).jbu.quiet j.quiet = true := hquiet
  rw [placeByQuiet, hlevel, if_pos rfl, replaceJob_appendJob hfresh]

theorem placeByQuiet_of_deasserted {j : Job} {s : State} (hfresh : j ∉ s.jbu.jobs)
    (hquiet : quietOk s.jbu.quiet j.quiet = false) :
    placeByQuiet j (appendJob j s) = appendJob (s.quietWaiting j) s := by
  have hlevel : quietOk (appendJob j s).jbu.quiet j.quiet = false := hquiet
  rw [placeByQuiet, hlevel, if_neg Bool.false_ne_true, replaceJob_appendJob hfresh]
  rfl

theorem cancelCloses_appendJob {j : Job} (haction : j.action ≠ some .close) (s : State) :
    cancelCloses j (appendJob j s) = appendJob j (cancelCloses j s) := by
  have hkeep : (j.hasKey j.ref j.line j.trunk .close && j.cancellable) = false := by
    rw [Bool.and_eq_false_iff]
    exact Or.inl (Bool.eq_false_iff.2 fun hkey => haction ((Job.hasKey_iff _ _ _ _ _).1 hkey).2.2.2)
  unfold cancelCloses appendJob
  rw [List.map_append, List.map_singleton, hkeep, if_neg Bool.false_ne_true]

/-- No job on the crosspoint, no close to cancel. -/
theorem cancelCloses_of_free {j : Job} {s : State} (hfree : s.noJobOn j.line j.trunk) : cancelCloses j s = s := by
  unfold cancelCloses
  have hkept : ∀ i ∈ s.jbu.jobs, (if i.hasKey j.ref j.line j.trunk .close && i.cancellable
      then { i.finish .cancelled with behind := j.action } else i) = i := by
    refine fun i hi => if_neg fun hcancel => ?_
    obtain ⟨-, hline, htrunk, -⟩ := (Job.hasKey_iff _ _ _ _ _).1 (Bool.and_eq_true_iff.1 hcancel).1
    exact (hfree i hi).elim (· hline) (· htrunk)
  rw [List.map_congr_left hkept, List.map_id']

/-- The one job of the list is a close of the job's route on its crosspoint that waits: it ends CANCELLED behind it
(R135). -/
theorem cancelCloses_of_single {j c : Job} {s : State} (hjobs : s.jbu.jobs = [c])
    (hkey : c.hasKey j.ref j.line j.trunk .close = true) (hcancel : c.cancellable = true) :
    cancelCloses j s = { s with jbu.jobs := [{ c.finish .cancelled with behind := j.action }] } := by
  unfold cancelCloses
  rw [hjobs, List.map_singleton, hkey, hcancel, Bool.and_self, if_pos rfl]

/-- The checks of R134 before its steps 2 to 4 passed by an OPEN, and by a FORCE-OPEN whose trunk its origin owns. -/
theorem placeJob_of_open {j : Job} {action : Action} {s : State} (harmed : j.armed = false)
    (haction : j.action = some action) (hopen : action ≠ .close)
    (howned : action = .forceOpen → (s.entry j.trunk).ownedBy j.ref.origin = true) : placeJob j s = placeOpen j s := by
  unfold placeJob
  rw [harmed, haction, if_neg Bool.false_ne_true]
  cases action with
  | close => exact absurd rfl hopen
  | opn => rfl
  | forceOpen => exact if_pos (howned rfl)

theorem placeJob_of_not_held {j : Job} {s : State} (harmed : j.armed = false) (haction : j.action = some .forceOpen)
    (howned : (s.entry j.trunk).ownedBy j.ref.origin = false) : placeJob j s = endJob .notHeld j s := by
  unfold placeJob
  rw [harmed, haction, if_neg Bool.false_ne_true]
  dsimp only
  rw [howned, if_neg Bool.false_ne_true]

theorem placeJob_of_armed {j : Job} {s : State} (harmed : j.armed = true) : placeJob j s = armJob j s := if_pos harmed

/-- A crosspoint that is not OPEN has its job placed by its quiet input (R134 step 4), behind the closes it cancels. -/
theorem placeOpen_of_standing {j : Job} {s : State} (haction : j.action ≠ some .close)
    (hstanding : (s.xp j.xp).state ≠ .opn) :
    placeOpen j (appendJob j s) = placeByQuiet j (appendJob j (cancelCloses j s)) := by
  have hclosed : ((appendJob j (cancelCloses j s)).xp j.xp).isOpen = false := beq_eq_false_iff_ne.2 hstanding
  unfold placeOpen
  rw [cancelCloses_appendJob haction]
  dsimp only
  rw [hclosed, Bool.false_and, if_neg Bool.false_ne_true]

/-- An OPEN crosspoint that no job of the list is on has its job end OPENED (R134 step 3). -/
theorem placeOpen_of_opn {j : Job} {s : State} (haction : j.action ≠ some .close) (hstate : j.state ≠ .inBatch)
    (hopn : (s.xp j.xp).state = .opn) (hfree : s.noJobOn j.line j.trunk) :
    placeOpen j (appendJob j s) = endJob .opened j (appendJob j s) := by
  have hopen : ((appendJob j s).xp j.xp).isOpen = true := beq_iff_eq.2 hopn
  have hbatch : (appendJob j s).xpInBatch j.xp = false := by
    refine List.any_eq_false.2 fun i hi hin => ?_
    obtain ⟨hin, hxp⟩ := Bool.and_eq_true_iff.1 hin
    obtain ⟨hline, htrunk⟩ := xpNum_inj.1 (eq_of_beq hxp)
    rcases List.mem_append.1 hi with hi | hi
    · exact (hfree i hi).elim (· hline) (· htrunk)
    · exact hstate (List.mem_singleton.1 hi ▸ eq_of_beq hin)
  unfold placeOpen
  rw [cancelCloses_appendJob haction, cancelCloses_of_free hfree]
  dsimp only
  rw [hopen, hbatch, Bool.not_false, Bool.and_self, if_pos rfl]

/-! ## OPERATE from another station (R133 to R136) -/

/-- An OPERATE for this station is its intake, when that leaves the station at rest. -/
theorem exec_operate {sender target : Addr} {action : Action} {q : JobRequest} {s t : State} (hcalm : s.calm = true)
    (hdriving : s.driving = true) (htarget : s.isSelf target = true) (horigin : q.ref.origin = sender)
    (haction : q.action = action) (harmed : q.armed = true → q.action = .close) (hintake : intake q s = t)
    (ht : t.calm = true) :
    exec (.operate sender target q.line q.trunk action q.ref.tag q.ref.gen q.quiet q.armed) s
      = .next (updatePins t) := by
  subst horigin haction
  have hguard : (s.driving && s.isSelf target && (!q.armed || q.action == .close)) = true := by
    rw [hdriving, htarget, Bool.and_self, Bool.true_and]
    cases hq : q.armed with
    | false => rfl
    | true => rw [harmed hq]; rfl
  have htake : takeOperate q.ref.origin target q s = t := by
    rw [takeOperate, if_pos hguard]
    exact (congrArg exchange hintake).trans (exchange_calm ht)
  exact congrArg Host.Outcome.next (event_eq (resetHeld_of_calm hcalm) htake ht)

/-- Settles O31: intake's first three checks in their order; an answer changes the queue only. -/
theorem operateAnsweredAtIntake : Obligations.OperateAnsweredAtIntake := by
  unfold Obligations.OperateAnsweredAtIntake
  intro sender target q s hcalm hdriving htarget hother horigin harmed
  have hexec := fun t => exec_operate (t := t) hcalm hdriving htarget horigin rfl harmed
  have hforeign : s.isSelf q.ref.origin = false := by rw [horigin]; exact hother
  refine ⟨fun code hcode => ?_, fun hfault hplace hdup => ?_⟩
  · have hintake : intake q s = answerAtIntake q code s := by
      rcases hcode with ⟨hfault, rfl⟩ | ⟨hfault, hfull, rfl⟩
      · exact intake_of_fault hfault
      · exact intake_of_full hfault hfull
    rw [answerAtIntake_of_other hforeign] at hintake
    subst horigin
    exact hexec _ hintake (calm_enqueue hcalm _)
  · exact hexec s (intake_of_duplicate hfault hplace hdup) hcalm

/-- Settles O32: the close joins the list, and stays there in the state that R136, R121 or R134 step 4 gives it, which
starts nothing while the Commit Engine is busy. -/
theorem operateClosePlaced : Obligations.OperateClosePlaced := by
  unfold Obligations.OperateClosePlaced
  intro sender target q s hrest hdriving htarget hother horigin haction hfault hplace hunlike
  obtain ⟨hcalm, hbusy⟩ := s.calmBusy_iff.1 hrest
  have hexec := fun t => exec_operate (t := t) hcalm hdriving htarget horigin haction fun _ => haction
  have hforeign : s.isSelf q.ref.origin = false := by rw [horigin]; exact hother
  have hnew : ¬ s.hasRequest q := fun ⟨j, hj, href, hline, htrunk, hact⟩ =>
    hunlike j hj ⟨href, hline, htrunk, haction ▸ hact⟩
  have hfresh := ofRequest_not_mem hnew
  have hintake := intake_of_fresh hfault hplace hnew
  have hjoined : ∀ j, (appendJob j s).calm = true := fun j => calm_appendJob hcalm fun _ => hbusy
  have hclose := fun harmed : q.armed = false =>
    placeJob_close (j := Job.ofRequest q) (s := appendJob (Job.ofRequest q) s) harmed (congrArg some haction)
  refine ⟨fun hstale => ?_, fun hstale harmed hquiet => ?_, fun hstale harmed hquiet => ?_,
    fun hstale harmed hqueue => ?_⟩ <;> rw [hstale] at hintake
  · exact hexec _ hintake (hjoined _)
  · exact hexec _ (hintake.trans ((hclose harmed).trans (placeByQuiet_of_asserted hfresh hquiet))) (hjoined _)
  · exact hexec _ (hintake.trans ((hclose harmed).trans (placeByQuiet_of_deasserted hfresh hquiet))) (hjoined _)
  · have harm := hintake.trans ((placeJob_of_armed harmed).trans (armJob_appendJob hfresh hforeign hqueue))
    have hplaced : (appendJob { Job.ofRequest q with state := .armedHeld } s).queueHasPlace = true := hqueue
    have hout := hexec _ harm (calm_enqueue (hjoined _) _)
    rw [enqueue_of_place hplaced] at hout
    subst horigin
    exact hout

/-! ## OPERATE OPEN and FORCE-OPEN (R134, R135, R138) -/

/-- An OPEN or FORCE-OPEN that joins the list and is placed at once. -/
structure TakesOpen (q : JobRequest) (s : State) : Prop where
  station : s.stc.station ≠ .fault
  place : s.jobPlace = true
  table : s.ttu.stale = false
  opens : q.action ≠ .close
  unarmed : q.armed = false
  fresh : ¬ s.hasRequest q

namespace TakesOpen

variable {q : JobRequest} {s : State}

theorem action (h : TakesOpen q s) : (Job.ofRequest q).action ≠ some .close := fun hclose =>
  h.opens (Option.some.inj hclose)

theorem intake (h : TakesOpen q s) : intake q s = placeJob (Job.ofRequest q) (appendJob (Job.ofRequest q) s) := by
  rw [intake_of_fresh h.station h.place h.fresh, h.table, if_neg Bool.false_ne_true]

theorem intake_of_owned (h : TakesOpen q s)
    (howned : q.action = .forceOpen → (s.entry q.trunk).ownedBy q.ref.origin = true) :
    Machine.intake q s = placeOpen (Job.ofRequest q) (appendJob (Job.ofRequest q) s) :=
  h.intake.trans (placeJob_of_open h.unarmed rfl h.opens howned)

/-- A job that ends at its placing is answered, and nothing else is left of it. -/
theorem endJob_placed (hother : s.isSelf q.ref.origin = false) (hqueue : s.queueHasPlace = true)
    (hfree : s.noJobOn q.line q.trunk) (code : ResultCode) :
    endJob code (Job.ofRequest q) (appendJob (Job.ofRequest q) s) = enqueue (resultMsg q.ref q.line q.trunk code) s :=
  endJob_appendJob (j := Job.ofRequest q) code hother hqueue (ofRequest_not_inBatch q) hfree

/-- A FORCE-OPEN whose trunk its origin does not own (R134 step 1). -/
theorem intake_of_not_owned (h : TakesOpen q s) (hother : s.isSelf q.ref.origin = false)
    (hqueue : s.queueHasPlace = true) (hfree : s.noJobOn q.line q.trunk) (hforce : q.action = .forceOpen)
    (howned : (s.entry q.trunk).ownedBy q.ref.origin = false) :
    Machine.intake q s = enqueue (resultMsg q.ref q.line q.trunk .notHeld) s :=
  h.intake.trans ((placeJob_of_not_held h.unarmed (congrArg some hforce) howned).trans
    (endJob_placed hother hqueue hfree .notHeld))

/-- The crosspoint is OPEN (R134 step 3). -/
theorem intake_of_opn (h : TakesOpen q s) (hother : s.isSelf q.ref.origin = false) (hqueue : s.queueHasPlace = true)
    (hfree : s.noJobOn q.line q.trunk)
    (howned : q.action = .forceOpen → (s.entry q.trunk).ownedBy q.ref.origin = true)
    (hopn : (s.xp (xpNum q.line q.trunk)).state = .opn) :
    Machine.intake q s = enqueue (resultMsg q.ref q.line q.trunk .opened) s :=
  (h.intake_of_owned howned).trans ((placeOpen_of_opn h.action (ofRequest_not_inBatch q) hopn hfree).trans
    (endJob_placed hother hqueue hfree .opened))

/-- The crosspoint is not OPEN (R134 steps 2 and 4). -/
theorem intake_of_standing (h : TakesOpen q s)
    (howned : q.action = .forceOpen → (s.entry q.trunk).ownedBy q.ref.origin = true)
    (hstanding : (s.xp (xpNum q.line q.trunk)).state ≠ .opn) : Machine.intake q s
      = placeByQuiet (Job.ofRequest q) (appendJob (Job.ofRequest q) (cancelCloses (Job.ofRequest q) s)) :=
  (h.intake_of_owned howned).trans (placeOpen_of_standing h.action hstanding)

end TakesOpen

/-- Settles O33: a FORCE-OPEN without its trunk and an open of an OPEN crosspoint end as soon as they join the list; any
other open is placed by its quiet input, behind the close it cancels. -/
theorem operateOpenAnswered : Obligations.OperateOpenAnswered := by
  unfold Obligations.OperateOpenAnswered
  intro sender target q s hcalm hdriving htarget hother horigin hopens hunarmed hfault hstale hplace
  subst horigin
  have hexec := fun t => exec_operate (t := t) hcalm hdriving htarget rfl rfl fun harmed =>
    absurd (hunarmed.symm.trans harmed) Bool.false_ne_true
  refine ⟨fun hfree => ?_, fun c hjobs href hline htrunk hclose hcancel howned hstanding hbusy hquiet => ?_⟩
  · have hnew : ¬ s.hasRequest q := fun ⟨j, hj, _, hline, htrunk, _⟩ => (hfree j hj).elim (· hline) (· htrunk)
    have htakes : TakesOpen q s := ⟨hfault, hplace, hstale, hopens, hunarmed, hnew⟩
    have hfresh := ofRequest_not_mem hnew
    have hstands := htakes.intake_of_standing
    rw [cancelCloses_of_free (j := Job.ofRequest q) hfree] at hstands
    refine ⟨fun hqueue hforce howned => ?_, fun hqueue howned hopn => ?_, fun howned hstanding hbusy hquiet => ?_,
      fun howned hstanding hquiet => ?_⟩
    · rw [← enqueue_of_place hqueue]
      exact hexec _ (htakes.intake_of_not_owned hother hqueue hfree hforce howned) (calm_enqueue hcalm _)
    · rw [← enqueue_of_place hqueue]
      exact hexec _ (htakes.intake_of_opn hother hqueue hfree howned hopn) (calm_enqueue hcalm _)
    · exact hexec _ ((hstands howned hstanding).trans (placeByQuiet_of_asserted hfresh hquiet))
        (calm_appendJob hcalm fun _ => hbusy)
    · exact hexec _ ((hstands howned hstanding).trans (placeByQuiet_of_deasserted hfresh hquiet))
        (calm_appendJob hcalm fun h => by cases h)
  · have hdiffers : c.action ≠ some q.action := fun h => hopens (Option.some.inj (h.symm.trans hclose))
    have hnew : ¬ s.hasRequest q := by
      rintro ⟨j, hj, -, -, -, hact⟩
      rw [hjobs, List.mem_singleton] at hj
      exact hdiffers (hj ▸ hact)
    have htakes : TakesOpen q s := ⟨hfault, hplace, hstale, hopens, hunarmed, hnew⟩
    have hintake := htakes.intake_of_standing howned hstanding
    have hkey : c.hasKey q.ref q.line q.trunk .close = true :=
      (Job.hasKey_iff _ _ _ _ _).2 ⟨href, hline, htrunk, hclose⟩
    rw [cancelCloses_of_single (j := Job.ofRequest q) hjobs hkey hcancel, placeByQuiet_of_asserted (fun h => ?_) hquiet]
      at hintake
    · exact hexec _ hintake (State.calm_of_busy hcalm rfl hbusy rfl rfl rfl rfl rfl rfl rfl rfl)
    · exact hdiffers (congrArg Job.action (List.mem_singleton.1 h)).symm

/-! ## Jobs that end together (R138, R140) -/

/-- A job as a verdict leaves it. -/
def Job.ended (verdict : Job → Option ResultCode) (j : Job) : Job := ((verdict j).map fun c => j.finish c).getD j

theorem Job.ended_of_none {verdict : Job → Option ResultCode} {j : Job} (h : verdict j = none) :
    j.ended verdict = j := by
  rw [Job.ended, h]
  rfl

theorem Job.ended_of_some {verdict : Job → Option ResultCode} {j : Job} {code : ResultCode}
    (h : verdict j = some code) : j.ended verdict = j.finish code := by
  rw [Job.ended, h]
  rfl

/-- With the queue full the jobs of other stations that end keep their results. -/
theorem endJobs_of_full {verdict : Job → Option ResultCode} {s : State} (hfull : s.queueHasPlace = false)
    (hexchange : exchangeStep s = none)
    (hends : ∀ j ∈ s.jbu.jobs, ∀ code, verdict j = some code → j.state ≠ .inBatch ∧ s.isSelf j.ref.origin = false) :
    endJobs verdict s = { s with jbu.jobs := s.jbu.jobs.map (Job.ended verdict) } := by
  unfold endJobs
  refine foldl_eq_self fun p hp => ?_
  obtain ⟨j, hj, hended⟩ := List.mem_filterMap.1 hp
  obtain ⟨code, hcode, rfl⟩ := Option.map_eq_some_iff.1 hended
  obtain ⟨hstate, hother⟩ := hends j hj code hcode
  have hkept : ∀ js : List Job, returnJob false (j.finish code) { s with jbu.jobs := js } = { s with jbu.jobs := js } :=
    fun js => returnJob_of_full (j := j.finish code) (s := { s with jbu.jobs := js }) hother hfull
  dsimp only
  rw [beq_eq_false_iff_ne.2 hstate, hkept]
  exact exchange_of_none ((exchangeStep_eq_none _).2 ((exchangeStep_eq_none s).1 hexchange))

/-- The one job of the list ends and its result finds a place. -/
theorem endJobs_of_single {verdict : Job → Option ResultCode} {j : Job} {code : ResultCode} {s : State}
    (hjobs : s.jbu.jobs = [j]) (hverdict : verdict j = some code) (hstate : j.state ≠ .inBatch)
    (hother : s.isSelf j.ref.origin = false) (hplace : s.queueHasPlace = true) (hexchange : exchangeStep s = none) :
    endJobs verdict s = { s with
      jbu.jobs := [],
      liu.queue := s.liu.queue ++ [⟨resultMsg j.ref j.line j.trunk code, false⟩] } := by
  have hended : (s.jbu.jobs.filterMap fun i => (verdict i).map fun c => (i.state == .inBatch, i.finish c))
      = [(false, j.finish code)] := by
    rw [hjobs, List.filterMap_cons, hverdict, ← beq_eq_false_iff_ne.2 hstate]
    rfl
  have hjobs' : s.jbu.jobs.map (fun i => ((verdict i).map fun c => i.finish c).getD i) = [j.finish code] := by
    rw [hjobs, List.map_singleton, hverdict]
    rfl
  have hlast : [j.finish code].erase (j.finish code) = [] := List.erase_cons_head _ _
  have hfollow : ∀ c ∈ [j.finish code].erase (j.finish code), (j.finish code).follower c = false := by
    rw [hlast]
    exact fun c hc => absurd hc List.not_mem_nil
  have hreturn := returnJob_of_place (j := j.finish code) (s := { s with jbu.jobs := [j.finish code] }) rfl hother
    hplace hfollow
  rw [enqueue_of_place (s := { s with jbu.jobs := [j.finish code] }) hplace, removeJob] at hreturn
  dsimp only at hreturn
  rw [hlast] at hreturn
  unfold endJobs
  rw [hended, hjobs']
  dsimp only [List.foldl_cons, List.foldl_nil]
  rw [hreturn]
  exact exchange_of_none ((exchangeStep_eq_none _).2 ((exchangeStep_eq_none s).1 hexchange))

/-! ## ABANDON (R140) -/

/-- The verdict of an ABANDON. -/
def abandonVerdict (ref : RouteRef) (j : Job) : Option ResultCode :=
  if j.ref == ref && j.action == some .close && j.cancellable then some .cancelled else none

theorem takeAbandon_eq (ref : RouteRef) (s : State) : takeAbandon ref s = endJobs (abandonVerdict ref) s := rfl

theorem Job.cancellable_not_inBatch {j : Job} (h : j.cancellable = true) : j.state ≠ .inBatch := by
  intro hstate
  rw [Job.cancellable, hstate, Bool.and_eq_true] at h
  exact absurd h.2 (by decide)

theorem abandonVerdict_eq (ref : RouteRef) (j : Job) : abandonVerdict ref j =
    if j.ref = ref ∧ j.action = some .close ∧ j.cancellable = true then some .cancelled else none := by
  simp only [abandonVerdict, Bool.and_eq_true, beq_iff_eq, and_assoc]

theorem Job.ended_abandon (ref : RouteRef) (j : Job) : j.ended (abandonVerdict ref) =
    if j.ref = ref ∧ j.action = some .close ∧ j.cancellable = true then j.finish .cancelled else j := by
  split
  · rename_i hnamed
    exact Job.ended_of_some (by rw [abandonVerdict_eq, if_pos hnamed])
  · rename_i hnamed
    exact Job.ended_of_none (by rw [abandonVerdict_eq, if_neg hnamed])

theorem takeAbandonMsg_of_driving {ref : RouteRef} {s : State} (hdriving : s.driving = true) :
    takeAbandonMsg ref s = takeAbandon ref s := if_pos hdriving

/-- Settles O36: the jobs that an ABANDON ends are not in a batch and of another station, so their results wait while
the queue is full, and the one of a single job joins it; no job becomes READY. -/
theorem abandonCancelsCloses : Obligations.AbandonCancelsCloses := by
  unfold Obligations.AbandonCancelsCloses
  intro sender tag gen s hcalm hdriving hother
  obtain ⟨hreset, -, -, -, hexchange, -, -⟩ := s.calm_iff.1 hcalm
  have hexec : ∀ {t : State}, takeAbandon ⟨sender, tag, gen⟩ s = t → t.calm = true →
      exec (.abandon sender tag gen) s = .next (updatePins t) := fun ht hrest =>
    congrArg Host.Outcome.next (event_eq hreset ((takeAbandonMsg_of_driving hdriving).trans ht) hrest)
  refine ⟨fun hfull => ?_, fun j hjobs href haction hcancel hplace => ?_⟩
  · have hends : ∀ j ∈ s.jbu.jobs, ∀ code, abandonVerdict ⟨sender, tag, gen⟩ j = some code →
        j.state ≠ .inBatch ∧ s.isSelf j.ref.origin = false := by
      intro j _ code hcode
      rw [abandonVerdict_eq, Option.ite_none_right_eq_some] at hcode
      obtain ⟨⟨href, -, hcancel⟩, -⟩ := hcode
      exact ⟨Job.cancellable_not_inBatch hcancel, by rw [href]; exact hother⟩
    have htake := endJobs_of_full hfull hexchange hends
    rw [funext (Job.ended_abandon _)] at htake
    refine hexec htake (State.calm_of_jbu hcalm rfl (fun i hi hready => ?_) fun _ => id)
    obtain ⟨j, hj, rfl⟩ := List.mem_map.1 hi
    split at hready
    · cases hready
    · exact ⟨j, hj, hready⟩
  · have hverdict : abandonVerdict ⟨sender, tag, gen⟩ j = some .cancelled := by
      rw [abandonVerdict_eq, if_pos ⟨href, haction, hcancel⟩]
    have htake := endJobs_of_single hjobs hverdict (Job.cancellable_not_inBatch hcancel) (by rw [href]; exact hother)
      hplace hexchange
    rw [resultMsg, href] at htake
    exact hexec htake (State.calm_of_jbu hcalm rfl (fun i hi => absurd hi List.not_mem_nil) fun _ => id)

/-! ## The quiet inputs (R137) -/

theorem takeQuiet_deasserted (q : Fin 4) (s : State) :
    takeQuiet q false s = { s with jbu.quiet := s.jbu.quiet &&& ~~~(1#4 <<< q.val) } := rfl

theorem takeQuiet_asserted (q : Fin 4) (s : State) : takeQuiet q true s = { s with
    jbu.quiet := s.jbu.quiet ||| (1#4 <<< q.val),
    jbu.jobs := s.jbu.jobs.map fun j =>
      if j.state = .quietWait ∧ quietInput j.quiet = some q then { j with state := .ready } else j } := by
  simp only [takeQuiet, Bool.and_eq_true, beq_iff_eq, if_true]

/-- With fewer inputs asserted fewer quiet indices are satisfied. -/
theorem quietOk_of_and {levels mask : BitVec 4} {q : QuietIndex} (h : quietOk (levels &&& mask) q = true) :
    quietOk levels q = true := by
  unfold quietOk at h ⊢
  cases hq : quietInput q with
  | none => rfl
  | some i =>
    rw [hq] at h
    dsimp only at h ⊢
    rw [BitVec.getLsbD_and, Bool.and_eq_true] at h
    exact h.1

/-- Settles O38: a deasserted input satisfies no further quiet index, and the jobs that an asserted one makes READY meet
a busy Commit Engine. -/
theorem quietChangeMovesJobs : Obligations.QuietChangeMovesJobs := by
  unfold Obligations.QuietChangeMovesJobs
  intro q s hcalm
  have hreset := resetHeld_of_calm hcalm
  refine ⟨?_, fun hbusy => ?_⟩
  · exact congrArg Host.Outcome.next (event_eq hreset (takeQuiet_deasserted q s)
      (State.calm_of_jbu hcalm rfl (fun j hj hready => ⟨j, hj, hready⟩) fun _ => quietOk_of_and))
  · exact congrArg Host.Outcome.next (event_eq hreset (takeQuiet_asserted q s)
      (State.calm_of_busy hcalm rfl hbusy rfl rfl rfl rfl rfl rfl rfl rfl))

/-! ## The hot-wait counters and the sweep timer (R138, R143) -/

/-- The one job of the list, in QUIET-WAIT, comes to the end of its hot wait. -/
theorem expireHotWait_of_single {j : Job} {action : Action} {s : State} (hjobs : s.jbu.jobs = [j])
    (hstate : j.state = .quietWait) (haction : j.action = some action) (hother : s.isSelf j.ref.origin = false)
    (hplace : s.queueHasPlace = true) (hexchange : exchangeStep s = none) :
    expireHotWait j.ref j.line j.trunk action s = { s with
      jbu.jobs := [],
      liu.queue := s.liu.queue ++ [⟨resultMsg j.ref j.line j.trunk .hot, false⟩] } := by
  have hnamed : ∀ n, (Job.hasKey j.ref j.line j.trunk action { j with counter := n } && j.state == .quietWait) = true :=
    fun n => Bool.and_eq_true_iff.2 ⟨(Job.hasKey_iff _ _ _ _ _).2 ⟨rfl, rfl, rfl, haction⟩, beq_iff_eq.2 hstate⟩
  have hcounted : s.jbu.jobs.map (fun i => if i.hasKey j.ref j.line j.trunk action && i.state == .quietWait
      then { i with counter := some 0 } else i) = [{ j with counter := some 0 }] := by
    rw [hjobs, List.map_singleton, if_pos (hnamed j.counter)]
  unfold expireHotWait
  dsimp only
  rw [hcounted]
  refine endJobs_of_single (j := { j with counter := some 0 }) rfl (if_pos (hnamed _)) ?_ hother hplace
    ((exchangeStep_eq_none _).2 ((exchangeStep_eq_none s).1 hexchange))
  rw [hstate]
  decide

/-- Settles O40: the job that leaves frees no work, and a sweep timer that runs at rest has a mark as its cause. -/
theorem waitAndSweepTimersExpire : Obligations.WaitAndSweepTimersExpire := by
  unfold Obligations.WaitAndSweepTimersExpire
  refine fun s => ⟨fun j action hcalm hjobs hstate haction hother hplace => ?_, fun n hrest hsweep => ?_⟩
  · obtain ⟨hreset, -, -, -, hexchange, -, -⟩ := s.calm_iff.1 hcalm
    exact congrArg Host.Outcome.next (event_eq hreset
      (expireHotWait_of_single hjobs hstate haction hother hplace hexchange)
      (State.calm_of_jbu hcalm rfl (fun i hi => absurd hi List.not_mem_nil) fun _ => id))
  · obtain ⟨hcalm, hbusy⟩ := s.calmBusy_iff.1 hrest
    obtain ⟨hreset, -, hreports, horders, hexchange, htimers, hmark⟩ := s.calm_spec.1 hcalm
    have hmarked : s.anyMark = true := hmark.resolve_right fun h => by
      rw [hsweep] at h
      cases h
    have htake : takeSweepExpiry s = { s with jbu.sweep := .expired } := by
      rw [takeSweepExpiry, hsweep]
    have hquiet : State.calm { s with jbu.sweep := .expired } = true :=
      State.calm_spec _ |>.2 ⟨hreset, formationDue_busy (s := { s with jbu.sweep := .expired }) hbusy, hreports,
        horders, hexchange, htimers, Or.inl hmarked⟩
    exact congrArg Host.Outcome.next (event_eq hreset htake hquiet)

end Sys2Proof.Machine

/-! PROOFS. The Commit Engine at work (09 R146 to R159): what leaves a station at rest when the engine moves on, the
settle times, and the order CHECK. -/

namespace Sys2Proof.Machine

/-! ## Rest after a move of the Commit Engine -/

theorem anyMark_eq_false (s : State) : s.anyMark = false ↔ ∀ x, (s.xp x).marked = false := by
  have hany : s.anyMark = true ↔ ∃ x, (s.xp x).marked = true := by
    rw [State.anyMark, List.any_eq_true]
    exact ⟨fun ⟨c, hc, hmark⟩ => (Table.exists_get hc).imp fun x hx => by rw [State.xp, hx]; exact hmark,
      fun ⟨x, hmark⟩ => ⟨_, s.cme.xps.get_mem x, hmark⟩⟩
  rw [Bool.eq_false_iff, ne_eq, hany, not_exists]
  simp only [Bool.not_eq_true]

/-- Without a mark the sweep timer of a station at rest is absent (R143, "No marks"). -/
theorem sweep_absent_of_calm {s : State} (h : s.calm = true) (hmark : s.anyMark = false) : s.jbu.sweep = .absent := by
  obtain ⟨-, -, -, -, -, -, hsweep⟩ := s.calm_spec.1 h
  exact hsweep.resolve_left (ne_true_of_eq_false hmark)

/-- A sweep mark that stands makes no crosspoint eligible where none is marked. -/
theorem eligible_eq_false {s : State} {c : Crosspoint} (h : c.marked = false) : s.eligible c = false := by
  rw [State.eligible, h, Bool.false_and]

/-- No CHECK, no READY job and no mark: nothing for an IDLE Commit Engine to take (R150, R159). -/
theorem nothing_due {s : State} (hcheck : s.cme.check = none) (hready : ∀ j ∈ s.jbu.jobs, j.state ≠ .ready)
    (hmark : s.anyMark = false) : s.checkDue = false ∧ s.formationDue = false := by
  have hjobs : (s.jbu.jobs.any fun j => j.state == .ready) = false :=
    List.any_eq_false.2 fun j hj => mt beq_iff_eq.1 (hready j hj)
  have hxps : s.cme.xps.cells.any s.eligible = false := by
    refine List.any_eq_false.2 fun c hc => ne_true_of_eq_false (eligible_eq_false ?_)
    obtain ⟨x, rfl⟩ := Table.exists_get hc
    exact (anyMark_eq_false s).1 hmark x
  rw [State.checkDue, State.formationDue, hcheck, hjobs, hxps]
  simp

/-- Work on the records, the jobs, the queue, the reports and the alerts leaves a station at rest when it leaves as many
places in the report FIFO, nothing due and no sweep timer without a mark. -/
theorem State.calm_of_work {s t : State} (h : s.calm = true) (hstc : t.stc = s.stc) (hrte : t.rte = s.rte)
    (hqueue : t.orp.orders = s.orp.orders) (hplace : t.placeFree = s.placeFree)
    (hdue : t.checkDue = false ∧ t.formationDue = false) (hsweep : t.anyMark = true ∨ t.jbu.sweep = .absent) :
    t.calm = true := by
  obtain ⟨hreset, -, hready, horders, hexchange, htimers, -⟩ := s.calm_spec.1 h
  have hroute : ∀ tag, t.route tag = s.route tag := fun tag => by rw [State.route, State.route, hrte]
  refine t.calm_spec.2 ⟨hstc ▸ hreset, hdue, ?_, ?_, hrte ▸ hexchange, fun tag => hroute tag ▸ htimers tag, hsweep⟩
  · exact hplace ▸ hready.imp_right fun hnone tag => hroute tag ▸ hnone tag
  · exact hplace ▸ hqueue ▸ horders

/-! ## Settle times (R147, R149) -/

/-- The end of a drive pass with a good marker is DLAT and the settle time of the stroke. -/
theorem drivePassEnd_of_good {sin : PassBits} {s : State} (hmarker : passMarkerGood sin = true) :
    (s.cme.engine = .openDrive → drivePassEnd sin s
      = enterSettle .releaseSettle s.cfg.releaseExp { s with cme.coils := s.cme.drive })
    ∧ (s.cme.engine = .closeDrive → drivePassEnd sin s
      = enterSettle .operateSettle s.cfg.operateExp { s with cme.coils := s.cme.drive }) := by
  unfold drivePassEnd
  constructor <;> intro hengine <;> rw [hengine, hmarker] <;> rfl

theorem settleExpiry_of {during next : Engine} {s : State} (h : s.cme.engine = during) :
    settleExpiry during next s = enterEngine next s := if_pos (beq_iff_eq.2 h)

/-- With no CHECK, no READY job and no mark, an event after which the Commit Engine is IDLE has nothing left to do. -/
theorem calm_enterEngine_idle {s : State} (h : s.calm = true) (hcheck : s.cme.check = none)
    (hready : ∀ j ∈ s.jbu.jobs, j.state ≠ .ready) (hmark : s.anyMark = false) : (enterEngine .idle s).calm = true :=
  State.calm_of_work (s := s) h rfl rfl rfl rfl (nothing_due (s := enterEngine .idle s) hcheck hready hmark)
    (Or.inr (sweep_absent_of_calm (s := s) h hmark))

/-- Settles O44: a pass or a settle time that follows keeps the Commit Engine busy, and at the last expiry nothing is
due. -/
theorem strokeTimesMoveEngine : Obligations.StrokeTimesMoveEngine := by
  unfold Obligations.StrokeTimesMoveEngine
  intro s hcalm
  have hreset := resetHeld_of_calm hcalm
  have hbusy : ∀ t : State, t = { s with
      cme.coils := t.cme.coils, cme.engine := t.cme.engine, cme.settle := t.cme.settle, cme.dout := t.cme.dout } →
      t.cme.engine ≠ .idle → t.calm = true := by
    intro t ht hengine
    rw [ht]
    exact State.calm_of_busy hcalm rfl hengine rfl rfl rfl rfl rfl rfl rfl rfl
  refine ⟨fun sin hmarker hengine => ?_, fun sin hmarker hengine => ?_, fun hengine => ?_, fun hengine => ?_,
    fun hengine hcheck hready hmark => ?_⟩
  · exact congrArg Host.Outcome.next (event_eq hreset ((drivePassEnd_of_good hmarker).1 hengine)
      (hbusy _ rfl Engine.noConfusion))
  · exact congrArg Host.Outcome.next (event_eq hreset ((drivePassEnd_of_good hmarker).2 hengine)
      (hbusy _ rfl Engine.noConfusion))
  · exact congrArg Host.Outcome.next (event_eq hreset (settleExpiry_of hengine) (hbusy _ rfl Engine.noConfusion))
  · exact congrArg Host.Outcome.next (event_eq hreset (settleExpiry_of hengine) (hbusy _ rfl Engine.noConfusion))
  · exact congrArg Host.Outcome.next (event_eq hreset (settleExpiry_of hengine)
      (calm_enterEngine_idle hcalm hcheck hready hmark))

/-! ## CHECK, and codes that name no order (R159, R176) -/

theorem parseLine_ofNat (l : Line) : parseLine [BitVec.ofNat 8 l.val] = some l := parseLine_eq_some.2 rfl

/-- A CHECK of a line goes through the checks of R159 in their order. -/
theorem orderCheck_of_line (l : Line) (s : State) : orderCheck [BitVec.ofNat 8 l.val] s =
    if s.stc.station = .clash then refuse checkCode .notOnline s
    else if s.cme.check.isSome then refuse checkCode .busy s
    else { s with cme.check := some ⟨l, false⟩ } := by
  unfold orderCheck
  rw [parseLine_ofNat]
  simp only [beq_iff_eq]

/-- A CHECK that a busy Commit Engine holds starts nothing, and its place is reserved where one was free. -/
theorem calm_heldCheck {s : State} (h : s.calmOrders = true) (hbusy : s.cme.engine ≠ .idle) (k : CheckOrder) :
    ({ s with cme.check := some k } : State).calm = true := by
  obtain ⟨hcalm, horders, -⟩ := (calmOrders_iff s).1 h
  obtain ⟨hreset, -, -, -, hexchange, htimers, hsweep⟩ := s.calm_spec.1 hcalm
  exact (State.calm_spec _).2 ⟨hreset, formationDue_busy (s := { s with cme.check := some k }) hbusy,
    Or.inr (headReady_of_calmOrders (s := s) h), Or.inl horders, hexchange, htimers, hsweep⟩

theorem takeOrder_of_unknown {code : Byte} {p : List Byte} (h : code ∉ orderCodes) (s : State) :
    takeOrder ⟨code, p⟩ s = refuse code .badOrder s := by
  simp_all [orderCodes, takeOrder, orderUnknown]

/-- Settles O59: the first check of R159 that fails answers the CHECK, which otherwise is held; an unknown code meets no
check at all. -/
theorem checkAndUnknownOrders : Obligations.CheckAndUnknownOrders := by
  unfold Obligations.CheckAndUnknownOrders
  intro l s h
  have hanswer := fun r => event_receiveOrder_report (r := r) (code := checkCode) (p := [BitVec.ofNat 8 l.val])
    s.stc.strap h (by decide : 1 ≤ Config.maxPayload) (by decide)
  refine ⟨fun hstation hcheck hbusy => ?_, fun hstation hcheck => ?_, fun hstation => ?_, fun code p hwf => ?_⟩
  · refine congrArg Host.Outcome.next (event_receiveOrder s.stc.strap h (by decide : 1 ≤ Config.maxPayload) (by decide)
      ((orderCheck_of_line l s).trans ?_) (calm_heldCheck h hbusy ⟨l, false⟩))
    rw [if_neg hstation, hcheck]
    rfl
  · refine congrArg Host.Outcome.next (hanswer _ ((orderCheck_of_line l s).trans ?_))
    rw [if_neg hstation, if_pos hcheck]
    rfl
  · exact congrArg Host.Outcome.next (hanswer _ ((orderCheck_of_line l s).trans (if_pos hstation)))
  · simp only [Instr.wf, Bool.and_eq_true, Bool.not_eq_true', List.contains_eq_mem, decide_eq_false_iff_not] at hwf
    obtain ⟨⟨hlength, -⟩, hcode⟩ := hwf
    have hrestart : code ≠ restartCode := fun hc => hcode (hc ▸ by decide)
    exact congrArg Host.Outcome.next (event_receiveOrder_report s.stc.strap h (of_decide_eq_true hlength) hrestart
      (takeOrder_of_unknown hcode s))

end Sys2Proof.Machine

/-! PROOFS. The passes that read contacts (09 R152, R153, R158, 01 R6, R7, R14): the records move by their contact bits,
the verdict on the job of the batch is returned, and a running CHECK is answered. -/

namespace Sys2Proof.Machine

/-! ## One job of the list ends (R145) -/

/-- A result that has where to go is not left without answer. -/
theorem unanswered_of_canAnswer {s : State} {ref : RouteRef} (h : s.canAnswer ref) : s.unanswered ref = false := by
  obtain ⟨-, hstation, hpeer, -⟩ := h
  rw [State.unanswered, beq_eq_false_iff_ne.2 hpeer, beq_eq_false_iff_ne.2 hstation, Bool.or_self, Bool.and_false]

/-- The result of a job with somewhere to go leaves in the same way from a batch as from the list. -/
theorem returnJob_of_canAnswer {j : Job} {s : State} (h : s.canAnswer j.ref) (fromBatch : Bool) :
    returnJob fromBatch j s = returnJob false j s := by
  unfold returnJob
  rw [unanswered_of_canAnswer h, Bool.and_false, Bool.and_false]

/-- One job of the list ends, no job that stays being a close held behind it: its result joins the queue. -/
theorem endJobs_of_one {verdict : Job → Option ResultCode} {j : Job} {code : ResultCode} {before after : List Job}
    {s : State} (hjobs : s.jbu.jobs = before ++ j :: after) (hverdict : verdict j = some code)
    (hstays : ∀ i ∈ before ++ after, verdict i = none ∧ (j.finish code).follower i = false)
    (hfresh : j.finish code ∉ before) (hanswer : s.canAnswer j.ref) (hexchange : exchangeStep s = none) :
    endJobs verdict s = { s with
      jbu.jobs := before ++ after,
      liu.queue := s.liu.queue ++ [⟨resultMsg j.ref j.line j.trunk code, false⟩] } := by
  obtain ⟨hother, hstation, hpeer, hplace⟩ := hanswer
  have hbefore : ∀ i ∈ before, verdict i = none := fun i hi => (hstays i (List.mem_append_left _ hi)).1
  have hafter : ∀ i ∈ after, verdict i = none := fun i hi => (hstays i (List.mem_append_right _ hi)).1
  have hnone : ∀ js : List Job, (∀ i ∈ js, verdict i = none) →
      (js.filterMap fun i => (verdict i).map fun c => (i.state == .inBatch, i.finish c)) = []
      ∧ (js.map fun i => ((verdict i).map fun c => i.finish c).getD i) = js := fun js h =>
    ⟨List.filterMap_eq_nil_iff.2 fun i hi => by rw [h i hi]; rfl,
      (List.map_congr_left fun i hi => by rw [h i hi]; rfl).trans (List.map_id _)⟩
  have hended : (s.jbu.jobs.filterMap fun i => (verdict i).map fun c => (i.state == .inBatch, i.finish c))
      = [(j.state == .inBatch, j.finish code)] := by
    rw [hjobs, List.filterMap_append, List.filterMap_cons, hverdict, (hnone _ hbefore).1, (hnone _ hafter).1]
    rfl
  have hjobs' : s.jbu.jobs.map (fun i => ((verdict i).map fun c => i.finish c).getD i)
      = before ++ j.finish code :: after := by
    rw [hjobs, List.map_append, List.map_cons, hverdict, (hnone _ hbefore).2, (hnone _ hafter).2]
    rfl
  have hleft : (before ++ j.finish code :: after).erase (j.finish code) = before ++ after := by
    rw [List.erase_append_right _ hfresh, List.erase_cons_head]
  have hreturn := returnJob_of_place (j := j.finish code) (s := { s with jbu.jobs := before ++ j.finish code :: after })
    rfl hother hplace (by rw [hleft]; exact fun i hi => (hstays i hi).2)
  rw [enqueue_of_place (s := { s with jbu.jobs := before ++ j.finish code :: after }) hplace, removeJob] at hreturn
  dsimp only at hreturn
  rw [hleft] at hreturn
  have hbatch := returnJob_of_canAnswer (j := j.finish code)
    (s := { s with jbu.jobs := before ++ j.finish code :: after }) ⟨hother, hstation, hpeer, hplace⟩ (j.state == .inBatch)
  unfold endJobs
  rw [hended, hjobs']
  dsimp only [List.foldl_cons, List.foldl_nil]
  rw [hbatch, hreturn]
  exact exchange_of_none ((exchangeStep_eq_none _).2 ((exchangeStep_eq_none s).1 hexchange))

/-! ## CHECK (R158, R159) -/

theorem startCheck_of_held {s : State} {k : CheckOrder} (h : s.cme.check = some k) :
    startCheck s = enterEngine .checkPass { s with cme.check := some { k with running := true } } := by
  rw [startCheck, h]
  rfl

theorem takeCheckStart_of_held {s : State} {k : CheckOrder} (hengine : s.cme.engine = .idle)
    (h : s.cme.check = some k) :
    takeCheckStart s = enterEngine .checkPass { s with cme.check := some { k with running := true } } := by
  have hdue : s.checkDue = true := by rw [State.checkDue, hengine, h]; rfl
  rw [takeCheckStart, if_pos hdue, startCheck_of_held h]

theorem answerCheck_of_held {s : State} {k : CheckOrder} (h : s.cme.check = some k) (refused : Bool) (reason : Reason)
    (found : Option (Nat × BitVec 16)) : answerCheck refused reason found s
      = placeReport (.answer checkCode refused reason found) { s with cme.check := none } := by
  rw [answerCheck, h]
  rfl

/-- The ANSWER fills the place that the CHECK held. -/
theorem placeFree_answered {s : State} {k : CheckOrder} (h : s.cme.check = some k) (r : Report) :
    (placeReport r { s with cme.check := none }).placeFree = s.placeFree := by
  unfold State.placeFree placeReport
  rw [h]
  simp

/-! ## Records that move by their contact bits (R6, R7) -/

/-- What an opening crosspoint becomes by its contact bit. -/
theorem sensed_opening {c : Crosspoint} (h : c.state = .opening) (contact : Bool) : c.sensed contact =
    if contact then { c with state := .unknown false } else c.enterOpen := by
  unfold Crosspoint.sensed
  rw [h]
  cases contact <;> rfl

/-- What a closing crosspoint becomes by its contact bit. -/
theorem sensed_closing {c : Crosspoint} (h : c.state = .closing) (contact : Bool) : c.sensed contact =
    if contact then { c with state := .closed } else { c with state := .unknown true } := by
  unfold Crosspoint.sensed
  rw [h]
  cases contact <;> rfl

/-- The station after a pass that read contacts and left the records `xps`: DLAT pulsed, the sense image taken (R147). -/
def tookPass (xps : Table 512 Crosspoint) (contacts : Image) (s : State) : State :=
  { s with cme.xps := xps, cme.coils := s.cme.drive, cme.sense := contacts }

/-- The station after the pass of a CHECK of line `l`, its ANSWER placed (R158). -/
def checkAnswered (xps : Table 512 Crosspoint) (contacts : Image) (l : Line) (s : State) : State :=
  placeReport (.answer checkCode false .none (some (s.leavingUnknown contacts, lineContacts contacts l)))
    { tookPass xps contacts s with cme.check := none }

/-- A pass with a good marker whose contacts move the records to `xps`, with no line conflict and no DROPPED. -/
structure CleanPass (sin : PassBits) (xps : Table 512 Crosspoint) (s : State) : Prop where
  marker : passMarkerGood sin = true
  records : sensedRecords (passContacts sin) s.cme.xps = xps
  lines : lineConflict xps = false
  dropped : s.droppedBy (passContacts sin) = []

namespace CleanPass

variable {sin : PassBits} {xps : Table 512 Crosspoint} {s : State}

theorem get (h : CleanPass sin xps s) (x : Xp) : xps.get x = (s.xp x).sensed ((passContacts sin).getLsbD x.val) := by
  rw [← h.records]
  exact Table.get_mapIdx _ _ _

theorem xp (h : CleanPass sin xps s) (x : Xp) : (tookPass xps (passContacts sin) s).xp x
    = (s.xp x).sensed ((passContacts sin).getLsbD x.val) := h.get x

theorem unmarked (h : CleanPass sin xps s) (hmark : s.anyMark = false) :
    (tookPass xps (passContacts sin) s).anyMark = false := by
  refine (anyMark_eq_false _).2 fun x => ?_
  have hx := sensed_unmarked ((anyMark_eq_false s).1 hmark x) ((passContacts sin).getLsbD x.val)
  rw [← h.get x] at hx
  exact hx

theorem applySense (h : CleanPass sin xps s) :
    applySense (passContacts sin) { s with cme.sense := passContacts sin } = tookPass xps (passContacts sin) s := by
  unfold Machine.applySense
  rw [h.records]
  rfl

/-- The end of a pass that reads contacts, with nothing amiss (R148, R11). -/
theorem senseEnd (h : CleanPass sin xps s) (good : Image → State → State) :
    senseEnd sin good s = good (passContacts sin) { s with cme.sense := passContacts sin } := by
  unfold Machine.senseEnd
  dsimp only
  rw [h.records, h.marker, h.lines, Bool.not_false, Bool.and_self, if_pos rfl]

/-- OPEN-SENSE ends, and the batch with it when its jobs hold no close. -/
theorem openSensePassEnd (h : CleanPass sin xps s) {t : State} (hengine : s.cme.engine = .openSense)
    (hjobs : endJobs (tookPass xps (passContacts sin) s).openVerdict (tookPass xps (passContacts sin) s) = t)
    (hcloses : ∀ j ∈ t.jbu.jobs, j.closing = false) : openSensePassEnd sin s = endBatch t := by
  have hnone : ¬ t.jbu.jobs.any Job.closing = true :=
    ne_true_of_eq_false (List.any_eq_false.2 fun j hj => ne_true_of_eq_false (hcloses j hj))
  have hdropped : State.droppedBy { s with cme.sense := passContacts sin } (passContacts sin) = [] := h.dropped
  rw [Machine.openSensePassEnd, if_pos (beq_iff_eq.2 hengine), h.senseEnd, openSenseGood, hdropped]
  dsimp only
  rw [h.applySense, hjobs]
  exact if_neg hnone

/-- CLOSE-SENSE ends, and the batch with it. -/
theorem closeSensePassEnd (h : CleanPass sin xps s) (hengine : s.cme.engine = .closeSense) : closeSensePassEnd sin s
    = endBatch (endJobs (tookPass xps (passContacts sin) s).closeVerdict (tookPass xps (passContacts sin) s)) := by
  have hdropped : State.droppedBy { s with cme.sense := passContacts sin } (passContacts sin) = [] := h.dropped
  rw [Machine.closeSensePassEnd, if_pos (beq_iff_eq.2 hengine), h.senseEnd, closeSenseGood, hdropped]
  dsimp only
  rw [h.applySense]
  rfl

/-- CHECK-PASS ends with the ANSWER of the CHECK that runs. -/
theorem checkPassEnd (h : CleanPass sin xps s) {k : CheckOrder} (hengine : s.cme.engine = .checkPass)
    (hcheck : s.cme.check = some k) : checkPassEnd sin s
      = endBatch (checkAnswered xps (passContacts sin) k.line s) := by
  have hdropped : State.droppedBy { s with cme.sense := passContacts sin } (passContacts sin) = [] := h.dropped
  have hline : (s.cme.check.map CheckOrder.line).getD 0 = k.line := by rw [hcheck]; rfl
  rw [Machine.checkPassEnd, if_pos (beq_iff_eq.2 hengine), h.senseEnd, checkGood, hdropped]
  dsimp only
  rw [hline, h.applySense]
  exact congrArg endBatch (answerCheck_of_held (s := tookPass xps (passContacts sin) s) hcheck _ _ _)

end CleanPass

/-- A batch that ends with no CHECK held, no READY job and no mark leaves the station at rest. -/
theorem calm_endBatch {s t : State} (h : s.calm = true) (hstc : t.stc = s.stc) (hrte : t.rte = s.rte)
    (hqueue : t.orp.orders = s.orp.orders) (hplace : t.placeFree = s.placeFree) (hcheck : t.cme.check = none)
    (hready : ∀ j ∈ t.jbu.jobs, j.state ≠ .ready) (hmark : t.anyMark = false) (hsweep : t.jbu.sweep = .absent) :
    (endBatch t).calm = true :=
  State.calm_of_work h hstc hrte hqueue hplace (nothing_due (s := endBatch t) hcheck hready hmark) (Or.inr hsweep)

/-! ## The sense passes of the two strokes (R152, R153) -/

theorem openVerdict_of_opening {j : Job} (h : j.opening = true) (s : State) :
    s.openVerdict j = some (if (s.xp j.xp).isOpen then .opened else .verify) := if_pos h

theorem closeVerdict_of_closing {j : Job} (h : j.closing = true) (s : State) :
    s.closeVerdict j = some (if (s.xp j.xp).state = .closed then s.closedCode j.xp else .verify) := by
  rw [State.closeVerdict, if_pos h]
  simp only [beq_iff_eq]

theorem Job.opening_iff (j : Job) :
    j.opening = true ↔ j.state = .inBatch ∧ (j.action = some .opn ∨ j.action = some .forceOpen) := by
  simp only [Job.opening, Bool.and_eq_true, Bool.or_eq_true, beq_iff_eq]

theorem Job.closing_iff (j : Job) : j.closing = true ↔ j.state = .inBatch ∧ j.action = some .close := by
  simp only [Job.closing, Bool.and_eq_true, beq_iff_eq]

/-- The station when the sense pass has read `contacts` and the result of the one job of the batch has joined the queue. -/
def sensedAndAnswered (xps : Table 512 Crosspoint) (contacts : Image) (j : Job) (code : ResultCode) (s : State) : State :=
  { tookPass xps contacts s with
    jbu.jobs := [],
    liu.queue := s.liu.queue ++ [⟨resultMsg j.ref j.line j.trunk code, false⟩] }

/-- The verdict on the one job of the list, after a sense pass. -/
theorem endJobs_of_sensed {xps : Table 512 Crosspoint} {contacts : Image} {verdict : Job → Option ResultCode} {j : Job}
    {code : ResultCode} {s : State}
    (hcalm : s.calm = true) (hjobs : s.jbu.jobs = [j]) (hanswer : s.canAnswer j.ref) (hverdict : verdict j = some code) :
    endJobs verdict (tookPass xps contacts s) = sensedAndAnswered xps contacts j code s := by
  obtain ⟨-, -, -, -, hexchange, -⟩ := s.calm_iff.1 hcalm
  exact endJobs_of_one (s := tookPass xps contacts s) (before := []) (after := []) hjobs hverdict
    (fun i hi => absurd hi List.not_mem_nil) List.not_mem_nil hanswer
    ((exchangeStep_eq_none _).2 ((exchangeStep_eq_none s).1 hexchange))

/-- With no CHECK held and no mark the batch whose one job has been answered ends with nothing due. -/
theorem calm_answered {xps : Table 512 Crosspoint} {contacts : Image} {s : State} (hcalm : s.calm = true)
    (hcheck : s.cme.check = none) (hmark : (tookPass xps contacts s).anyMark = false) (hsweep : s.jbu.sweep = .absent)
    (j : Job) (code : ResultCode) : (endBatch (sensedAndAnswered xps contacts j code s)).calm = true :=
  calm_endBatch hcalm rfl rfl rfl rfl hcheck (fun _ hi => absurd hi List.not_mem_nil) hmark hsweep

/-- Settles O45: with no close in the batch the opening stroke ends it, and what the end leaves starts nothing. -/
theorem openSenseSettlesRecords : Obligations.OpenSenseSettlesRecords := by
  unfold Obligations.OpenSenseSettlesRecords
  intro sin s hcalm hengine hmarker hlines hcheck hdropped hmarks hsweep
  obtain ⟨xps, hxps⟩ : ∃ xps, sensedRecords (passContacts sin) s.cme.xps = xps := ⟨_, rfl⟩
  rw [hxps] at hlines
  have hpass : CleanPass sin xps s := ⟨hmarker, hxps, hlines, hdropped⟩
  have hreset := resetHeld_of_calm hcalm
  have hmark : (tookPass xps (passContacts sin) s).anyMark = false :=
    (anyMark_eq_false _).2 fun x => (congrArg Crosspoint.marked (hpass.xp x)).trans (hmarks x)
  refine ⟨fun hjobs => ?_, fun j hjobs hstate haction hopening hother hstation hpeer hplace => ?_⟩
  · rw [sensedRecords] at hxps
    rw [hxps]
    have hnone : ∀ j, j ∉ (tookPass xps (passContacts sin) s).jbu.jobs := by
      intro j hj
      rw [show (tookPass xps (passContacts sin) s).jbu.jobs = [] from hjobs] at hj
      cases hj
    have hend := hpass.openSensePassEnd hengine (endJobs_of_none fun j hj => absurd hj (hnone j))
      fun j hj => absurd hj (hnone j)
    have hrest := calm_endBatch (t := tookPass xps (passContacts sin) s) hcalm rfl rfl rfl rfl hcheck
      (fun j hj => absurd hj (hnone j)) hmark hsweep
    exact congrArg Host.Outcome.next (event_eq hreset hend hrest)
  · have hxp := (hpass.xp j.xp).trans (sensed_opening hopening _)
    have hverdict := openVerdict_of_opening ((Job.opening_iff j).2 ⟨hstate, haction⟩) (tookPass xps (passContacts sin) s)
    have hend := hpass.openSensePassEnd hengine
      (endJobs_of_sensed hcalm hjobs ⟨hother, hstation, hpeer, hplace⟩ hverdict) fun i hi => absurd hi List.not_mem_nil
    rw [hxps]
    refine ⟨_, _, congrArg Host.Outcome.next (event_eq hreset hend (calm_answered hcalm hcheck hmark hsweep j _)),
      rfl, rfl, rfl, rfl, fun hcontact => ?_, fun hcontact => ?_⟩
    all_goals rw [hcontact] at hxp
    · exact ⟨congrArg Crosspoint.state hxp, congrArg Crosspoint.owner hxp, by rw [hxp]; rfl⟩
    · exact ⟨congrArg Crosspoint.state hxp, by rw [hxp]; rfl⟩

/-- Settles O46: the verdict on the close follows its record, and what the end of the batch leaves starts nothing. -/
theorem closeSenseVerifies : Obligations.CloseSenseVerifies := by
  unfold Obligations.CloseSenseVerifies
  intro j sin s hcalm hengine hmarker hlines hcheck hdropped hmark hjobs hstate haction hclosing hother hstation hpeer
    hplace
  obtain ⟨xps, hxps⟩ : ∃ xps, sensedRecords (passContacts sin) s.cme.xps = xps := ⟨_, rfl⟩
  rw [hxps] at hlines ⊢
  have hpass : CleanPass sin xps s := ⟨hmarker, hxps, hlines, hdropped⟩
  have hxp := (hpass.xp j.xp).trans (sensed_closing hclosing _)
  have hverdict := closeVerdict_of_closing ((Job.closing_iff j).2 ⟨hstate, haction⟩) (tookPass xps (passContacts sin) s)
  have hend := hpass.closeSensePassEnd hengine
  rw [endJobs_of_sensed hcalm hjobs ⟨hother, hstation, hpeer, hplace⟩ hverdict] at hend
  have hrest := calm_answered hcalm hcheck (hpass.unmarked hmark) (sweep_absent_of_calm hcalm hmark) j
  refine ⟨_, _, congrArg Host.Outcome.next (event_eq (resetHeld_of_calm hcalm) hend (hrest _)), rfl, rfl, rfl, rfl,
    fun hcontact => ?_, fun hcontact => ?_⟩
  all_goals rw [hcontact] at hxp
  · refine ⟨congrArg Crosspoint.state hxp, ?_⟩
    rw [State.closedCode, hxp]
    rfl
  · refine ⟨congrArg Crosspoint.state hxp, if_neg ?_⟩
    rw [hxp]
    exact XpState.noConfusion

/-- Settles O47: the pass keeps the Commit Engine busy, and its ANSWER takes the place that the CHECK held, so that
nothing is due behind it. -/
theorem checkPassRuns : Obligations.CheckPassRuns := by
  unfold Obligations.CheckPassRuns
  intro l sin s hreset
  refine ⟨fun hengine hcheck hrest => ?_, fun hcalm hengine hcheck hmarker hlines hdropped hjobs hmark _ => ?_⟩
  · exact congrArg Host.Outcome.next (event_eq hreset (takeCheckStart_of_held hengine hcheck)
      (State.calm_of_busy hrest rfl Engine.noConfusion rfl rfl rfl rfl rfl rfl rfl rfl))
  · obtain ⟨xps, hxps⟩ : ∃ xps, sensedRecords (passContacts sin) s.cme.xps = xps := ⟨_, rfl⟩
    rw [hxps] at hlines ⊢
    have hpass : CleanPass sin xps s := ⟨hmarker, hxps, hlines, hdropped⟩
    have hready : ∀ j ∈ s.jbu.jobs, j.state ≠ .ready := fun j hj => by
      rw [hjobs] at hj
      cases hj
    have hplace := placeFree_answered (s := tookPass xps (passContacts sin) s) hcheck
    have hrest := calm_endBatch (t := checkAnswered xps (passContacts sin) l s) hcalm rfl rfl rfl (hplace _) rfl hready
      (hpass.unmarked hmark) (sweep_absent_of_calm (s := s) hcalm hmark)
    exact ⟨_, congrArg Host.Outcome.next (event_eq hreset (hpass.checkPassEnd hengine hcheck) hrest), rfl, rfl, rfl,
      rfl, rfl⟩

end Sys2Proof.Machine

/-! PROOFS. Batch formation (09 R150, R151, 08 R139): which jobs a formation takes, how its checks decide the closes, and
the stroke that follows. -/

namespace Sys2Proof.Machine

/-! ## Verdicts on the jobs of the list (R145) -/

/-- Only the verdicts on the jobs of the list count. -/
theorem endJobs_congr {v w : Job → Option ResultCode} {s : State} (h : ∀ j ∈ s.jbu.jobs, v j = w j) :
    endJobs v s = endJobs w s := by
  unfold endJobs
  have hended : (s.jbu.jobs.filterMap fun j => (v j).map fun c => (j.state == .inBatch, j.finish c))
      = s.jbu.jobs.filterMap fun j => (w j).map fun c => (j.state == .inBatch, j.finish c) :=
    List.filterMap_congr fun j hj => by rw [h j hj]
  have hjobs : (s.jbu.jobs.map fun j => ((v j).map fun c => j.finish c).getD j)
      = s.jbu.jobs.map fun j => ((w j).map fun c => j.finish c).getD j :=
    List.map_congr_left fun j hj => by rw [h j hj]
  rw [hended, hjobs]

/-! ## The jobs that a formation takes (R139, R150 step 1) -/

/-- The job IN-BATCH. -/
def Job.taken (j : Job) : Job := { j with state := .inBatch }

@[simp] theorem Job.taken_xp (j : Job) : j.taken.xp = j.xp := rfl

theorem Job.taken_inj {i j : Job} (hstate : i.state = j.state) (h : i.taken = j.taken) : i = j := by
  have hback : ∀ k : Job, { k.taken with state := k.state } = k := fun _ => rfl
  rw [← hback i, ← hback j, h, hstate]

theorem Job.taken_close {j : Job} (h : j.action = some .close) : j.taken.closing = true ∧ j.taken.opening = false := by
  simp [Job.closing, Job.opening, Job.taken, h]

/-- An open that a formation takes: of the crosspoint's owner, or a FORCE-OPEN, and the crosspoint CLOSED or UNKNOWN. -/
structure OpenTaken (o : Job) (s : State) : Prop where
  action : o.action = some .opn ∧ (s.xp o.xp).owner = some o.ref ∨ o.action = some .forceOpen
  standing : (s.xp o.xp).state = .closed ∨ ∃ d, (s.xp o.xp).state = .unknown d

theorem OpenTaken.not_open {o : Job} {s : State} (h : OpenTaken o s) : (s.xp o.xp).isOpen = false := by
  rw [isOpen_eq_false]
  rcases h.standing with hstate | ⟨d, hstate⟩ <;> rw [hstate] <;> exact XpState.noConfusion

theorem OpenTaken.opening {o : Job} {s : State} (h : OpenTaken o s) : o.taken.opening = true :=
  (Job.opening_iff _).2 ⟨rfl, h.action.imp_left And.left⟩

theorem OpenTaken.not_closing {o : Job} {s : State} (h : OpenTaken o s) : ¬ o.taken.closing = true := by
  rcases h.action with ⟨haction, -⟩ | haction <;> simp [Job.closing, Job.taken, haction]

theorem offer_of_close {j : Job} {s : State} (haction : j.action = some .close)
    (hquiet : quietOk s.jbu.quiet j.quiet = true) : s.offer j = .inr j.taken := by
  simp [State.offer, Job.taken, hquiet, haction]

theorem offer_of_open {o : Job} {s : State} (h : OpenTaken o s) (hquiet : quietOk s.jbu.quiet o.quiet = true) :
    s.offer o = .inr o.taken := by
  have hstanding : (s.xp o.xp).standing = true := by
    unfold Crosspoint.standing Crosspoint.isUnknown
    rcases h.standing with hstate | ⟨d, hstate⟩ <;> rw [hstate] <;> rfl
  rcases h.action with ⟨haction, howner⟩ | haction
  · simp [State.offer, Job.taken, hquiet, haction, h.not_open, hstanding, howner]
  · simp [State.offer, Job.taken, hquiet, haction, h.not_open]

/-- A station without a mark that forms a batch of its jobs, each READY and taken. -/
structure Forms (s : State) : Prop where
  rest : ({ s with jbu.jobs := [] } : State).calm = true
  engine : s.cme.engine = .idle
  check : s.cme.check = none
  mark : s.anyMark = false
  ready : ∀ j ∈ s.jbu.jobs, j.state = .ready
  taken : ∀ j ∈ s.jbu.jobs, s.offer j = .inr j.taken

/-- The station with its jobs IN-BATCH and no sweep taken. -/
def batched (s : State) : State := { s with jbu.jobs := s.jbu.jobs.map Job.taken, cme.sweeps := [], cme.waiting := [] }

namespace Forms

variable {s : State}

theorem sweep (h : Forms s) : s.jbu.sweep = .absent := sweep_absent_of_calm (s := { s with jbu.jobs := [] }) h.rest h.mark

theorem offerJobs (h : Forms s) : offerJobs { s with cme.sweeps := [], cme.waiting := [] } = batched s := by
  unfold Machine.offerJobs batched
  have hjobs : (s.jbu.jobs.map fun j => if j.state == .ready then
      match State.offer { s with cme.sweeps := [], cme.waiting := [] } j with
      | .inl _ => j
      | .inr j' => j'
    else j) = s.jbu.jobs.map Job.taken := List.map_congr_left fun j hj => by
      rw [if_pos (beq_iff_eq.2 (h.ready j hj)),
        show State.offer { s with cme.sweeps := [], cme.waiting := [] } j = .inr j.taken from h.taken j hj]
  exact congrArg (fun js => { s with jbu.jobs := js, cme.sweeps := [], cme.waiting := [] }) hjobs

/-- With no mark there is no sweep to take. -/
theorem takeSweeps (h : Forms s) : takeSweeps (batched s) = batched s := by
  have hunmarked : ∀ x, ((batched s).xp x).marked = false := (anyMark_eq_false s).1 h.mark
  have hnone : ((batched s).xpList.filter fun p => (batched s).eligible p.2 && !(batched s).openedByJob p.1) = [] := by
    refine List.filter_eq_nil_iff.2 fun p hp => ?_
    rw [xpList_eq] at hp
    obtain ⟨x, -, rfl⟩ := List.mem_map.1 hp
    rw [eligible_eq_false (hunmarked x), Bool.false_and]
    exact Bool.false_ne_true
  have hxps : ((batched s).cme.xps.mapIdx fun x c =>
      if (batched s).eligible c || (batched s).openedByJob x then { c with marked := false } else c)
      = (batched s).cme.xps := by
    refine Table.mapIdx_eq_self fun x => ?_
    split
    · have hx : ((batched s).cme.xps.get x).marked = false := hunmarked x
      rw [← hx]
    · rfl
  have hsweep : (batched s).jbu.sweep = .absent := h.sweep
  unfold Machine.takeSweeps
  dsimp only
  rw [hnone, hxps, hsweep]
  have hself : batched s = { batched s with cme.sweeps := [], jbu.sweep := (batched s).jbu.sweep } := rfl
  rw [hsweep] at hself
  exact hself.symm

/-- The jobs taken, the batch is what the checks of its closes make of it (R150 step 3). -/
theorem gatherBatch (h : Forms s) {ended : List (Job × ResultCode)} {waiting : List Xp}
    (hchecks : (batched s).closeChecks [] ((batched s).jbu.jobs.filter Job.closing) = (ended, waiting)) :
    gatherBatch s = endJobs (endedBy ended) { batched s with cme.waiting := waiting } := by
  unfold Machine.gatherBatch
  dsimp only
  rw [h.offerJobs, h.takeSweeps, hchecks]
  refine endJobs_congr fun j hj => ?_
  obtain ⟨i, -, rfl⟩ := List.mem_map.1 hj
  rfl

/-- What a formation leaves is at rest when it leaves the report FIFO as it was and nothing due. -/
theorem calm (h : Forms s) {t : State} (hstc : t.stc = s.stc) (hrte : t.rte = s.rte)
    (hqueue : t.orp.orders = s.orp.orders) (hreports : t.orp.reports = s.orp.reports)
    (hcheck : t.cme.check = s.cme.check) (hsweep : t.jbu.sweep = s.jbu.sweep)
    (hdue : t.checkDue = false ∧ t.formationDue = false) : t.calm = true :=
  State.calm_of_work (s := { s with jbu.jobs := [] }) h.rest hstc hrte hqueue (placeFree_congr hreports hcheck) hdue
    (Or.inr (hsweep.trans h.sweep))

/-- BATCH_FORMATION is the formation and the pins, when the formation leaves the station at rest. -/
theorem exec (h : Forms s) (hjobs : s.jbu.jobs ≠ []) {t : State} (ht : formBatch s = t) (hrest : t.calm = true) :
    exec .batchFormation s = .next (updatePins t) := by
  obtain ⟨j, hj⟩ := List.exists_mem_of_ne_nil _ hjobs
  have hready : (s.jbu.jobs.any fun j => j.state == .ready) = true :=
    List.any_eq_true.2 ⟨j, hj, beq_iff_eq.2 (h.ready j hj)⟩
  have hdue : s.formationDue = true := by
    rw [State.formationDue, h.engine, h.check, hready]
    rfl
  have hreset := resetHeld_of_calm h.rest
  exact congrArg Host.Outcome.next (event_eq hreset ((if_pos hdue).trans ht) hrest)

end Forms

/-! ## Crosspoints of one line (R1, R9) -/

/-- Every crosspoint of the line is OPEN. -/
def State.lineOpen (s : State) (l : Line) : Prop := ∀ k, (s.xp (xpNum l k)).state = .opn

theorem Job.xpLine_xp (j : Job) : xpLine j.xp = j.line := xpLine_xpNum _ _

theorem State.lineOpen.isOpen {s : State} {l : Line} (h : s.lineOpen l) {x : Xp} (hx : xpLine x = l) :
    (s.xp x).isOpen = true := by
  rw [← xpNum_line_trunk x, hx, isOpen_iff]
  exact h _

theorem otherOnLine_iff (s : State) (x : Xp) (p : Xp → Bool) : s.otherOnLine x p = true
    ↔ ∃ y, xpLine y = xpLine x ∧ y ≠ x ∧ (s.xp y).isOpen = false ∧ p y = true := by
  simp only [State.otherOnLine, xpList_any, Bool.and_eq_true, beq_iff_eq, bne_iff_ne, Bool.not_eq_true', and_assoc]

theorem State.lineOpen.otherOnLine {s : State} {l : Line} (h : s.lineOpen l) {x : Xp} (hx : xpLine x = l)
    (p : Xp → Bool) : s.otherOnLine x p = false := by
  refine Bool.eq_false_iff.2 fun hother => ?_
  obtain ⟨y, hline, -, hopen, -⟩ := (otherOnLine_iff s x p).1 hother
  exact absurd (h.isOpen (hline.trans hx)) (ne_true_of_eq_false hopen)

theorem State.lineOpen.lineTaken {s : State} {l : Line} (h : s.lineOpen l) {x : Xp} (hx : xpLine x = l) :
    s.lineTaken x = false := (lineTaken_eq_false s x).2 fun _ hline _ => h.isOpen (hline.trans hx)

/-! ## The checks of a close (R151) -/

/-- No crosspoint is in the opening list. -/
def State.opensNone (s : State) : Prop := ∀ x, s.inOpening x = false

theorem inOpening_of_job {s : State} {o : Job} (hmem : o ∈ s.jbu.jobs) (hopening : o.opening = true) :
    s.inOpening o.xp = true := by
  have hjob : s.openedByJob o.xp = true :=
    List.any_eq_true.2 ⟨o, hmem, Bool.and_eq_true_iff.2 ⟨hopening, beq_self_eq_true _⟩⟩
  rw [State.inOpening, hjob, Bool.true_or]

theorem opensNone_of_closes {s : State} (hjobs : ∀ j ∈ s.jbu.jobs, j.opening = false) (hsweeps : s.cme.sweeps = []) :
    s.opensNone := by
  intro x
  have hnone : s.openedByJob x = false := List.any_eq_false.2 fun j hj => by
    rw [hjobs j hj, Bool.false_and]
    exact Bool.false_ne_true
  rw [State.inOpening, hnone, hsweeps]
  rfl

section
variable {s : State} {j : Job} {kept : List Xp}

theorem closeCheck_of_fault (h : s.stc.station = .fault) : s.closeCheck kept j = .refuse .fault := by
  simp [State.closeCheck, h]

theorem closeCheck_of_retired (hstation : s.stc.station ≠ .fault) (hwear : s.cfg.wearLimit ≤ (s.xp j.xp).wear) :
    s.closeCheck kept j = .refuse .retired := by
  simp [State.closeCheck, hstation, hwear]

theorem closeCheck_of_not_held (hstation : s.stc.station ≠ .fault) (hwear : (s.xp j.xp).wear < s.cfg.wearLimit)
    (hheld : s.entry j.trunk ≠ .held j.ref.origin) : s.closeCheck kept j = .refuse .notHeld := by
  simp [State.closeCheck, hstation, Nat.not_le.2 hwear, hheld]

/-- Checks 4 to 9, when none of the first three holds. -/
theorem closeCheck_of_passes (h : s.passesFirstChecks j) : s.closeCheck kept j =
    if (s.xp j.xp).isOpen = false ∧ s.inOpening j.xp = true then
      if otherKept kept j.xp then .refuse .lineTaken else .keepWaiting
    else if (s.xp j.xp).state = .closed ∧ (s.xp j.xp).owner = some j.ref then .refuse (s.closedCode j.xp)
    else if (s.xp j.xp).isOpen = false then .refuse .lineTaken
    else if s.otherOnLine j.xp s.inOpening then
      if otherKept kept j.xp then .refuse .lineTaken else .keepWaiting
    else if s.otherOnLine j.xp fun _ => true then .refuse .lineTaken
    else if lineKept kept j.xp then .refuse .lineTaken
    else .keep := by
  obtain ⟨hstation, hwear, hheld⟩ := h
  simp [State.closeCheck, hstation, Nat.not_le.2 hwear, hheld]

/-- Check 5: the crosspoint stands CLOSED for the job's own route. -/
theorem closeCheck_of_closed (h : s.passesFirstChecks j) (hopens : s.opensNone) (hstate : (s.xp j.xp).state = .closed)
    (howner : (s.xp j.xp).owner = some j.ref) : s.closeCheck kept j = .refuse (s.closedCode j.xp) := by
  rw [closeCheck_of_passes h, hopens, if_neg (by simp), if_pos ⟨hstate, howner⟩]

/-- Check 6: the crosspoint is otherwise not OPEN. -/
theorem closeCheck_of_own_taken (h : s.passesFirstChecks j) (hopens : s.opensNone) (hstate : (s.xp j.xp).state ≠ .opn)
    (hother : ¬((s.xp j.xp).state = .closed ∧ (s.xp j.xp).owner = some j.ref)) :
    s.closeCheck kept j = .refuse .lineTaken := by
  rw [closeCheck_of_passes h, hopens, if_neg (by simp), if_neg hother, if_pos ((isOpen_eq_false _).2 hstate)]

/-- Check 8: another crosspoint of the line is not OPEN. -/
theorem closeCheck_of_line_taken (h : s.passesFirstChecks j) (hopens : s.opensNone)
    (hstate : (s.xp j.xp).state = .opn) (hline : ∃ k, (s.xp (xpNum j.line k)).state ≠ .opn) :
    s.closeCheck kept j = .refuse .lineTaken := by
  obtain ⟨k, hk⟩ := hline
  have hopening : s.otherOnLine j.xp s.inOpening = false := by
    refine Bool.eq_false_iff.2 fun hother => ?_
    obtain ⟨y, -, -, -, hin⟩ := (otherOnLine_iff _ _ _).1 hother
    rw [hopens] at hin
    cases hin
  have htaken : (s.otherOnLine j.xp fun _ => true) = true :=
    (otherOnLine_iff _ _ _).2 ⟨xpNum j.line k, by rw [xpLine_xpNum, j.xpLine_xp],
      fun hx => hk (hx ▸ hstate), (isOpen_eq_false _).2 hk, rfl⟩
  have hopen := (isOpen_iff _).2 hstate
  rw [closeCheck_of_passes h, hopening, htaken, hopen, hstate]
  simp

/-- Checks 4 and 7: the crosspoint, or another of its line, enters the opening list. -/
theorem closeCheck_of_opening (h : s.passesFirstChecks j) {y : Xp} (hopening : s.inOpening y = true)
    (hstands : (s.xp y).isOpen = false) (hline : xpLine y = xpLine j.xp)
    (hown : y = j.xp ∨ (s.xp j.xp).state = .opn) : s.closeCheck [] j = .keepWaiting := by
  rw [closeCheck_of_passes h]
  by_cases hxp : y = j.xp
  · subst hxp
    rw [if_pos ⟨hstands, hopening⟩]
    rfl
  · have hstate := hown.resolve_left hxp
    have hother : s.otherOnLine j.xp s.inOpening = true :=
      (otherOnLine_iff _ _ _).2 ⟨y, hline, hxp, hstands, hopening⟩
    rw [(isOpen_iff _).2 hstate, hstate, hother]
    simp [otherKept]

/-- Check 9 on an OPEN line: of the closes for it the first is kept. -/
theorem closeCheck_of_line_open (h : s.passesFirstChecks j) (hline : s.lineOpen j.line) :
    s.closeCheck kept j = if lineKept kept j.xp then .refuse .lineTaken else .keep := by
  have hopen := hline.isOpen j.xpLine_xp
  rw [closeCheck_of_passes h, hline.otherOnLine j.xpLine_xp, hline.otherOnLine j.xpLine_xp, hopen,
    (isOpen_iff _).1 hopen]
  simp

end

end Sys2Proof.Machine

/-! PROOFS. The strokes that a formation starts (09 R150 to R153, 01 R5, R15): the record of each crosspoint driven, and
the closes that the formation ends or keeps waiting. -/

namespace Sys2Proof.Machine

/-! ## Records that a stroke drives (R5, R15) -/

/-- A charge of wear changes a wear count, and perhaps an alert. -/
theorem chargeWear_eq (n : Nat) (x : Xp) (s : State) : chargeWear n x s =
    { modXp x (fun c => { c with wear := raiseWear c.wear n }) s with
      orp.alerts := (chargeWear n x s).orp.alerts } := by
  unfold chargeWear
  dsimp only
  split <;> rfl

theorem chargeWear_xp (n : Nat) (x y : Xp) (s : State) : (chargeWear n x s).xp y =
    if x = y then { s.xp x with wear := raiseWear (s.xp x).wear n } else s.xp y := by
  rw [chargeWear_eq]
  exact modXp_xp _ _ _ _

/-- The station with the crosspoint of a close CLOSING and charged (R5, R15). -/
def drivenClose (j : Job) (s : State) : State := chargeWear 1 j.xp (modXp j.xp (Crosspoint.driveClose j) s)

theorem drivenClose_eq (j : Job) (s : State) : drivenClose j s =
    { s with cme.xps := (drivenClose j s).cme.xps, orp.alerts := (drivenClose j s).orp.alerts } := by
  rw [drivenClose, chargeWear_eq]
  rfl

theorem drivenClose_xp (j : Job) (s : State) (x : Xp) : (drivenClose j s).xp x =
    if x = j.xp then { (s.xp x) with state := .closing, owner := some j.ref, quiet := j.quiet,
                                     wear := min ((s.xp x).wear + 1) 16777215 }
    else s.xp x := by
  rw [drivenClose, chargeWear_xp, modXp_xp, modXp_xp, if_pos rfl]
  by_cases hx : j.xp = x
  · subst hx
    rw [if_pos rfl, if_pos rfl]
    rfl
  · rw [if_neg hx, if_neg (Ne.symm hx), if_neg hx]

/-- The record of an open that is driven, its mark aside. -/
theorem driveOpen_of_taken {o : Job} {s : State} (h : OpenTaken o s) (hmark : (s.xp o.xp).marked = false) :
    (s.xp o.xp).driveOpen o = { (s.xp o.xp) with
      state := .opening
      owner := if o.action = some .forceOpen then some o.ref else (s.xp o.xp).owner
      quiet := if o.action = some .forceOpen then o.quiet else (s.xp o.xp).quiet } := by
  rcases h.action with ⟨haction, howner⟩ | haction
  · simp [Crosspoint.driveOpen, Crosspoint.driveOwned, h.not_open, haction, howner, hmark]
  · simp [Crosspoint.driveOpen, h.not_open, haction, hmark]

/-! ## Strokes with one crosspoint (R152, R153) -/

/-- The opening stroke of one open, with no sweep in the batch. -/
theorem openStroke_of_one {o : Job} {s : State} (hopens : s.jbu.jobs.filter Job.opening = [o])
    (hsweeps : s.cme.sweeps = []) :
    openStroke s = startDrive .openDrive (modXp o.xp (Crosspoint.driveOpen o) s) := by
  have hnone : (modXp o.xp (Crosspoint.driveOpen o) s).cme.sweeps = [] := hsweeps
  unfold openStroke
  rw [hopens, List.foldl_cons, List.foldl_nil]
  dsimp only
  rw [hnone]
  rfl

/-- The closing stroke of one close on an OPEN line. -/
theorem closeStroke_of_one {j : Job} {s : State} (hjobs : s.jbu.jobs = [j]) (hclosing : j.closing = true)
    (hline : s.lineOpen j.line) :
    closeStroke s = startDrive .closeDrive { drivenClose j s with cme.waiting := [] } := by
  have hone : closeOne j s = drivenClose j s := by
    rw [closeOne, hjobs, if_pos (List.contains_iff_mem.2 (List.mem_singleton_self j)), hline.isOpen j.xpLine_xp,
      hline.lineTaken j.xpLine_xp]
    rfl
  have hstays : (drivenClose j s).jbu.jobs = [j] := by rw [drivenClose_eq]; exact hjobs
  unfold closeStroke
  rw [hjobs, List.filter_cons_of_pos hclosing, List.filter_nil, List.foldl_cons, List.foldl_nil, hone]
  dsimp only
  rw [hstays, List.any_cons, hclosing, Bool.true_or, if_pos rfl]

/-! ## What a formation comes to (R150, R151) -/

/-- The station that drives the close alone of its batch, with the queue given. -/
def drivesClose (j : Job) (queue : List QueueItem) (s : State) : State :=
  startDrive .closeDrive
    { drivenClose j.taken { batched s with jbu.jobs := [j.taken], liu.queue := queue } with cme.waiting := [] }

/-- The station that drives the open alone of its opening list, with closes waiting on it. -/
def drivesOpen (o : Job) (waiting : List Xp) (s : State) : State :=
  startDrive .openDrive (modXp o.xp (Crosspoint.driveOpen o) { batched s with cme.waiting := waiting })

/-- The station whose close alone has been refused. -/
def refusesClose (j : Job) (code : ResultCode) (s : State) : State :=
  endBatch { batched s with
    jbu.jobs := [],
    liu.queue := s.liu.queue ++ [⟨resultMsg j.ref j.line j.trunk code, false⟩] }

theorem drivesClose_xp (j : Job) (queue : List QueueItem) (s : State) (x : Xp) : (drivesClose j queue s).xp x =
    if x = j.xp then { (s.xp x) with state := .closing, owner := some j.ref, quiet := j.quiet,
                                     wear := min ((s.xp x).wear + 1) 16777215 }
    else s.xp x :=
  drivenClose_xp j.taken { batched s with jbu.jobs := [j.taken], liu.queue := queue } x

theorem drivesOpen_xp {o : Job} {s : State} (h : OpenTaken o s) (hmark : s.anyMark = false) (waiting : List Xp)
    (x : Xp) : (drivesOpen o waiting s).xp x =
    if x = o.xp then { (s.xp x) with
      state := .opening
      owner := if o.action = some .forceOpen then some o.ref else (s.xp x).owner
      quiet := if o.action = some .forceOpen then o.quiet else (s.xp x).quiet }
    else s.xp x := by
  have hxp := modXp_xp { batched s with cme.waiting := waiting } o.xp x (Crosspoint.driveOpen o)
  refine hxp.trans ?_
  by_cases hx : o.xp = x
  · subst hx
    rw [if_pos rfl, if_pos rfl]
    exact driveOpen_of_taken (s := s) h ((anyMark_eq_false s).1 hmark o.xp)
  · rw [if_neg hx, if_neg (Ne.symm hx)]
    rfl

namespace Forms

variable {s : State}

/-- The closing stroke starts at once when no open is in the batch. -/
theorem formBatch_close {j : Job} {queue : List QueueItem} (haction : j.action = some .close)
    (hline : s.lineOpen j.line)
    (hgather : Machine.gatherBatch s = { batched s with jbu.jobs := [j.taken], liu.queue := queue }) :
    formBatch s = drivesClose j queue s := by
  obtain ⟨hclosing, hopening⟩ := Job.taken_close haction
  have hsweeps : (batched s).cme.sweeps.isEmpty = true := rfl
  unfold formBatch
  rw [hgather]
  dsimp only
  rw [hsweeps, List.any_cons, List.any_cons, hopening, hclosing]
  exact closeStroke_of_one (j := j.taken) (s := { batched s with jbu.jobs := [j.taken], liu.queue := queue }) rfl
    hclosing hline

/-- The opening stroke starts when an open is in the batch, whatever waits on it. -/
theorem formBatch_open (h : Forms s) {o : Job} {waiting : List Xp}
    (hopens : (batched s).jbu.jobs.filter Job.opening = [o.taken])
    (hchecks : (batched s).closeChecks [] ((batched s).jbu.jobs.filter Job.closing) = ([], waiting)) :
    formBatch s = drivesOpen o waiting s := by
  have hgather : Machine.gatherBatch s = { batched s with cme.waiting := waiting } :=
    (h.gatherBatch hchecks).trans (endJobs_of_none fun _ _ => rfl)
  obtain ⟨hmem, hopening⟩ := List.mem_filter.1 (hopens ▸ List.mem_singleton_self o.taken)
  have hany : (batched s).jbu.jobs.any Job.opening = true := List.any_eq_true.2 ⟨_, hmem, hopening⟩
  unfold formBatch
  rw [hgather]
  dsimp only
  rw [hany, Bool.true_or, if_pos rfl]
  exact openStroke_of_one (o := o.taken) (s := { batched s with cme.waiting := waiting }) hopens rfl

/-- A batch whose one close is refused ends with no stroke. -/
theorem formBatch_refuse (h : Forms s) {j : Job} {code : ResultCode} (hjobs : s.jbu.jobs = [j])
    (haction : j.action = some .close) (hcheck : (batched s).closeCheck [] j.taken = .refuse code)
    (hanswer : s.canAnswer j.ref) : formBatch s = refusesClose j code s := by
  have htaken : (batched s).jbu.jobs = [j.taken] := congrArg (List.map Job.taken) hjobs
  obtain ⟨hclosing, -⟩ := Job.taken_close haction
  have hchecks : (batched s).closeChecks [] ((batched s).jbu.jobs.filter Job.closing) = ([(j.taken, code)], []) := by
    rw [htaken, List.filter_cons_of_pos hclosing, List.filter_nil, State.closeChecks, hcheck]
    rfl
  have hverdict : endedBy [(j.taken, code)] j.taken = some code := by simp [endedBy]
  obtain ⟨-, -, -, -, hexchange, -⟩ := (State.calm_iff _).1 h.rest
  have hgather := (h.gatherBatch hchecks).trans (endJobs_of_one (before := []) (after := []) htaken hverdict
    (fun _ hi => absurd hi List.not_mem_nil) List.not_mem_nil hanswer
    ((exchangeStep_eq_none _).2 ((exchangeStep_eq_none { s with jbu.jobs := [] }).1 hexchange)))
  unfold formBatch
  rw [hgather]
  rfl

/-- A batch that ends with no job left has nothing due behind it. -/
theorem calm_refusesClose (h : Forms s) (j : Job) (code : ResultCode) : (refusesClose j code s).calm = true :=
  h.calm rfl rfl rfl rfl rfl rfl
    (nothing_due (s := refusesClose j code s) h.check (fun _ hi => absurd hi List.not_mem_nil) h.mark)

theorem calm_drivesOpen (h : Forms s) (o : Job) (waiting : List Xp) : (drivesOpen o waiting s).calm = true :=
  h.calm rfl rfl rfl rfl rfl rfl (formationDue_busy (s := drivesOpen o waiting s) Engine.noConfusion)

theorem calm_drivesClose (h : Forms s) (j : Job) (queue : List QueueItem) : (drivesClose j queue s).calm = true := by
  have hbusy : (drivesClose j queue s).cme.engine ≠ .idle := Engine.noConfusion
  refine h.calm ?_ ?_ ?_ ?_ ?_ ?_ (formationDue_busy hbusy) <;> rw [drivesClose, drivenClose_eq] <;> rfl

end Forms

/-! ## A formation with one job (R150, R151, R139) -/

theorem forms_of_one {j : Job} {s : State} (hrest : ({ s with jbu.jobs := [] } : State).calm = true)
    (hjobs : s.jbu.jobs = [j]) (hready : j.state = .ready) (hengine : s.cme.engine = .idle) (hcheck : s.cme.check = none)
    (hmark : s.anyMark = false) (htaken : s.offer j = .inr j.taken) : Forms s :=
  ⟨hrest, hengine, hcheck, hmark, hjobs ▸ List.forall_mem_singleton.2 hready, hjobs ▸ List.forall_mem_singleton.2 htaken⟩

namespace Forms

variable {s : State}

/-- One close on an OPEN line, past the first three checks, is kept. -/
theorem gather_one_close (h : Forms s) {j : Job} (hjobs : s.jbu.jobs = [j]) (haction : j.action = some .close)
    (hpasses : s.passesFirstChecks j) (hline : s.lineOpen j.line) :
    Machine.gatherBatch s = { batched s with jbu.jobs := [j.taken], liu.queue := s.liu.queue } := by
  have htaken : (batched s).jbu.jobs = [j.taken] := congrArg (List.map Job.taken) hjobs
  have hcheck : (batched s).closeCheck [] j.taken = .keep := closeCheck_of_line_open (s := batched s) hpasses hline
  have hchecks : (batched s).closeChecks [] ((batched s).jbu.jobs.filter Job.closing) = ([], []) := by
    rw [htaken, List.filter_cons_of_pos (Job.taken_close haction).1, List.filter_nil, State.closeChecks,
      hcheck]
    rfl
  rw [h.gatherBatch hchecks, ← htaken]
  exact endJobs_of_none fun _ _ => rfl

/-- Of two closes for an OPEN line, both past the first three checks, the later ends LINE-TAKEN (check 9). -/
theorem gather_two_closes (h : Forms s) {j i : Job} (hjobs : s.jbu.jobs = [j, i]) (hne : i ≠ j)
    (hclosej : j.action = some .close) (hclosei : i.action = some .close) (hbehind : j.behind = none)
    (hpassesj : s.passesFirstChecks j) (hpassesi : s.passesFirstChecks i) (hsame : i.line = j.line)
    (hline : s.lineOpen j.line) (hanswer : s.canAnswer i.ref) :
    Machine.gatherBatch s = { batched s with
      jbu.jobs := [j.taken],
      liu.queue := s.liu.queue ++ [⟨resultMsg i.ref i.line i.trunk .lineTaken, false⟩] } := by
  have htaken : (batched s).jbu.jobs = [j.taken, i.taken] := congrArg (List.map Job.taken) hjobs
  have hcheckj : (batched s).closeCheck [] j.taken = .keep := closeCheck_of_line_open (s := batched s) hpassesj hline
  have hchecki : (batched s).closeCheck [j.xp] i.taken = .refuse .lineTaken := by
    have hkept : lineKept [j.xp] i.taken.xp = true := by
      simp [lineKept, Job.xpLine_xp, hsame]
    rw [closeCheck_of_line_open (s := batched s) (j := i.taken) hpassesi (hsame ▸ hline), if_pos hkept]
  have hchecks : (batched s).closeChecks [] ((batched s).jbu.jobs.filter Job.closing)
      = ([(i.taken, .lineTaken)], []) := by
    rw [htaken, List.filter_cons_of_pos (Job.taken_close hclosej).1,
      List.filter_cons_of_pos (Job.taken_close hclosei).1, List.filter_nil, State.closeChecks, hcheckj]
    dsimp only
    rw [State.closeChecks, Job.taken_xp, hchecki]
    rfl
  have hdiffer : i.taken ≠ j.taken := fun heq =>
    hne (Job.taken_inj ((h.ready i (by simp [hjobs])).trans (h.ready j (by simp [hjobs])).symm) heq)
  obtain ⟨-, -, -, -, hexchange, -⟩ := (State.calm_iff _).1 h.rest
  rw [h.gatherBatch hchecks]
  refine endJobs_of_one (j := i.taken) (before := [j.taken]) (after := []) htaken (by simp [endedBy]) ?_ ?_ hanswer
    ((exchangeStep_eq_none _).2 ((exchangeStep_eq_none { s with jbu.jobs := [] }).1 hexchange))
  · refine List.forall_mem_singleton.2 ⟨?_, ?_⟩
    · simp [endedBy, hdiffer]
    · simp [Job.follower, Job.taken, hbehind]
  · simp [Job.finish, Job.taken]

end Forms

/-- Settles O41: the close is kept and the open is taken, so that the stroke starts at once and the Commit Engine is busy
with it. -/
theorem formationDrivesClose : Obligations.FormationDrivesClose := by
  unfold Obligations.FormationDrivesClose
  intro j s hrest hjobs hready hengine hcheck hmark hquiet
  have hforms := fun htaken => forms_of_one hrest hjobs hready hengine hcheck hmark htaken
  have hnonempty : s.jbu.jobs ≠ [] := hjobs ▸ List.cons_ne_nil _ _
  refine ⟨fun haction hstation hwear hheld hline => ?_, fun haction hstanding => ?_⟩
  · have h := hforms (offer_of_close haction hquiet)
    have hform := Forms.formBatch_close haction hline
      (h.gather_one_close hjobs haction ⟨hstation, hwear, hheld⟩ hline)
    refine ⟨_, h.exec hnonempty hform (h.calm_drivesClose j _), rfl, ?_, drivesClose_xp j _ s, rfl, rfl, ?_, ?_, ?_⟩ <;>
      rw [drivesClose, drivenClose_eq] <;> rfl
  · have hopen : OpenTaken j s := ⟨haction, hstanding⟩
    have h := hforms (offer_of_open hopen hquiet)
    have htaken : (batched s).jbu.jobs = [j.taken] := congrArg (List.map Job.taken) hjobs
    have hform := h.formBatch_open (o := j) (waiting := [])
      (by rw [htaken, List.filter_cons_of_pos hopen.opening, List.filter_nil])
      (by rw [htaken, List.filter_cons_of_neg hopen.not_closing, List.filter_nil]; rfl)
    exact ⟨_, h.exec hnonempty hform (h.calm_drivesOpen j []), rfl, htaken, drivesOpen_xp hopen hmark [], rfl, rfl, rfl,
      rfl, rfl⟩

/-- Settles O42: the check of R151 that decides the close is found with no open in the batch, beside an open, and beside
an earlier close. -/
theorem formationDecidesClose : Obligations.FormationDecidesClose := by
  unfold Obligations.FormationDecidesClose
  intro j s hrest hready haction hbehind hengine hcheck hmark hquiet
  have htakenj : s.offer j = .inr j.taken := offer_of_close haction hquiet
  have hforms : (∀ i ∈ s.jbu.jobs, i.state = .ready ∧ s.offer i = .inr i.taken) → Forms s := fun hall =>
    ⟨hrest, hengine, hcheck, hmark, fun i hi => (hall i hi).1, fun i hi => (hall i hi).2⟩
  refine ⟨fun code hjobs hanswer hcode => ?_, fun o hjobs hreadyo hquieto hactiono hstanding hpasses hline hown => ?_,
    fun i hjobs hne hreadyi hactioni hquieti hanswer hpassesj hpassesi hsame hline => ?_⟩
  · have h := hforms (hjobs ▸ List.forall_mem_singleton.2 ⟨hready, htakenj⟩)
    have hopens : (batched s).opensNone := by
      refine opensNone_of_closes (fun i hi => ?_) rfl
      rw [show (batched s).jbu.jobs = [j.taken] from congrArg (List.map Job.taken) hjobs, List.mem_singleton] at hi
      exact hi ▸ (Job.taken_close haction).2
    have hrefused : (batched s).closeCheck [] j.taken = .refuse code := by
      rcases hcode with ⟨hstation, rfl⟩ | ⟨hstation, hwear, rfl⟩ | ⟨hstation, hwear, hheld, rfl⟩
        | ⟨hpasses, hstate, howner, rfl⟩ | ⟨hpasses, hstate, hother, rfl⟩ | ⟨hpasses, hstate, hline, rfl⟩
      · exact closeCheck_of_fault hstation
      · exact closeCheck_of_retired hstation hwear
      · exact closeCheck_of_not_held hstation hwear hheld
      · exact closeCheck_of_closed hpasses hopens hstate howner
      · exact closeCheck_of_own_taken hpasses hopens hstate hother
      · exact closeCheck_of_line_taken hpasses hopens hstate hline
    exact ⟨_, h.exec (hjobs ▸ List.cons_ne_nil _ _) (h.formBatch_refuse hjobs haction hrefused hanswer)
      (h.calm_refusesClose j code), rfl, rfl, rfl, rfl⟩
  · have hopen : OpenTaken o s := ⟨hactiono, hstanding⟩
    have htakeno : s.offer o = .inr o.taken := offer_of_open hopen hquieto
    have h := hforms (by rcases hjobs with hjobs | hjobs <;> simp [hjobs, hready, hreadyo, htakenj, htakeno])
    have hmem : o ∈ s.jbu.jobs := by rcases hjobs with hjobs | hjobs <;> simp [hjobs]
    obtain ⟨hclosing, hnotopening⟩ := Job.taken_close haction
    have hlists : (batched s).jbu.jobs.filter Job.opening = [o.taken]
        ∧ (batched s).jbu.jobs.filter Job.closing = [j.taken] := by
      rcases hjobs with hjobs | hjobs <;>
        simp [batched, hjobs, hopen.opening, hopen.not_closing, hclosing, hnotopening]
    have hxpLine : xpLine o.xp = xpLine j.xp := by rw [o.xpLine_xp, j.xpLine_xp, hline]
    have hxp : o.xp = j.xp ∨ (s.xp j.xp).state = .opn := hown.imp_left fun htrunk => xpNum_inj.2 ⟨hline, htrunk⟩
    have hwaits : (batched s).closeCheck [] j.taken = .keepWaiting :=
      closeCheck_of_opening (s := batched s) (j := j.taken) hpasses
        (inOpening_of_job (List.mem_map_of_mem hmem) hopen.opening) hopen.not_open hxpLine hxp
    have hform := h.formBatch_open (waiting := [j.xp]) hlists.1 (by
      rw [hlists.2, State.closeChecks, hwaits]
      rfl)
    refine ⟨_, h.exec (List.ne_nil_of_mem hmem) hform (h.calm_drivesOpen o _), rfl, rfl, rfl, ?_, fun x hx => ?_, rfl⟩
    · exact congrArg Crosspoint.state ((drivesOpen_xp hopen hmark _ o.xp).trans (if_pos rfl))
    · exact (drivesOpen_xp hopen hmark _ x).trans (if_neg hx)
  · have htakeni : s.offer i = .inr i.taken := offer_of_close hactioni hquieti
    have h := hforms (by simp [hjobs, hready, hreadyi, htakenj, htakeni])
    have hform := Forms.formBatch_close haction hline
      (h.gather_two_closes hjobs hne haction hactioni hbehind hpassesj hpassesi hsame hline hanswer)
    refine ⟨_, h.exec (hjobs ▸ List.cons_ne_nil _ _) hform (h.calm_drivesClose j _), rfl, ?_, ?_, fun x hx => ?_, ?_⟩
    · rw [drivesClose, drivenClose_eq]
      rfl
    · exact congrArg Crosspoint.state ((drivesClose_xp j _ s j.xp).trans (if_pos rfl))
    · exact (drivesClose_xp j _ s x).trans (if_neg hx)
    · rw [drivesClose, drivenClose_eq]
      rfl

end Sys2Proof.Machine

/-! PROOFS. The chain fault (09 R148, R156, R157, 01 R8): the Route Engine and the Job Unit post no alert but ROUTE-DAMAGED
and DROPPED-LOST and leave no job unfinished in FAULT, so that what the driver clear makes of the station stands. -/

namespace Sys2Proof.Machine

/-! ## Alerts of the Route Engine and the Job Unit (R109, R145) -/

/-- No alert changes but ROUTE-DAMAGED and DROPPED-LOST. -/
def LocalPosts (s t : State) : Prop :=
  ∃ damaged lost, t.orp.alerts = { s.orp.alerts with routeDamaged := damaged, droppedLost := lost }

namespace LocalPosts

theorem of_alerts {s t : State} (h : t.orp.alerts = s.orp.alerts) : LocalPosts s t := ⟨_, _, h⟩

theorem refl (s : State) : LocalPosts s s := of_alerts rfl

theorem trans {s t u : State} (h : LocalPosts s t) (g : LocalPosts t u) : LocalPosts s u := by
  obtain ⟨_, _, ht⟩ := h
  obtain ⟨_, _, hu⟩ := g
  exact ⟨_, _, by rw [hu, ht]⟩

theorem foldl {α : Type} {f : State → α → State} (h : ∀ s a, LocalPosts s (f s a)) (l : List α) (s : State) :
    LocalPosts s (l.foldl f s) := by
  induction l generalizing s with
  | nil => exact refl s
  | cons a l ih => exact (h s a).trans (ih _)

theorem ite {p : Prop} [Decidable p] {s t u : State} (h : p → LocalPosts s t) (g : ¬p → LocalPosts s u) :
    LocalPosts s (if p then t else u) := by
  split
  · exact h ‹_›
  · exact g ‹_›

theorem chainFault {s t : State} (h : LocalPosts s t) : t.orp.alerts.chainFault = s.orp.alerts.chainFault := by
  obtain ⟨_, _, ht⟩ := h
  rw [ht]

end LocalPosts

theorem localPosts_modRoute (tag : Tag) (f : Route → Route) (s : State) : LocalPosts s (modRoute tag f s) :=
  LocalPosts.refl s

theorem localPosts_enqueue (m : LinkMsg) (s : State) : LocalPosts s (enqueue m s) :=
  LocalPosts.ite (fun _ => LocalPosts.refl s) fun _ => LocalPosts.refl s

theorem localPosts_rteSend (owner : Option Tag) (m : LinkMsg) (s : State) : LocalPosts s (rteSend owner m s) :=
  LocalPosts.ite (fun _ => LocalPosts.refl s) fun _ => LocalPosts.refl s

theorem localPosts_placeReportsN (n : Nat) (s : State) : LocalPosts s (placeReportsN n s) := by
  induction n generalizing s with
  | zero => exact LocalPosts.refl s
  | succ n ih =>
    unfold placeReportsN
    split
    · obtain ⟨tag, rep, -, -, ht⟩ := placeNextReport_eq_some ‹_›
      refine LocalPosts.trans (LocalPosts.of_alerts ?_) (ih _)
      rw [ht, placedReport_eq]
    · exact LocalPosts.refl s

theorem localPosts_placeReports (s : State) : LocalPosts s (placeReports s) := localPosts_placeReportsN _ s

theorem localPosts_makeRound (tag : Tag) (action : Action) (armed : Bool) (sel : Endpoint → Bool) (s : State) :
    LocalPosts s (makeRound tag action armed sel s) := by
  have hsent : ∀ (l : List LinkMsg) (t : State), LocalPosts t (l.foldl (fun s m => rteSend (some tag) m s) t) :=
    LocalPosts.foldl fun s _ => localPosts_rteSend _ _ s
  unfold makeRound
  dsimp only
  split
  · exact hsent _ (modRoute _ _ s)
  · have hround : ∀ t : State, LocalPosts t (setReplyTimer tag (s.route tag).gen t) := fun t =>
      LocalPosts.ite (fun _ => localPosts_modRoute _ _ t) fun _ => LocalPosts.refl t
    exact (hsent _ (modRoute _ _ s)).trans (LocalPosts.ite (fun _ => hround _) fun _ => LocalPosts.refl _)

theorem localPosts_sendForTrunks (msg : Trunk → LinkMsg) (l : List Trunk) (s : State) :
    LocalPosts s (sendForTrunks msg l s) := LocalPosts.foldl (fun s _ => localPosts_rteSend _ _ s) _ s

theorem localPosts_endOperation (linked : Bool) (tag : Tag) (state : RouteState) (cls : OutcomeClass) (reason : Reason)
    (s : State) : LocalPosts s (endOperation linked tag state cls reason s) := by
  unfold endOperation
  refine LocalPosts.trans ?_ (localPosts_placeReports _)
  exact LocalPosts.ite (fun _ => localPosts_sendForTrunks _ _ s) fun _ => LocalPosts.refl s

theorem localPosts_testEnd (tag : Tag) (s : State) : LocalPosts s (testEnd tag s) := by
  unfold testEnd
  split
  · exact LocalPosts.ite (fun _ => LocalPosts.refl s) fun _ => localPosts_endOperation _ _ _ _ _ s
  · exact LocalPosts.ite (fun _ => LocalPosts.refl s) fun _ => localPosts_endOperation _ _ _ _ _ s
  · exact LocalPosts.ite (fun _ => LocalPosts.refl s) fun _ => localPosts_endOperation _ _ _ _ _ s
  · exact LocalPosts.refl s

theorem localPosts_startBackout (tag : Tag) (s : State) : LocalPosts s (startBackout tag s) := by
  unfold startBackout
  dsimp only
  refine LocalPosts.trans ?_ (localPosts_testEnd _ _)
  refine LocalPosts.trans ?_ (localPosts_makeRound _ _ _ _ _)
  refine LocalPosts.trans (t := rteSend _ _ _) ?_ (localPosts_modRoute _ _ _)
  refine LocalPosts.trans ?_ (localPosts_rteSend _ _ _)
  exact LocalPosts.ite (fun _ => LocalPosts.refl s) fun _ => LocalPosts.refl s

theorem localPosts_becomeDamaged (tag : Tag) (s : State) : LocalPosts s (becomeDamaged tag s) := ⟨_, _, rfl⟩

theorem localPosts_noteDecline (tag : Tag) (code : ResultCode) (status : EndpointStatus) (s : State) :
    LocalPosts s (noteDecline tag code status s) :=
  LocalPosts.ite (fun _ => LocalPosts.refl s) fun _ => localPosts_modRoute _ _ s

theorem localPosts_failMake (tag : Tag) (reason : Reason) (s : State) : LocalPosts s (failMake tag reason s) := by
  unfold failMake
  exact (localPosts_modRoute _ _ s).trans (localPosts_startBackout _ _)

theorem localPosts_becomeMade (tag : Tag) (s : State) : LocalPosts s (becomeMade tag s) := by
  unfold becomeMade
  exact LocalPosts.trans (LocalPosts.refl s) (localPosts_placeReports _)

theorem localPosts_afterStatus (q : RouteResult) (status : EndpointStatus) (s : State) :
    LocalPosts s (afterStatus q status s) := by
  have hnoted := (localPosts_noteDecline q.tag q.code status s).trans (localPosts_testEnd q.tag _)
  unfold afterStatus
  dsimp only
  split
  · exact LocalPosts.ite (fun _ => LocalPosts.ite (fun _ => localPosts_becomeMade _ s) fun _ => LocalPosts.refl s)
      fun _ => localPosts_failMake _ _ s
  · exact LocalPosts.ite (fun _ => LocalPosts.ite (fun _ => localPosts_rteSend _ _ s) fun _ => LocalPosts.refl s)
      fun _ => LocalPosts.ite (fun _ => LocalPosts.refl s) fun _ => localPosts_failMake _ _ s
  · exact (LocalPosts.ite (fun _ => localPosts_makeRound _ _ _ _ s) fun _ => LocalPosts.refl s).trans
      (localPosts_testEnd _ _)
  · exact LocalPosts.ite (fun _ => LocalPosts.refl s) fun _ => localPosts_becomeDamaged _ s
  · exact hnoted
  · exact hnoted
  · exact LocalPosts.refl s

theorem localPosts_takeResult (q : RouteResult) (s : State) : LocalPosts s (takeResult q s) := by
  unfold takeResult
  dsimp only
  refine LocalPosts.ite (fun _ => ?_) fun _ => LocalPosts.refl s
  split
  · exact LocalPosts.refl s
  · split
    · exact LocalPosts.refl s
    · exact localPosts_afterStatus _ _ (modRoute _ _ s)

theorem localPosts_refuseRoute (tag : Tag) (reason : Reason) (s : State) : LocalPosts s (refuseRoute tag reason s) :=
  localPosts_placeReports (fixReports _ _ _ (modRoute _ _ s))

theorem localPosts_failClaiming (tag : Tag) (reason : Reason) (s : State) :
    LocalPosts s (failClaiming tag reason s) := by
  have hresolved : ∀ t : State, LocalPosts t (endIfResolved tag t) := fun t =>
    LocalPosts.ite (fun _ => localPosts_refuseRoute _ _ t) fun _ => LocalPosts.refl t
  unfold failClaiming
  dsimp only
  refine LocalPosts.ite (fun _ => LocalPosts.ite (fun _ => hresolved s) fun _ => ?_) fun _ => LocalPosts.refl s
  exact (localPosts_sendForTrunks _ _ (removeClaims tag (modRoute _ _ s))).trans (hresolved _)

theorem localPosts_routeChainFault (tag : Tag) (s : State) : LocalPosts s (routeChainFault tag s) := by
  unfold routeChainFault
  dsimp only
  split
  · exact localPosts_refuseRoute _ _ s
  · exact localPosts_failClaiming _ _ s
  · exact localPosts_startBackout _ (modRoute _ _ s)
  · exact localPosts_startBackout _ (modRoute _ _ s)
  · exact localPosts_startBackout _ (modRoute _ _ s)
  · exact localPosts_modRoute _ _ s
  · exact localPosts_modRoute _ _ s
  · exact localPosts_modRoute _ _ s
  · exact LocalPosts.refl s

theorem localPosts_returnFollower (c : Job) (s : State) : LocalPosts s (returnFollower c s) :=
  LocalPosts.ite (fun _ => LocalPosts.refl s) fun _ => LocalPosts.ite (fun _ =>
    (localPosts_enqueue _ s).trans (LocalPosts.of_alerts rfl)) fun _ => LocalPosts.refl s

theorem localPosts_returnFollowers (j : Job) (s : State) : LocalPosts s (returnFollowers j s) :=
  LocalPosts.foldl (fun s c => localPosts_returnFollower c s) _ s

theorem localPosts_returnJob (fromBatch : Bool) (j : Job) (s : State) : LocalPosts s (returnJob fromBatch j s) := by
  unfold returnJob
  split
  · exact LocalPosts.ite (fun _ => localPosts_returnFollowers _ (removeJob j (deliverLocal _ _ _ _ s))) fun _ =>
      LocalPosts.ite (fun _ => LocalPosts.refl s) fun _ =>
      LocalPosts.ite (fun _ => (localPosts_enqueue _ s).trans (localPosts_returnFollowers j (removeJob j _)))
        fun _ => LocalPosts.refl s
  · exact LocalPosts.refl s

theorem localPosts_placeJob (j : Job) (s : State) : LocalPosts s (placeJob j s) := by
  have hended : ∀ (code : ResultCode) (t : State), LocalPosts t (endJob code j t) := fun code t =>
    localPosts_returnJob _ _ (replaceJob _ _ t)
  have hopened : LocalPosts s (placeOpen j s) :=
    LocalPosts.ite (fun _ => hended _ (cancelCloses j s)) fun _ => LocalPosts.refl s
  unfold placeJob
  refine LocalPosts.ite (fun _ => ?_) fun _ => ?_
  · exact LocalPosts.ite (fun _ => LocalPosts.refl s) fun _ =>
      LocalPosts.ite (fun _ => localPosts_enqueue _ (replaceJob _ _ s)) fun _ => LocalPosts.refl s
  · split
    · exact LocalPosts.ite (fun _ => hopened) fun _ => hended _ s
    · exact hopened
    · exact LocalPosts.refl s

theorem localPosts_intake (q : JobRequest) (s : State) : LocalPosts s (intake q s) := by
  have hanswer : ∀ code, LocalPosts s (answerAtIntake q code s) := fun _ =>
    LocalPosts.ite (fun _ => LocalPosts.refl s) fun _ => localPosts_enqueue _ s
  unfold intake
  refine LocalPosts.ite (fun _ => hanswer _) fun _ => LocalPosts.ite (fun _ => hanswer _) fun _ =>
    LocalPosts.ite (fun _ => LocalPosts.refl s) fun _ => ?_
  exact LocalPosts.ite (fun _ => LocalPosts.refl s) fun _ => localPosts_placeJob _ (appendJob _ s)

theorem localPosts_exchangeN (n : Nat) (s : State) : LocalPosts s (exchangeN n s) := by
  induction n generalizing s with
  | zero => exact LocalPosts.refl s
  | succ n ih =>
    unfold exchangeN
    split
    · rename_i t hstep
      refine LocalPosts.trans ?_ (ih t)
      unfold exchangeStep at hstep
      split at hstep
      · rw [← Option.some.inj hstep]
        exact localPosts_takeResult _ { s with rte.inbox := _ }
      · obtain ⟨p, -, rfl⟩ := Option.map_eq_some_iff.1 hstep
        exact localPosts_intake _ { s with rte.rounds := _ }
    · exact LocalPosts.refl s

theorem localPosts_exchange (s : State) : LocalPosts s (exchange s) := localPosts_exchangeN _ s

theorem localPosts_endJobs (verdict : Job → Option ResultCode) (s : State) : LocalPosts s (endJobs verdict s) :=
  LocalPosts.foldl (fun s _ => (localPosts_returnJob _ _ s).trans (localPosts_exchange _)) _
    { s with jbu.jobs := _ }

theorem localPosts_sendDropped (ref : RouteRef) (x : Xp) (s : State) : LocalPosts s (sendDropped ref x s) :=
  LocalPosts.ite (fun _ => LocalPosts.refl s) fun _ => LocalPosts.ite (fun _ => LocalPosts.refl s) fun _ =>
    LocalPosts.ite (fun _ => localPosts_enqueue _ s) fun _ => LocalPosts.ite (fun _ => LocalPosts.refl s) fun _ =>
    ⟨_, _, rfl⟩

theorem localPosts_sendAllDropped (found : List (RouteRef × Xp)) (s : State) :
    LocalPosts s (sendAllDropped found s) :=
  LocalPosts.foldl (fun s _ => (localPosts_sendDropped _ _ s).trans (localPosts_exchange _)) _ s

/-! ## The job list of a station in FAULT (R132, R133, R156) -/

/-- The station is in FAULT and no job of its list is unfinished. -/
structure FaultDone (s : State) : Prop where
  fault : s.stc.station = .fault
  done : ∀ j ∈ s.jbu.jobs, j.isDone = true

namespace FaultDone

/-- Jobs that leave the list, and finished ones that join it, do no harm. -/
theorem of_jobs {s t : State} (h : FaultDone s) (hstc : t.stc = s.stc)
    (hjobs : ∀ j ∈ t.jbu.jobs, j ∈ s.jbu.jobs ∨ j.isDone = true) : FaultDone t :=
  ⟨hstc ▸ h.fault, fun j hj => (hjobs j hj).elim (h.done j) id⟩

theorem congr {s t : State} (h : FaultDone s) (hstc : t.stc = s.stc) (hjbu : t.jbu = s.jbu) : FaultDone t :=
  h.of_jobs hstc fun _ hj => Or.inl (hjbu ▸ hj)

theorem of_rteWork {s t : State} (h : FaultDone s) (hwork : RteWork s t) : FaultDone t := h.congr hwork.stc hwork.jbu

theorem foldl {α : Type} {f : State → α → State} (hf : ∀ s a, FaultDone s → FaultDone (f s a)) (l : List α) {s : State}
    (h : FaultDone s) : FaultDone (l.foldl f s) := by
  induction l generalizing s with
  | nil => exact h
  | cons a l ih => exact ih (hf s a h)

theorem enqueue {s : State} (h : FaultDone s) (m : LinkMsg) : FaultDone (enqueue m s) :=
  h.of_rteWork (rteWork_enqueue m s)

theorem removeJob {s : State} (h : FaultDone s) (j : Job) : FaultDone (removeJob j s) :=
  h.of_jobs rfl fun _ hi => Or.inl (List.mem_of_mem_erase hi)

theorem deliverLocal {s : State} (h : FaultDone s) (ref : RouteRef) (line : Line) (trunk : Trunk) (code : ResultCode) :
    FaultDone (deliverLocal ref line trunk code s) := h.congr rfl rfl

/-- A finished job that no longer waits for its canceller is a finished job. -/
theorem released {s : State} (h : FaultDone s) (c : Job) : FaultDone (replaceJob c { c with behind := none } s) := by
  refine h.of_jobs rfl fun i hi => ?_
  obtain ⟨j, hj, rfl⟩ := List.mem_map.1 hi
  split
  · rename_i heq
    exact Or.inr (h.done c (beq_iff_eq.1 heq ▸ hj))
  · exact Or.inl hj

theorem returnFollower {s : State} (h : FaultDone s) (c : Job) : FaultDone (returnFollower c s) := by
  unfold Machine.returnFollower
  split
  · exact (h.deliverLocal _ _ _ _).removeJob c
  · split
    · exact (h.enqueue _).removeJob c
    · exact h.released c

theorem returnFollowers {s : State} (h : FaultDone s) (j : Job) : FaultDone (returnFollowers j s) :=
  foldl (fun _ c hs => hs.returnFollower c) _ h

theorem returnJob {s : State} (h : FaultDone s) (fromBatch : Bool) (j : Job) : FaultDone (returnJob fromBatch j s) := by
  unfold Machine.returnJob
  split
  · split
    · exact ((h.deliverLocal _ _ _ _).removeJob j).returnFollowers j
    · split
      · exact h.of_jobs rfl fun _ hi => Or.inl (List.mem_of_mem_erase (List.mem_of_mem_filter hi))
      · split
        · exact ((h.enqueue _).removeJob j).returnFollowers j
        · exact h
  · exact h

/-- A station in FAULT answers a local job at intake (R133). -/
theorem intake {s : State} (h : FaultDone s) (q : JobRequest) : FaultDone (intake q s) := by
  rw [intake_of_fault h.fault, answerAtIntake]
  split
  · exact h.congr rfl rfl
  · exact h.enqueue _

theorem exchangeStep {s t : State} (h : FaultDone s) (hstep : exchangeStep s = some t) : FaultDone t := by
  unfold Machine.exchangeStep at hstep
  split at hstep
  · rw [← Option.some.inj hstep]
    refine FaultDone.of_rteWork ?_ (rteWork_takeResult _ _)
    exact h.congr rfl rfl
  · obtain ⟨p, -, rfl⟩ := Option.map_eq_some_iff.1 hstep
    refine FaultDone.intake ?_ p.1
    exact h.congr rfl rfl

theorem exchangeN {s : State} (h : FaultDone s) (n : Nat) : FaultDone (exchangeN n s) := by
  induction n generalizing s with
  | zero => exact h
  | succ n ih =>
    unfold Machine.exchangeN
    split
    · exact ih (h.exchangeStep ‹_›)
    · exact h

theorem exchange {s : State} (h : FaultDone s) : FaultDone (exchange s) := h.exchangeN _

/-- A DROPPED that is kept is kept as a finished job (R145). -/
theorem sendDropped {s : State} (h : FaultDone s) (ref : RouteRef) (x : Xp) : FaultDone (sendDropped ref x s) := by
  unfold Machine.sendDropped
  split
  · exact h.congr rfl rfl
  · split
    · exact h
    · split
      · exact h.enqueue _
      · split
        · refine h.of_jobs rfl fun j hj => (List.mem_append.1 hj).imp_right fun hj => ?_
          rw [List.mem_singleton.1 hj]
          rfl
        · exact h.congr rfl rfl

theorem sendAllDropped {s : State} (h : FaultDone s) (found : List (RouteRef × Xp)) :
    FaultDone (sendAllDropped found s) := foldl (fun _ p hs => (hs.sendDropped p.1 p.2).exchange) _ h

end FaultDone

/-- What step 5 of R156 makes of a job is DONE. -/
theorem isDone_faultCode (j : Job) : ((j.faultCode.map fun c => j.finish c).getD j).isDone = true := by
  unfold Job.faultCode
  split
  · assumption
  · split <;> rfl

/-- Step 5 of R156 leaves no job of a station in FAULT unfinished. -/
theorem faultDone_endJobs {s : State} (h : s.stc.station = .fault) : FaultDone (endJobs Job.faultCode s) := by
  unfold endJobs
  refine FaultDone.foldl (fun _ p hs => (hs.returnJob p.1 p.2).exchange) _ ⟨h, fun i hi => ?_⟩
  obtain ⟨j, -, rfl⟩ := List.mem_map.1 hi
  exact isDone_faultCode j

/-! ## What the chain fault leaves (R8, R156, R157) -/

/-- CHAIN-FAULT and the state of the station (R156, R157). -/
def declareFault (s : State) : State := postChainFault { s with stc.station := s.stc.station.faulted }

/-- The sweep timer goes with the marks (R143, R156). -/
def stopSweep (s : State) : State := { s with jbu.sweep := .absent }

/-- The chain fault, step by step (R156). -/
theorem chainFault_eq (s : State) : chainFault s = refuseRunningCheck (sendAllDropped s.remembered (stopSweep
    (endJobs Job.faultCode (exchange (allTags.foldl (fun s tag => routeChainFault tag s)
      (declareFault (driverClear s.cfg.releaseExp s))))))) := by
  unfold chainFault stopSweep declareFault
  rfl

/-- `t` is a station that the chain fault has taken from `s`, but for its jobs. -/
structure Cleared (s t : State) : Prop where
  engine : t.cme.engine = .clearSettle
  settle : t.cme.settle = some (2 ^ s.cfg.releaseExp)
  xp : ∀ x, t.xp x = (s.xp x).enterOpen
  drive : t.cme.drive = 0
  coils : t.cme.coils = 0
  dout : t.cme.dout = none
  station : t.stc.station = s.stc.station.faulted
  ttu : t.ttu = s.ttu
  mbu : t.mbu = s.mbu
  orders : t.orp.orders = s.orp.orders
  posted : t.orp.alerts.chainFault = true

namespace Cleared

/-- The driver clear, the state of the station and the alert (R8, R156, R157). -/
theorem driverClear (s : State) : Cleared s (declareFault (driverClear s.cfg.releaseExp s)) := by
  have hengine := driverClear_cme_engine s s.cfg.releaseExp
  have hsettle := driverClear_cme_settle s s.cfg.releaseExp
  have hxp := driverClear_xp s s.cfg.releaseExp
  have hdrive := driverClear_cme_drive s s.cfg.releaseExp
  have hcoils := driverClear_cme_coils s s.cfg.releaseExp
  have hdout := driverClear_cme_dout s s.cfg.releaseExp
  have hstc := congrArg Stc.station (driverClear_stc s s.cfg.releaseExp)
  have httu := driverClear_ttu s s.cfg.releaseExp
  have hmbu := driverClear_mbu s s.cfg.releaseExp
  have horders := congrArg Orp.orders (driverClear_orp s s.cfg.releaseExp)
  generalize Machine.driverClear s.cfg.releaseExp s = d at *
  exact ⟨hengine, hsettle, hxp, hdrive, hcoils, hdout, congrArg StationState.faulted hstc, httu, hmbu, horders, rfl⟩

/-- What keeps the fields named here, but for the CHECK that is held, keeps the rest. -/
theorem congr {s t u : State} (h : Cleared s t) (hstc : u.stc = t.stc) (httu : u.ttu = t.ttu) (hmbu : u.mbu = t.mbu)
    (hcme : u.cme = { t.cme with check := u.cme.check }) (horders : u.orp.orders = t.orp.orders)
    (hposted : u.orp.alerts.chainFault = t.orp.alerts.chainFault) : Cleared s u where
  engine := by rw [hcme]; exact h.engine
  settle := by rw [hcme]; exact h.settle
  xp x := by rw [State.xp, hcme]; exact h.xp x
  drive := by rw [hcme]; exact h.drive
  coils := by rw [hcme]; exact h.coils
  dout := by rw [hcme]; exact h.dout
  station := by rw [hstc]; exact h.station
  ttu := httu.trans h.ttu
  mbu := hmbu.trans h.mbu
  orders := horders.trans h.orders
  posted := hposted.trans h.posted

theorem work {s t u : State} (h : Cleared s t) (hwork : JobWork t u) (hposts : LocalPosts t u) : Cleared s u :=
  h.congr hwork.stc hwork.ttu hwork.mbu (by rw [hwork.cme]) (by rw [hwork.orp]) hposts.chainFault

theorem stopSweep {s t : State} (h : Cleared s t) : Cleared s (stopSweep t) :=
  h.congr rfl rfl rfl rfl rfl rfl

end Cleared

/-- The refusal of a running CHECK takes the CHECK and adds a report (R158). -/
theorem refuseRunningCheck_eq (s : State) : refuseRunningCheck s = { s with
    cme.check := (refuseRunningCheck s).cme.check, orp.reports := (refuseRunningCheck s).orp.reports } := by
  unfold refuseRunningCheck answerCheck placeReport
  split
  · split
    · split <;> rfl
    · rfl
  · rfl

theorem Cleared.refuseRunningCheck {s t : State} (h : Cleared s t) : Cleared s (refuseRunningCheck t) := by
  rw [refuseRunningCheck_eq]
  exact h.congr rfl rfl rfl rfl rfl rfl

theorem FaultDone.stopSweep {s : State} (h : FaultDone s) : FaultDone (stopSweep s) := h.of_jobs rfl fun _ => Or.inl

theorem FaultDone.refuseRunningCheck {s : State} (h : FaultDone s) : FaultDone (refuseRunningCheck s) := by
  rw [refuseRunningCheck_eq]
  exact h.congr rfl rfl

/-- What the chain fault leaves of `s`. -/
structure ChainFaulted (s t : State) : Prop where
  cleared : Cleared s t
  done : s.stc.station.faulted = .fault → FaultDone t

/-- What follows when the Route Engine has taken its part: the jobs, the DROPPEDs and the CHECK (R156, R158). -/
theorem Cleared.chainFaulted {s t : State} (h : Cleared s t) (found : List (RouteRef × Xp)) :
    ChainFaulted s (Machine.refuseRunningCheck
      (sendAllDropped found (Machine.stopSweep (endJobs Job.faultCode t)))) where
  cleared := ((h.work (jobWork_endJobs _ _) (localPosts_endJobs _ _)).stopSweep.work
    (jobWork_sendAllDropped _ _) (localPosts_sendAllDropped _ _)).refuseRunningCheck
  done hfault := ((faultDone_endJobs (h.station.trans hfault)).stopSweep.sendAllDropped _).refuseRunningCheck

theorem Cleared.foldl {α : Type} {f : State → α → State} (hwork : ∀ t a, RteWork t (f t a))
    (hposts : ∀ t a, LocalPosts t (f t a)) (l : List α) {s t : State} (h : Cleared s t) : Cleared s (l.foldl f t) :=
  h.work (RteWork.foldl hwork l t).job (LocalPosts.foldl hposts l t)

theorem Cleared.exchange {s t : State} (h : Cleared s t) : Cleared s (exchange t) :=
  h.work (jobWork_exchange t) (localPosts_exchange t)

theorem Cleared.routesChainFault {s t : State} (h : Cleared s t) :
    Cleared s (allTags.foldl (fun s tag => routeChainFault tag s) t) :=
  h.foldl (fun t tag => rteWork_routeChainFault tag t) (fun t tag => localPosts_routeChainFault tag t) allTags

theorem chainFaulted_chainFault (s : State) : ChainFaulted s (chainFault s) := by
  rw [chainFault_eq]
  exact (Cleared.driverClear s).routesChainFault.exchange.chainFaulted s.remembered

/-! ## The end of the event -/

/-- With the Commit Engine busy and no order held, reports are all that the end of an event places. -/
theorem serveN_of_busy {s : State} (hengine : s.cme.engine ≠ .idle) (horders : s.orp.orders = []) (n : Nat) :
    serveN n s = placeReports s := by
  have hwork : commitWork s = none := (commitWork_eq_none s).2 (formationDue_busy hengine)
  have horder : serveOrder (placeReports s) = none := by
    refine (serveOrder_eq_none _).2 (Or.inl ?_)
    rw [(rteWork_placeReports s).orp]
    exact horders
  cases n with
  | zero => rfl
  | succ n => simp only [serveN, serveStep, hwork, horder]

theorem ChainFaulted.afterEvent {s t : State} (h : ChainFaulted s t) (horders : s.orp.orders = []) :
    ChainFaulted s (afterEvent t) := by
  have hbusy : t.cme.engine ≠ .idle := by rw [h.cleared.engine]; exact Engine.noConfusion
  rw [Machine.afterEvent, serveN_of_busy hbusy (h.cleared.orders.trans horders), settleSweepTimer_eq]
  refine ⟨Cleared.congr (h.cleared.work (rteWork_placeReports t).job (localPosts_placeReports t)) rfl rfl rfl rfl rfl rfl,
    fun hfault => ((h.done hfault).of_rteWork (rteWork_placeReports t)).of_jobs rfl fun _ => Or.inl⟩

theorem faulted_eq (st : StationState) :
    st.faulted = if st = .joining ∨ st = .online then .fault else st := by
  cases st <;> rfl

theorem faulted_of_driving {s : State} (h : s.driving = true) : s.stc.station.faulted = .fault := by
  unfold State.driving at h
  cases hst : s.stc.station <;> simp_all [StationState.faulted]

theorem senseEnd_of_bad {sin : PassBits} (hmarker : passMarkerGood sin = false) (good : Image → State → State)
    (s : State) : senseEnd sin good s = chainFault { s with cme.sense := passContacts sin } := by
  rw [senseEnd, hmarker]
  exact if_neg Bool.false_ne_true

theorem drivePassEnd_of_bad {sin : PassBits} {s : State} (hmarker : passMarkerGood sin = false)
    (hengine : s.cme.engine = .openDrive ∨ s.cme.engine = .closeDrive) : drivePassEnd sin s = chainFault s := by
  unfold drivePassEnd
  rcases hengine with hengine | hengine <;> rw [hengine, hmarker] <;>
    exact if_neg Bool.false_ne_true

/-- Every pass end with a bad marker is a chain fault, of a station that may have taken the contact bits (R148). -/
theorem exec_passEnd_of_bad {c : Instr} {sin : PassBits} {s : State} (hmarker : passMarkerGood sin = false)
    (hpass : s.cme.engine = .openDrive ∧ c = .drivePassEnd sin ∨ s.cme.engine = .closeDrive ∧ c = .drivePassEnd sin
      ∨ s.cme.engine = .openSense ∧ c = .openSensePassEnd sin
      ∨ s.cme.engine = .closeSense ∧ c = .closeSensePassEnd sin
      ∨ s.cme.engine = .checkPass ∧ c = .checkPassEnd sin) :
    ∃ contacts f, exec c s = .next (event f s) ∧ f s = chainFault { s with cme.sense := contacts } := by
  rcases hpass with ⟨hengine, rfl⟩ | ⟨hengine, rfl⟩ | ⟨hengine, rfl⟩ | ⟨hengine, rfl⟩ | ⟨hengine, rfl⟩
  · exact ⟨s.cme.sense, drivePassEnd sin, rfl, drivePassEnd_of_bad hmarker (Or.inl hengine)⟩
  · exact ⟨s.cme.sense, drivePassEnd sin, rfl, drivePassEnd_of_bad hmarker (Or.inr hengine)⟩
  · exact ⟨_, openSensePassEnd sin, rfl, (if_pos (beq_iff_eq.2 hengine)).trans (senseEnd_of_bad hmarker _ s)⟩
  · exact ⟨_, closeSensePassEnd sin, rfl, (if_pos (beq_iff_eq.2 hengine)).trans (senseEnd_of_bad hmarker _ s)⟩
  · exact ⟨_, checkPassEnd sin, rfl, (if_pos (beq_iff_eq.2 hengine)).trans (senseEnd_of_bad hmarker _ s)⟩

theorem event_chainFault {f : State → State} {s : State} (hreset : s.stc.resetHeld = false) (horders : s.orp.orders = [])
    {contacts : Image} (h : f s = chainFault { s with cme.sense := contacts }) :
    ChainFaulted { s with cme.sense := contacts } (event f s) := by
  rw [event, hreset, if_neg Bool.false_ne_true, h]
  exact (chainFaulted_chainFault { s with cme.sense := contacts }).afterEvent horders

/-- Settles O43: each pass end with a bad marker is a chain fault, and nothing that follows in the event touches what it
leaves. -/
theorem markerFailureIsChainFault : Obligations.MarkerFailureIsChainFault := by
  unfold Obligations.MarkerFailureIsChainFault
  intro c sin s hreset horders hmarker hpass
  obtain ⟨contacts, f, hexec, hf⟩ := exec_passEnd_of_bad hmarker hpass
  have hfaulted := event_chainFault hreset horders hf
  have h := hfaulted.cleared
  have hdone : s.driving = true → ∀ j ∈ (event f s).jbu.jobs, j.isDone = true := fun hdriving =>
    (hfaulted.done (faulted_of_driving (s := s) hdriving)).done
  exact ⟨_, hexec, h.engine, h.settle, h.xp, h.drive, h.coils, h.dout, h.station.trans (faulted_eq _), h.posted, hdone,
    h.ttu, h.mbu⟩

end Sys2Proof.Machine

/-! PROOFS. The resets (10 R162, R163): what a power-on reset, the RESET pin and a RESTART leave in every block, and that
no other command acts while RESET is held low. -/

namespace Sys2Proof.Machine

/-! ## The power-on values of the tables -/

theorem reset_member (a : Addr) : State.reset.mbu.members.get a = Member.unseen := Table.get_fill _ _

theorem reset_route (tag : Tag) : State.reset.route tag = Route.idle := Table.get_fill _ _

theorem reset_xp (x : Xp) : State.reset.xp x = Crosspoint.reset := Table.get_fill _ _

/-- Settles O3: the three tables hold one value in every cell, and every other block is written out in the reset state. -/
theorem resetValues : Obligations.ResetValues := by
  unfold Obligations.ResetValues
  have hsettle : State.reset.cme.settle = some 1024 := rfl
  exact ⟨rfl, rfl, rfl, rfl, rfl, reset_member, rfl, rfl, rfl, rfl, rfl, rfl, rfl, reset_route, rfl, rfl, rfl, reset_xp,
    rfl, rfl, hsettle, rfl, rfl, rfl, rfl, rfl, rfl, rfl⟩

/-! ## The power-on reset and the RESET pin (R162) -/

/-- After a power-on reset the driver clear keeps the Commit Engine busy, and no route owes an answer. -/
theorem calm_powerOn (straps : Fin 32) (quiet : BitVec 4) (s : State) : (powerOn straps quiet s).calm = true := by
  have hroute : ∀ tag, (powerOn straps quiet s).route tag = Route.idle := reset_route
  refine (State.calm_spec _).2 ⟨rfl, ⟨rfl, rfl⟩, Or.inr fun tag => ?_, Or.inl rfl, ⟨rfl, rfl⟩, fun tag => Or.inl ?_,
    Or.inr rfl⟩
  · rw [hroute]
    rfl
  · rw [hroute]
    rfl

theorem exec_powerOnReset (straps : Fin 32) (quiet : BitVec 4) (s : State) :
    exec (.powerOnReset straps quiet) s = .next (updatePins (powerOn straps quiet s)) :=
  congrArg Host.Outcome.next (afterEvent_calm (calm_powerOn straps quiet s))

/-- Settles O11: the reset leaves nothing for the end of the event, so each block is as the reset state has it, but for the
straps, the quiet levels and SEL. -/
theorem powerOnResetSets : Obligations.PowerOnResetSets := by
  unfold Obligations.PowerOnResetSets
  intro straps quiet s
  exact ⟨_, exec_powerOnReset straps quiet s, rfl, rfl, rfl, rfl, rfl, rfl, rfl, rfl, rfl, rfl, reset_member, rfl, rfl, rfl,
    rfl, rfl, rfl, rfl, reset_route, rfl, rfl, rfl, rfl, rfl, reset_xp, rfl, rfl, rfl, rfl, rfl, rfl, rfl, rfl, rfl, rfl,
    rfl, rfl, rfl, rfl, rfl, rfl, rfl⟩

/-- Settles O12: each block is as the reset state has it, but for the straps and the quiet levels; the held reset puts READY
low and SRQ deasserted. -/
theorem resetPinHolds : Obligations.ResetPinHolds := by
  unfold Obligations.ResetPinHolds
  intro s
  have hexec : exec .resetPinAsserted s = .next (updatePins (holdReset s)) := rfl
  exact ⟨_, hexec, rfl, rfl, rfl, rfl, rfl, rfl, rfl, rfl, rfl, rfl, reset_member, rfl, rfl, rfl, rfl, rfl, rfl, rfl,
    reset_route, rfl, rfl, rfl, rfl, rfl, reset_xp, rfl, rfl, rfl, rfl, rfl, rfl, rfl, rfl, rfl, rfl, rfl, rfl, rfl, rfl⟩

/-! ## Commands while RESET is held low (R162, log 31) -/

theorem event_of_held {s : State} (h : s.stc.resetHeld = true) (f : State → State) : event f s = s := if_pos h

/-- Every command but the two resets and the two levels of SEL is an event, which a held reset shuts out. -/
theorem exec_eq_event {c : Instr} (h : actsInReset c = false) (s : State) : ∃ f, exec c s = .next (event f s) := by
  cases c with
  | powerOnReset | resetPinAsserted | selectPeriodStart | selectPeriodEnd => cases h
  | _ => exact ⟨_, rfl⟩

/-- Settles O13: the command is an event, and an event has no effect while the reset is held. -/
theorem heldResetIgnoresCommands : Obligations.HeldResetIgnoresCommands := by
  unfold Obligations.HeldResetIgnoresCommands
  intro c s hheld hacts
  obtain ⟨f, hexec⟩ := exec_eq_event hacts s
  rw [hexec, event_of_held hheld]

/-! ## RESTART (R163) -/

theorem restart_xp (straps : Fin 32) (s : State) (x : Xp) :
    (restart straps s).xp x = { Crosspoint.reset with wear := (s.xp x).wear } :=
  driverClear_xp s s.cfg.releaseExp x

/-- A RESTART received whole acts at once, and leaves nothing for the end of the event. -/
theorem exec_restart (straps : Fin 32) {s : State} (h : s.stc.resetHeld = false) :
    exec (.restart straps) s = .next (updatePins (restart straps s)) :=
  congrArg Host.Outcome.next (event_eq h (t := restart straps s) rfl (calm_restart straps s))

/-- Settles O14: the restarted station has the records of a driver clear, the configuration and the quiet levels as they
were, and every other block as the reset state has it. -/
theorem restartKeepsSetUp : Obligations.RestartKeepsSetUp := by
  unfold Obligations.RestartKeepsSetUp
  intro straps s hheld
  exact ⟨_, exec_restart straps hheld, rfl, rfl, rfl, rfl, restart_xp straps s, rfl, rfl, rfl, reset_route, rfl, rfl, rfl,
    rfl, rfl, rfl, rfl, reset_member, rfl, rfl⟩

end Sys2Proof.Machine

/-! PROOFS. The orders that set a station up (10 R164, R165, 01 R17): CONFIGURE, WEAR-LOAD and JOIN come down to one answer
and, when they are accepted, to fields on which rest does not depend. -/

namespace Sys2Proof.Machine

/-! ## An order answered by one report (R176) -/

/-- An order received whole by a station at rest, whose effect is a change that leaves it at rest and one report. -/
theorem event_receiveOrder_change {s t : State} {code : Byte} {p : List Byte} {r : Report} (straps : Fin 32)
    (h : s.calmOrders = true) (hp : p.length ≤ Config.maxPayload) (hc : code ≠ restartCode)
    (ht : takeOrder ⟨code, p⟩ s = placeReport r t) (hrest : t.calmOrders = true) :
    event (receiveOrder code p straps) s = updatePins (placeReport r t) :=
  event_receiveOrder straps h hp hc ht (calm_placeReport hrest r)

/-- The station state, the listening count, the trunk table unit and the configuration record have no part in rest. -/
theorem calmOrders_of_setUp {s t : State} (h : s.calmOrders = true)
    (ht : t = { s with stc := t.stc, ttu := t.ttu, orp.config := t.orp.config })
    (hreset : t.stc.resetHeld = s.stc.resetHeld) : t.calmOrders = true := by
  obtain ⟨hcalm, horders, hplace⟩ := (calmOrders_iff s).1 h
  have hsame : t.calm = s.calm := State.calm_congr hreset (by rw [ht]) (by rw [ht]) (by rw [ht]) (by rw [ht]) (by rw [ht])
    (by rw [ht]) (by rw [ht])
  refine (calmOrders_iff t).2 ⟨hsame.trans hcalm, ?_, ?_⟩
  · rw [ht]
    exact horders
  · rw [placeFree_congr (s := s) (by rw [ht]) (by rw [ht]), hplace]

theorem updatePins_placeReport_xp (r : Report) (s : State) (x : Xp) : (updatePins (placeReport r s)).xp x = s.xp x := rfl

/-! ## CONFIGURE (R164) -/

theorem parseConfigure_length {p : List Byte} {c : ConfigRecord} (h : parseConfigure p = some c) : p.length = 11 := by
  unfold parseConfigure at h
  split at h
  · rfl
  · cases h

theorem orderConfigure_of_offline {p : List Byte} {c : ConfigRecord} {s : State} (hparse : parseConfigure p = some c)
    (hoff : s.stc.station = .offline) :
    orderConfigure p s = placeReport (.answer 0x01 false .none none) { s with orp.config := some c } := by
  simp only [orderConfigure, hparse, hoff]
  rfl

theorem orderConfigure_of_not_offline {p : List Byte} {c : ConfigRecord} {s : State} (hparse : parseConfigure p = some c)
    (hon : s.stc.station ≠ .offline) :
    orderConfigure p s = placeReport (.answer 0x01 true .notOffline none) s := by
  simp only [orderConfigure, hparse]
  exact if_pos (bne_iff_ne.2 hon)

/-! ## WEAR-LOAD (R17) -/

theorem parseWearLoad_length {p : List Byte} {x : Line × List Nat} (h : parseWearLoad p = some x) : p.length = 49 := by
  unfold parseWearLoad at h
  split at h
  · split at h
    · rename_i hrest
      rw [List.length_cons, beq_iff_eq.1 hrest]
    · cases h
  · cases h

theorem orderWearLoad_of_offline {p : List Byte} {l : Line} {counts : List Nat} {s : State}
    (hparse : parseWearLoad p = some (l, counts)) (hoff : s.stc.station = .offline) :
    orderWearLoad p s = placeReport (.answer 0x02 false .none none) (loadWear l counts s) := by
  simp only [orderWearLoad, hparse, hoff]
  rfl

theorem orderWearLoad_of_not_offline {p : List Byte} {x : Line × List Nat} {s : State} (hparse : parseWearLoad p = some x)
    (hon : s.stc.station ≠ .offline) :
    orderWearLoad p s = placeReport (.answer 0x02 true .notOffline none) s := by
  simp only [orderWearLoad, hparse]
  exact if_pos (bne_iff_ne.2 hon)

/-- Some cell satisfies a test. -/
theorem cells_any_iff {n : Nat} {α : Type} (t : Table n α) (p : α → Bool) :
    t.cells.any p = true ↔ ∃ i, p (t.get i) = true := by
  rw [List.any_eq_true]
  constructor
  · rintro ⟨x, hx, hp⟩
    obtain ⟨i, rfl⟩ := Table.exists_get hx
    exact ⟨i, hp⟩
  · rintro ⟨i, hp⟩
    exact ⟨_, t.get_mem i, hp⟩

/-- A test that does not see the wear counts finds the same records after a WEAR-LOAD. -/
theorem any_loadWear {p : Crosspoint → Bool} (hp : ∀ c n, p { c with wear := n } = p c) (l : Line) (counts : List Nat)
    (s : State) : (loadWear l counts s).cme.xps.cells.any p = s.cme.xps.cells.any p := by
  have hcell : ∀ x, p ((loadWear l counts s).cme.xps.get x) = p (s.cme.xps.get x) := fun x => by
    have hx := loadWear_xp s l counts x
    unfold State.xp at hx
    rw [hx]
    split
    · exact hp _ _
    · rfl
  rw [Bool.eq_iff_iff, cells_any_iff, cells_any_iff]
  simp only [hcell]

/-- A WEAR-LOAD leaves the marks and the quiet indices, so it brings no batch formation about. -/
theorem calmOrders_loadWear {s : State} (h : s.calmOrders = true) (l : Line) (counts : List Nat) :
    (loadWear l counts s).calmOrders = true := by
  obtain ⟨hcalm, horders, hplace⟩ := (calmOrders_iff s).1 h
  obtain ⟨-, hdue, -, -, -, -, hsweep⟩ := s.calm_spec.1 hcalm
  have heligible : (loadWear l counts s).eligible = s.eligible := by
    funext c
    rw [State.eligible, State.eligible, loadWear_jbu]
  have hform : (loadWear l counts s).formationDue = s.formationDue := by
    simp only [State.formationDue, heligible, loadWear_cme_engine, loadWear_cme_check, loadWear_jbu,
      any_loadWear (p := s.eligible) (fun _ _ => rfl)]
  have hmark : (loadWear l counts s).anyMark = s.anyMark := any_loadWear (fun _ _ => rfl) l counts s
  have hfree : (loadWear l counts s).placeFree = s.placeFree :=
    placeFree_congr (congrArg Orp.reports (loadWear_orp s l counts)) (loadWear_cme_check s l counts)
  have hqueue : (loadWear l counts s).orp.orders = s.orp.orders := congrArg Orp.orders (loadWear_orp s l counts)
  have hcheck : (loadWear l counts s).checkDue = s.checkDue := by
    rw [State.checkDue, State.checkDue, loadWear_cme_engine, loadWear_cme_check]
  have hrest : (loadWear l counts s).calm = true := by
    refine State.calm_of_work hcalm (loadWear_stc s l counts) (loadWear_rte s l counts) hqueue hfree
      ⟨hcheck.trans hdue.1, hform.trans hdue.2⟩ ?_
    rw [hmark, loadWear_jbu]
    exact hsweep
  exact (calmOrders_iff _).2 ⟨hrest, hqueue.trans horders, hfree.trans hplace⟩

/-- Settles O51: an accepted order is its change and its answer, a refused one its answer. -/
theorem setUpOrders : Obligations.SetUpOrders := by
  unfold Obligations.SetUpOrders
  intro s h
  have hlen : ∀ {p : List Byte} {n : Nat}, p.length = n → n ≤ 60 → p.length ≤ Config.maxPayload := fun e hn => e ▸ hn
  refine ⟨fun p c hparse hoff => ?_, fun p l counts hparse hoff => ?_, fun p c hparse hon => ?_, fun p x hparse hon => ?_⟩
  · exact congrArg Host.Outcome.next (event_receiveOrder_change (code := 0x01) s.stc.strap h
      (hlen (parseConfigure_length hparse) (by decide)) (by decide) (orderConfigure_of_offline hparse hoff)
      (calmOrders_of_setUp h rfl rfl))
  · exact ⟨_, congrArg Host.Outcome.next (event_receiveOrder_change (code := 0x02) s.stc.strap h
      (hlen (parseWearLoad_length hparse) (by decide)) (by decide) (orderWearLoad_of_offline hparse hoff)
      (calmOrders_loadWear h l counts)), rfl,
      fun x => (updatePins_placeReport_xp _ _ x).trans ((loadWear_xp s l counts x).trans (if_congr beq_iff_eq rfl rfl))⟩
  · exact congrArg Host.Outcome.next (event_receiveOrder_report (code := 0x01) s.stc.strap h
      (hlen (parseConfigure_length hparse) (by decide)) (by decide) (orderConfigure_of_not_offline hparse hon))
  · exact congrArg Host.Outcome.next (event_receiveOrder_report (code := 0x02) s.stc.strap h
      (hlen (parseWearLoad_length hparse) (by decide)) (by decide) (orderWearLoad_of_not_offline hparse hon))

/-! ## JOIN (R165) -/

theorem hasSlot_iff (s : State) : s.hasSlot = true ↔ s.stc.strap.val < 24 := decide_eq_true_iff

theorem orderJoin_of_accepted {s : State} (hoff : s.stc.station = .offline) (hconfig : s.orp.config.isSome = true)
    (hstrap : s.stc.strap.val < 24) :
    orderJoin [] s = placeReport (.answer 0x04 false .none none) (startListening s) := by
  have hslot : s.hasSlot = true := (hasSlot_iff s).2 hstrap
  simp [orderJoin, hoff, Option.isSome_iff_ne_none.1 hconfig, hslot, accept, answer]

/-- The first check of R165 that fails gives the reason. -/
theorem orderJoin_of_refused {s : State} {reason : Reason} (h : s.stc.station ≠ .offline ∧ reason = .notOffline
      ∨ s.stc.station = .offline ∧ s.orp.config = none ∧ reason = .notConfigured
      ∨ s.stc.station = .offline ∧ s.orp.config.isSome = true ∧ 24 ≤ s.stc.strap.val ∧ reason = .badAddress) :
    orderJoin [] s = placeReport (.answer 0x04 true reason none) s := by
  rcases h with ⟨hon, rfl⟩ | ⟨hoff, hconfig, rfl⟩ | ⟨hoff, hconfig, hstrap, rfl⟩
  · simp [orderJoin, hon, refuse, answer]
  · simp [orderJoin, hoff, hconfig, refuse, answer]
  · have hslot : s.hasSlot = false := Bool.eq_false_iff.2 (mt (hasSlot_iff s).1 (Nat.not_lt.2 hstrap))
    simp [orderJoin, hoff, Option.isSome_iff_ne_none.1 hconfig, hslot, refuse, answer]

/-- Settles O53: the accepted order starts the listening, on which rest does not depend; a refused one is its answer. -/
theorem joinChecks : Obligations.JoinChecks := by
  unfold Obligations.JoinChecks
  intro s h
  refine ⟨fun hoff hconfig hstrap => ?_, fun reason hfails => ?_⟩
  · exact congrArg Host.Outcome.next (event_receiveOrder_change (code := 0x04) (p := []) s.stc.strap h
      (Nat.zero_le _) (by decide) (orderJoin_of_accepted hoff hconfig hstrap) (calmOrders_of_setUp h rfl rfl))
  · exact congrArg Host.Outcome.next (event_receiveOrder_report (code := 0x04) (p := []) s.stc.strap h
      (Nat.zero_le _) (by decide) (orderJoin_of_refused hfails))

end Sys2Proof.Machine

/-! PROOFS. The end of listening and the entry to CLASH (10 R166, R167, R170): the table that the mark leaves when it ends
the listening, and what a clash makes of the MADE routes and of the waiting jobs. -/

namespace Sys2Proof.Machine

/-! ## The mark that ends the listening (R166, R167) -/

theorem nextListenCount_of_error (count : Option Nat) : nextListenCount true count = 0 := by
  cases count <;> rfl

/-- The next mark ends no listening: in another state, at an earlier count, and after a link error in the running cycle. -/
theorem listeningEnds_eq_false {s : State} (h : s.stc.station ≠ .listening ∨ s.stc.listenCount = none
    ∨ s.stc.listenCount = some 0 ∨ s.stc.cycleError = true) : s.listeningEnds = false := by
  rcases h with h | h | h | h
  · simp [State.listeningEnds, h]
  · simp [State.listeningEnds, h, nextListenCount]
  · cases he : s.stc.cycleError <;> simp [State.listeningEnds, h, he, nextListenCount]
  · simp [State.listeningEnds, h, nextListenCount_of_error]

/-- The record closed at the mark, in LISTENING. -/
def closedListening (s : State) : State := { s with ttu.listening := s.ttu.candidate <|> s.ttu.listening }

/-- What the mark that ends the listening does last: a new recovery record is open, and the station is JOINING. -/
def startJoining (s : State) : State :=
  { openRecord s with stc.station := .joining, stc.listenCount := none, stc.cycleError := false }

/-- A station in LISTENING whose next mark brings the listening count to 2, with no table and so not stale. -/
structure EndsListening (s : State) : Prop where
  listening : s.stc.station = .listening
  count : s.stc.listenCount = some 1
  good : s.stc.cycleError = false
  invalid : s.ttu.valid = false
  fresh : s.ttu.stale = false

namespace EndsListening

variable {s : State}

theorem online (h : EndsListening s) : s.stc.station ≠ .offline := by
  rw [h.listening]
  exact StationState.noConfusion

theorem listeningEnds (h : EndsListening s) : s.listeningEnds = true := by
  simp [State.listeningEnds, h.listening, h.count, h.good, nextListenCount]

/-- The work of the mark: the record is closed, the table is made valid and drained, a new record is opened, and the
station is JOINING. -/
theorem mark (h : EndsListening s) : takeEndOfListening s
    = startJoining (drainRule (endListeningTable (closedListening s))) := by
  have hnote : noteListening s = closedListening s := if_pos (beq_iff_eq.2 h.listening)
  have hrecovers : (closedListening s).recovers = none := recovers_of_not_stale h.fresh
  have hcount : nextListenCount (false || (closedListening s).stc.cycleError) (closedListening s).stc.listenCount = 2 := by
    simp [closedListening, h.count, h.good, nextListenCount]
  have hstation : ((closedListening s).stc.station == .listening) = true := beq_iff_eq.2 h.listening
  rw [takeEndOfListening, if_pos h.listeningEnds]
  unfold markTtu
  simp only [hnote, hrecovers, hcount, hstation]
  rfl

end EndsListening

/-! ## No good header heard (R167) -/

/-- The table with every trunk FREE, valid. -/
def freeTable (s : State) : State := { s with ttu.table := Table.fill 16 .free, ttu.valid := true, ttu.pending := false }

theorem endListeningTable_of_none {s : State} (hvalid : s.ttu.valid = false) (hnone : s.ttu.listening = none) :
    endListeningTable s = freeTable s := by
  unfold endListeningTable
  rw [hvalid, hnone]
  exact if_neg Bool.false_ne_true

theorem freeTable_entry (s : State) (k : Trunk) : (freeTable s).entry k = .free := Table.get_fill _ _

/-- The drain rule leaves a FREE trunk as it is. -/
theorem drainRule_entry_of_free {s : State} {k : Trunk} (hvalid : s.ttu.valid = true) (hfree : s.entry k = .free) :
    (drainRule s).entry k = .free := by
  rw [drainRule_entry hvalid, hfree, ite_self]

theorem calm_freed {s : State} (h : s.calm = true) : (startJoining (drainRule (freeTable s))).calm = true := by
  rw [← h]
  exact State.calm_congr rfl rfl rfl rfl rfl rfl rfl rfl

/-- With no good header heard the mark changes Station Control and the trunk table unit only. -/
theorem EndsListening.of_none {s : State} (h : EndsListening s) (hcandidate : s.ttu.candidate = none)
    (hlistening : s.ttu.listening = none) :
    takeEndOfListening s = startJoining (drainRule (freeTable (closedListening s))) := by
  have hnone : (closedListening s).ttu.listening = none := by
    simp [closedListening, hcandidate, hlistening]
  rw [h.mark, endListeningTable_of_none (s := closedListening s) h.invalid hnone]

/-! ## Only STALE headers heard (R70, R72, R167) -/

/-- The drain rule on one entry. -/
theorem drainRule_entry_eq {s : State} (hvalid : s.ttu.valid = true) (k : Trunk) :
    (drainRule s).entry k = drainedEntry s.mbu.members k (s.entry k) := by
  have hstored : s.anyStored k = false
      ↔ ∀ a, (s.mbu.members.get a).state = .unseen ∨ (s.mbu.members.get a).contacts.getLsbD k.val = false := by
    rw [State.anyStored, Bool.eq_false_iff, ne_eq, cells_any_iff, not_exists]
    refine forall_congr' fun a => ?_
    rw [Member.hasTrunk_stored]
    cases (s.mbu.members.get a).state <;> simp
  rw [drainRule_entry hvalid, State.drains]
  cases s.entry k with
  | draining o =>
    simp only [drainedEntry, Bool.and_eq_true, Bool.not_eq_true', hstored, bne_iff_ne, and_comm]
  | _ => rfl

theorem endListeningTable_of_candidate {s : State} {c : Candidate} (hvalid : s.ttu.valid = false)
    (hsome : s.ttu.listening = some c) : endListeningTable s = adopt c.snapshot s := by
  unfold endListeningTable
  rw [hvalid, hsome]
  exact if_neg Bool.false_ne_true

/-- With a candidate the mark adopts its snapshot and drains the table. -/
theorem EndsListening.of_candidate {s : State} {c : Candidate} (h : EndsListening s)
    (hc : s.ttu.candidate = some c ∨ s.ttu.candidate = none ∧ s.ttu.listening = some c) : takeEndOfListening s
      = startJoining (drainRule (adopt c.snapshot (closedListening s))) := by
  have hsome : (closedListening s).ttu.listening = some c := by
    rcases hc with hc | ⟨hnone, hc⟩
    · simp [closedListening, hc]
    · simp [closedListening, hnone, hc]
  rw [h.mark, endListeningTable_of_candidate (s := closedListening s) h.invalid hsome]

/-- The trunk table unit and the membership table as the mark leaves them with a candidate's snapshot adopted. -/
structure Adopted (snapshot : TrunkTable) (s t : State) : Prop where
  station : t.stc.station = .joining
  valid : t.ttu.valid = true
  pending : t.ttu.pending = false
  candidate : t.ttu.candidate = none
  mbu : t.mbu = s.mbu
  mismatch : t.ttu.mismatch = false
  stale : t.ttu.stale = false
  entry : ∀ k, t.entry k = drainedEntry s.mbu.members k (adoptedEntry snapshot s.mbu.members k)

/-- The drain rule and the new record after work that leaves the table and the membership table as the snapshot and the
pass of R52 made them. -/
theorem adopted_startJoining {snapshot : TrunkTable} {s t : State} (httu : t.ttu = (adoptTable snapshot s).ttu)
    (hmbu : t.mbu = s.mbu) : Adopted snapshot s (startJoining (drainRule t)) := by
  have hdrain := sameAgreement_drainRule t
  have hvalid : t.ttu.valid = true := congrArg Ttu.valid httu
  have hentry : t.entry = (adoptTable snapshot s).entry := funext fun k => congrArg (fun w : Ttu => w.table.get k) httu
  have hmembers : (drainRule t).mbu = t.mbu := by rw [hdrain.rest]
  refine ⟨rfl, hdrain.valid.trans hvalid, hdrain.pending.trans (congrArg Ttu.pending httu), rfl, hmembers.trans hmbu,
    hdrain.mismatch.trans (congrArg Ttu.mismatch httu), hdrain.stale.trans (congrArg Ttu.stale httu), fun k => ?_⟩
  have hdrained := drainRule_entry_eq hvalid k
  rw [hmbu, hentry, adoptTable_entry] at hdrained
  exact hdrained

/-- The end of the event leaves both tables and the station state. -/
theorem Adopted.afterEvent {snapshot : TrunkTable} {s t : State} (h : Adopted snapshot s t) :
    Adopted snapshot s (afterEvent t) := by
  have honline : t.stc.station ≠ .offline := by
    rw [h.station]
    exact StationState.noConfusion
  have hsteady := steady_afterEvent honline
  have httu := (inner_afterEvent t).ttu honline
  refine ⟨(congrArg Stc.station hsteady.stc).trans h.station, ?_, ?_, ?_, hsteady.mbu.trans h.mbu, ?_, ?_,
    fun k => (congrArg (fun w : Ttu => w.table.get k) httu).trans (h.entry k)⟩
  all_goals rw [httu]
  · exact h.valid
  · exact h.pending
  · exact h.candidate
  · exact h.mismatch
  · exact h.stale

/-- Settles O15: without a candidate the mark changes Station Control and the trunk table unit, on which rest does not
depend; with one it is an adoption, whose work on routes and jobs leaves both tables. -/
theorem endOfListeningFreesTable : Obligations.EndOfListeningFreesTable := by
  unfold Obligations.EndOfListeningFreesTable
  intro s hcalm
  have hreset := resetHeld_of_calm hcalm
  refine ⟨fun hlistening hcount hgood hinvalid hfresh => ?_, fun hnot => ?_⟩
  · have h : EndsListening s := ⟨hlistening, hcount, hgood, hinvalid, hfresh⟩
    refine ⟨fun hcandidate hnone => ?_, fun c hc => ?_⟩
    · have hexec : exec .endOfListening s = .next (updatePins (startJoining (drainRule (freeTable (closedListening s))))) :=
        congrArg Host.Outcome.next (event_eq hreset (h.of_none hcandidate hnone)
          (calm_freed (State.calm_of_ttu hcalm rfl)))
      exact ⟨_, hexec, rfl, rfl, rfl, fun k => drainRule_entry_of_free rfl (freeTable_entry _ k), rfl, rfl, rfl, rfl⟩
    · have hmark := adopted_startJoining (adopt_ttu c.snapshot (s := closedListening s) h.online)
        (linkWork_adopt c.snapshot _).mbu
      have ht := hmark.afterEvent
      refine ⟨afterEvent (startJoining (drainRule (adopt c.snapshot (closedListening s)))), ?_, ht.station, ht.valid,
        ht.pending, ht.candidate, ht.mbu, ht.mismatch, ht.stale, ht.entry⟩
      rw [← h.of_candidate hc]
      exact congrArg Host.Outcome.next (if_neg (ne_true_of_eq_false hreset))
  · have hsame : takeEndOfListening s = s := if_neg (ne_true_of_eq_false (listeningEnds_eq_false hnot))
    exact congrArg Host.Outcome.next (event_eq hreset hsame hcalm)

/-! ## What becomes of the route states (R109, R119, R170) -/

/-- The route of a tag keeps its state, unless it is ENDED. -/
def KeepsState (tag : Tag) (s t : State) : Prop :=
  (s.route tag).state ≠ .ended → (t.route tag).state = (s.route tag).state

namespace KeepsState

variable {tag : Tag} {s t u : State}

theorem refl (tag : Tag) (s : State) : KeepsState tag s s := fun _ => rfl

theorem trans (h : KeepsState tag s t) (g : KeepsState tag t u) : KeepsState tag s u := fun hs =>
  (g (by rwa [h hs])).trans (h hs)

/-- A change outside the route table. -/
theorem of_routes (h : t.rte.routes = s.rte.routes) : KeepsState tag s t := fun _ => by rw [State.route, State.route, h]

end KeepsState

theorem keepsState_modRoute_ne {tag tag' : Tag} (h : tag ≠ tag') (f : Route → Route) (s : State) :
    KeepsState tag s (modRoute tag' f s) := fun _ => by rw [modRoute_route_ne h]

theorem keepsState_placeNextReport {s t : State} (h : placeNextReport s = some t) (tag : Tag) : KeepsState tag s t := by
  obtain ⟨tag', rep, -, -, rfl⟩ := placeNextReport_eq_some h
  intro hs
  rw [placedReport_route]
  split
  · subst tag'
    rw [Route.popOwed_of_not_ended hs]
  · rfl

theorem keepsState_placeReportsN (n : Nat) (tag : Tag) (s : State) : KeepsState tag s (placeReportsN n s) := by
  induction n generalizing s with
  | zero => exact KeepsState.refl tag s
  | succ n ih =>
    unfold placeReportsN
    split
    · exact (keepsState_placeNextReport ‹_› tag).trans (ih _)
    · exact KeepsState.refl tag s

theorem keepsState_placeReports (tag : Tag) (s : State) : KeepsState tag s (placeReports s) :=
  keepsState_placeReportsN _ tag s

section
variable {tag tag' : Tag} (h : tag ≠ tag')
include h

/-- A route whose reports are fixed and placed has no part in another's state. -/
theorem keepsState_fixed_placed (cls : OutcomeClass) (reason : Reason) (f : Route → Route) (s : State) :
    KeepsState tag s (placeReports (fixReports tag' cls reason (modRoute tag' f s))) :=
  ((keepsState_modRoute_ne h f s).trans (keepsState_modRoute_ne h _ _)).trans (keepsState_placeReports tag _)

theorem keepsState_refuseRoute (reason : Reason) (s : State) : KeepsState tag s (refuseRoute tag' reason s) :=
  keepsState_fixed_placed h _ _ _ s

/-- An operation that ends without link messages, as at a clash (R170). -/
theorem keepsState_endBackout (s : State) : KeepsState tag s (endBackout false tag' s) :=
  keepsState_fixed_placed h _ _ _ s

theorem keepsState_endBreak (s : State) : KeepsState tag s (endBreak false tag' s) :=
  keepsState_fixed_placed h _ _ _ s

theorem keepsState_routeClash (s : State) : KeepsState tag s (routeClash tag' s) := by
  have hcut := keepsState_modRoute_ne h Route.cutOff s
  unfold routeClash
  cases (s.route tag').state with
  | planning => exact keepsState_refuseRoute h _ s
  | claiming =>
    have hdrop : KeepsState tag s (dropUnsent (isClaimOf tag' (s.route tag').gen) s) := KeepsState.of_routes rfl
    exact (hdrop.trans (keepsState_modRoute_ne h _ _)).trans (keepsState_refuseRoute h _ _)
  | arming | staged | closing | backingOut => exact hcut.trans (keepsState_endBackout h _)
  | opening | clearing => exact hcut.trans (keepsState_endBreak h _)
  | made => exact keepsState_modRoute_ne h _ s
  | idle | quarantined | damaged | ended => exact KeepsState.refl tag s

end

/-- At entry to CLASH a MADE route becomes DAMAGED, and stays so while the other routes are settled. -/
theorem routeClash_damages {tag : Tag} {s : State} (h : (s.route tag).state = .made) :
    ((routeClash tag s).route tag).state = .damaged := by
  have hclash : routeClash tag s = becomeDamaged tag s := by
    unfold routeClash
    rw [h]
  rw [hclash]
  exact congrArg Route.state (modRoute_route_self tag _ s)

theorem routeClash_of_damaged {tag : Tag} {s : State} (h : (s.route tag).state = .damaged) : routeClash tag s = s := by
  unfold routeClash
  rw [h]

theorem foldl_routeClash_damages {tag : Tag} (l : List Tag) {s : State}
    (h : (s.route tag).state = .damaged ∨ (s.route tag).state = .made ∧ tag ∈ l) :
    ((l.foldl (fun s tag => routeClash tag s) s).route tag).state = .damaged := by
  induction l generalizing s with
  | nil => simpa using h
  | cons a l ih =>
    rw [List.foldl_cons]
    refine ih ?_
    by_cases ha : tag = a
    · subst a
      rcases h with h | ⟨h, -⟩
      · rw [routeClash_of_damaged h]
        exact Or.inl h
      · exact Or.inl (routeClash_damages h)
    · have hkeeps := keepsState_routeClash ha s
      rcases h with h | ⟨h, hmem⟩
      · exact Or.inl ((hkeeps (by simp [h])).trans h)
      · exact Or.inr ⟨(hkeeps (by simp [h])).trans h, (List.mem_cons.1 hmem).resolve_left ha⟩

/-! ## Entry to CLASH (R170) -/

theorem enterClash_cme (s : State) : (enterClash s).cme = s.cme := by
  have hroutes := RteWork.foldl (fun s tag => rteWork_routeClash tag s) allTags (clashEntry s)
  rw [enterClash_eq]
  exact (hroutes.job.trans (jobWork_clearJobs _)).cme

theorem enterClash_jbu (s : State) :
    (enterClash s).jbu = { s.jbu with jobs := s.jbu.jobs.filter fun j => j.state == .inBatch } := by
  have hjbu := (RteWork.foldl (fun s tag => rteWork_routeClash tag s) allTags (clashEntry s)).jbu
  rw [enterClash_eq, clearJobs, hjbu]
  rfl

theorem enterClash_damages {tag : Tag} {s : State} (h : (s.route tag).state = .made) :
    ((enterClash s).route tag).state = .damaged := by
  rw [enterClash_eq, State.route, clearJobs_rte]
  exact foldl_routeClash_damages allTags (s := clashEntry s) (Or.inr ⟨h, List.mem_finRange tag⟩)

/-- The jobs that stay are those of the batch, so the clash brings no batch formation about. -/
theorem commitWork_enterClash {s : State} (h : s.calm = true) : commitWork (enterClash s) = none := by
  obtain ⟨-, ⟨hcheck, hform⟩, -⟩ := s.calm_spec.1 h
  have hcme := enterClash_cme s
  have hjbu := enterClash_jbu s
  refine (commitWork_eq_none _).2
    ⟨?_, formationDue_of_jbu hform hcme (by rw [hjbu]) (fun j hj hready => ?_) fun q hq => ?_⟩
  · rw [State.checkDue, hcme]
    exact hcheck
  · rw [hjbu] at hj
    exact ⟨j, List.mem_of_mem_filter hj, hready⟩
  · rwa [hjbu] at hq

/-! ## The end of an event that only places reports -/

/-- The end of an event when the Commit Engine has no work and no order waits. -/
theorem afterEvent_of_reports {s : State} (hwork : commitWork s = none) (horders : s.orp.orders = []) :
    afterEvent s = updatePins (settleSweepTimer (pruneTimers (placeReports s))) := by
  have hplaced : (placeReports s).orp.orders = [] := (steady_placeReports s).orders horders
  have horder : serveOrder (placeReports s) = none := (serveOrder_eq_none _).2 (Or.inl hplaced)
  have hserve : serveN Config.serviceBound s = placeReports s := by
    unfold Config.serviceBound
    simp only [serveN, serveStep, hwork, horder]
  rw [afterEvent, hserve]

theorem pruneTimers_state (s : State) (tag : Tag) : ((pruneTimers s).route tag).state = (s.route tag).state := by
  rw [pruneTimers_route]
  split <;> rfl

/-- Such an end leaves the Commit Engine, the job list, and the state of every route that is not ENDED. -/
theorem afterEvent_of_reports_keeps {s : State} (hwork : commitWork s = none) (horders : s.orp.orders = []) :
    (afterEvent s).cme = s.cme ∧ (afterEvent s).jbu.jobs = s.jbu.jobs ∧ ∀ tag, KeepsState tag s (afterEvent s) := by
  have hplaced := rteWork_placeReports s
  have hjobs : (placeReports s).jbu.jobs = s.jbu.jobs := by rw [hplaced.jbu]
  rw [afterEvent_of_reports hwork horders, settleSweepTimer_eq]
  refine ⟨hplaced.cme, hjobs, fun tag hs => ?_⟩
  exact (pruneTimers_state _ tag).trans (keepsState_placeReports tag s hs)

/-- Settles O16: the entry to CLASH leaves the part reports to place and nothing else to take, and a report placed moves no
route that is DAMAGED. -/
theorem clashSilencesStation : Obligations.ClashSilencesStation := by
  unfold Obligations.ClashSilencesStation
  intro s hcalm horders hcan
  have hentered := steady_enterClash s
  have honline : (enterClash s).stc.station ≠ .offline := by
    rw [enterClash_station]
    exact StationState.noConfusion
  have hqueue : (enterClash s).orp.orders = [] := hentered.orders horders
  have hend := steady_afterEvent honline
  have httu := (inner_afterEvent (enterClash s)).ttu honline
  obtain ⟨hcme, hjobs, hkeeps⟩ := afterEvent_of_reports_keeps (commitWork_enterClash hcalm) hqueue
  have hexec : exec .clash s = .next (afterEvent (enterClash s)) := by
    have hclash : takeClash s = enterClash s := if_pos hcan
    rw [← hclash]
    exact congrArg Host.Outcome.next (if_neg (ne_true_of_eq_false (resetHeld_of_calm hcalm)))
  refine ⟨_, hexec, ?_, hend.clash hqueue (enterClash_posts horders), ?_, ?_, fun tag hmade => ?_, ?_, ?_, ?_⟩
  · rw [hend.stc, enterClash_station]
  · rw [hend.liu, hentered.liu]
    rfl
  · rw [hjobs, enterClash_jbu]
  · have hdamaged := enterClash_damages hmade
    exact (hkeeps tag (by simp [hdamaged])).trans hdamaged
  · rw [httu, enterClash_ttu]
  · rw [hend.mbu, hentered.mbu]
    rfl
  · rw [hcme, enterClash_cme]

end Sys2Proof.Machine

/-! PROOFS. The pins and the bytes of the order port (11 R172 to R181): READY and SRQ after every step, select periods, what
one byte sends and takes in, and where an order in reception ends. -/

namespace Sys2Proof.Machine

/-! ## READY and SRQ along every step (R175, R181) -/

/-- The level of SEL, which alone is followed while RESET is held low, has no part in the levels of READY and SRQ. -/
theorem pinsAtLevel_selected (b : Bool) (s : State) :
    ({ s with orp.selected := b } : State).pinsAtLevel = s.pinsAtLevel := rfl

/-- A command that SEL makes is an event, or under a held reset the level of SEL alone. -/
theorem pinsAtLevel_select {s t : State} (b : Bool) (h : s.pinsAtLevel = true) :
    (if s.stc.resetHeld then { s with orp.selected := b } else afterEvent t).pinsAtLevel = true := by
  split
  · exact (pinsAtLevel_selected b s).trans h
  · exact pinsAtLevel_afterEvent t

/-- Every command keeps the pins at their levels: an event sets them at its end, and so do the two resets. -/
theorem exec_keeps_pinsAtLevel {c : Instr} {s t : State} (h : exec c s = .next t) (hs : s.pinsAtLevel = true) :
    t.pinsAtLevel = true := by
  cases hacts : actsInReset c with
  | false =>
    obtain ⟨f, hexec⟩ := exec_eq_event hacts s
    have ht : event f s = t := Host.Outcome.next.inj (hexec.symm.trans h)
    exact ht ▸ pinsAtLevel_event hs
  | true =>
    cases c with
    | powerOnReset straps quiet =>
      have ht : afterEvent (powerOn straps quiet s) = t := Host.Outcome.next.inj h
      exact ht ▸ pinsAtLevel_afterEvent _
    | resetPinAsserted =>
      have ht : updatePins (holdReset s) = t := Host.Outcome.next.inj h
      exact ht ▸ pinsAtLevel_updatePins _
    | selectPeriodStart => exact Host.Outcome.next.inj h ▸ pinsAtLevel_select true hs
    | selectPeriodEnd => exact Host.Outcome.next.inj h ▸ pinsAtLevel_select false hs
    | _ => cases hacts

/-- Settles O7: a step idles or runs the front command of the queue, which has no part in the levels. -/
theorem stepKeepsPinsAtLevel : Obligations.StepKeepsPinsAtLevel := by
  unfold Obligations.StepKeepsPinsAtLevel
  intro s t hs h
  obtain rfl | ⟨c, rest, -, hexec⟩ := step_cases h
  · exact hs
  · exact exec_keeps_pinsAtLevel hexec hs

/-! ## Rest after a change of the Order Port -/

/-- A change of the Order Port leaves a station at rest when no ready report and no waiting order has a place. -/
theorem State.calm_of_orp {s t : State} (h : s.calm = true) (ht : t = { s with orp := t.orp })
    (hready : t.placeFree = false ∨ ∀ tag, (s.route tag).headReady = none)
    (horders : t.orp.orders = [] ∨ t.placeFree = false) : t.calm = true := by
  obtain ⟨hreset, hwork, -, -, hexchange, htimers, hsweep⟩ := s.calm_spec.1 h
  generalize t.orp = orp at ht horders
  subst ht
  exact (State.calm_spec _).2 ⟨hreset, hwork, hready, horders, hexchange, htimers, hsweep⟩

/-- One that keeps the two FIFOs always does. -/
theorem State.calm_of_port {s t : State} (h : s.calm = true)
    (ht : t = { s with orp := { t.orp with orders := s.orp.orders, reports := s.orp.reports } }) : t.calm = true := by
  obtain ⟨-, -, hready, horders, -⟩ := s.calm_spec.1 h
  have hplace : t.placeFree = s.placeFree := placeFree_congr (by rw [ht]) (by rw [ht])
  refine State.calm_of_orp h (by rw [ht]) (hplace ▸ hready) ?_
  rw [hplace, ht]
  exact horders

/-! ## The byte that comes out (R177) -/

theorem sendByte_of_empty {s : State} (h : s.orp.reports = []) (startedEmpty : Bool) :
    sendByte startedEmpty s = { s with orp.sdo := some 0 } := by
  unfold sendByte
  rw [h]

/-- The station that has sent the next byte of its head report, with a further one to come. -/
def sentMore (r : Report) (s : State) : State :=
  { s with orp.sdo := r.bytes[s.orp.sent]?, orp.sent := s.orp.sent + 1 }

theorem sendByte_of_more {s : State} {r : Report} {rs : List Report} (hreports : s.orp.reports = r :: rs)
    (hmore : s.orp.sent + 1 < r.bytes.length) : sendByte false s = sentMore r s := by
  unfold sendByte
  rw [hreports]
  exact if_neg (Nat.not_le.2 hmore)

/-- With its last byte the head report leaves the FIFO. -/
theorem sendByte_of_last {s : State} {r : Report} {rs : List Report} (hreports : s.orp.reports = r :: rs)
    (hlast : s.orp.sent + 1 = r.bytes.length) : sendByte false s =
      { s with orp.sdo := r.bytes[s.orp.sent]?, orp.sent := 0, orp.reports := rs } := by
  have hremoved : sendByte false s = removeHead (sentMore r s) := by
    unfold sendByte
    rw [hreports]
    exact if_pos hlast.ge
  rw [hremoved, removeHead, sentMore, hreports]
  rfl

/-! ## The byte that goes in (R172 to R175) -/

theorem receiveByte_filler {s : State} (h : s.orp.rx = .code) (straps : Fin 32) : receiveByte 0 straps s = s := by
  unfold receiveByte
  rw [h]
  rfl

theorem receiveByte_last {s : State} {code : Byte} {bytes : List Byte} {overrun : Bool}
    (h : s.orp.rx = .payload code 1 bytes overrun) (b : Byte) (straps : Fin 32) :
    receiveByte b straps s = completeOrder code (bytes ++ [b]) overrun s := by
  unfold receiveByte
  rw [h]
  rfl

/-- A length byte above 60 is a framing error. -/
theorem receiveByte_too_long {s : State} {code b : Byte} {overrun : Bool} (h : s.orp.rx = .length code overrun)
    (hlong : 60 < b.toNat) (straps : Fin 32) : receiveByte b straps s = framingError overrun s := by
  unfold receiveByte
  rw [h]
  exact if_pos hlong

theorem completeOrder_of_room {s : State} (h : s.fifoFull = false) (code : Byte) (payload : List Byte) :
    completeOrder code payload false s =
      { s with orp.rx := .code, orp.gap := none, orp.orders := s.orp.orders ++ [⟨code, payload⟩] } :=
  if_neg (ne_true_of_eq_false h)

theorem completeOrder_of_overrun (code : Byte) (payload : List Byte) (s : State) :
    completeOrder code payload true s = postOrderOverrun { s with orp.rx := .code, orp.gap := none } := rfl

/-- What comes out is settled before what goes in: it is the byte on SDO afterwards. -/
theorem exchangeByte_of_selected {s sent t : State} {b : Byte} {startedEmpty : Bool} {straps : Fin 32}
    (hsel : s.orp.selected = true) (hsend : sendByte startedEmpty s = sent) (hreceive : receiveByte b straps sent = t)
    (hsdo : t.orp.sdo = sent.orp.sdo) : exchangeByte b startedEmpty straps s = t := by
  have hexchange : exchangeByte b startedEmpty straps s =
      { receiveByte b straps (sendByte startedEmpty s) with orp.sdo := (sendByte startedEmpty s).orp.sdo } := if_pos hsel
  rw [hexchange, hsend, hreceive, ← hsdo]

/-- Filler on SDI: the byte that comes out is all that happens. -/
theorem exchangeByte_filler {s t : State} {startedEmpty : Bool} (hsel : s.orp.selected = true) (straps : Fin 32)
    (hsend : sendByte startedEmpty s = t) (hrx : t.orp.rx = .code) : exchangeByte 0 startedEmpty straps s = t :=
  exchangeByte_of_selected hsel hsend (receiveByte_filler hrx straps) rfl

/-- The byte that completes an order is exchanged as any other. -/
theorem takeLastByte_of_payload {s : State} {code : Byte} {bytes : List Byte} {overrun : Bool}
    (h : s.orp.rx = .payload code 1 bytes overrun) (b : Byte) (startedEmpty : Bool) (straps : Fin 32) :
    takeLastByte b startedEmpty straps s = exchangeByte b startedEmpty straps s := by
  have hcompletes : s.completes b = true := by
    unfold State.completes
    rw [h]
    rfl
  exact if_pos hcompletes

/-! ## Select periods (R172, R174, R177) -/

/-- The Order Port between two select periods, or at the start of one: no order in reception, no byte sent. -/
def atSelect (selected : Bool) (s : State) : State :=
  { s with orp.selected := selected, orp.rx := .code, orp.gap := none, orp.sent := 0, orp.sdo := none }

theorem startSelect_of_idle {s : State} (h : s.orp.selected = false) : startSelect s = atSelect true s :=
  if_neg (ne_true_of_eq_false h)

theorem endSelect_of_selected {s : State} (h : s.orp.selected = true) : endSelect s =
    if s.orp.rx.inOrder then postDiscarded s.orp.rx.overrun (atSelect false s) else atSelect false s := if_pos h

theorem exec_selectPeriodStart {s : State} (h : s.stc.resetHeld = false) :
    exec .selectPeriodStart s = .next (afterEvent (startSelect s)) :=
  congrArg Host.Outcome.next (if_neg (ne_true_of_eq_false h))

theorem exec_selectPeriodEnd {s : State} (h : s.stc.resetHeld = false) :
    exec .selectPeriodEnd s = .next (afterEvent (endSelect s)) :=
  congrArg Host.Outcome.next (if_neg (ne_true_of_eq_false h))

/-- Settles O48: each command is a change of the Order Port that leaves a station at rest; the one that takes a report out
of its FIFO does so with no order and no other report waiting for the place. -/
theorem selectPeriods : Obligations.SelectPeriods := by
  unfold Obligations.SelectPeriods
  intro s hcalm
  have hreset := resetHeld_of_calm hcalm
  refine ⟨fun hsel => ?_, fun hsel hrx => ?_, fun hsel hrx => ?_, fun straps hsel hrx =>
    ⟨fun hempty => ?_, fun r rs hreports hmore => ?_, fun r rs hreports hlast horders hready => ?_⟩⟩
  · rw [exec_selectPeriodStart hreset, startSelect_of_idle hsel, afterEvent_calm (State.calm_of_port hcalm rfl)]
    rfl
  · rw [exec_selectPeriodEnd hreset, endSelect_of_selected hsel, hrx, if_neg Bool.false_ne_true,
      afterEvent_calm (State.calm_of_port hcalm rfl)]
    rfl
  · rw [exec_selectPeriodEnd hreset, endSelect_of_selected hsel, if_pos hrx,
      afterEvent_calm (State.calm_of_port hcalm rfl)]
    rfl
  · exact congrArg Host.Outcome.next (event_eq hreset (exchangeByte_filler hsel straps (sendByte_of_empty hempty true) hrx)
      (State.calm_of_port hcalm rfl))
  · exact congrArg Host.Outcome.next (event_eq hreset
      (exchangeByte_filler hsel straps (sendByte_of_more hreports hmore) hrx) (State.calm_of_port hcalm rfl))
  · exact congrArg Host.Outcome.next (event_eq hreset
      (exchangeByte_filler hsel straps (sendByte_of_last hreports hlast) hrx)
      (State.calm_of_orp hcalm rfl (Or.inr hready) (Or.inl horders)))

/-! ## Orders received and cut short (R173 to R175) -/

theorem cutOrder_of_gap {s : State} (h : s.orp.gap.isSome = true) :
    cutOrder s = postDiscarded s.orp.rx.overrun { s with orp.rx := .code, orp.gap := none } := if_pos h

/-- Settles O49: the order that waits finds no report place free, and every other end of an order changes the alerts and the
reception only. -/
theorem orderReceivedOrCut : Obligations.OrderReceivedOrCut := by
  unfold Obligations.OrderReceivedOrCut
  intro code b bytes straps s hcalm
  have hreset := resetHeld_of_calm hcalm
  refine ⟨fun r rs hsel hplace hfull hreports hmore hrx => ?_, fun r rs hsel hreports hmore hrx => ?_,
    fun r rs overrun hsel hreports hmore hrx hlong => ?_, fun hgap => ?_⟩
  · have hsend := sendByte_of_more hreports hmore
    have hreceive := (receiveByte_last (s := sentMore r s) hrx b straps).trans
      (completeOrder_of_room (s := sentMore r s) hfull code (bytes ++ [b]))
    exact congrArg Host.Outcome.next (event_eq hreset
      ((takeLastByte_of_payload hrx b false straps).trans (exchangeByte_of_selected hsel hsend hreceive rfl))
      (State.calm_of_orp hcalm rfl (Or.inl hplace) (Or.inr hplace)))
  · have hsend := sendByte_of_more hreports hmore
    have hreceive := (receiveByte_last (s := sentMore r s) hrx b straps).trans
      (completeOrder_of_overrun code (bytes ++ [b]) _)
    exact congrArg Host.Outcome.next (event_eq hreset
      ((takeLastByte_of_payload hrx b false straps).trans (exchangeByte_of_selected hsel hsend hreceive rfl))
      (State.calm_of_port hcalm rfl))
  · have hsend := sendByte_of_more hreports hmore
    have hreceive := receiveByte_too_long (s := sentMore r s) hrx hlong straps
    exact congrArg Host.Outcome.next (event_eq hreset (exchangeByte_of_selected hsel hsend hreceive rfl)
      (State.calm_of_port hcalm rfl))
  · exact congrArg Host.Outcome.next (event_eq hreset (cutOrder_of_gap hgap) (State.calm_of_port hcalm rfl))

end Sys2Proof.Machine

/-! PROOFS. Orders refused, and ALERT-CLEAR (11 R176, R180): route orders off the link, layouts that no order has, and what
an ALERT-CLEAR leaves of the alert set. -/

namespace Sys2Proof.Machine

/-! ## Rest -/

/-- The alert set and the count of free values have no part in rest. -/
theorem calmOrders_of_alerts {s t : State} (h : s.calmOrders = true)
    (ht : t = { s with orp.alerts := t.orp.alerts, draws := t.draws }) : t.calmOrders = true := by
  obtain ⟨hcalm, horders, hplace⟩ := (calmOrders_iff s).1 h
  generalize t.orp.alerts = alerts, t.draws = draws at ht
  subst ht
  have hsame : ({ s with orp.alerts := alerts, draws := draws } : State).calm = s.calm :=
    State.calm_congr rfl rfl rfl rfl rfl rfl rfl rfl
  exact (calmOrders_iff _).2 ⟨hsame.trans hcalm, horders, hplace⟩

/-! ## Route orders off the link (R83, R111, R115, R128) -/

theorem offLink_of_station {s : State}
    (h : s.stc.station = .offline ∨ s.stc.station = .listening ∨ s.stc.station = .clash) : s.offLink = true := by
  unfold State.offLink State.driving
  rcases h with h | h | h <;> rw [h] <;> rfl

/-- The station state is the first check after the layout. -/
theorem makeRefusal_of_offLink {s : State} (h : s.offLink = true) (o : MakeOrder) : s.makeRefusal o = some .notOnline :=
  if_pos h

theorem orderRouteMake_of_offLink {p : List Byte} {o : MakeOrder} {s : State} (hparse : parseRouteMake p = some o)
    (hoff : s.offLink = true) : orderRouteMake p s = refuseMake o.tag (namedEndpoints p) .notOnline s := by
  unfold orderRouteMake
  rw [hparse]
  dsimp only
  rw [makeRefusal_of_offLink hoff]

theorem orderRouteBreak_of_offLink {s : State} (hoff : s.offLink = true) (tag : Tag) :
    orderRouteBreak [BitVec.ofNat 8 tag.val] s = refuseRepair .brk tag .notOnline s := by
  unfold orderRouteBreak
  rw [parseTag_ofNat]
  exact if_pos hoff

theorem orderRouteClear_of_offLink {s : State} (hoff : s.offLink = true) (tag : Tag) :
    orderRouteClear [BitVec.ofNat 8 tag.val] s = refuseRepair .clear tag .notOnline s := by
  unfold orderRouteClear
  rw [parseTag_ofNat]
  exact if_pos hoff

theorem orderRouteFire_of_offLink {s : State} (hoff : s.offLink = true) (tag : Tag) :
    orderRouteFire [BitVec.ofNat 8 tag.val] s = refuse 0x13 .notOnline s := by
  unfold orderRouteFire
  rw [parseTag_ofNat]
  exact if_pos hoff

/-- Settles O55: each order passes its layout check, is refused for the station state, and is the one report it places. -/
theorem routeOrdersNeedTheLink : Obligations.RouteOrdersNeedTheLink := by
  unfold Obligations.RouteOrdersNeedTheLink
  intro tag s h hstation
  have hoff := offLink_of_station hstation
  have htag : [BitVec.ofNat 8 tag.val].length ≤ Config.maxPayload := by simp [Config.maxPayload]
  refine ⟨fun p o hp hparse => ?_, ?_, ?_, ?_⟩
  · have hevent := event_receiveOrder_report (code := 0x10) s.stc.strap h hp (by decide)
      (orderRouteMake_of_offLink hparse hoff)
    exact ⟨_, _, congrArg Host.Outcome.next hevent, rfl, rfl, rfl, rfl, rfl, rfl, rfl⟩
  · have hevent := event_receiveOrder_report (code := 0x11) s.stc.strap h htag (by decide)
      (orderRouteBreak_of_offLink hoff tag)
    exact ⟨_, _, congrArg Host.Outcome.next hevent, rfl, rfl, rfl, rfl, rfl, rfl⟩
  · have hevent := event_receiveOrder_report (code := 0x12) s.stc.strap h htag (by decide)
      (orderRouteClear_of_offLink hoff tag)
    exact ⟨_, _, congrArg Host.Outcome.next hevent, rfl, rfl, rfl, rfl, rfl, rfl⟩
  · exact congrArg Host.Outcome.next (event_receiveOrder_report (code := 0x13) s.stc.strap h htag (by decide)
      (orderRouteFire_of_offLink hoff tag))

/-! ## ALERT-CLEAR (R180) -/

theorem parseAlertClear_length {p : List Byte} {c : ClearSets} (h : parseAlertClear p = some c) : p.length = 10 := by
  unfold parseAlertClear at h
  split at h
  · rfl
  · cases h

theorem orderAlertClear_of_sets {p : List Byte} {c : ClearSets} (hparse : parseAlertClear p = some c) (s : State) :
    orderAlertClear p s = placeReport (.answer 0x22 false .none none)
      { s with orp.alerts := s.orp.alerts.clear c.members c.absent c.joined c.damaged } := by
  unfold orderAlertClear
  rw [hparse]
  rfl

/-- The elements that an ALERT-CLEAR leaves in a set member: those there that it does not name. -/
theorem getLsbD_cleared {w n : Nat} (hn : n < w) (present named : BitVec w) :
    (present &&& ~~~named).getLsbD n = (present.getLsbD n && !named.getLsbD n) := by
  rw [BitVec.getLsbD_and, BitVec.getLsbD_not, decide_eq_true hn, Bool.true_and]

/-- Settles O58: the alert set has no part in rest, so the order is its change and its answer. -/
theorem alertClearRemoves : Obligations.AlertClearRemoves := by
  unfold Obligations.AlertClearRemoves
  intro p c s h hparse
  have hp : p.length ≤ Config.maxPayload := (parseAlertClear_length hparse).trans_le (by decide)
  have hevent := event_receiveOrder_change (code := 0x22) s.stc.strap h hp (by decide)
    (orderAlertClear_of_sets hparse s) (calmOrders_of_alerts h rfl)
  exact ⟨_, congrArg Host.Outcome.next hevent, rfl, rfl, rfl, rfl, rfl, rfl, rfl, rfl,
    fun n hn => getLsbD_cleared hn _ _, fun n hn => getLsbD_cleared hn _ _, fun n hn => getLsbD_cleared hn _ _,
    rfl, rfl, rfl, rfl, rfl⟩

/-! ## Bad layouts (R176) -/

/-- The orders that a bad layout has refused with an ANSWER, by code and command. -/
def AnsweredBadLayout (p : List Byte) (code : Byte) (c : Instr) : Prop :=
  code = 0x01 ∧ c = .configure p ∧ parseConfigure p = none
    ∨ code = 0x02 ∧ c = .wearLoad p ∧ parseWearLoad p = none ∨ code = 0x04 ∧ c = .join p ∧ p ≠ []
    ∨ code = 0x13 ∧ c = .routeFire p ∧ parseTag p = none ∨ code = 0x14 ∧ c = .routeQuery p ∧ parseTag p = none
    ∨ code = 0x20 ∧ c = .tableQuery p ∧ p ≠ [] ∨ code = 0x21 ∧ c = .statusQuery p ∧ p ≠ []
    ∨ code = 0x22 ∧ c = .alertClear p ∧ parseAlertClear p = none
    ∨ code = 0x23 ∧ c = .check p ∧ parseLine p = none

theorem orderConfigure_of_bad {p : List Byte} (h : parseConfigure p = none) (s : State) :
    orderConfigure p s = refuse 0x01 .badOrder s := by
  rw [orderConfigure, h]

theorem orderWearLoad_of_bad {p : List Byte} (h : parseWearLoad p = none) (s : State) :
    orderWearLoad p s = refuse 0x02 .badOrder s := by
  rw [orderWearLoad, h]

theorem orderJoin_of_bad {p : List Byte} (h : p ≠ []) (s : State) : orderJoin p s = refuse 0x04 .badOrder s := by
  simp [orderJoin, h]

theorem orderRouteFire_of_bad {p : List Byte} (h : parseTag p = none) (s : State) :
    orderRouteFire p s = refuse 0x13 .badOrder s := by
  rw [orderRouteFire, h]

theorem orderRouteQuery_of_bad {p : List Byte} (h : parseTag p = none) (s : State) :
    orderRouteQuery p s = refuse 0x14 .badOrder s := by
  rw [orderRouteQuery, h]

theorem orderTableQuery_of_bad {p : List Byte} (h : p ≠ []) (s : State) :
    orderTableQuery p s = refuse 0x20 .badOrder s := by
  simp [orderTableQuery, h]

theorem orderStatusQuery_of_bad {p : List Byte} (h : p ≠ []) (s : State) :
    orderStatusQuery p s = refuse 0x21 .badOrder s := by
  simp [orderStatusQuery, h]

theorem orderAlertClear_of_bad {p : List Byte} (h : parseAlertClear p = none) (s : State) :
    orderAlertClear p s = refuse 0x22 .badOrder s := by
  rw [orderAlertClear, h]

theorem orderCheck_of_bad {p : List Byte} (h : parseLine p = none) (s : State) :
    orderCheck p s = refuse checkCode .badOrder s := by
  rw [orderCheck, h]

/-- Such a command is its order received whole, none of them a RESTART, and the layout is the first check of each. -/
theorem AnsweredBadLayout.refused {p : List Byte} {code : Byte} {c : Instr} (h : AnsweredBadLayout p code c) (s : State) :
    code ≠ restartCode ∧ exec c s = .next (event (receiveOrder code p s.stc.strap) s)
      ∧ takeOrder ⟨code, p⟩ s = refuse code .badOrder s := by
  rcases h with ⟨rfl, rfl, hbad⟩ | ⟨rfl, rfl, hbad⟩ | ⟨rfl, rfl, hbad⟩ | ⟨rfl, rfl, hbad⟩ | ⟨rfl, rfl, hbad⟩
    | ⟨rfl, rfl, hbad⟩ | ⟨rfl, rfl, hbad⟩ | ⟨rfl, rfl, hbad⟩ | ⟨rfl, rfl, hbad⟩
  · exact ⟨by decide, rfl, orderConfigure_of_bad hbad s⟩
  · exact ⟨by decide, rfl, orderWearLoad_of_bad hbad s⟩
  · exact ⟨by decide, rfl, orderJoin_of_bad hbad s⟩
  · exact ⟨by decide, rfl, orderRouteFire_of_bad hbad s⟩
  · exact ⟨by decide, rfl, orderRouteQuery_of_bad hbad s⟩
  · exact ⟨by decide, rfl, orderTableQuery_of_bad hbad s⟩
  · exact ⟨by decide, rfl, orderStatusQuery_of_bad hbad s⟩
  · exact ⟨by decide, rfl, orderAlertClear_of_bad hbad s⟩
  · exact ⟨by decide, rfl, orderCheck_of_bad hbad s⟩

/-- The state in which a route order of the kind has been refused BAD-ORDER: a ROUTE-REPORT placed, and the count of free
values moved where no tag was named. -/
def RefusedBadOrder (kind : OrderKind) (s t : State) : Prop :=
  ∃ r draws, t = placeReport (.route r) { s with draws := draws }
    ∧ r.kind = some kind ∧ r.cls = .refused ∧ r.reason = .badOrder

theorem refuseMake_badOrder (tag : Tag) (residual draws : Nat) (s : State) :
    RefusedBadOrder .make s (refuseMake tag residual .badOrder { s with draws := draws }) :=
  ⟨_, draws, rfl, rfl, rfl, rfl⟩

theorem refuseRepair_badOrder (kind : OrderKind) (tag : Tag) (draws : Nat) (s : State) :
    RefusedBadOrder kind s (refuseRepair kind tag .badOrder { s with draws := draws }) :=
  ⟨_, draws, rfl, rfl, rfl, rfl⟩

theorem orderRouteMake_of_bad {p : List Byte} (h : parseRouteMake p = none) (s : State) :
    RefusedBadOrder .make s (orderRouteMake p s) := by
  obtain ⟨draws, hdraws⟩ := makeTag_snd p s
  rw [orderRouteMake, h]
  dsimp only
  rw [hdraws]
  exact refuseMake_badOrder _ _ draws s

theorem orderRouteBreak_of_bad {p : List Byte} (h : parseTag p = none) (s : State) :
    RefusedBadOrder .brk s (orderRouteBreak p s) := by
  obtain ⟨draws, hdraws⟩ := namedTag_snd 0x11 p s
  rw [orderRouteBreak, h]
  dsimp only
  rw [hdraws]
  exact refuseRepair_badOrder _ _ draws s

theorem orderRouteClear_of_bad {p : List Byte} (h : parseTag p = none) (s : State) :
    RefusedBadOrder .clear s (orderRouteClear p s) := by
  obtain ⟨draws, hdraws⟩ := namedTag_snd 0x12 p s
  rw [orderRouteClear, h]
  dsimp only
  rw [hdraws]
  exact refuseRepair_badOrder _ _ draws s

/-- A route order so refused, received whole by a station at rest, is its report and the pins: the count of free values has
no part in rest. -/
theorem event_receiveOrder_badRoute {s : State} {kind : OrderKind} {code : Byte} {p : List Byte} (straps : Fin 32)
    (h : s.calmOrders = true) (hp : p.length ≤ Config.maxPayload) (hc : code ≠ restartCode)
    (ht : RefusedBadOrder kind s (takeOrder ⟨code, p⟩ s)) :
    ∃ r draws, event (receiveOrder code p straps) s
        = updatePins { s with orp.reports := s.orp.reports ++ [.route r], draws := draws }
      ∧ r.kind = some kind ∧ r.cls = .refused ∧ r.reason = .badOrder := by
  obtain ⟨r, draws, htake, hfields⟩ := ht
  exact ⟨r, draws, event_receiveOrder_change straps h hp hc htake (calmOrders_of_alerts h rfl), hfields⟩

/-- Settles O60: the layout is the first check of every order, so the order is its refusal, whatever the station state. -/
theorem badLayoutsRefused : Obligations.BadLayoutsRefused := by
  unfold Obligations.BadLayoutsRefused
  intro p s h hp
  refine ⟨fun code c hbad => ?_, fun kind c hbad => ?_⟩
  · have hbad : AnsweredBadLayout p code c := hbad
    obtain ⟨hrestart, hexec, htake⟩ := hbad.refused s
    rw [hexec, event_receiveOrder_report s.stc.strap h hp hrestart htake]
    rfl
  · have hrefused : ∃ code, code ≠ restartCode ∧ exec c s = .next (event (receiveOrder code p s.stc.strap) s)
        ∧ RefusedBadOrder kind s (takeOrder ⟨code, p⟩ s) := by
      rcases hbad with ⟨rfl, rfl, hbad⟩ | ⟨rfl, rfl, hbad⟩ | ⟨rfl, rfl, hbad⟩
      · exact ⟨0x10, by decide, rfl, orderRouteMake_of_bad hbad s⟩
      · exact ⟨0x11, by decide, rfl, orderRouteBreak_of_bad hbad s⟩
      · exact ⟨0x12, by decide, rfl, orderRouteClear_of_bad hbad s⟩
    obtain ⟨code, hrestart, hexec, htake⟩ := hrefused
    obtain ⟨r, draws, hevent, hfields⟩ := event_receiveOrder_badRoute s.stc.strap h hp hrestart htake
    exact ⟨r, draws, hexec.trans (congrArg Host.Outcome.next hevent), hfields⟩

end Sys2Proof.Machine

/-! PROOFS. The queue of commands (00 1.4, 1.5, log 2): a step idles or takes the front command, and no command, the two
resets included, touches the queue. -/

namespace Sys2Proof.Machine

/-! ## The two cases of a step -/

theorem step_of_empty {s : State} (h : s.pending = []) : step s = .next s := by
  rw [step, h]

theorem step_of_front {s : State} {c : Instr} {rest : List Instr} (h : s.pending = c :: rest) :
    step s = exec c { s with pending := rest } := by
  rw [step, h]

/-- Settles O1: it is the case of a step with a command waiting. -/
theorem stepRunsFrontCommand : Obligations.StepRunsFrontCommand := by
  unfold Obligations.StepRunsFrontCommand
  intro c s rest h
  exact step_of_front h

/-! ## The queue under a command -/

/-- Every command leaves the queue: the two resets carry it over, and any other command is `Taken`. -/
theorem exec_keeps_pending {c : Instr} {s t : State} (h : exec c s = .next t) : t.pending = s.pending := by
  cases hc : clearsWear c with
  | false => exact (exec_taken hc h).pending
  | true =>
    cases c with
    | powerOnReset straps quiet =>
      have ht : afterEvent (powerOn straps quiet s) = t := Host.Outcome.next.inj h
      have carried : (powerOn straps quiet s).pending = s.pending := rfl
      exact ht ▸ (inner_afterEvent _).pending.trans carried
    | resetPinAsserted =>
      have ht : updatePins (holdReset s) = t := Host.Outcome.next.inj h
      have carried : (holdReset s).pending = s.pending := rfl
      exact ht ▸ (updatePins_pending _).trans carried
    | _ => cases hc

/-- Settles O2: an empty queue is the other case of a step; every command has a next state, and keeps the queue. -/
theorem commandsAnswerAndQueueStands : Obligations.CommandsAnswerAndQueueStands := by
  unfold Obligations.CommandsAnswerAndQueueStands
  intro s
  refine ⟨step_of_empty, fun c => ?_⟩
  obtain ⟨t, hexec⟩ := exec_next c s
  exact ⟨t, hexec, exec_keeps_pending hexec⟩

end Sys2Proof.Machine
